-- ==== Sys2Proof/Word.lean ====
section
/-! DEFINITION. The word types of the gstd CORE decode engine: host registers and input words are 32 bits
(10_state.md R44, 20_memory.md R103), buffer cells are bytes (R100), cursors and the result register are 64 bits (R47, R57). -/

namespace Sys2Proof

/-- A 32-bit word: a host register (R44), a command word (R141), an input word (R103). -/
abbrev Word := BitVec 32

/-- A byte of the input or output buffer (R100). -/
abbrev Byte := BitVec 8

/-- A 64-bit quantity: `READPOS`, `WRITEPOS`, `RES`, a lane's bit buffer (R47, R56, R57, R59). -/
abbrev Dword := BitVec 64

/-- A logical lane of the format: lane ids 0 to L-1 with L = 32 (R6, R9). -/
abbrev LaneId := Fin 32

end Sys2Proof
end

