-- ==== Sys2Proof/Syntax.lean ====
section
/-! DEFINITION. The commands of the engine, one constructor per row of spec/opcode_table.json (30_encoding.md R143). -/

namespace Sys2Proof

/-- An FSE table id (00_scope.md R6, 30_encoding.md R141): `LL` = 0, `ML` = 1, `OF` = 2, `HW` = 3. -/
inductive Tbl where
  /-- literal lengths -/
  | ll
  /-- match lengths -/
  | ml
  /-- offsets -/
  | off
  /-- Huffman weights -/
  | hw
deriving DecidableEq, Repr, Inhabited

/-- A command. `lo` and `cnt` name the lane list `lanes(LO, CNT)` (R142); `n` is the field `N`. A command's operands in
`ARG0`, `ARG1` and `NV` (R144) are state, not syntax. -/
inductive Instr where
  /-- `RESET` (R401): reset the decoder state. -/
  | reset
  /-- `SYNC` (R201): realign the readers at a block boundary. -/
  | sync
  /-- `RDWORD` (R203): read one whole input word. -/
  | rdword
  /-- `RDBYTE` (R202): read one byte from the raw byte reader. -/
  | rdbyte
  /-- `RDPSIZE` (R351): read a packed size. -/
  | rdpsize
  /-- `PEEK lo, cnt, n` (R205). -/
  | peek (lo : BitVec 5) (cnt : BitVec 6) (n : BitVec 6)
  /-- `PEEKV lo, cnt` (R206). -/
  | peekv (lo : BitVec 5) (cnt : BitVec 6)
  /-- `DISCARD lo, cnt, n` (R207). -/
  | discard (lo : BitVec 5) (cnt : BitVec 6) (n : BitVec 6)
  /-- `DISCARDV lo, cnt` (R208). -/
  | discardv (lo : BitVec 5) (cnt : BitVec 6)
  /-- `DISCARDACC lo, cnt` (R209). -/
  | discardacc (lo : BitVec 5) (cnt : BitVec 6)
  /-- `FSEBUILD t, n` (R256): `n` is the requested accuracy log. -/
  | fsebuild (t : Tbl) (n : BitVec 6)
  /-- `FSEPREDEF t` (R257); `HW` has no predefined distribution. -/
  | fsepredef (t : Tbl)
  /-- `FSEINIT t, lo, cnt` (R258). -/
  | fseinit (t : Tbl) (lo : BitVec 5) (cnt : BitVec 6)
  /-- `FSEDEC t, lo, cnt` (R259). -/
  | fsedec (t : Tbl) (lo : BitVec 5) (cnt : BitVec 6)
  /-- `FSEDECNP t, lo, cnt` (R260). -/
  | fsedecnp (t : Tbl) (lo : BitVec 5) (cnt : BitVec 6)
  /-- `HUFWEX` (R302): read explicit nibble weights. -/
  | hufwex
  /-- `HUFWFSE aux` (R303): read FSE-coded weights. -/
  | hufwfse (aux : BitVec 1)
  /-- `HUFEXPAND` (R305): build the Huffman decode table. -/
  | hufexpand
  /-- `HUFDEC lo, cnt` (R307): decode one literal per lane. -/
  | hufdec (lo : BitVec 5) (cnt : BitVec 6)
  /-- `LITCFG mode` (R353): open a literal section. -/
  | litcfg (mode : BitVec 2)
  /-- `SETRLE` (R354): set the RLE literal byte. -/
  | setrle
  /-- `LITTARGET` (R355): emit literals up to a target count. -/
  | littarget
  /-- `MATCH` (R357): copy a match from earlier output. -/
  | matchcopy
  /-- `SEQEXEC` (R362): decode and execute a block's sequences. -/
  | seqexec
  /-- `CBLOCK` (R403): decode the body of a compressed block. -/
  | cblock
  /-- `RLEBLOCK` (R404): decode an RLE block. -/
  | rleblock
  /-- `RAWBLOCK` (R405): decode a raw block. -/
  | rawblock
  /-- `BLOCK` (R406): decode the next block of the stream. -/
  | block
  /-- `RUN` (R407): decode a whole stream. -/
  | run
deriving DecidableEq, Repr

end Sys2Proof
end

