-- ==== Sys2Proof/WellFormed.lean ====
section
/-! DEFINITION. Which commands a legal command word can name (30_encoding.md R142, R145). The items 1, 2, 3, 6 and 7 of R145
are about bits that no term of `Instr` has; the items 4 and 5 are checked here. -/

namespace Sys2Proof

/-- R142, R145 item 4: a legal lane range has `LO + CNT <= 32`. -/
def rangeOk (lo : BitVec 5) (cnt : BitVec 6) : Bool := lo.toNat + cnt.toNat ≤ 32

/-- The commands a legal word names: every lane range within the 32 lanes (R145 item 4), and `FSEPREDEF` never of `HW`
(R145 item 5). -/
def Instr.wf : Instr → Bool
  | .peek lo cnt _ => rangeOk lo cnt
  | .peekv lo cnt => rangeOk lo cnt
  | .discard lo cnt _ => rangeOk lo cnt
  | .discardv lo cnt => rangeOk lo cnt
  | .discardacc lo cnt => rangeOk lo cnt
  | .fseinit _ lo cnt => rangeOk lo cnt
  | .fsedec _ lo cnt => rangeOk lo cnt
  | .fsedecnp _ lo cnt => rangeOk lo cnt
  | .hufdec lo cnt => rangeOk lo cnt
  | .fsepredef t => t != .hw
  | .reset => true
  | .sync => true
  | .rdword => true
  | .rdbyte => true
  | .rdpsize => true
  | .fsebuild _ _ => true
  | .hufwex => true
  | .hufwfse _ => true
  | .hufexpand => true
  | .litcfg _ => true
  | .setrle => true
  | .littarget => true
  | .matchcopy => true
  | .seqexec => true
  | .cblock => true
  | .rleblock => true
  | .rawblock => true
  | .block => true
  | .run => true

end Sys2Proof
end

