-- ==== Sys2Proof/Decode.lean ====
section
/-! DEFINITION. The command word (30_encoding.md R141 to R147): its fields, the decoder, total on every 32-bit word and
rejecting by name, and after it the encoder, written from the same table. -/

namespace Sys2Proof

/-- The six fields of command format `C` (R141). -/
structure CmdFields where
  /-- [7:0] opcode -/
  op : BitVec 8
  /-- [12:8] first lane -/
  lo : BitVec 5
  /-- [18:13] number of lanes -/
  cnt : BitVec 6
  /-- [24:19] width, accuracy log, flag or mode -/
  n : BitVec 6
  /-- [26:25] table id -/
  t : BitVec 2
  /-- [31:27] must be 0 -/
  rsv : BitVec 5
deriving DecidableEq, Repr

/-- The fields of a command word, at the bit positions of R141. -/
def CmdFields.ofWord (w : Word) : CmdFields where
  op := w.extractLsb' 0 8
  lo := w.extractLsb' 8 5
  cnt := w.extractLsb' 13 6
  n := w.extractLsb' 19 6
  t := w.extractLsb' 25 2
  rsv := w.extractLsb' 27 5

/-- The command word with the given fields (R141). -/
def CmdFields.toWord (f : CmdFields) : Word :=
  f.rsv ++ f.t ++ f.n ++ f.cnt ++ f.lo ++ f.op

/-- Why a command word is illegal: the items of R145, each under a name of its own. -/
inductive Reject where
  /-- item 1: `OP` is not in the table of R143 -/
  | unassignedOpcode
  /-- item 2: bits [31:27] are not 0 -/
  | reservedBits
  /-- item 3: a field the command does not use is not 0 -/
  | unusedField
  /-- item 4: the command uses `LO` and `CNT`, and `LO + CNT > 32` -/
  | laneRange
  /-- item 5: `FSEPREDEF` with `T` = 3 -/
  | predefOfHW
  /-- item 6: `HUFWFSE` with `N > 1` -/
  | auxFlag
  /-- item 7: `LITCFG` with `N > 3` -/
  | literalMode
deriving DecidableEq, Repr

/-- The table a `T` field names (R141). -/
def tblOf (t : BitVec 2) : Tbl :=
  match t.toNat with
  | 0 => .ll
  | 1 => .ml
  | 2 => .off
  | _ => .hw

/-- The `T` field that names a table (R141). -/
def tblCode : Tbl → BitVec 2
  | .ll => 0
  | .ml => 1
  | .off => 2
  | .hw => 3

/-- A command that uses no field: every one must be 0 (R145 item 3). -/
def decodePlain (f : CmdFields) (i : Instr) : Except Reject Instr :=
  if f.lo = 0 ∧ f.cnt = 0 ∧ f.n = 0 ∧ f.t = 0 then .ok i else .error .unusedField

/-- A command that uses `LO` and `CNT`, given whether its other fields stand as R143 asks (R145 items 3 and 4). -/
def decodeRange (f : CmdFields) (othersOk : Bool) (i : Instr) : Except Reject Instr :=
  if othersOk then
    if rangeOk f.lo f.cnt then .ok i else .error .laneRange
  else .error .unusedField

/-- The command that fields with reserved bits 0 name, by the opcode map of R143. -/
def decodeByOpcode (f : CmdFields) : Except Reject Instr :=
  match f.op.toNat with
  | 0x01 => decodePlain f .reset
  | 0x02 => decodePlain f .sync
  | 0x03 => decodePlain f .rdword
  | 0x04 => decodePlain f .rdbyte
  | 0x05 => decodePlain f .rdpsize
  | 0x06 => decodeRange f (f.t = 0) (.peek f.lo f.cnt f.n)
  | 0x07 => decodeRange f (f.n = 0 ∧ f.t = 0) (.peekv f.lo f.cnt)
  | 0x08 => decodeRange f (f.t = 0) (.discard f.lo f.cnt f.n)
  | 0x09 => decodeRange f (f.n = 0 ∧ f.t = 0) (.discardv f.lo f.cnt)
  | 0x0A => decodeRange f (f.n = 0 ∧ f.t = 0) (.discardacc f.lo f.cnt)
  | 0x10 => if f.lo = 0 ∧ f.cnt = 0 then .ok (.fsebuild (tblOf f.t) f.n) else .error .unusedField
  | 0x11 =>
    if f.lo = 0 ∧ f.cnt = 0 ∧ f.n = 0 then
      if f.t = 3 then .error .predefOfHW else .ok (.fsepredef (tblOf f.t))
    else .error .unusedField
  | 0x12 => decodeRange f (f.n = 0) (.fseinit (tblOf f.t) f.lo f.cnt)
  | 0x13 => decodeRange f (f.n = 0) (.fsedec (tblOf f.t) f.lo f.cnt)
  | 0x14 => decodeRange f (f.n = 0) (.fsedecnp (tblOf f.t) f.lo f.cnt)
  | 0x20 => decodePlain f .hufwex
  | 0x21 =>
    if f.lo = 0 ∧ f.cnt = 0 ∧ f.t = 0 then
      if f.n.toNat ≤ 1 then .ok (.hufwfse (f.n.setWidth 1)) else .error .auxFlag
    else .error .unusedField
  | 0x22 => decodePlain f .hufexpand
  | 0x23 => decodeRange f (f.n = 0 ∧ f.t = 0) (.hufdec f.lo f.cnt)
  | 0x30 =>
    if f.lo = 0 ∧ f.cnt = 0 ∧ f.t = 0 then
      if f.n.toNat ≤ 3 then .ok (.litcfg (f.n.setWidth 2)) else .error .literalMode
    else .error .unusedField
  | 0x31 => decodePlain f .setrle
  | 0x32 => decodePlain f .littarget
  | 0x33 => decodePlain f .matchcopy
  | 0x34 => decodePlain f .seqexec
  | 0x40 => decodePlain f .cblock
  | 0x41 => decodePlain f .rleblock
  | 0x42 => decodePlain f .rawblock
  | 0x43 => decodePlain f .block
  | 0x44 => decodePlain f .run
  | _ => .error .unassignedOpcode

/-- The decoder (R140, R145): the command a word names, or the reason it is illegal. The checks come before anything
executes; which reason is named when several hold is not visible, since every illegal word has one effect (R146). -/
def decode (w : Word) : Except Reject Instr :=
  let f := CmdFields.ofWord w
  if f.rsv = 0 then decodeByOpcode f else .error .reservedBits

/-- Fields with only an opcode. -/
def plainFields (op : BitVec 8) : CmdFields := ⟨op, 0, 0, 0, 0, 0⟩

/-- The fields of a command (R143): every field it does not use is 0. -/
def Instr.fields : Instr → CmdFields
  | .reset => plainFields 0x01
  | .sync => plainFields 0x02
  | .rdword => plainFields 0x03
  | .rdbyte => plainFields 0x04
  | .rdpsize => plainFields 0x05
  | .peek lo cnt n => ⟨0x06, lo, cnt, n, 0, 0⟩
  | .peekv lo cnt => ⟨0x07, lo, cnt, 0, 0, 0⟩
  | .discard lo cnt n => ⟨0x08, lo, cnt, n, 0, 0⟩
  | .discardv lo cnt => ⟨0x09, lo, cnt, 0, 0, 0⟩
  | .discardacc lo cnt => ⟨0x0A, lo, cnt, 0, 0, 0⟩
  | .fsebuild t n => ⟨0x10, 0, 0, n, tblCode t, 0⟩
  | .fsepredef t => ⟨0x11, 0, 0, 0, tblCode t, 0⟩
  | .fseinit t lo cnt => ⟨0x12, lo, cnt, 0, tblCode t, 0⟩
  | .fsedec t lo cnt => ⟨0x13, lo, cnt, 0, tblCode t, 0⟩
  | .fsedecnp t lo cnt => ⟨0x14, lo, cnt, 0, tblCode t, 0⟩
  | .hufwex => plainFields 0x20
  | .hufwfse aux => ⟨0x21, 0, 0, aux.setWidth 6, 0, 0⟩
  | .hufexpand => plainFields 0x22
  | .hufdec lo cnt => ⟨0x23, lo, cnt, 0, 0, 0⟩
  | .litcfg mode => ⟨0x30, 0, 0, mode.setWidth 6, 0, 0⟩
  | .setrle => plainFields 0x31
  | .littarget => plainFields 0x32
  | .matchcopy => plainFields 0x33
  | .seqexec => plainFields 0x34
  | .cblock => plainFields 0x40
  | .rleblock => plainFields 0x41
  | .rawblock => plainFields 0x42
  | .block => plainFields 0x43
  | .run => plainFields 0x44

/-- The command word of a command (R141, R143, R148). -/
def encode (i : Instr) : Word := i.fields.toWord

/-- The instruction the decoder reads from an instruction of `nbits` bits numbered as spec/opcode_table.json numbers them.
A command is ONE 32-bit word written to `CMD` (R45), so bit 0 of the table is bit 0 of the word. -/
def decodeTableWord (nbits w : Nat) : Option Instr :=
  (decode (BitVec.ofNat 32 (w % 2 ^ nbits))).toOption

end Sys2Proof
end

