-- ==== Sys2Proof/Config.lean ====
section
/-! DEFINITION. What the implementation fixes, and the free values: every value the spec leaves open that a command or a
reset leaves in a register. A free value is an `opaque` constant with no body: nothing is known of it but its type. -/

namespace Sys2Proof.Config

/-- The constant of register `ID` (10_state.md R44, R51). -/
def idValue : Word := 0x47535444#32

/-- Free value: the unspecified content that a reset leaves at index `i` of the internal tables, at draw number `d`
(10_state.md R68 "unspecified", 93 I2 "any value"; log entry 2). -/
opaque freeTableBits (d i : Nat) : BitVec 64

/-- Free value: what an FSE cell index at or above the 1344 cells of the arena would read. No state that keeps the
register ranges of 10_state.md R62 reads there (log entry 8). -/
opaque beyondFseArena (i : Nat) : BitVec 64

/-- Free value: what a Huffman table index at or above 2048 would read. No state that keeps the register ranges of
10_state.md R63 reads there (log entry 8). -/
opaque beyondHufTable (i : Nat) : BitVec 64

/-- Free value: (base, extra bits) of a literal-length code above 35. 44_sequences.md R358 gives the codes 0 to 35 and no
built table holds another symbol (log entry 8). -/
opaque beyondLLCode (c : Nat) : Nat × Nat

/-- Free value: (base, extra bits) of a match-length code above 52. 44_sequences.md R359 gives the codes 0 to 52 and no
built table holds another symbol (log entry 8). -/
opaque beyondMLCode (c : Nat) : Nat × Nat

/-- Free value: the offset value of an OF code above 31 and its extra bits. 44_sequences.md R360 gives the codes 0 to 31
and no built table holds another symbol (log entry 8). -/
opaque beyondOFCode (c x : Nat) : BitVec 32

/-- Free value: the output bytes (index, byte) that a command of an unsanitized build leaves arbitrary, at draw number
`d` (60_exceptions.md R455; log entry 5). -/
opaque freeOutBytes (d : Nat) : List (Nat × Byte)

end Sys2Proof.Config
end

