-- ==== Sys2Proof/Machine/State.lean ====
section
/-! DEFINITION. All state the spec gives the engine (10_state.md R44 to R70), the two buffers (20_memory.md R100), the host's
pending operations, and the state after power-on reset (R68, R500). -/

namespace Sys2Proof.Machine

/-- A byte-addressed buffer (R100) in one canonical form: indices strictly rising, and no cell that holds what an
unlisted index reads as (log entry 3). -/
structure Memory where
  cells : List Host.Cell
deriving DecidableEq, Repr, Inhabited

/-- The warning codes of 60_exceptions.md R451. -/
inductive Warn where
  | discardUnderflow | peekWidth | windowOverrun | fseAcclogRange | fseAcclogMin | fseProbOverflow | fseProbSum
  | tableNotBuilt | hufWeightRange | hufTablelogRange | hufIncomplete | litOverrun | offsetZero | matchBeforeStart
  | blockTypeReserved | litModeReserved | reservedNonzero | blockSizeMismatch | illegalCommand
deriving DecidableEq, Repr, Inhabited

/-- One entry of `WARN_LOG` (R66): the code and the cursors when it was raised. -/
structure WarnEntry where
  code : Warn
  readPos : Dword
  writePos : Dword
deriving DecidableEq, Repr, Inhabited

/-- `RUNSTATE` (R42): the five values it can hold; the codes 5 to 7 are never written (93 I14). -/
inductive RunState where
  | awaitingBlock | decodingCompressedBlock | decodingRLEBlock | decodingRawBlock | done
deriving DecidableEq, Repr, Inhabited

/-- An FSE decode cell (R62). -/
structure FseCell where
  sym : BitVec 8
  nb : BitVec 4
  base : BitVec 16
deriving DecidableEq, Repr, Inhabited

/-- A Huffman decode-table entry (R63). -/
structure HufEntry where
  sym : BitVec 8
  len : BitVec 4
deriving DecidableEq, Repr, Inhabited

/-- The registers of one logical lane (R56, R60, R61, R69). -/
structure Lane where
  /-- bit buffer; bit 0 is the next unread bit -/
  buf : Dword
  /-- number of valid bits in `buf` -/
  avail : BitVec 7
  /-- peek window -/
  pv : Word
  /-- peek width -/
  pw : BitVec 6
  /-- pending-discard accumulator -/
  dacc : BitVec 8
  /-- decoded symbol -/
  sym : Word
  /-- live FSE state base, per table -/
  fss : Vector (BitVec 16) 4
  /-- drain level, per table -/
  fsd : Vector (BitVec 4) 4
deriving DecidableEq, Repr, Inhabited

/-- What the host can do to the engine between commands (R40, R149, 70 R500, R505). The engine takes these one at a time. -/
inductive HostOp where
  /-- `WR`: a register write of `bytes` bytes at byte offset `offset` of the register block; at `CMD` it issues a command (R45) -/
  | write (bytes offset : Nat) (value : Word)
  /-- `RD`: a register read -/
  | read (bytes offset : Nat)
  /-- the host puts a byte into the input buffer (R113, R504) -/
  | placeIn (index : Nat) (value : Byte)
  /-- the host puts a byte into the output buffer (R113) -/
  | placeOut (index : Nat) (value : Byte)
  /-- the platform asserts the reset input (R500) -/
  | powerOn
deriving DecidableEq, Repr, Inhabited

/-- The whole machine. -/
structure State where
  /-- `ARG0` (R46) -/
  arg0 : Word
  /-- `ARG1` (R46) -/
  arg1 : Word
  /-- `NV[l]` (R53) -/
  nv : Vector (BitVec 6) 32
  /-- `IN_SIZE` (R50) -/
  inSize : Word
  /-- `OUT_CAP` (R50) -/
  outCap : Word
  /-- `BUILD.SANITIZE` (R51): a build constant, changed by nothing -/
  sanitize : Bool
  /-- `RES`, `RES_HI` (R47) -/
  res : Dword
  /-- `READPOS` (R57) -/
  readPos : Dword
  /-- `WRITEPOS` (R59) -/
  writePos : Dword
  /-- `RCB[0..3]` (R58) -/
  rcb : Vector Byte 4
  /-- `RCN`, 0 to 4 (R58) -/
  rcn : Fin 5
  /-- the lane register files (R56, R60, R61, R69) -/
  lanes : Vector Lane 32
  /-- `RUNSTATE` (R42) -/
  runState : RunState
  /-- `REP[0]` (R64) -/
  rep0 : Word
  /-- `REP[1]` (R64) -/
  rep1 : Word
  /-- `REP[2]` (R64) -/
  rep2 : Word
  /-- `LITMODE` (R64) -/
  litMode : BitVec 2
  /-- `RLEBYTE` (R64) -/
  rleByte : Byte
  /-- `MAXLIT` (R64) -/
  maxLit : Word
  /-- `LITEMITTED` (R64) -/
  litEmitted : Word
  /-- `LITTOTAL` (R64) -/
  litTotal : Word
  /-- `NUMSEQ` (R64) -/
  numSeq : Word
  /-- `TACC[t]` (R62) -/
  tacc : Vector (BitVec 4) 4
  /-- `TVALID[t]` (R62) -/
  tvalid : Vector Bool 4
  /-- `FSECELL[0..1343]` (R62) -/
  fseCell : Vector FseCell 1344
  /-- `HUFW[0..255]` (R63) -/
  hufw : Vector (BitVec 4) 256
  /-- `HUFN` (R63) -/
  hufn : BitVec 8
  /-- `HUFWB` (R63) -/
  hufwb : BitVec 4
  /-- `HUFVALID` (R63) -/
  hufvalid : Bool
  /-- `HUFT[0..2047]` (R63) -/
  huft : Vector HufEntry 2048
  /-- `WARN_STICKY` (R49) -/
  warnSticky : Word
  /-- `WARN_COUNT` (R49) -/
  warnCount : Word
  /-- `WARN_LAST` (R49) -/
  warnLast : BitVec 8
  /-- `WARN_LOG` (R66), oldest first -/
  warnLog : List WarnEntry
  /-- the input buffer `IN` (R100) -/
  inBuf : Memory
  /-- the output buffer `OUT` (R100) -/
  outBuf : Memory
  /-- which indices of `OUT` the engine wrote since the last reset (R106, 70 R510; log entry 7): ranges from the first
  component to below the second, newest first -/
  written : List (Nat × Nat)
  /-- the MODEL's own: the host operations still to come, next first (log entry 1) -/
  hostOps : List HostOp
  /-- the MODEL's own: what the host's last register read returned (log entry 1) -/
  hostData : Word
  /-- the MODEL's own: how many draws of free values were made (log entry 6) -/
  draws : Nat
deriving DecidableEq, Repr, Inhabited

/-- Why the machine stops. The engine itself has no fault: no condition stops a command (R450). -/
inductive Fault where
  /-- Raised by `HostOp.placeIn` and `HostOp.placeOut` at an index no buffer can have: each buffer holds at most
  2^32 - 1 bytes (R110). Safe: the machine stops where the spec gives no such byte. -/
  | noSuchBufferByte
deriving DecidableEq, Repr

/-- Why the model has no move. -/
inductive Refusal where
  /-- Raised by an arm of `exec` whose instruction has no meaning yet. Safe. No arm raises it. -/
  | notModelled (mnemonic : String)
  /-- Raised by a host register access that is not an aligned 32-bit word: "A model refuses it" (R54, 93 I11). Safe. -/
  | hostAccessShape
  /-- Raised by a host register access beyond the register block, offsets 0x000 to 0x2FF: what is there belongs to the
  platform (R44, R462). Safe. -/
  | outsideRegisterBlock
deriving DecidableEq, Repr

/-- A lane's registers after a reset (R68). -/
def Lane.reset : Lane where
  buf := 0
  avail := 0
  pv := 0
  pw := 0
  dacc := 0
  sym := 0
  fss := Vector.replicate 4 0
  fsd := Vector.replicate 4 0

/-- The machine after power-on reset (10_state.md R68, 70 R500). The spec gives every value but those of `FSECELL` and
`HUFT`, "unspecified", named zero here (log entry 2); the buffers list nothing (log entry 3); the build is the reference
build, sanitized (R6; log entry 4); no host operation is pending (log entry 1). -/
def State.reset : State where
  arg0 := 0
  arg1 := 0
  nv := Vector.replicate 32 0
  inSize := 0
  outCap := 0
  sanitize := true
  res := 0
  readPos := 0
  writePos := 0
  rcb := Vector.replicate 4 0
  rcn := 0
  lanes := Vector.replicate 32 Lane.reset
  runState := .awaitingBlock
  rep0 := 1
  rep1 := 4
  rep2 := 8
  litMode := 0
  rleByte := 0
  maxLit := 0
  litEmitted := 0
  litTotal := 0
  numSeq := 0
  tacc := Vector.replicate 4 0
  tvalid := Vector.replicate 4 false
  fseCell := Vector.replicate 1344 ⟨0, 0, 0⟩
  hufw := Vector.replicate 256 0
  hufn := 0
  hufwb := 0
  hufvalid := false
  huft := Vector.replicate 2048 ⟨0, 0⟩
  warnSticky := 0
  warnCount := 0
  warnLast := 0
  warnLog := []
  inBuf := ⟨[]⟩
  outBuf := ⟨[]⟩
  written := []
  hostOps := []
  hostData := 0
  draws := 0

end Sys2Proof.Machine
end

