-- ==== Sys2Proof/Config/Unsanitized.lean ====
section
/-! DEFINITION. The free value of the unsanitized build (00_scope.md R6 parameter `SANITIZE`, 60_exceptions.md R455). -/

namespace Sys2Proof.Config

/-- Free value: the registers and tables that a command of an unsanitized build holds after a warning condition arose,
at draw number `d` (60_exceptions.md R455 "holds an arbitrary value", 93 I1; log entry 5). Only the fields R455 lists
are taken from it. -/
opaque unsanitizedState (d : Nat) : Machine.State

end Sys2Proof.Config
end

