-- ==== Sys2Proof/Machine/Memory.lean ====
section
/-! DEFINITION. The two byte buffers (20_memory.md R100): reading and writing one byte, and the canonical form. -/

namespace Sys2Proof.Machine

/-- What an index that lists nothing reads as (log entry 3): the host's initial buffer content is not the spec's to give. -/
def Memory.unlisted : Byte := 0

/-- The byte a list of cells holds at index `a`. -/
def readCells : List Host.Cell → Nat → Byte
  | [], _ => Memory.unlisted
  | c :: cs, a => if c.1 = a then c.2 else readCells cs a

/-- A sorted list of cells with the cell at `a` replaced, inserted, or removed where the byte is what an unlisted index
reads as. -/
def writeCells : List Host.Cell → Nat → Byte → List Host.Cell
  | [], a, b => if b = Memory.unlisted then [] else [(a, b)]
  | c :: cs, a, b =>
    if a < c.1 then (if b = Memory.unlisted then c :: cs else (a, b) :: c :: cs)
    else if a = c.1 then (if b = Memory.unlisted then cs else (a, b) :: cs)
    else c :: writeCells cs a b

/-- The byte at index `a`. -/
def Memory.read (m : Memory) (a : Nat) : Byte := readCells m.cells a

/-- The buffer with byte `b` at index `a`. -/
def Memory.write (m : Memory) (a : Nat) (b : Byte) : Memory := ⟨writeCells m.cells a b⟩

/-- The canonical form of a list of cells: indices strictly rising, none holding the unlisted byte. -/
def wfCells : List Host.Cell → Bool
  | [] => true
  | c :: cs => c.2 != Memory.unlisted && cs.all (fun d => decide (c.1 < d.1)) && wfCells cs

/-- The canonical form. -/
def Memory.wf (m : Memory) : Bool := wfCells m.cells

end Sys2Proof.Machine
end

