-- ==== Sys2Proof/Machine/Params.lean ====
section
/-! DEFINITION. The parameters of 00_scope.md R6, per FSE table where it gives them so, and the primitives of R8 and R10. -/

namespace Sys2Proof.Machine

/-- `ZERO_PROB_REPEAT_BITS` (R6). -/
def zprb : Nat := 6

/-- `MIN_ACCURACY_LOG` (R6). -/
def minAccuracyLog : Nat := 5

/-- `MAX_HUF_BITS` (R6). -/
def maxHufBits : Nat := 11

/-- `MAX_ACC[t]` (R6). -/
def maxAcc : Tbl → Nat
  | .ll => 9
  | .ml => 9
  | .off => 8
  | .hw => 6

/-- `MAX_SYM[t]` (R6). -/
def maxSym : Tbl → Nat
  | .ll => 35
  | .ml => 52
  | .off => 31
  | .hw => 11

/-- `TABLE_START[t]` (R6). -/
def tableStart : Tbl → Nat
  | .ll => 0
  | .ml => 512
  | .off => 1024
  | .hw => 1280

/-- The index of a table in a per-table register: its table id (R6, R141). -/
def tblIdx : Tbl → Fin 4
  | .ll => 0
  | .ml => 1
  | .off => 2
  | .hw => 3

/-- The codes of 60_exceptions.md R451. -/
def Warn.code : Warn → Nat
  | .discardUnderflow => 1
  | .peekWidth => 2
  | .windowOverrun => 3
  | .fseAcclogRange => 4
  | .fseAcclogMin => 5
  | .fseProbOverflow => 6
  | .fseProbSum => 7
  | .tableNotBuilt => 8
  | .hufWeightRange => 9
  | .hufTablelogRange => 10
  | .hufIncomplete => 11
  | .litOverrun => 12
  | .offsetZero => 13
  | .matchBeforeStart => 14
  | .blockTypeReserved => 15
  | .litModeReserved => 16
  | .reservedNonzero => 17
  | .blockSizeMismatch => 18
  | .illegalCommand => 19

/-- The numbering of `RUNSTATE` (R42). -/
def RunState.code : RunState → Nat
  | .awaitingBlock => 0
  | .decodingCompressedBlock => 1
  | .decodingRLEBlock => 2
  | .decodingRawBlock => 3
  | .done => 4

/-- `v & mask(n)` of R8: the low `n` bits of `v`. -/
def lowBits (n v : Nat) : Nat := v % 2 ^ n

/-- `highbit1` of R10: the 1-based position of the highest set bit, 0 for 0. -/
def highbit1 (x : Nat) : Nat := if x = 0 then 0 else Nat.log2 x + 1

/-- `floorlog2` of R10, for `x > 0`. -/
def floorlog2 (x : Nat) : Nat := highbit1 x - 1

/-- `bitrev_n` of R10: bit i of the result is bit n-1-i of `v`. -/
def bitrev : Nat → Nat → Nat
  | 0, _ => 0
  | n + 1, v => (v % 2) * 2 ^ n + bitrev n (v / 2)

/-- A list of `n` values `f k, f (k+1), ...`. -/
def tabFrom {α : Type} (f : Nat → α) : Nat → Nat → List α
  | 0, _ => []
  | n + 1, k => f k :: tabFrom f n (k + 1)

theorem tabFrom_length {α : Type} (f : Nat → α) (n k : Nat) : (tabFrom f n k).length = n := by
  induction n generalizing k with
  | zero => rfl
  | succ n ih => simp [tabFrom, ih]

/-- The vector of `f 0, ..., f (n-1)`. -/
def tabulate {α : Type} (n : Nat) (f : Nat → α) : Vector α n := ⟨⟨tabFrom f n 0⟩, tabFrom_length f n 0⟩

/-- All lanes, ascending (R6). -/
def allLanes : List LaneId := List.finRange 32

/-- `lanes(lo, cnt)` of R9: the lanes lo, lo+1, ..., lo+cnt-1, ascending. -/
def laneRange (lo cnt : Nat) : List LaneId := allLanes.filter fun l => lo ≤ l.val ∧ l.val < lo + cnt

/-- `for l in lanes` of R9: the effect of visiting the lanes one at a time in list order. -/
def forLanes (ls : List LaneId) (f : LaneId → State → State) (s : State) : State := ls.foldl (fun s l => f l s) s

/-- `repeat n times`. -/
def times : Nat → (State → State) → State → State
  | 0, _, s => s
  | n + 1, f, s => times n f (f s)

end Sys2Proof.Machine
end

