-- ==== Sys2Proof/Machine/Ops.lean ====
section
/-! DEFINITION. The named operations every command is made of: raising a warning (the engine's only anomaly mechanism, in the
place where other machines take exceptions), the input word load, the output byte, the lane registers, the tables, the resets,
and the end of a command. -/

namespace Sys2Proof.Machine

/-! ### Warnings (60_exceptions.md R450 to R457) -/

/-- `raise Warn(c)` (R452): record the warning; the command then goes on with its next statement. No state is saved, no
handler is entered and nothing returns from it (R456, R457). -/
def State.warn (c : Warn) (s : State) : State :=
  { s with
    warnSticky := s.warnSticky ||| BitVec.ofNat 32 (2 ^ c.code)
    warnCount := if s.warnCount.toNat < 2 ^ 32 - 1 then s.warnCount + 1 else s.warnCount
    warnLast := BitVec.ofNat 8 c.code
    warnLog := s.warnLog ++ [⟨c, s.readPos, s.writePos⟩] }

/-- The bits of `WARN_STICKY` that stand for a warning code, 1 to 19; the others read 0 (R49, 93 I13). -/
def stickyMask : Word := 0x000FFFFE#32

/-- `WARN_STICKY` as it reads (R49). -/
def State.stickyView (s : State) : Word := s.warnSticky &&& stickyMask

/-! ### Buffers (20_memory.md R101 to R106) -/

/-- `MemRead(IN:a, 1)` (R101): 0 at or beyond `IN_SIZE`, with no warning. -/
def State.inByte (s : State) (a : Nat) : Byte := if a < s.inSize.toNat then s.inBuf.read a else 0

/-- The input word with index `i` (R103, R104): bytes 4i to 4i+3, little-endian; the byte index never wraps. -/
def State.inWordAt (s : State) (i : Nat) : Word :=
  s.inByte (4 * i + 3) ++ s.inByte (4 * i + 2) ++ s.inByte (4 * i + 1) ++ s.inByte (4 * i)

/-- `InWord()` (R104): the word at `READPOS`, and the state with the cursor advanced by 1. -/
def State.inWord (s : State) : Word × State :=
  (s.inWordAt s.readPos.toNat, { s with readPos := s.readPos + 1 })

/-- The ranges of written indices with index `p` added: the newest range grows where it ends at `p`. -/
def noteWritten (p : Nat) : List (Nat × Nat) → List (Nat × Nat)
  | [] => [(p, p + 1)]
  | r :: rs => if r.1 ≤ p ∧ r.2 = p then (r.1, p + 1) :: rs else (p, p + 1) :: r :: rs

/-- Whether index `a` lies in one of the ranges. -/
def inRanges (a : Nat) (rs : List (Nat × Nat)) : Bool := rs.any fun r => decide (r.1 ≤ a) && decide (a < r.2)

/-- Whether the engine wrote index `a` of `OUT` since the last reset (R106). -/
def State.wrote (s : State) (a : Nat) : Bool := inRanges a s.written

/-- `Emit(v)` (R105): a byte at or beyond `OUT_CAP` is dropped, and `WRITEPOS` advances all the same. -/
def State.emit (b : Byte) (s : State) : State :=
  { s with
    outBuf := if s.writePos.toNat < s.outCap.toNat then s.outBuf.write s.writePos.toNat b else s.outBuf
    written := if s.writePos.toNat < s.outCap.toNat then noteWritten s.writePos.toNat s.written else s.written
    writePos := s.writePos + 1 }

/-- `MemRead(OUT:a, 1)` (R106), for an index that may be negative. A byte the engine did not write since the last reset
reads 0, one it dropped before the host raised `OUT_CAP` among them (R106, 70 R510; log entry 7). -/
def State.outByte (s : State) (a : Int) : Byte :=
  if a < 0 ∨ (s.writePos.toNat : Int) ≤ a ∨ (s.outCap.toNat : Int) ≤ a then 0
  else if s.wrote a.toNat then s.outBuf.read a.toNat
  else 0

/-! ### Lane registers (10_state.md R56, R60, R61) -/

/-- The registers of lane `l`. -/
def State.lane (s : State) (l : LaneId) : Lane := s.lanes[l]

/-- Lane `l`'s registers replaced. -/
def State.setLane (l : LaneId) (x : Lane) (s : State) : State := { s with lanes := s.lanes.set l x }

/-- Lane `l`'s registers changed by `f`. -/
def State.modLane (l : LaneId) (f : Lane → Lane) (s : State) : State := s.setLane l (f (s.lane l))

/-- `SYM[l] <- v` (R61). -/
def State.setSym (l : LaneId) (v : Nat) (s : State) : State :=
  s.modLane l fun x => { x with sym := BitVec.ofNat 32 v }

/-- `FSS[l][t]` (R60). -/
def State.fss (s : State) (l : LaneId) (t : Tbl) : Nat := ((s.lane l).fss[tblIdx t]).toNat

/-- `FSD[l][t]` (R60). -/
def State.fsd (s : State) (l : LaneId) (t : Tbl) : Nat := ((s.lane l).fsd[tblIdx t]).toNat

/-- `FSS[l][t] <- base`, `FSD[l][t] <- nb` (R258 to R260). -/
def State.setFse (l : LaneId) (t : Tbl) (base : BitVec 16) (nb : BitVec 4) (s : State) : State :=
  s.modLane l fun x => { x with fss := x.fss.set (tblIdx t) base, fsd := x.fsd.set (tblIdx t) nb }

/-! ### Tables (10_state.md R62, R63) -/

/-- The FSE cell with arena index `i`. -/
def State.fseCellAt (s : State) (i : Nat) : FseCell :=
  if h : i < 1344 then s.fseCell[i]
  else
    let v := Config.beyondFseArena i
    ⟨v.extractLsb' 0 8, v.extractLsb' 8 4, v.extractLsb' 12 16⟩

/-- `FSECELL[i] <- c`. -/
def State.setFseCell (i : Nat) (c : FseCell) (s : State) : State :=
  { s with fseCell := if h : i < 1344 then s.fseCell.set i c h else s.fseCell }

/-- `TACC[t]` (R62). -/
def State.accLog (s : State) (t : Tbl) : Nat := (s.tacc[tblIdx t]).toNat

/-- `TVALID[t]` (R62). -/
def State.built (s : State) (t : Tbl) : Bool := s.tvalid[tblIdx t]

/-- `TACC[t] <- a`, `TVALID[t] <- 1` (R253). -/
def State.setBuilt (t : Tbl) (a : Nat) (s : State) : State :=
  { s with tacc := s.tacc.set (tblIdx t) (BitVec.ofNat 4 a), tvalid := s.tvalid.set (tblIdx t) true }

/-- `HUFW[k]` (R63, R301). -/
def State.hufWeight (s : State) (k : Nat) : Nat := if h : k < 256 then (s.hufw[k]).toNat else 0

/-- `HUFW[k] <- w`. -/
def State.setHufWeight (k w : Nat) (s : State) : State :=
  { s with hufw := if h : k < 256 then s.hufw.set k (BitVec.ofNat 4 w) h else s.hufw }

/-- The Huffman table entry with index `i`. -/
def State.hufEntryAt (s : State) (i : Nat) : HufEntry :=
  if h : i < 2048 then s.huft[i]
  else
    let v := Config.beyondHufTable i
    ⟨v.extractLsb' 0 8, v.extractLsb' 8 4⟩

/-- `HUFT[i] <- e`. -/
def State.setHufEntry (i : Nat) (e : HufEntry) (s : State) : State :=
  { s with huft := if h : i < 2048 then s.huft.set i e h else s.huft }

/-! ### The result register (10_state.md R47) -/

/-- `RES <- zext_64(v)` (R47). -/
def State.setRes (v : Nat) (s : State) : State := { s with res := BitVec.ofNat 64 v }

/-! ### The resets (10_state.md R68, 70 R500, R501) -/

/-- The unspecified content of `FSECELL` after a reset: a free value (R68, 93 I2; log entry 2). -/
def freeFseCell (d i : Nat) : FseCell :=
  let v := Config.freeTableBits d i
  ⟨v.extractLsb' 0 8, v.extractLsb' 8 4, v.extractLsb' 12 16⟩

/-- The unspecified content of `HUFT` after a reset: a free value (R68, 93 I2; log entry 2). -/
def freeHufEntry (d i : Nat) : HufEntry :=
  let v := Config.freeTableBits d (1344 + i)
  ⟨v.extractLsb' 0 8, v.extractLsb' 8 4⟩

/-- `Reset()` (R401): every piece of state takes its value in the "`RESET` command" column of R68. The set-up registers
`ARG0`, `ARG1`, `NV`, `IN_SIZE`, `OUT_CAP`, the build constant and the buffers keep theirs. -/
def State.doReset (s : State) : State :=
  { s with
    res := 0
    readPos := 0
    writePos := 0
    rcb := Vector.replicate 4 0
    rcn := 0
    lanes := Vector.replicate 32 Lane.reset
    runState := .awaitingBlock
    rep0 := 1
    rep1 := 4
    rep2 := 8
    litMode := 0
    rleByte := 0
    maxLit := 0
    litEmitted := 0
    litTotal := 0
    numSeq := 0
    tacc := Vector.replicate 4 0
    tvalid := Vector.replicate 4 false
    fseCell := tabulate 1344 (freeFseCell s.draws)
    hufw := Vector.replicate 256 0
    hufn := 0
    hufwb := 0
    hufvalid := false
    huft := tabulate 2048 (freeHufEntry s.draws)
    warnSticky := 0
    warnCount := 0
    warnLast := 0
    warnLog := []
    written := []
    draws := s.draws + 1 }

/-- Power-on reset (R500): the "power-on reset" column of R68. It differs from `Reset()` in the set-up registers, which
it clears (R501). -/
def State.doPowerOn (s : State) : State :=
  { s.doReset with arg0 := 0, arg1 := 0, nv := Vector.replicate 32 0, inSize := 0, outCap := 0 }

/-! ### The end of a command: the two builds (60_exceptions.md R455) -/

/-- Whether a warning condition arose between the state `base`, in which the command's warnings began, and `t`. -/
def warned (base t : State) : Bool := t.warnLog.length != base.warnLog.length

/-- The output buffer an unsanitized build leaves: arbitrary bytes at and above the `WRITEPOS` the command started with
(R455), and below `OUT_CAP`, which still bounds its writes (R105). -/
def State.freeOut (s : State) : Memory :=
  (Config.freeOutBytes s.draws).foldl
    (fun m c => if s.writePos.toNat ≤ c.1 ∧ c.1 < s.outCap.toNat then m.write c.1 c.2 else m) s.outBuf

/-- The registers and tables a command can write, besides the warning registers, which every command can (R455). -/
structure Writes where
  /-- `RES` -/
  res : Bool := false
  /-- `READPOS` -/
  readPos : Bool := false
  /-- `WRITEPOS`, and the record of what it wrote -/
  writePos : Bool := false
  /-- `RCB`, `RCN` -/
  rawCache : Bool := false
  /-- the lane registers -/
  lanes : Bool := false
  /-- `RUNSTATE` -/
  runState : Bool := false
  /-- `REP[0..2]` -/
  reps : Bool := false
  /-- `LITMODE`, `RLEBYTE`, `MAXLIT`, `LITEMITTED`, `LITTOTAL` -/
  literals : Bool := false
  /-- `NUMSEQ` -/
  numSeq : Bool := false
  /-- `TACC`, `TVALID`, `FSECELL` -/
  fseTables : Bool := false
  /-- `HUFW`, `HUFN` -/
  weights : Bool := false
  /-- `HUFWB`, `HUFVALID`, `HUFT` -/
  hufTable : Bool := false
deriving DecidableEq, Repr

/-- The raw byte reader writes the cache and the input cursor (R202). -/
def Writes.rawReader : Writes := { rawCache := true, readPos := true }

/-- The lane readers write lane registers and the input cursor (R204). -/
def Writes.laneReader : Writes := { lanes := true, readPos := true }

/-- Everything a command can write (R407: `RUN` resets, and runs every unit). -/
def Writes.everything : Writes :=
  { res := true, readPos := true, writePos := true, rawCache := true, lanes := true, runState := true, reps := true
    literals := true, numSeq := true, fseTables := true, weights := true, hufTable := true }

/-- What a command of an unsanitized build leaves after a warning condition arose (R455; log entry 5): the registers and
tables it can write, the warning registers (the reserved bits of `WARN_STICKY` apart, 93 I13) and the output bytes from
`WRITEPOS` on are arbitrary; the rest keep their values. -/
def State.unsanitized (w : Writes) (s : State) : State :=
  let f := Config.unsanitizedState s.draws
  { s with
    res := if w.res then f.res else s.res
    readPos := if w.readPos then f.readPos else s.readPos
    writePos := if w.writePos then f.writePos else s.writePos
    written := if w.writePos then f.written else s.written
    rcb := if w.rawCache then f.rcb else s.rcb
    rcn := if w.rawCache then f.rcn else s.rcn
    lanes := if w.lanes then f.lanes else s.lanes
    runState := if w.runState then f.runState else s.runState
    rep0 := if w.reps then f.rep0 else s.rep0
    rep1 := if w.reps then f.rep1 else s.rep1
    rep2 := if w.reps then f.rep2 else s.rep2
    litMode := if w.literals then f.litMode else s.litMode
    rleByte := if w.literals then f.rleByte else s.rleByte
    maxLit := if w.literals then f.maxLit else s.maxLit
    litEmitted := if w.literals then f.litEmitted else s.litEmitted
    litTotal := if w.literals then f.litTotal else s.litTotal
    numSeq := if w.numSeq then f.numSeq else s.numSeq
    tacc := if w.fseTables then f.tacc else s.tacc
    tvalid := if w.fseTables then f.tvalid else s.tvalid
    fseCell := if w.fseTables then f.fseCell else s.fseCell
    hufw := if w.weights then f.hufw else s.hufw
    hufn := if w.weights then f.hufn else s.hufn
    hufwb := if w.hufTable then f.hufwb else s.hufwb
    hufvalid := if w.hufTable then f.hufvalid else s.hufvalid
    huft := if w.hufTable then f.huft else s.huft
    warnSticky := f.warnSticky &&& stickyMask
    warnCount := f.warnCount
    warnLast := f.warnLast
    warnLog := f.warnLog
    outBuf := s.freeOut
    draws := s.draws + 1 }

/-- The end of a command that can write `w`, began its work in `base` and computed `t`: `t` in a sanitized build, and in a
run where no warning condition arose; what `w` and `base` say where one arose in an unsanitized build (R455). -/
def finish (w : Writes) (base t : State) : Host.Outcome State Fault Refusal :=
  .next (if base.sanitize || !warned base t then t else base.unsanitized w)

/-- The effect of an illegal command word (30_encoding.md R146): the warning and nothing else. -/
def illegalCommand (s : State) : Host.Outcome State Fault Refusal := finish {} s (s.warn .illegalCommand)

end Sys2Proof.Machine
end

