-- ==== Sys2Proof/Machine/Operands.lean ====
section
/-! DEFINITION. The operand forms: lane ranges and widths of a command (30_encoding.md R142, R144), the block control word
(R150), the descriptor and accuracy bytes (R155 to R157) and the packed size (R154). -/

namespace Sys2Proof.Machine

/-- `lanes(LO, CNT)` of a command word (R142). -/
def cmdLanes (lo : BitVec 5) (cnt : BitVec 6) : List LaneId := laneRange lo.toNat cnt.toNat

/-- `NV[l]` (R53, R144). -/
def State.nvWidth (s : State) (l : LaneId) : Nat := (s.nv[l]).toNat

/-- `SIZE` of a control word, bits [27:0] (R150). -/
def cwSize (cw : Word) : Nat := (cw.extractLsb' 0 28).toNat

/-- `TYPE` of a control word, bits [29:28] (R150). -/
def cwType (cw : Word) : Nat := (cw.extractLsb' 28 2).toNat

/-- `AUX` of a control word, bit 30 (R150). -/
def cwAux (cw : Word) : Nat := (cw.extractLsb' 30 1).toNat

/-- `CONT` of a control word, bit 31 (R150). -/
def cwCont (cw : Word) : Bool := cw.getLsbD 31

/-- Bits [7:3] of a literal or sequence descriptor, which must be 0 (R155, R156). -/
def descReserved (d : Byte) : Nat := (d.extractLsb' 3 5).toNat

/-- Literal mode of a literal descriptor, bits [1:0] (R155). -/
def descLitMode (d : Byte) : BitVec 2 := d.extractLsb' 0 2

/-- Weight mode of a literal descriptor, bit 2 (R155). -/
def descWeightMode (d : Byte) : Bool := d.getLsbD 2

/-- The predefined bit of table `t` in a sequence descriptor (R156): bit 0 `LL`, bit 1 `ML`, bit 2 `OF`. -/
def descPredef (d : Byte) (t : Tbl) : Bool := d.getLsbD (tblIdx t)

/-- Bits [7:4] of an accuracy byte, reserved (R157). -/
def accReserved (a : Byte) : Nat := (a.extractLsb' 4 4).toNat

/-- The accuracy log an accuracy byte asks for: 5 + bits [3:0] (R157). -/
def accRequested (a : Byte) : Nat := 5 + (a.extractLsb' 0 4).toNat

/-- The value of a 2-byte packed size (R154). -/
def packed2 (b0 b1 : Byte) : Nat := (b1.toNat * 2 ^ 8 + b0.toNat) / 4 + 128

/-- The value of a 3-byte packed size (R154). -/
def packed3 (b0 b1 b2 : Byte) : Nat := (b2.toNat * 2 ^ 16 + b1.toNat * 2 ^ 8 + b0.toNat) / 4 + 16512

end Sys2Proof.Machine
end

