-- ==== Sys2Proof/Machine/Bitstream.lean ====
section
/-! DEFINITION. The bitstream reader (41_bitstream.md R200 to R211): refill and drop, the peeks and discards over a lane
list, the raw byte reader, and the commands `SYNC`, `RDBYTE`, `RDWORD`, `PEEK`, `PEEKV`, `DISCARD`, `DISCARDV`, `DISCARDACC`. -/

namespace Sys2Proof.Machine

/-- A lane with word `w` merged above its buffered bits (R204). -/
def Lane.load (x : Lane) (w : Word) : Lane :=
  { x with buf := x.buf ||| (w.setWidth 64 <<< x.avail.toNat), avail := x.avail + 32 }

/-- `Refill(l, n)` (R204), for a width of at most 32. -/
def State.refill (l : LaneId) (n : Nat) (s : State) : State :=
  if (s.lane l).avail.toNat < n then
    let r := s.inWord
    r.2.modLane l fun x => x.load r.1
  else s

/-- A lane with its low `n` bits consumed, for `n` at most `AVAIL` (R210). -/
def Lane.consume (x : Lane) (n : Nat) : Lane :=
  { x with buf := x.buf >>> n, avail := x.avail - BitVec.ofNat 7 n }

/-- `Drop(l, n)` (R210). -/
def State.drop (l : LaneId) (n : Nat) (s : State) : State :=
  if (s.lane l).avail.toNat < n then
    (s.warn .discardUnderflow).modLane l fun x => { x with buf := 0, avail := 0 }
  else s.modLane l fun x => x.consume n

/-- The peek window of a lane for a width `n` of at most 32 (R206): `PV <- BUF & mask(n)`, `PW <- n`. -/
def Lane.window (x : Lane) (n : Nat) : Lane :=
  { x with pv := BitVec.ofNat 32 (lowBits n x.buf.toNat), pw := BitVec.ofNat 6 n }

/-- One lane of `PeekV` (R206): a width above 32 warns and becomes 32. -/
def State.peekLane (l : LaneId) (width : Nat) (s : State) : State :=
  let s1 := if 32 < width then s.warn .peekWidth else s
  let n := min width 32
  (s1.refill l n).modLane l fun x => x.window n

/-- `PeekV(lanes, widths)` (R206). -/
def State.peekV (ls : List LaneId) (width : LaneId → Nat) (s : State) : State :=
  forLanes ls (fun l => State.peekLane l (width l)) s

/-- `Peek(lanes, n)` (R205). -/
def State.peek (ls : List LaneId) (n : Nat) (s : State) : State := s.peekV ls fun _ => n

/-- `DiscardV(lanes, counts)` (R208). -/
def State.discardV (ls : List LaneId) (count : LaneId → Nat) (s : State) : State :=
  forLanes ls (fun l => State.drop l (count l)) s

/-- One lane of `DiscardAcc` (R209). -/
def State.dropAcc (l : LaneId) (s : State) : State :=
  (s.drop l (s.lane l).dacc.toNat).modLane l fun x => { x with dacc := 0 }

/-- `DiscardAcc(lanes)` (R209). -/
def State.discardAcc (ls : List LaneId) (s : State) : State := forLanes ls State.dropAcc s

/-- The raw cache filled with the bytes of a word, in ascending byte order (R153, R202). -/
def State.fillCache (w : Word) (s : State) : State :=
  { s with
    rcb := #v[w.extractLsb' 0 8, w.extractLsb' 8 8, w.extractLsb' 16 8, w.extractLsb' 24 8]
    rcn := 4 }

/-- The oldest cached byte, `RCB[4 - RCN]` (R58, R202). It is asked for only where `RCN` is not 0: `ReadByte` fills the
cache first. -/
def State.cachedByte (s : State) : Byte :=
  match s.rcn with
  | 0 => 0
  | 1 => s.rcb[3]
  | 2 => s.rcb[2]
  | 3 => s.rcb[1]
  | 4 => s.rcb[0]

/-- The oldest cached byte, and the state with `RCN` one lower (R202). -/
def State.takeCached (s : State) : Byte × State :=
  (s.cachedByte, { s with rcn := ⟨s.rcn.val - 1, by omega⟩ })

/-- `ReadByte()` (R202). -/
def State.readByte (s : State) : Byte × State :=
  if s.rcn = 0 then
    let r := s.inWord
    (r.2.fillCache r.1).takeCached
  else s.takeCached

/-- `SYNC` as a step (R201): the cache and every lane's `BUF`, `AVAIL` and `DACC` are emptied. -/
def State.sync (s : State) : State :=
  forLanes allLanes (fun l => State.modLane l fun x => { x with buf := 0, avail := 0, dacc := 0 })
    { s with rcn := 0, rcb := Vector.replicate 4 0 }

/-- `SYNC` (R201). -/
def execSync (s : State) : Host.Outcome State Fault Refusal := finish { rawCache := true, lanes := true } s s.sync

/-- `RDBYTE` (R202). -/
def execRdbyte (s : State) : Host.Outcome State Fault Refusal :=
  let r := s.readByte
  finish { Writes.rawReader with res := true } s (r.2.setRes r.1.toNat)

/-- `RDWORD` (R203). -/
def execRdword (s : State) : Host.Outcome State Fault Refusal :=
  let r := s.inWord
  finish { res := true, readPos := true } s (r.2.setRes r.1.toNat)

/-- `PEEK lo, cnt, n` (R205). -/
def execPeek (lo : BitVec 5) (cnt n : BitVec 6) (s : State) : Host.Outcome State Fault Refusal :=
  finish .laneReader s (s.peek (cmdLanes lo cnt) n.toNat)

/-- `PEEKV lo, cnt` (R206). -/
def execPeekv (lo : BitVec 5) (cnt : BitVec 6) (s : State) : Host.Outcome State Fault Refusal :=
  finish .laneReader s (s.peekV (cmdLanes lo cnt) s.nvWidth)

/-- `DISCARD lo, cnt, n` (R207). -/
def execDiscard (lo : BitVec 5) (cnt n : BitVec 6) (s : State) : Host.Outcome State Fault Refusal :=
  finish { lanes := true } s (s.discardV (cmdLanes lo cnt) fun _ => n.toNat)

/-- `DISCARDV lo, cnt` (R208). -/
def execDiscardv (lo : BitVec 5) (cnt : BitVec 6) (s : State) : Host.Outcome State Fault Refusal :=
  finish { lanes := true } s (s.discardV (cmdLanes lo cnt) s.nvWidth)

/-- `DISCARDACC lo, cnt` (R209). -/
def execDiscardacc (lo : BitVec 5) (cnt : BitVec 6) (s : State) : Host.Outcome State Fault Refusal :=
  finish { lanes := true } s (s.discardAcc (cmdLanes lo cnt))

end Sys2Proof.Machine
end

