-- ==== Sys2Proof/Machine/Fse.lean ====
section
/-! DEFINITION. The FSE decode-table engine (42_fse.md R250 to R261): the spread of a distribution into cells, the reading of
a compressed distribution, the predefined distributions, the live states, and the commands `FSEBUILD`, `FSEPREDEF`,
`FSEINIT`, `FSEDEC`, `FSEDECNP`. -/

namespace Sys2Proof.Machine

/-! ### Tables (R251, R253) -/

/-- The arena index of `Cell(t, x)` (R251). -/
def State.cellIndex (s : State) (t : Tbl) (x : Nat) : Nat := tableStart t + lowBits (s.accLog t) x

/-- `Cell(t, x)` (R251). -/
def State.cell (s : State) (t : Tbl) (x : Nat) : FseCell := s.fseCellAt (s.cellIndex t x)

/-- The cell of symbol `sym` with probability `p` at rank `k` among its slots, for accuracy log `A` (R253). -/
def slotCell (A sym p k : Nat) : FseCell :=
  let ns := p + k
  let nb := A - floorlog2 ns
  ⟨BitVec.ofNat 8 sym, BitVec.ofNat 4 nb, BitVec.ofNat 16 (ns * 2 ^ nb - 2 ^ A)⟩

/-- The cells of a distribution in slot order: ascending symbol, and within a symbol ascending rank (R253). `prob` lists
the probabilities of the symbols from `sym` on. -/
def slotCells (A : Nat) : Nat → List Nat → List FseCell
  | _, [] => []
  | sym, p :: ps => tabFrom (slotCell A sym p) p 0 ++ slotCells A (sym + 1) ps

/-- The cell position of slot `j` (R253). -/
def slotPos (A j : Nat) : Nat := (j * (5 * 2 ^ (A - 3) + 3)) % 2 ^ A

/-- The cells written to table `t`, from slot `j` on (R253). -/
def writeSlots (t : Tbl) (A : Nat) : Nat → List FseCell → State → State
  | _, [], s => s
  | j, c :: cs, s => writeSlots t A (j + 1) cs (s.setFseCell (tableStart t + slotPos A j) c)

/-- `BuildTable(t, A, prob)` (R253). -/
def State.buildTable (t : Tbl) (A : Nat) (prob : List Nat) (s : State) : State :=
  (writeSlots t A 0 (slotCells A 0 prob) s).setBuilt t A

/-! ### Compressed distributions (R254) -/

/-- The progress of `ReadDistribution`: the probabilities read, their sum, the next symbol, and the machine. -/
structure DistProgress where
  prob : List Nat
  cum : Nat
  sym : Nat
  mach : State

/-- The loop condition of `ReadDistribution` (R254). -/
def DistProgress.more (t : Tbl) (A : Nat) (d : DistProgress) : Bool := d.cum < 2 ^ A ∧ d.sym ≤ maxSym t

/-- The code lane `l` gives, in a peek already made (R254): a probability, or a zero with its repeat count. Once the
distribution is complete no lane takes a code (the `break`). -/
def takeCode (t : Tbl) (A : Nat) (d : DistProgress) (l : LaneId) : DistProgress :=
  if d.more t A then
    let rem := 2 ^ A - d.cum
    let nb := highbit1 rem
    let pv := (d.mach.lane l).pv.toNat
    let v := lowBits nb pv
    let s := if rem < v then d.mach.warn .fseProbOverflow else d.mach
    let v := min v rem
    if v = 0 then
      let r := lowBits zprb (pv / 2 ^ nb)
      { d with sym := d.sym + 1 + r, mach := s.drop l (nb + zprb) }
    else
      { prob := d.prob.set d.sym v, cum := d.cum + v, sym := d.sym + 1, mach := s.drop l nb }
  else d

/-- One iteration of `ReadDistribution` (R254): peek all 32 lanes, then one code a lane in ascending order. -/
def distRound (t : Tbl) (A : Nat) (d : DistProgress) : DistProgress :=
  allLanes.foldl (takeCode t A) { d with mach := d.mach.peek allLanes (maxAcc t + 1 + zprb) }

/-- The loop of `ReadDistribution` (R254), at most `fuel` iterations. Every code advances the symbol, so one iteration a
symbol is enough (R408; log entry 14). -/
def distLoop (t : Tbl) (A : Nat) : Nat → DistProgress → DistProgress
  | 0, d => d
  | fuel + 1, d => if d.more t A then distLoop t A fuel (distRound t A d) else d

/-- The largest index from `k` on with a nonzero probability, or `best` if there is none (R254). -/
def lastNonzero : List Nat → Nat → Nat → Nat
  | [], _, best => best
  | p :: ps, k, best => lastNonzero ps (k + 1) (if 0 < p then k else best)

/-- The start of `ReadDistribution` (R254). -/
def distStart (t : Tbl) (s : State) : DistProgress := ⟨List.replicate (maxSym t + 1) 0, 0, 0, s⟩

/-- The completion of a short sum (R254): the deficit goes to the last symbol with a nonzero probability, or to symbol 0. -/
def distComplete (A : Nat) (d : DistProgress) : List Nat × State :=
  if d.cum < 2 ^ A then
    let k := lastNonzero d.prob 0 0
    (d.prob.set k (d.prob.getD k 0 + (2 ^ A - d.cum)), d.mach.warn .fseProbSum)
  else (d.prob, d.mach)

/-- `ReadDistribution(t, A)` (R254): the probabilities of the symbols 0 to `MAX_SYM[t]`. -/
def State.readDistribution (t : Tbl) (A : Nat) (s : State) : List Nat × State :=
  distComplete A (distLoop t A (maxSym t + 1) (distStart t s))

/-! ### Predefined distributions (R255) -/

/-- The accuracy log and the probabilities of a predefined distribution (R255), an entry printed -1 being 1 and the
symbols not listed 0; `HW` has none. -/
def predefined : Tbl → Option (Nat × List Nat)
  | .ll => some (6, [4, 3, 2, 2, 2, 2, 2, 2, 2, 2, 2, 2, 2, 1, 1, 1, 2, 2, 2, 2, 2, 2, 2, 2, 2, 3, 2, 1, 1, 1, 1, 1,
      1, 1, 1, 1])
  | .ml => some (6, [1, 4, 3, 2, 2, 2, 2, 2, 2, 1, 1, 1, 1, 1, 1, 1, 1, 1, 1, 1, 1, 1, 1, 1, 1, 1, 1, 1, 1, 1, 1, 1,
      1, 1, 1, 1, 1, 1, 1, 1, 1, 1, 1, 1, 1, 1, 1, 1, 1, 1, 1, 1, 1])
  | .off => some (5, [1, 1, 1, 1, 1, 1, 2, 2, 2, 1, 1, 1, 1, 1, 1, 1, 1, 1, 1, 1, 1, 1, 1, 1, 1, 1, 1, 1, 1, 0, 0, 0])
  | .hw => none

/-! ### Building as a step (R256, R257) -/

/-- `A <- a` of `FSEBUILD` with its two clamps (R256): the accuracy log, and the state with their warnings. -/
def State.clampAcc (t : Tbl) (a : Nat) (s : State) : Nat × State :=
  if maxAcc t < a then (maxAcc t, s.warn .fseAcclogRange)
  else if a < minAccuracyLog then (minAccuracyLog, s.warn .fseAcclogMin)
  else (a, s)

/-- `FSEBUILD` as a step (R256): the built accuracy log, and the state. -/
def State.fseBuild (t : Tbl) (a : Nat) (s : State) : Nat × State :=
  let c := s.clampAcc t a
  let d := c.2.readDistribution t c.1
  (c.1, d.2.buildTable t c.1 d.1)

/-- `FSEPREDEF` as a step (R257): the built accuracy log, and the state. `HW` has no predefined distribution and no legal
command asks for it (R145 item 5): nothing is built. -/
def State.fsePredef (t : Tbl) (s : State) : Nat × State :=
  match predefined t with
  | some p => (p.1, s.buildTable t p.1 p.2)
  | none => (0, s)

/-! ### Live states (R258 to R260) -/

/-- `FseInit(t, lanes)` (R258). -/
def State.fseInit (t : Tbl) (ls : List LaneId) (s : State) : State :=
  let s1 := if s.built t then s else s.warn .tableNotBuilt
  forLanes ls (fun l => State.setFse l t 0 (if s.built t then s.tacc[tblIdx t] else 0)) s1

/-- The effect of a decode through an unbuilt table (R259, R260, R307): the warning, and `SYM` = 0 on every lane. -/
def State.decodeUnbuilt (ls : List LaneId) (s : State) : State :=
  forLanes ls (fun l => State.setSym l 0) (s.warn .tableNotBuilt)

/-- Lane `l` decodes the cell `c` (R259, R260): the symbol, and the next state's base and drain level. -/
def State.takeCell (l : LaneId) (t : Tbl) (c : FseCell) (s : State) : State :=
  (s.setSym l c.sym.toNat).setFse l t c.base c.nb

/-- One lane of `FseDec`, after the peek (R259). -/
def State.fseDecLane (t : Tbl) (l : LaneId) (s : State) : State :=
  let x := s.fss l t + (s.lane l).pv.toNat
  (s.drop l (s.fsd l t)).takeCell l t (s.cell t x)

/-- `FseDec(t, lanes)` (R259): the whole peek, then each lane. -/
def State.fseDec (t : Tbl) (ls : List LaneId) (s : State) : State :=
  if s.built t then forLanes ls (State.fseDecLane t) (s.peekV ls fun l => s.fsd l t)
  else s.decodeUnbuilt ls

/-- One lane of `FseDecNP` (R260): the bits stand in the peek window at offset `DACC`. -/
def State.fseDecNPLane (t : Tbl) (l : LaneId) (s : State) : State :=
  let x := s.lane l
  let d := s.fsd l t
  let s1 := if x.pw.toNat < x.dacc.toNat + d then s.warn .windowOverrun else s
  let bits := lowBits d (x.pv.toNat / 2 ^ x.dacc.toNat)
  let s2 := s1.modLane l fun y => { y with dacc := BitVec.ofNat 8 (min (x.dacc.toNat + d) 255) }
  s2.takeCell l t (s.cell t (s.fss l t + bits))

/-- `FseDecNP(t, lanes)` (R260). -/
def State.fseDecNP (t : Tbl) (ls : List LaneId) (s : State) : State :=
  if s.built t then forLanes ls (State.fseDecNPLane t) s else s.decodeUnbuilt ls

/-! ### Commands -/

/-- `FSEBUILD t, n` (R256). -/
def execFsebuild (t : Tbl) (n : BitVec 6) (s : State) : Host.Outcome State Fault Refusal :=
  let r := s.fseBuild t n.toNat
  finish { Writes.laneReader with res := true, fseTables := true } s (r.2.setRes r.1)

/-- `FSEPREDEF t` (R257). `FSEPREDEF HW` is no legal command (R145 item 5): it has the effect of one (R146). -/
def execFsepredef (t : Tbl) (s : State) : Host.Outcome State Fault Refusal :=
  match t with
  | .hw => illegalCommand s
  | t =>
    let r := s.fsePredef t
    finish { res := true, fseTables := true } s (r.2.setRes r.1)

/-- `FSEINIT t, lo, cnt` (R258). -/
def execFseinit (t : Tbl) (lo : BitVec 5) (cnt : BitVec 6) (s : State) : Host.Outcome State Fault Refusal :=
  finish { lanes := true } s (s.fseInit t (cmdLanes lo cnt))

/-- `FSEDEC t, lo, cnt` (R259). -/
def execFsedec (t : Tbl) (lo : BitVec 5) (cnt : BitVec 6) (s : State) : Host.Outcome State Fault Refusal :=
  finish .laneReader s (s.fseDec t (cmdLanes lo cnt))

/-- `FSEDECNP t, lo, cnt` (R260). -/
def execFsedecnp (t : Tbl) (lo : BitVec 5) (cnt : BitVec 6) (s : State) : Host.Outcome State Fault Refusal :=
  finish { lanes := true } s (s.fseDecNP t (cmdLanes lo cnt))

end Sys2Proof.Machine
end

