-- ==== Sys2Proof/Machine/Huffman.lean ====
section
/-! DEFINITION. The canonical Huffman table builder and decoder (43_huffman.md R300 to R308): the weight readers, the weight
arithmetic, the expansion into the decode table, and the commands `HUFWEX`, `HUFWFSE`, `HUFEXPAND`, `HUFDEC`. -/

namespace Sys2Proof.Machine

/-! ### Weights (R301 to R303) -/

/-- `HUFW[0..255] <- 0`. -/
def State.clearWeights (s : State) : State := { s with hufw := Vector.replicate 256 0 }

/-- One nibble of the explicit weights (R302): weight `k` of `N`, a value above 11 warning and becoming 0. -/
def State.storeWeight (N k w : Nat) (s : State) : State :=
  if k < N then
    if maxHufBits < w then (s.warn .hufWeightRange).setHufWeight k 0 else s.setHufWeight k w
  else s

/-- The bytes `i` and on of the explicit weights (R159, R302), `left` of them, the high nibble first. -/
def readWeightBytes (N : Nat) : Nat → Nat → State → State
  | 0, _, s => s
  | left + 1, i, s =>
    let r := s.readByte
    let b := r.1.toNat
    readWeightBytes N left (i + 1) ((r.2.storeWeight N (2 * i) (b / 16)).storeWeight N (2 * i + 1) (b % 16))

/-- `HUFN <- N`. -/
def State.setHufn (N : Nat) (s : State) : State := { s with hufn := BitVec.ofNat 8 N }

/-- `HufWeightsExplicit()` (R302): the weight count, and the state. -/
def State.hufWeightsExplicit (s : State) : Nat × State :=
  let r := s.readByte
  let N := r.1.toNat
  (N, (readWeightBytes N ((N + 1) / 2) 0 r.2.clearWeights).setHufn N)

/-- `HUFW[k + l] <- SYM[l]` for the lanes of one batch (R303). -/
def storeSymbols (k : Nat) (ls : List LaneId) (s : State) : State :=
  forLanes ls (fun l s => s.setHufWeight (k + l.val) (s.lane l).sym.toNat) s

/-- The weights `k` and on, in batches of up to 32 (R303), at most `fuel` batches. -/
def fseWeightBatches (Nw : Nat) : Nat → Nat → State → State
  | 0, _, s => s
  | fuel + 1, k, s =>
    if k < Nw then
      let ls := laneRange 0 (min 32 (Nw - k))
      fseWeightBatches Nw fuel (k + min 32 (Nw - k)) (storeSymbols k ls (s.fseDec .hw ls))
    else s

/-- `HufWeightsFse(aux)` (R303): the weight count, and the state. -/
def State.hufWeightsFse (aux : Nat) (s : State) : Nat × State :=
  let r := s.readByte
  let Nw := r.1.toNat
  let A := 5 + aux
  let d := r.2.readDistribution .hw A
  let s1 := (d.2.buildTable .hw A d.1).fseInit .hw allLanes
  (Nw, (fseWeightBatches Nw ((Nw + 31) / 32) 0 s1.clearWeights).setHufn Nw)

/-! ### Weight arithmetic (R304) -/

/-- The number of table entries a weight owns: 2^(w-1), none for weight 0. -/
def weightSpan (w : Nat) : Nat := if w = 0 then 0 else 2 ^ (w - 1)

/-- `total` (R304). -/
def weightTotal (ws : List Nat) : Nat := (ws.map weightSpan).sum

/-- `weightBits` (R304). -/
def weightBits (ws : List Nat) : Nat := highbit1 (weightTotal ws)

/-- `rest` (R304). -/
def weightRest (ws : List Nat) : Nat := 2 ^ weightBits ws - weightTotal ws

/-- `u`, the implied weight (R304; 90_conflicts.md C1). -/
def impliedWeight (ws : List Nat) : Nat := highbit1 (weightRest ws)

/-- Whether a number is a power of two. -/
def isPow2 (x : Nat) : Bool := x != 0 && x == 2 ^ Nat.log2 x

/-- The transmitted weights `HUFW[0..HUFN-1]`. -/
def State.weights (s : State) : List Nat := tabFrom s.hufWeight s.hufn.toNat 0

/-! ### Expansion (R305, R306) -/

/-- `cnt[w]` with the implied symbol counted (R305). -/
def weightCount (ws : List Nat) (w : Nat) : Nat := ws.count w + (if w = impliedWeight ws then 1 else 0)

/-- The exclusive prefix sum of `cnt[w] << (w-1)` over the weights 1 to `n` (R305): `start[n + 1]`. -/
def rangeStart (ws : List Nat) : Nat → Nat
  | 0 => 0
  | n + 1 => rangeStart ws n + weightCount ws (n + 1) * weightSpan (n + 1)

/-- The entry `e` written at the bit-reversed places of the numeric values `v` and on, `n` of them (R305). -/
def fillRange (wb : Nat) (e : HufEntry) : Nat → Nat → State → State
  | 0, _, s => s
  | n + 1, v, s => fillRange wb e n (v + 1) (s.setHufEntry (bitrev wb v) e)

/-- The gap fill (R305): the entries `i` and on, `n` of them. -/
def gapFill (e : HufEntry) : Nat → Nat → State → State
  | 0, _, s => s
  | n + 1, i, s => gapFill e n (i + 1) (s.setHufEntry i e)

/-- The symbols `sym` and on place their ranges (R305). `next` holds `next[w]` for the weights 0 to 11. -/
def placeSymbols (wb : Nat) : List Nat → Nat → List Nat → State → State
  | [], _, _, s => s
  | w :: ws, sym, next, s =>
    if w = 0 then placeSymbols wb ws (sym + 1) next s
    else
      let v := next.getD w 0
      placeSymbols wb ws (sym + 1) (next.set w (v + weightSpan w))
        (fillRange wb ⟨BitVec.ofNat 8 sym, BitVec.ofNat 4 (wb + 1 - w)⟩ (weightSpan w) v s)

/-- `HUFWB <- wb`, `HUFVALID <- 1`. -/
def State.setHufBuilt (wb : Nat) (s : State) : State := { s with hufwb := BitVec.ofNat 4 wb, hufvalid := true }

/-- The table of weights whose table log is at most 11 (R305). -/
def State.expandWeights (ws : List Nat) (s : State) : State :=
  let wb := weightBits ws
  let u := impliedWeight ws
  let start := tabFrom (fun w => rangeStart ws (w - 1)) 12 0
  let s1 := if isPow2 (weightRest ws) then s else s.warn .hufIncomplete
  let s2 := gapFill ⟨BitVec.ofNat 8 ws.length, BitVec.ofNat 4 (wb + 1 - u)⟩ (2 ^ wb) 0 s1
  (placeSymbols wb ws 0 start s2).setHufBuilt wb

/-- `HufExpand()` (R305): the table log, and the state. -/
def State.hufExpand (s : State) : Nat × State :=
  let ws := s.weights
  if maxHufBits < weightBits ws then
    (maxHufBits, (gapFill ⟨0, 0⟩ 2048 0 (s.warn .hufTablelogRange)).setHufBuilt maxHufBits)
  else (weightBits ws, s.expandWeights ws)

/-! ### Decoding (R307) -/

/-- One lane of `HufDec`, after the peek (R307). -/
def State.hufDecLane (l : LaneId) (s : State) : State :=
  let e := s.hufEntryAt (s.lane l).pv.toNat
  (s.setSym l e.sym.toNat).drop l e.len.toNat

/-- `HufDec(lanes)` (R307): the whole peek, then each lane. -/
def State.hufDec (ls : List LaneId) (s : State) : State :=
  if s.hufvalid then forLanes ls State.hufDecLane (s.peek ls s.hufwb.toNat) else s.decodeUnbuilt ls

/-! ### Commands -/

/-- `HUFWEX` (R302). -/
def execHufwex (s : State) : Host.Outcome State Fault Refusal :=
  let r := s.hufWeightsExplicit
  finish { Writes.rawReader with res := true, weights := true } s (r.2.setRes r.1)

/-- `HUFWFSE aux` (R303). -/
def execHufwfse (aux : BitVec 1) (s : State) : Host.Outcome State Fault Refusal :=
  let r := s.hufWeightsFse aux.toNat
  finish { Writes.rawReader with res := true, lanes := true, fseTables := true, weights := true } s (r.2.setRes r.1)

/-- `HUFEXPAND` (R305). -/
def execHufexpand (s : State) : Host.Outcome State Fault Refusal :=
  let r := s.hufExpand
  finish { res := true, hufTable := true } s (r.2.setRes r.1)

/-- `HUFDEC lo, cnt` (R307). -/
def execHufdec (lo : BitVec 5) (cnt : BitVec 6) (s : State) : Host.Outcome State Fault Refusal :=
  finish .laneReader s (s.hufDec (cmdLanes lo cnt))

end Sys2Proof.Machine
end

