-- ==== Sys2Proof/Machine/Sequences.lean ====
section
/-! DEFINITION. The sequence and literal emission engine (44_sequences.md R350 to R363): packed sizes, literals, the match
copy, the code tables, the repeat offsets, and the commands `RDPSIZE`, `LITCFG`, `SETRLE`, `LITTARGET`, `MATCH`, `SEQEXEC`. -/

namespace Sys2Proof.Machine

/-! ### Packed sizes (R154, R351) -/

/-- `ReadPackedSize()` (R351). -/
def State.readPackedSize (s : State) : Nat × State :=
  let r0 := s.readByte
  if r0.1.toNat % 2 = 0 then (r0.1.toNat / 2, r0.2)
  else
    let r1 := r0.2.readByte
    if r0.1.toNat % 4 = 1 then (packed2 r0.1 r1.1, r1.2)
    else
      let r2 := r1.2.readByte
      (packed3 r0.1 r1.1 r2.1, r2.2)

/-! ### Literals (R353 to R355) -/

/-- `LitCfg(mode, maxlit)` (R353). -/
def State.litCfg (mode : BitVec 2) (maxlit : Word) (s : State) : State :=
  let s1 := if mode = 3 then s.warn .litModeReserved else s
  { s1 with litMode := mode, maxLit := maxlit, litEmitted := 0, litTotal := 0 }

/-- `RLEBYTE <- b` (R354). -/
def State.setRle (b : Byte) (s : State) : State := { s with rleByte := b }

/-- `Emit(b); LITEMITTED <- LITEMITTED + 1` (R355). -/
def State.emitLit (b : Byte) (s : State) : State :=
  let s1 := s.emit b
  { s1 with litEmitted := s1.litEmitted + 1 }

/-- One raw literal (R355, modes 1 and 3). -/
def State.emitRawLit (s : State) : State :=
  let r := s.readByte
  r.2.emitLit r.1

/-- The literals of one Huffman decode emitted in lane order (R355). -/
def State.emitLaneLits (ls : List LaneId) (s : State) : State :=
  forLanes ls (fun l s => s.emitLit ((s.lane l).sym.extractLsb' 0 8)) s

/-- The Huffman literals up to `target` (R355), at most `fuel` decodes: literal k is on lane k mod 32. -/
def hufLits (target : Nat) : Nat → State → State
  | 0, s => s
  | fuel + 1, s =>
    let e := s.litEmitted.toNat
    if e < target then
      let ls := laneRange (e % 32) (min (32 - e % 32) (target - e))
      hufLits target fuel ((s.hufDec ls).emitLaneLits ls)
    else s

/-- The literals from `LITEMITTED` up to `target`, which is at most `MAXLIT` (R355). -/
def State.emitLits (target : Nat) (s : State) : State :=
  let n := target - s.litEmitted.toNat
  if s.litMode = 0 then
    if s.litEmitted.toNat < target ∧ s.hufvalid = false then times n (State.emitLit 0) (s.warn .tableNotBuilt)
    else hufLits target n s
  else if s.litMode = 2 then times n (fun s => s.emitLit s.rleByte) s
  else times n State.emitRawLit s

/-- `LitTarget(target)` (R355): a target above `MAXLIT` warns and becomes `MAXLIT`. -/
def State.litTarget (target : Nat) (s : State) : State :=
  if s.maxLit.toNat < target then (s.warn .litOverrun).emitLits s.maxLit.toNat else s.emitLits target

/-! ### Match copy (R357) -/

/-- One byte of a match with nonzero offset (R357). -/
def State.copyByte (off : Nat) (s : State) : State := s.emit (s.outByte ((s.writePos.toNat : Int) - off))

/-- `Match(off, len)` (R357): byte by byte, so a source byte may be one the same match wrote. -/
def State.matchCopy (off len : Nat) (s : State) : State :=
  if off = 0 then times len (State.emit 0) (s.warn .offsetZero)
  else times len (State.copyByte off) (if s.writePos.toNat < off then s.warn .matchBeforeStart else s)

/-! ### Sequence codes (R358 to R361) -/

/-- `LL_BASE` of the codes 16 to 35 (R358). -/
def llBaseTable : List Nat :=
  [16, 18, 20, 22, 24, 28, 32, 40, 48, 64, 128, 256, 512, 1024, 2048, 4096, 8192, 16384, 32768, 65536]

/-- `LL_BITS` of the codes 16 to 35 (R358). -/
def llBitsTable : List Nat := [1, 1, 1, 1, 2, 2, 3, 3, 4, 6, 7, 8, 9, 10, 11, 12, 13, 14, 15, 16]

/-- `(LL_BASE[c], LL_BITS[c])` (R358); a code above 35 stands in no built table (log entry 8). -/
def llCode (c : Nat) : Nat × Nat :=
  if c < 16 then (c, 0)
  else if c ≤ 35 then (llBaseTable.getD (c - 16) 0, llBitsTable.getD (c - 16) 0)
  else Config.beyondLLCode c

/-- `ML_BASE` of the codes 32 to 52 (R359). -/
def mlBaseTable : List Nat :=
  [35, 37, 39, 41, 43, 47, 51, 59, 67, 83, 99, 131, 259, 515, 1027, 2051, 4099, 8195, 16387, 32771, 65539]

/-- `ML_BITS` of the codes 32 to 52 (R359). -/
def mlBitsTable : List Nat := [1, 1, 1, 1, 2, 2, 3, 3, 4, 4, 5, 7, 8, 9, 10, 11, 12, 13, 14, 15, 16]

/-- `(ML_BASE[c], ML_BITS[c])` (R359); a code above 52 stands in no built table (log entry 8). -/
def mlCode (c : Nat) : Nat × Nat :=
  if c < 32 then (c + 3, 0)
  else if c ≤ 52 then (mlBaseTable.getD (c - 32) 0, mlBitsTable.getD (c - 32) 0)
  else Config.beyondMLCode c

/-- The offset value of OF code `c` with extra bits `x` (R360; 90_conflicts.md C7); a code above 31 stands in no built
table (log entry 8). -/
def offsetValue (c x : Nat) : Nat := if c ≤ 31 then (2 ^ c + x) % 2 ^ 32 else (Config.beyondOFCode c x).toNat

/-- `REP <- (a, b, c)`. -/
def State.setRep (a b c : Word) (s : State) : State := { s with rep0 := a, rep1 := b, rep2 := c }

/-- `ResolveOffset(ov, llv)` (R361; 90_conflicts.md C2): the offset, and the state with the repeat offsets rotated.
R360 gives no offset value 0; only a free one can be 0 (log entry 8), and the model's choice is that it selects `REP[0]`. -/
def State.resolveOffset (ov llv : Nat) (s : State) : Nat × State :=
  if 3 < ov then
    let off := BitVec.ofNat 32 (ov - 3)
    (off.toNat, s.setRep off s.rep0 s.rep1)
  else
    match (if llv ≠ 0 then ov - 1 else ov) with
    | 0 => (s.rep0.toNat, s)
    | 1 => (s.rep1.toNat, s.setRep s.rep1 s.rep0 s.rep2)
    | 2 => (s.rep2.toNat, s.setRep s.rep2 s.rep0 s.rep1)
    | _ =>
      let off := s.rep0 - 1
      (off.toNat, s.setRep off s.rep0 s.rep1)

/-! ### Sequence execution (R362) -/

/-- One decoded sequence: literal length, match length, offset value. -/
structure SeqVals where
  llv : Nat
  mlv : Nat
  ov : Nat
deriving DecidableEq, Repr

/-- `LITTOTAL <- tot` (R362). -/
def State.setLitTotal (tot : Nat) (s : State) : State := { s with litTotal := BitVec.ofNat 32 tot }

/-- `tot` of step 4 with its clamp (R362): the total, and the state with the warning. -/
def State.clampTotal (llv : Nat) (s : State) : Nat × State :=
  let tot := s.litTotal.toNat + llv
  if s.maxLit.toNat < tot then (s.maxLit.toNat, s.warn .litOverrun) else (tot, s)

/-- Step 4 of R362 for one sequence: resolve the offset, emit the literals, copy the match. -/
def State.execSeq (q : SeqVals) (s : State) : State :=
  let r := s.resolveOffset q.ov q.llv
  let c := r.2.clampTotal q.llv
  ((c.2.setLitTotal c.1).litTarget c.1).matchCopy r.1 q.mlv

/-- The symbols the lanes hold. -/
def State.syms (s : State) (l : LaneId) : Nat := (s.lane l).sym.toNat

/-- The low `n` bits of each lane's peek window, from bit `k` on. -/
def State.windowBits (s : State) (k n : LaneId → Nat) (l : LaneId) : Nat :=
  lowBits (n l) ((s.lane l).pv.toNat / 2 ^ k l)

/-- The decoded fields of one batch (R162, R362 steps 1 to 3): per lane the sequence, and the machine after the reads. -/
def State.readBatch (G : List LaneId) (s : State) : (LaneId → SeqVals) × State :=
  let s1 := s.peekV G fun l => s.fsd l .ll + s.fsd l .ml + s.fsd l .off
  let sL := s1.fseDecNP .ll G
  let sM := sL.fseDecNP .ml G
  let sO := sM.fseDecNP .off G
  let llb := fun l => (llCode (sL.syms l)).2
  let mlb := fun l => (mlCode (sM.syms l)).2
  let ofb := fun l => sO.syms l
  let s2 := (sO.discardAcc G).peekV G fun l => llb l + mlb l
  let s3 := (s2.discardV G fun l => llb l + mlb l).peekV G ofb
  (fun l =>
    { llv := (llCode (sL.syms l)).1 + s2.windowBits (fun _ => 0) llb l
      mlv := (mlCode (sM.syms l)).1 + s2.windowBits llb mlb l
      ov := offsetValue (ofb l) (s3.windowBits (fun _ => 0) ofb l) },
   s3.discardV G ofb)

/-- One batch of R362: every lane's bits are read before any sequence executes. -/
def State.seqBatch (G : List LaneId) (s : State) : State :=
  let r := s.readBatch G
  forLanes G (fun l => State.execSeq (r.1 l)) r.2

/-- The batches of R362, with `left` sequences still to execute, at most `fuel` batches. -/
def seqBatches : Nat → Nat → State → State
  | 0, _, s => s
  | fuel + 1, left, s =>
    if 0 < left then seqBatches fuel (left - min 32 left) (s.seqBatch (laneRange 0 (min 32 left))) else s

/-- `NUMSEQ <- n`. -/
def State.setNumSeq (n : Nat) (s : State) : State := { s with numSeq := BitVec.ofNat 32 n }

/-- `SeqExec()` (R362). -/
def State.seqExec (s : State) : State :=
  let r := s.readPackedSize
  let s1 := r.2.setNumSeq r.1
  if s1.built .ll && s1.built .ml && s1.built .off then
    let s2 := ((s1.fseInit .ll allLanes).fseInit .ml allLanes).fseInit .off allLanes
    let s3 := seqBatches ((r.1 + 31) / 32) r.1 s2
    s3.litTarget s3.maxLit.toNat
  else
    let s2 := s1.warn .tableNotBuilt
    s2.litTarget s2.maxLit.toNat

/-! ### Commands -/

/-- `RDPSIZE` (R351). -/
def execRdpsize (s : State) : Host.Outcome State Fault Refusal :=
  let r := s.readPackedSize
  finish { Writes.rawReader with res := true } s (r.2.setRes r.1)

/-- `LITCFG mode` (R353): maxLiterals is `ARG0`. -/
def execLitcfg (mode : BitVec 2) (s : State) : Host.Outcome State Fault Refusal :=
  finish { literals := true } s (s.litCfg mode s.arg0)

/-- `SETRLE` (R354). -/
def execSetrle (s : State) : Host.Outcome State Fault Refusal :=
  finish { literals := true } s (s.setRle (s.arg0.extractLsb' 0 8))

/-- `LITTARGET` (R355). -/
def execLittarget (s : State) : Host.Outcome State Fault Refusal :=
  let t := s.litTarget s.arg0.toNat
  finish { Writes.rawReader with res := true, writePos := true, lanes := true, literals := true } s
    (t.setRes t.litEmitted.toNat)

/-- `MATCH` (R357). -/
def execMatchcopy (s : State) : Host.Outcome State Fault Refusal :=
  finish { writePos := true } s (s.matchCopy s.arg0.toNat s.arg1.toNat)

/-- `SEQEXEC` (R362). -/
def execSeqexec (s : State) : Host.Outcome State Fault Refusal :=
  let t := s.seqExec
  finish { Writes.rawReader with
    res := true, writePos := true, lanes := true, reps := true, literals := true, numSeq := true } s
    (t.setRes t.numSeq.toNat)

end Sys2Proof.Machine
end

