-- ==== Sys2Proof/Machine/Blocks.lean ====
section
/-! DEFINITION. The block driver (45_block_driver.md R400 to R408): the block handlers, the `Run` state machine, and the
commands `RESET`, `CBLOCK`, `RLEBLOCK`, `RAWBLOCK`, `BLOCK`, `RUN`. -/

namespace Sys2Proof.Machine

/-! ### Block handlers (R403 to R405) -/

/-- Reserved bits of a descriptor or accuracy byte: nonzero warns and is ignored (R155 to R157). -/
def State.checkReserved (r : Nat) (s : State) : State := if r = 0 then s else s.warn .reservedNonzero

/-- The literal section of a compressed block (R163 items 1 to 4, R403). -/
def State.litSection (aux : Nat) (s : State) : State :=
  let r := s.readByte
  let d := r.1
  let p := (r.2.checkReserved (descReserved d)).readPackedSize
  let s1 := p.2.litCfg (descLitMode d) (BitVec.ofNat 32 p.1)
  if descLitMode d = 2 then
    let b := s1.readByte
    b.2.setRle b.1
  else if descLitMode d = 0 then
    (if descWeightMode d then (s1.hufWeightsFse aux).2 else s1.hufWeightsExplicit.2).hufExpand.2
  else s1

/-- One sequence table of a compressed block (R163 item 6, R403). -/
def State.seqTable (d : Byte) (t : Tbl) (s : State) : State :=
  if descPredef d t then (s.fsePredef t).2
  else
    let a := s.readByte
    ((a.2.checkReserved (accReserved a.1)).fseBuild t (accRequested a.1)).2

/-- The sequence descriptor and the three tables (R163 items 5 and 6, R403). -/
def State.seqTables (s : State) : State :=
  let r := s.readByte
  let s1 := r.2.checkReserved (descReserved r.1)
  ((s1.seqTable r.1 .ll).seqTable r.1 .ml).seqTable r.1 .off

/-- `CBlock(cw)` (R403): the bytes produced, and the state. -/
def State.cBlock (cw : Word) (s : State) : Dword × State :=
  let t := ((s.litSection (cwAux cw)).seqTables).seqExec
  let produced := t.writePos - s.writePos
  (produced, if produced.toNat = cwSize cw then t else t.warn .blockSizeMismatch)

/-- `RleBlock(cw)` (R404): the bytes produced, and the state. -/
def State.rleBlock (cw : Word) (s : State) : Nat × State :=
  let r := s.readByte
  (cwSize cw, times (cwSize cw) (State.emit r.1) r.2)

/-- `Emit(ReadByte())` (R405). -/
def State.emitRaw (s : State) : State :=
  let r := s.readByte
  r.2.emit r.1

/-- `RawBlock(cw)` (R405): the bytes produced, and the state. -/
def State.rawBlock (cw : Word) (s : State) : Nat × State := (cwSize cw, times (cwSize cw) State.emitRaw s)

/-! ### The stream (R402, R406, R407) -/

/-- `RUNSTATE <- r`. -/
def State.setRunState (r : RunState) (s : State) : State := { s with runState := r }

/-- The body of a block of the given control word, `RUNSTATE` naming its handler (R402, R406). -/
def State.blockBody (cw : Word) (s : State) : State :=
  match cwType cw with
  | 0 => ((s.setRunState .decodingCompressedBlock).cBlock cw).2
  | 1 => ((s.setRunState .decodingRLEBlock).rleBlock cw).2
  | 2 => ((s.setRunState .decodingRawBlock).rawBlock cw).2
  | _ => s.warn .blockTypeReserved

/-- `RUNSTATE` after a block (R402, R406): a block of type 3 ends the stream, and so does one whose `CONT` is 0. -/
def nextRunState (cw : Word) : RunState := if cwType cw < 3 ∧ cwCont cw then .awaitingBlock else .done

/-- `Block()` (R406): the control word read, and the state. -/
def State.block (s : State) : Word × State :=
  let r := s.sync.inWord
  (r.1, (r.2.blockBody r.1).setRunState (nextRunState r.1))

/-- The loop of `RUN` (R407), at most `fuel` blocks. -/
def runBlocks : Nat → State → State
  | 0, s => s
  | fuel + 1, s => if s.runState = .done then s else runBlocks fuel s.block.2

/-- The blocks a run decodes at most: ceil(IN_SIZE / 4) + 1 (R408; log entry 14). -/
def State.maxBlocks (s : State) : Nat := (s.inSize.toNat + 3) / 4 + 1

/-! ### Commands -/

/-- `RESET` (R401, R501). It raises no warning. -/
def execReset (s : State) : Host.Outcome State Fault Refusal := .next s.doReset

/-- `CBLOCK` (R403): the control word is `ARG0`. -/
def execCblock (s : State) : Host.Outcome State Fault Refusal :=
  let r := s.cBlock s.arg0
  finish { Writes.everything with runState := false } s { r.2 with res := r.1 }

/-- `RLEBLOCK` (R404): the control word is `ARG0`. -/
def execRleblock (s : State) : Host.Outcome State Fault Refusal :=
  let r := s.rleBlock s.arg0
  finish { Writes.rawReader with res := true, writePos := true } s (r.2.setRes r.1)

/-- `RAWBLOCK` (R405): the control word is `ARG0`. -/
def execRawblock (s : State) : Host.Outcome State Fault Refusal :=
  let r := s.rawBlock s.arg0
  finish { Writes.rawReader with res := true, writePos := true } s (r.2.setRes r.1)

/-- `BLOCK` (R406). -/
def execBlock (s : State) : Host.Outcome State Fault Refusal :=
  let r := s.block
  finish .everything s (r.2.setRes r.1.toNat)

/-- `RUN` (R407): the reset first, so the warnings of the run are those after it. -/
def execRun (s : State) : Host.Outcome State Fault Refusal :=
  let s0 := s.doReset
  let t := runBlocks s0.maxBlocks s0
  finish .everything s0 { t with res := t.writePos }

end Sys2Proof.Machine
end

