-- ==== Sys2Proof/Machine/Dispatch.lean ====
section
/-! DEFINITION. One arm per command: the meaning of each row of spec/opcode_table.json. -/

namespace Sys2Proof.Machine

def exec (i : Instr) (s : State) : Host.Outcome State Fault Refusal :=
  match i with
  | .reset => Sys2Proof.Machine.execReset s
  | .sync => Sys2Proof.Machine.execSync s
  | .rdword => Sys2Proof.Machine.execRdword s
  | .rdbyte => Sys2Proof.Machine.execRdbyte s
  | .rdpsize => Sys2Proof.Machine.execRdpsize s
  | .peek lo cnt n => Sys2Proof.Machine.execPeek lo cnt n s
  | .peekv lo cnt => Sys2Proof.Machine.execPeekv lo cnt s
  | .discard lo cnt n => Sys2Proof.Machine.execDiscard lo cnt n s
  | .discardv lo cnt => Sys2Proof.Machine.execDiscardv lo cnt s
  | .discardacc lo cnt => Sys2Proof.Machine.execDiscardacc lo cnt s
  | .fsebuild t n => Sys2Proof.Machine.execFsebuild t n s
  | .fsepredef t => Sys2Proof.Machine.execFsepredef t s
  | .fseinit t lo cnt => Sys2Proof.Machine.execFseinit t lo cnt s
  | .fsedec t lo cnt => Sys2Proof.Machine.execFsedec t lo cnt s
  | .fsedecnp t lo cnt => Sys2Proof.Machine.execFsedecnp t lo cnt s
  | .hufwex => Sys2Proof.Machine.execHufwex s
  | .hufwfse aux => Sys2Proof.Machine.execHufwfse aux s
  | .hufexpand => Sys2Proof.Machine.execHufexpand s
  | .hufdec lo cnt => Sys2Proof.Machine.execHufdec lo cnt s
  | .litcfg mode => Sys2Proof.Machine.execLitcfg mode s
  | .setrle => Sys2Proof.Machine.execSetrle s
  | .littarget => Sys2Proof.Machine.execLittarget s
  | .matchcopy => Sys2Proof.Machine.execMatchcopy s
  | .seqexec => Sys2Proof.Machine.execSeqexec s
  | .cblock => Sys2Proof.Machine.execCblock s
  | .rleblock => Sys2Proof.Machine.execRleblock s
  | .rawblock => Sys2Proof.Machine.execRawblock s
  | .block => Sys2Proof.Machine.execBlock s
  | .run => Sys2Proof.Machine.execRun s

end Sys2Proof.Machine
end

