-- ==== Sys2Proof/Machine/Flags.lean ====
section
/-! DEFINITION. The status bits (10_state.md R43, R48): the engine has no condition codes; `STATUS` is a read-only view of the
validity bits, `RUNSTATE` and the warning state. -/

namespace Sys2Proof.Machine

/-- A flag as a bit of a number. -/
def bit (b : Bool) (i : Nat) : Nat := if b then 2 ^ i else 0

/-- `STATUS` (R48). `BUSY` (bit 0) reads 0 at every point a model observes (R55; log entry 9); bits [31:11] read 0. -/
def State.status (s : State) : Word :=
  BitVec.ofNat 32
    (bit (s.runState = .done) 1 + s.runState.code * 4 + bit (s.stickyView != 0) 5 + bit s.hufvalid 6
      + bit (s.built .ll) 7 + bit (s.built .ml) 8 + bit (s.built .off) 9 + bit (s.built .hw) 10)

/-- `TACC` as the host reads it (R44): `TACC[t]` in bits [4t+3:4t]. -/
def State.taccView (s : State) : Word :=
  BitVec.ofNat 32 (s.accLog .ll + s.accLog .ml * 2 ^ 4 + s.accLog .off * 2 ^ 8 + s.accLog .hw * 2 ^ 12)

/-- `BUILD` (R44, R51): `SANITIZE` in bit 0, L = 32, `MAX_HUF_BITS`, `ZPRB`. -/
def State.build (s : State) : Word :=
  BitVec.ofNat 32 (bit s.sanitize 0 + 32 * 2 ^ 8 + maxHufBits * 2 ^ 16 + zprb * 2 ^ 24)

end Sys2Proof.Machine
end

