-- ==== Sys2Proof/Machine/HostPort.lean ====
section
/-! DEFINITION. The host's side (10_state.md R44 to R55): the register map, the command register, and what each pending
operation of the host does. -/

namespace Sys2Proof.Machine

/-- A register access the interface has (R54): an aligned 32-bit word. -/
def accessOk (bytes offset : Nat) : Bool := bytes == 4 && offset % 4 == 0

/-- The offset just past the register block (R44: offsets 0x000 to 0x2FC). -/
def blockEnd : Nat := 0x300

/-- The offset of `CMD` (R44). -/
def cmdOffset : Nat := 0x008

/-- A lane register of the window that starts at `base` (R44: offset base + 4l). -/
def windowLane (base offset : Nat) : LaneId := Fin.ofNat 32 ((offset - base) / 4)

/-- A register read (R44, R47 to R53): the value at an aligned offset of the block; `CMD` and every reserved offset
read 0. -/
def State.hostRead (s : State) (offset : Nat) : Word :=
  match offset with
  | 0x000 => Config.idValue
  | 0x004 => s.build
  | 0x00C => s.arg0
  | 0x010 => s.arg1
  | 0x014 => s.res.extractLsb' 0 32
  | 0x018 => s.res.extractLsb' 32 32
  | 0x01C => s.status
  | 0x020 => s.stickyView
  | 0x024 => s.warnCount
  | 0x028 => s.warnLast.setWidth 32
  | 0x02C => s.inSize
  | 0x030 => s.outCap
  | 0x034 => s.readPos.extractLsb' 0 32
  | 0x038 => s.readPos.extractLsb' 32 32
  | 0x03C => s.writePos.extractLsb' 0 32
  | 0x040 => s.writePos.extractLsb' 32 32
  | 0x044 => s.rep0
  | 0x048 => s.rep1
  | 0x04C => s.rep2
  | 0x050 => s.litMode.setWidth 32
  | 0x054 => s.rleByte.setWidth 32
  | 0x058 => s.maxLit
  | 0x05C => s.litEmitted
  | 0x060 => s.litTotal
  | 0x064 => s.numSeq
  | 0x068 => s.hufwb.setWidth 32
  | 0x06C => s.hufn.setWidth 32
  | 0x070 => s.taccView
  | _ =>
    if 0x100 ≤ offset ∧ offset < 0x180 then (s.lane (windowLane 0x100 offset)).pv
    else if 0x180 ≤ offset ∧ offset < 0x200 then (s.lane (windowLane 0x180 offset)).sym
    else if 0x200 ≤ offset ∧ offset < 0x280 then s.nv[windowLane 0x200 offset].setWidth 32
    else if 0x280 ≤ offset ∧ offset < 0x300 then (s.lane (windowLane 0x280 offset)).avail.setWidth 32
    else 0

/-- A register write other than to `CMD` (R44, R46, R50, R53): a read-only or reserved offset ignores it, and `NV[l]`
takes bits [5:0]. -/
def State.hostWrite (offset : Nat) (v : Word) (s : State) : State :=
  match offset with
  | 0x00C => { s with arg0 := v }
  | 0x010 => { s with arg1 := v }
  | 0x02C => { s with inSize := v }
  | 0x030 => { s with outCap := v }
  | _ =>
    if 0x200 ≤ offset ∧ offset < 0x280 then { s with nv := s.nv.set (windowLane 0x200 offset) (v.setWidth 6) } else s

/-- A write of command word `c` to `CMD` (R45): decoded, then executed to completion; an illegal word has only the
warning (R146). -/
def issue (c : Word) (s : State) : Host.Outcome State Fault Refusal :=
  match decode c with
  | .ok i => exec i s
  | .error _ => illegalCommand s

/-- The bytes a buffer can have: at most 2^32 - 1 of them (R110). -/
def bufferLimit : Nat := 2 ^ 32 - 1

/-- The effect of one operation of the host, made while the engine is idle (R40, R55, 70 R505). -/
def hostStep (op : HostOp) (s : State) : Host.Outcome State Fault Refusal :=
  match op with
  | .write bytes offset v =>
    if accessOk bytes offset then
      if offset < blockEnd then
        if offset = cmdOffset then issue v s else .next (s.hostWrite offset v)
      else .refused .outsideRegisterBlock
    else .refused .hostAccessShape
  | .read bytes offset =>
    if accessOk bytes offset then
      if offset < blockEnd then .next { s with hostData := s.hostRead offset } else .refused .outsideRegisterBlock
    else .refused .hostAccessShape
  | .placeIn a b => if a < bufferLimit then .next { s with inBuf := s.inBuf.write a b } else .fault .noSuchBufferByte
  | .placeOut a b => if a < bufferLimit then .next { s with outBuf := s.outBuf.write a b } else .fault .noSuchBufferByte
  | .powerOn => .next s.doPowerOn

end Sys2Proof.Machine
end

