-- ==== Sys2Proof/Machine/Step.lean ====
section
/-! DEFINITION. One step of the machine: the engine takes the host's next operation (10_state.md R55: one transition per
accepted command), and is idle while there is none (60_exceptions.md R464). -/

namespace Sys2Proof.Machine

/-- One step (R55). With no operation pending the engine is idle and all state survives (R464). -/
def step (s : State) : Host.Outcome State Fault Refusal :=
  match s.hostOps with
  | [] => .next s
  | op :: rest => hostStep op { s with hostOps := rest }

/-- The write of a command word to `CMD` (R45) put in front of the host's pending operations, so that the next step
issues it. -/
def State.withFetchWord (s : State) (nbits w : Nat) : State :=
  { s with hostOps := .write 4 cmdOffset (BitVec.ofNat 32 (w % 2 ^ nbits)) :: s.hostOps }

end Sys2Proof.Machine
end

