-- ==== Sys2Proof/Safety.lean ====
section
/-! DEFINITION. What counts as a good state: the clean launch of 70 R503, and the ranges the spec gives its registers, buffers
and tables (10_state.md R56, R60, R62 to R64; 20_memory.md R100), as predicates that claims use. -/

namespace Sys2Proof.Machine

/-- Both buffers stand in canonical form (R100; log entry 3). -/
def State.memOk (s : State) : Bool := s.inBuf.wf && s.outBuf.wf

/-- R56: `BUF[l] < 2^AVAIL[l]`, and the ranges of a lane's bit-buffer registers. A refill loads only below 32 buffered
bits, so `AVAIL` stays at most 63 (R204). -/
def Lane.bufOk (x : Lane) : Bool :=
  decide (x.buf.toNat < 2 ^ x.avail.toNat) && decide (x.avail.toNat ≤ 63) && decide (x.pv.toNat < 2 ^ x.pw.toNat)
    && decide (x.pw.toNat ≤ 32)

/-- R60: `FSD` is at most 9 and `FSS` below 2^9, for every table. -/
def Lane.fseOk (x : Lane) : Bool :=
  [Tbl.ll, .ml, .off, .hw].all fun t =>
    decide ((x.fsd[tblIdx t]).toNat ≤ 9) && decide ((x.fss[tblIdx t]).toNat < 2 ^ 9)

/-- Every lane's bit buffer is in range (R56). -/
def State.lanesOk (s : State) : Prop := ∀ l : LaneId, (s.lane l).bufOk = true

/-- R64: `LITEMITTED` and `LITTOTAL` never exceed `MAXLIT`. -/
def State.litOk (s : State) : Prop :=
  s.litEmitted.toNat ≤ s.maxLit.toNat ∧ s.litTotal.toNat ≤ s.maxLit.toNat

/-- R49: bit 0 and bits [31:20] of `WARN_STICKY` are 0. -/
def State.stickyOk (s : State) : Prop := s.warnSticky &&& 0xFFF00001#32 = 0

/-- A cell of a table built with accuracy log `A` (R62, R253): a symbol of the alphabet, and an interval
`[base, base + 2^nb)` of next states within `[0, 2^A)`. -/
def FseCell.ok (t : Tbl) (A : Nat) (c : FseCell) : Bool :=
  decide (c.sym.toNat ≤ maxSym t) && decide (c.nb.toNat ≤ A) && decide (c.base.toNat + 2 ^ c.nb.toNat ≤ 2 ^ A)

/-- A table marked built has a legal accuracy log, and its first 2^`TACC` cells are cells of such a table (R62, R251). -/
def State.fseTableOk (s : State) (t : Tbl) : Prop :=
  s.built t = true →
    minAccuracyLog ≤ s.accLog t ∧ s.accLog t ≤ maxAcc t ∧
      ∀ i, i < 2 ^ s.accLog t → (s.fseCellAt (tableStart t + i)).ok t (s.accLog t) = true

/-- The Huffman table in range (R63): a table log of at most 11, and no entry of it longer than the table log. -/
def State.hufOk (s : State) : Prop :=
  s.hufwb.toNat ≤ maxHufBits ∧
    (s.hufvalid = true → ∀ i, i < 2 ^ s.hufwb.toNat → (s.hufEntryAt i).len.toNat ≤ s.hufwb.toNat)

/-- The tables and the live states in range (R60, R62, R63). -/
def State.tablesOk (s : State) : Prop :=
  (∀ t, s.fseTableOk t) ∧ s.hufOk ∧ ∀ l : LaneId, (s.lane l).fseOk = true

/-- CleanLaunch of 70 R503. `STATUS.BUSY` = 0 holds of every state of the model (R55). -/
def State.cleanLaunch (s : State) : Prop :=
  s.runState = .awaitingBlock ∧ s.readPos = 0 ∧ s.writePos = 0 ∧ s.rcn = 0 ∧
    (∀ l : LaneId, (s.lane l).avail = 0 ∧ (s.lane l).buf = 0 ∧ (s.lane l).dacc = 0 ∧
      ∀ t, s.fss l t = 0 ∧ s.fsd l t = 0) ∧
    s.rep0 = 1 ∧ s.rep1 = 4 ∧ s.rep2 = 8 ∧ (∀ t, s.built t = false) ∧ s.hufvalid = false ∧
    s.litMode = 0 ∧ s.maxLit = 0 ∧ s.litEmitted = 0 ∧ s.litTotal = 0 ∧ s.numSeq = 0 ∧
    s.warnSticky = 0 ∧ s.warnCount = 0 ∧ s.warnLast = 0 ∧ s.warnLog = []

/-- What no command changes: the set-up registers `ARG0`, `ARG1`, `NV`, `IN_SIZE`, `OUT_CAP` (R46, R53, R501), the build
constant (R51), the input buffer (R102), and the host's own side. -/
structure HostKept (s t : State) : Prop where
  arg0 : t.arg0 = s.arg0
  arg1 : t.arg1 = s.arg1
  nv : t.nv = s.nv
  inSize : t.inSize = s.inSize
  outCap : t.outCap = s.outCap
  sanitize : t.sanitize = s.sanitize
  inBuf : t.inBuf = s.inBuf
  hostOps : t.hostOps = s.hostOps
  hostData : t.hostData = s.hostData

end Sys2Proof.Machine
end

