-- ==== Sys2Proof/Certificates/Slice0/Obligations.lean ====
section
/-! DEFINITION. The statements for the provers, and before them the words they are made of. A frame is said by an equation
`t = { s with ... }` that names every field the command may change: all other fields, both buffers among them, are then
unchanged. Where a command stores bytes, `Stored` says the frame of the output buffer through the read of one byte. -/

namespace Sys2Proof.Claims

open Sys2Proof.Machine

/-! ### Command words -/

/-- The command word with the given field values, as a number (30_encoding.md R141). -/
def wordOf (op lo cnt n t : Nat) : Nat := op + lo * 2 ^ 8 + cnt * 2 ^ 13 + n * 2 ^ 19 + t * 2 ^ 25

/-- The field `OP` of a word. -/
def opField (w : Nat) : Nat := w % 2 ^ 8

/-- The field `LO` of a word. -/
def loField (w : Nat) : Nat := w / 2 ^ 8 % 2 ^ 5

/-- The field `CNT` of a word. -/
def cntField (w : Nat) : Nat := w / 2 ^ 13 % 2 ^ 6

/-- The field `N` of a word. -/
def nField (w : Nat) : Nat := w / 2 ^ 19 % 2 ^ 6

/-- The field `T` of a word. -/
def tField (w : Nat) : Nat := w / 2 ^ 25 % 2 ^ 2

/-- The opcodes of R143. -/
def assignedOps : List Nat :=
  [0x01, 0x02, 0x03, 0x04, 0x05, 0x06, 0x07, 0x08, 0x09, 0x0A, 0x10, 0x11, 0x12, 0x13, 0x14, 0x20, 0x21, 0x22, 0x23,
    0x30, 0x31, 0x32, 0x33, 0x34, 0x40, 0x41, 0x42, 0x43, 0x44]

/-- The opcodes that use `LO` and `CNT` (R143). -/
def rangeOps : List Nat := [0x06, 0x07, 0x08, 0x09, 0x0A, 0x12, 0x13, 0x14, 0x23]

/-- The opcodes that use `N` (R143). -/
def nOps : List Nat := [0x06, 0x08, 0x10, 0x21, 0x30]

/-- The opcodes that use `T` (R143). -/
def tOps : List Nat := [0x10, 0x11, 0x12, 0x13, 0x14]

/-- R145: the seven items, over the value of the word. -/
def IllegalWord (w : Nat) : Prop :=
  opField w ∉ assignedOps ∨ w / 2 ^ 27 ≠ 0 ∨
    ((opField w ∉ rangeOps ∧ (loField w ≠ 0 ∨ cntField w ≠ 0)) ∨ (opField w ∉ nOps ∧ nField w ≠ 0) ∨
      (opField w ∉ tOps ∧ tField w ≠ 0)) ∨
    (opField w ∈ rangeOps ∧ 32 < loField w + cntField w) ∨ (opField w = 0x11 ∧ tField w = 3) ∨
    (opField w = 0x21 ∧ 1 < nField w) ∨ (opField w = 0x30 ∧ 3 < nField w)

/-! ### Warnings -/

/-- `s` with the warning registers of `t`. -/
def warningsOf (s t : State) : State :=
  { s with warnSticky := t.warnSticky, warnCount := t.warnCount, warnLast := t.warnLast, warnLog := t.warnLog }

/-- The warnings `es` were raised between `s` and `t`, in order, with the cursors each logged (60_exceptions.md R452, R454). -/
def WarnedAt (s t : State) (es : List WarnEntry) : Prop :=
  t.warnLog = s.warnLog ++ es ∧ t.warnSticky = es.foldl (fun w e => w ||| (1#32 <<< e.code.code)) s.warnSticky ∧
    t.warnCount.toNat = min (s.warnCount.toNat + es.length) (2 ^ 32 - 1) ∧
    t.warnLast = ((es.getLast?).map fun e => BitVec.ofNat 8 e.code.code).getD s.warnLast

/-- The warnings `cs` were raised between `s` and `t`, in order, all at the cursors of `s`. -/
def WarnedHere (s t : State) (cs : List Warn) : Prop := WarnedAt s t (cs.map fun c => ⟨c, s.readPos, s.writePos⟩)

/-- The warnings `cs` were raised between `s` and `t`, in order, at whatever cursors. -/
def Warned (s t : State) (cs : List Warn) : Prop := ∃ es : List WarnEntry, WarnedAt s t es ∧ es.map (·.code) = cs

/-! ### Output -/

/-- The bytes `bs` were produced between `s` and `t` (20_memory.md R105): `WRITEPOS` advanced by their number; and, where
it did not wrap, the indices from `WRITEPOS` on and below `OUT_CAP` are those newly written, the byte produced at index a is
stored there if a is below `OUT_CAP`, and every other byte of `OUT` reads as before. -/
def Stored (s t : State) (bs : List Byte) : Prop :=
  t.writePos = s.writePos + BitVec.ofNat 64 bs.length ∧
    (s.writePos.toNat + bs.length < 2 ^ 64 →
      (∀ a, t.wrote a = (s.wrote a || (decide (s.writePos.toNat ≤ a) && decide (a < s.writePos.toNat + bs.length) &&
        decide (a < s.outCap.toNat)))) ∧
      (s.outBuf.wf = true → t.outBuf.wf = true ∧
        ∀ a, t.outBuf.read a =
          if s.writePos.toNat ≤ a ∧ a < s.writePos.toNat + bs.length ∧ a < s.outCap.toNat then
            bs.getD (a - s.writePos.toNat) 0
          else s.outBuf.read a))

/-! ### The raw byte stream -/

/-- The `k`-th byte, from 0, that the raw byte reader hands out from state `s` on: the cached bytes, oldest first, then
the bytes of the words from `READPOS` on, in ascending byte order (10_state.md R58, 30_encoding.md R153). -/
def rawByteAt (s : State) (k : Nat) : Byte :=
  if k < s.rcn.val then s.rcb.toList.getD (4 - s.rcn.val + k) 0
  else
    (s.inWordAt (s.readPos + BitVec.ofNat 64 ((k - s.rcn.val) / 4)).toNat).extractLsb' (8 * ((k - s.rcn.val) % 4)) 8

/-- The raw byte reader took `n` bytes between `s` and `t`, and nothing else was loaded: one word for every four bytes not
cached, and the bytes it hands out next are those after the first `n` (41_bitstream.md R202). -/
def RawTaken (s t : State) (n : Nat) : Prop :=
  t.readPos = s.readPos + BitVec.ofNat 64 ((n - s.rcn.val + 3) / 4) ∧
    t.rcn.val = (if n ≤ s.rcn.val then s.rcn.val - n else (4 - (n - s.rcn.val) % 4) % 4) ∧
    ∀ k, rawByteAt t k = rawByteAt s (n + k)

/-- The first `n` bytes of the raw byte stream. -/
def rawBytes (s : State) (n : Nat) : List Byte := (List.range n).map (rawByteAt s)

/-- The packed size that stands at byte `k` of the raw byte stream: its value and how many bytes it has (30_encoding.md
R154). -/
def packedSizeAt (s : State) (k : Nat) : Nat × Nat :=
  let b0 := (rawByteAt s k).toNat
  let b1 := (rawByteAt s (k + 1)).toNat
  let b2 := (rawByteAt s (k + 2)).toNat
  if b0 % 2 = 0 then (b0 / 2, 1)
  else if b0 % 4 = 1 then ((b0 + 256 * b1) / 4 + 128, 2)
  else ((b0 + 256 * b1 + 65536 * b2) / 4 + 16512, 3)

/-! ### Lanes -/

/-- Lane `l` is one of `lanes(lo, cnt)` (00_scope.md R9). -/
def inRange (lo cnt : Nat) (l : LaneId) : Bool := decide (lo ≤ l.val) && decide (l.val < lo + cnt)

/-- Lane `l` of the range must load a word for a peek of the given widths (41_bitstream.md R204). -/
def needsWord (s : State) (lo cnt : Nat) (width : LaneId → Nat) (l : LaneId) : Bool :=
  inRange lo cnt l && decide ((s.lane l).avail.toNat < width l)

/-- How many lanes below lane number `n` load a word: the exclusive sum of the "needs reload" flags (R204). -/
def wordsBefore (s : State) (lo cnt : Nat) (width : LaneId → Nat) (n : Nat) : Nat :=
  (List.finRange 32).countP fun k => decide (k.val < n) && needsWord s lo cnt width k

/-- Lane `l` after the loads of a peek of the given widths: the word it takes stands above its buffered bits (R204). -/
def filledLane (s : State) (lo cnt : Nat) (width : LaneId → Nat) (l : LaneId) : Lane :=
  let x := s.lane l
  if needsWord s lo cnt width l then
    let w := s.inWordAt (s.readPos + BitVec.ofNat 64 (wordsBefore s lo cnt width l.val)).toNat
    { x with buf := x.buf ||| (w.setWidth 64 <<< x.avail.toNat), avail := x.avail + 32 }
  else x

/-- A lane whose peek window holds the low `n` bits of its buffer (R206). -/
def windowed (x : Lane) (n : Nat) : Lane :=
  { x with pv := BitVec.ofNat 32 (x.buf.toNat % 2 ^ n), pw := BitVec.ofNat 6 n }

/-- A lane with `n` bits dropped (R210): emptied where it holds fewer. -/
def dropped (x : Lane) (n : Nat) : Lane :=
  if x.avail.toNat < n then { x with buf := 0, avail := 0 }
  else { x with buf := x.buf >>> n, avail := x.avail - BitVec.ofNat 7 n }

/-- What `PeekV` of widths `width` over `lanes(lo, cnt)` does (R204 to R206), the widths above 32 warning and counting as
32: the lanes that need a word take consecutive words from `READPOS` in lane order, and each lane of the range has its
window; each warning logs the cursors before its lane loads; nothing else changes. -/
def PeekEffect (s t : State) (lo cnt : Nat) (width : LaneId → Nat) : Prop :=
  let w := fun l => min (width l) 32
  t.readPos = s.readPos + BitVec.ofNat 64 (wordsBefore s lo cnt w 32) ∧
    (∀ l, t.lane l = if inRange lo cnt l then windowed (filledLane s lo cnt w l) (w l) else s.lane l) ∧
    WarnedAt s t (((List.finRange 32).filter fun l => inRange lo cnt l && decide (32 < width l)).map fun l =>
      ⟨.peekWidth, s.readPos + BitVec.ofNat 64 (wordsBefore s lo cnt w l.val), s.writePos⟩) ∧
    t = { warningsOf s t with readPos := t.readPos, lanes := t.lanes }

/-- What `DiscardV` of counts `count` over `lanes(lo, cnt)` does (R208, R210), `after` saying what else becomes of each
lane visited. -/
def DropEffect (s t : State) (lo cnt : Nat) (count : LaneId → Nat) (after : Lane → Lane) : Prop :=
  (∀ l, t.lane l = if inRange lo cnt l then after (dropped (s.lane l) (count l)) else s.lane l) ∧
    WarnedHere s t (List.replicate
      ((List.finRange 32).countP fun l => inRange lo cnt l && decide ((s.lane l).avail.toNat < count l))
      .discardUnderflow) ∧
    t = { warningsOf s t with lanes := t.lanes }

/-- What a decode through a table that is not built does (42_fse.md R259, R260; 43_huffman.md R307): the warning, `SYM` = 0
on every lane of the range, nothing else. -/
def UnbuiltEffect (s t : State) (lo cnt : Nat) : Prop :=
  (∀ l, t.lane l = if inRange lo cnt l then { s.lane l with sym := 0 } else s.lane l) ∧ WarnedHere s t [.tableNotBuilt] ∧
    t = { warningsOf s t with lanes := t.lanes }

/-! ### FSE tables -/

/-- `Cell(t, x)` (42_fse.md R251). -/
def cellOf (s : State) (t : Tbl) (x : Nat) : FseCell := s.fseCellAt (tableStart t + x % 2 ^ s.accLog t)

/-- The first cell of the range of table `t` in the arena, and the size of the range (00_scope.md R6, 10_state.md R62). -/
def tableRange : Tbl → Nat × Nat
  | .ll => (0, 512)
  | .ml => (512, 512)
  | .off => (1024, 256)
  | .hw => (1280, 64)

/-- Table `t` of state `s` is the one that `BuildTable(t, A, prob)` builds (42_fse.md R253): slot j, the rank-k slot of
symbol `sym`, stands at cell `(j * step) & (size - 1)` with its next-state bit count and baseline. -/
def SpreadOf (s : State) (t : Tbl) (A : Nat) (prob : List Nat) : Prop :=
  s.built t = true ∧ s.accLog t = A ∧
    ∀ sym k, sym < prob.length → k < prob.getD sym 0 →
      let ns := prob.getD sym 0 + k
      let nb := A - Nat.log2 ns
      s.fseCellAt ((tableRange t).1 + ((prob.take sym).sum + k) * (5 * 2 ^ (A - 3) + 3) % 2 ^ A)
        = ⟨BitVec.ofNat 8 sym, BitVec.ofNat 4 nb, BitVec.ofNat 16 (ns * 2 ^ nb - 2 ^ A)⟩

/-- Nothing of the FSE tables but the first 2^A cells of table `t`, its `TACC` and its `TVALID`, differs between `s` and
`u` (42_fse.md R251, R253). -/
def OtherTablesKept (s u : State) (t : Tbl) (A : Nat) : Prop :=
  (∀ k, k ≠ t → u.accLog k = s.accLog k ∧ u.built k = s.built k) ∧
    ∀ i, i < (tableRange t).1 ∨ (tableRange t).1 + 2 ^ A ≤ i → u.fseCellAt i = s.fseCellAt i

/-- How far a distribution is read (42_fse.md R254): the probabilities so far, their sum, the next symbol. -/
structure DistSoFar where
  /-- the probabilities, 0 where none was read -/
  prob : List Nat
  /-- `cum` -/
  cum : Nat
  /-- `sym` -/
  sym : Nat
deriving DecidableEq, Repr

/-- The distribution is not complete, and a symbol is left (R254). -/
def DistSoFar.going (d : DistSoFar) (t : Tbl) (A : Nat) : Bool := decide (d.cum < 2 ^ A) && decide (d.sym ≤ maxSym t)

/-- The width of the next probability code: as many bits as hold what is left of 2^A (30_encoding.md R158, R254). -/
def DistSoFar.width (d : DistSoFar) (A : Nat) : Nat := Nat.size (2 ^ A - d.cum)

/-- The probability code that stands in the peek window `pv`. -/
def DistSoFar.value (d : DistSoFar) (A pv : Nat) : Nat := pv % 2 ^ d.width A

/-- How many bits the next code takes of a window: its width, and 6 more where it is 0 and a repeat count follows; none
once the distribution is complete. -/
def DistSoFar.bits (d : DistSoFar) (t : Tbl) (A pv : Nat) : Nat :=
  if d.going t A then if d.value A pv = 0 then d.width A + 6 else d.width A else 0

/-- The code is above what is left of 2^A, and is clamped to it with a warning. -/
def DistSoFar.over (d : DistSoFar) (t : Tbl) (A pv : Nat) : Bool :=
  d.going t A && decide (2 ^ A - d.cum < d.value A pv)

/-- The progress after the code: a nonzero one is the symbol's probability; a zero passes the symbol and as many more as the
6 bits above it count. -/
def DistSoFar.next (d : DistSoFar) (t : Tbl) (A pv : Nat) : DistSoFar :=
  if d.going t A then
    let v := min (d.value A pv) (2 ^ A - d.cum)
    if v = 0 then { d with sym := d.sym + 1 + pv / 2 ^ d.width A % 2 ^ 6 }
    else ⟨d.prob.set d.sym v, d.cum + v, d.sym + 1⟩
  else d

/-- The progress after the codes of the lanes below lane number `n`, in lane order, from the windows `w`. -/
def DistSoFar.afterLanes (d : DistSoFar) (t : Tbl) (A : Nat) (w : LaneId → Nat) (n : Nat) : DistSoFar :=
  ((List.finRange 32).take n).foldl (fun d l => d.next t A (w l)) d

/-- What one round of `ReadDistribution` does after its peek (R254): each lane gives its code in lane order and drops its
bits; a code that is clamped warns. -/
def DistRound (t : Tbl) (A : Nat) (d : DistSoFar) (q u : State) : Prop :=
  let w := fun l => (q.lane l).pv.toNat
  let before := fun l : LaneId => d.afterLanes t A w l.val
  (∀ l, u.lane l = dropped (q.lane l) ((before l).bits t A (w l))) ∧
    WarnedHere q u (List.replicate ((List.finRange 32).countP fun l => (before l).over t A (w l)) .fseProbOverflow) ∧
    u = { warningsOf q u with lanes := u.lanes }

/-- The largest symbol with a nonzero probability, or 0 (R254). -/
def lastSymbol (prob : List Nat) : Nat := (((List.range prob.length).filter fun k => 0 < prob.getD k 0).getLast?).getD 0

/-- The distribution with what is missing to 2^A given to its last symbol (R254). -/
def DistSoFar.completed (d : DistSoFar) (A : Nat) : List Nat :=
  d.prob.set (lastSymbol d.prob) (d.prob.getD (lastSymbol d.prob) 0 + (2 ^ A - d.cum))

/-- The distributions of 42_fse.md R255 as printed there, `-1` included; symbols 29 to 31 of `OF` have probability 0. -/
def printedDistribution : Tbl → Nat × List Int
  | .ll => (6, [4, 3, 2, 2, 2, 2, 2, 2, 2, 2, 2, 2, 2, 1, 1, 1, 2, 2, 2, 2, 2, 2, 2, 2, 2, 3, 2, 1, 1, 1, 1, 1, -1, -1,
      -1, -1])
  | .ml => (6, [1, 4, 3, 2, 2, 2, 2, 2, 2] ++ List.replicate 37 1 ++ List.replicate 7 (-1))
  | .off => (5, [1, 1, 1, 1, 1, 1, 2, 2, 2] ++ List.replicate 15 1 ++ List.replicate 5 (-1) ++ List.replicate 3 0)
  | .hw => (0, [])

/-- The probabilities of a predefined distribution: an entry printed `-1` has probability 1 (R255). -/
def predefinedProbs (t : Tbl) : List Nat := (printedDistribution t).2.map Int.natAbs

/-! ### Huffman tables -/

/-- Weight `k` of the explicit nibble weights whose first byte is byte 1 of the raw byte stream, before the clamp: the high
nibble of each byte first (30_encoding.md R159). -/
def nibbleAt (s : State) (k : Nat) : Nat :=
  if k % 2 = 0 then (rawByteAt s (1 + k / 2)).toNat / 16 else (rawByteAt s (1 + k / 2)).toNat % 16

/-- `total` of 43_huffman.md R304: the sum of 2^(w-1) over the weights above 0. -/
def totalWeight (ws : List Nat) : Nat := ((ws.filter (0 < ·)).map fun w => 2 ^ (w - 1)).sum

/-- `highbit1` of 00_scope.md R10, as the least number of bits that hold `x`. -/
def bitLength (x : Nat) : Nat := Nat.size x

/-- `rest` of R304. -/
def restWeight (ws : List Nat) : Nat := 2 ^ bitLength (totalWeight ws) - totalWeight ws

/-- `u` of R304, the implied weight of symbol N. -/
def impliedOf (ws : List Nat) : Nat := bitLength (restWeight ws)

/-- `start[w]` of 43_huffman.md R305: what the smaller weights take, the implied symbol counted. -/
def startOf (ws : List Nat) (w : Nat) : Nat :=
  ((List.range w).map fun v => if v = 0 then 0 else (ws.count v + if v = impliedOf ws then 1 else 0) * 2 ^ (v - 1)).sum

/-- The first numeric value of symbol `s` (43_huffman.md R306): `start[w]` and the ranges of the lower symbols of its
weight. -/
def firstValue (ws : List Nat) (s : Nat) : Nat :=
  startOf ws (ws.getD s 0) + (ws.take s).count (ws.getD s 0) * 2 ^ (ws.getD s 0 - 1)

/-- The transmitted weights `HUFW[0..HUFN-1]`. -/
def weightsOf (s : State) : List Nat := (s.hufw.toList.take s.hufn.toNat).map BitVec.toNat

/-- `bitrev_n` of 00_scope.md R10, bit by bit. -/
def reversed (n v : Nat) : Nat := ((List.range n).map fun i => v / 2 ^ (n - 1 - i) % 2 * 2 ^ i).sum

/-! ### Noninterference -/

/-- Two states that differ at most in what `OUT` holds at indices the engine did not write since the last reset
(20_memory.md R106). -/
def SameButUnwrittenOut (s s' : State) : Prop :=
  s' = { s with outBuf := s'.outBuf } ∧ s.outBuf.wf = true ∧ s'.outBuf.wf = true ∧
    ∀ a, s.wrote a = true → s'.outBuf.read a = s.outBuf.read a

/-! ### Resets -/

/-- The "`RESET` command" column of 10_state.md R68, but for the set-up registers and the unspecified `FSECELL` and
`HUFT`. -/
def ResetColumn (t : State) : Prop :=
  t.res = 0 ∧ t.readPos = 0 ∧ t.writePos = 0 ∧ t.rcn = 0 ∧ t.rcb = #v[0, 0, 0, 0] ∧
    (∀ l, t.lane l = ⟨0, 0, 0, 0, 0, 0, #v[0, 0, 0, 0], #v[0, 0, 0, 0]⟩) ∧
    t.runState = .awaitingBlock ∧ t.rep0 = 1 ∧ t.rep1 = 4 ∧ t.rep2 = 8 ∧
    t.litMode = 0 ∧ t.rleByte = 0 ∧ t.maxLit = 0 ∧ t.litEmitted = 0 ∧ t.litTotal = 0 ∧ t.numSeq = 0 ∧
    (∀ k, t.accLog k = 0 ∧ t.built k = false) ∧
    (∀ k, t.hufWeight k = 0) ∧ t.hufn = 0 ∧ t.hufwb = 0 ∧ t.hufvalid = false ∧
    t.warnSticky = 0 ∧ t.warnCount = 0 ∧ t.warnLast = 0 ∧ t.warnLog = []

/-- The two buffers are the same. -/
def BuffersKept (s t : State) : Prop := t.inBuf = s.inBuf ∧ t.outBuf = s.outBuf

/-- A state as `SYNC` leaves the readers (41_bitstream.md R201), and one word taken as a control
word (45_block_driver.md R406). -/
def blockStart (s : State) : State :=
  { s with
    rcn := 0
    rcb := #v[0, 0, 0, 0]
    lanes := s.lanes.map fun x => { x with buf := 0, avail := 0, dacc := 0 }
    readPos := s.readPos + 1 }

/-! ### Commands made of commands -/

/-- The state in which a command finds `v` in `ARG0`. -/
def withArg0 (s : State) (v : Nat) : State := { s with arg0 := BitVec.ofNat 32 v }

/-- The reserved bits `r` of a descriptor or accuracy byte warn where they are not 0 (30_encoding.md R155 to R157). -/
def checked (r : Nat) (s : State) : State := if r = 0 then s else s.warn .reservedNonzero

/-- The reads of one batch of `cnt` sequences on the lanes 0 to `cnt` - 1 (30_encoding.md R162; 44_sequences.md R362 steps 1
to 3, R358 to R360): one peek of all three tables' state bits, the three decodes, their bits dropped; a peek and a drop of
the LL and ML extra bits; a peek and a drop of the OF extra bits. `val` is each lane's literal length, match length and offset
value. -/
def BatchRead (s z : State) (cnt : Nat) (val : LaneId → SeqVals) : Prop :=
  ∃ x xL xM xO y0 y1 y2 y3 : State,
    let c := BitVec.ofNat 6 cnt
    let ll := fun l => llCode (xL.lane l).sym.toNat
    let ml := fun l => mlCode (xM.lane l).sym.toNat
    let ob := fun l => (xO.lane l).sym.toNat
    PeekEffect s x 0 cnt (fun l => s.fsd l .ll + s.fsd l .ml + s.fsd l .off) ∧
      exec (.fsedecnp .ll 0 c) x = .next xL ∧ exec (.fsedecnp .ml 0 c) xL = .next xM ∧
      exec (.fsedecnp .off 0 c) xM = .next xO ∧ exec (.discardacc 0 c) xO = .next y0 ∧
      PeekEffect y0 y1 0 cnt (fun l => (ll l).2 + (ml l).2) ∧ DropEffect y1 y2 0 cnt (fun l => (ll l).2 + (ml l).2) id ∧
      PeekEffect y2 y3 0 cnt ob ∧ DropEffect y3 z 0 cnt ob id ∧
      ∀ l, inRange 0 cnt l = true →
        val l = ⟨(ll l).1 + (y1.lane l).pv.toNat % 2 ^ (ll l).2,
          (ml l).1 + (y1.lane l).pv.toNat / 2 ^ (ll l).2 % 2 ^ (ml l).2, 2 ^ ob l + (y3.lane l).pv.toNat % 2 ^ ob l⟩

/-- One sequence executed (44_sequences.md R362 step 4): its offset resolved, the literals emitted up to the running total
(clamped to `MAXLIT` with a warning), then the match copied, as `LITTARGET` and `MATCH` do. -/
def SequenceDone (q : SeqVals) (s t : State) : Prop :=
  ∃ a b : State,
    let r := s.resolveOffset q.ov q.llv
    let tot := s.litTotal.toNat + q.llv
    let T := min tot s.maxLit.toNat
    let w := if s.maxLit.toNat < tot then r.2.warn .litOverrun else r.2
    exec .littarget (withArg0 { w with litTotal := BitVec.ofNat 32 T } T) = .next a ∧
      exec .matchcopy { a with arg0 := BitVec.ofNat 32 r.1, arg1 := BitVec.ofNat 32 q.mlv } = .next b ∧
      t = { b with arg0 := s.arg0, arg1 := s.arg1, res := s.res }

/-- One batch of `cnt` sequences (R362): all of its reads, then its sequences in lane order. -/
def BatchDone (s t : State) (cnt : Nat) : Prop :=
  ∃ (z : State) (val : LaneId → SeqVals) (e : Nat → State), BatchRead s z cnt val ∧ e 0 = z ∧
    (∀ k, k < cnt → SequenceDone (val (Fin.ofNat 32 k)) (e k) (e (k + 1))) ∧ e cnt = t

/-- `SEQEXEC` after its packed size, with all three tables built (R362): the live states set up, the batches of up to 32
sequences, then the literals that are left. -/
def SequencesDone (s t : State) (n : Nat) : Prop :=
  ∃ (a b y : State) (f : Nat → State), exec (.fseinit .ll 0 32) s = .next a ∧ exec (.fseinit .ml 0 32) a = .next b ∧
    exec (.fseinit .off 0 32) b = .next (f 0) ∧
    (∀ j, j < (n + 31) / 32 → BatchDone (f j) (f (j + 1)) (min 32 (n - 32 * j))) ∧
    exec .littarget { f ((n + 31) / 32) with arg0 := s.maxLit } = .next y ∧ t = { y with arg0 := s.arg0, res := t.res }

/-- The literal tables of a compressed block with literal descriptor `d` (30_encoding.md R155, R163; 45_block_driver.md R403):
the RLE byte, or the Huffman weights in the form bit 2 names and the decode table, or nothing. -/
def LiteralTable (d aux : Nat) (s t : State) : Prop :=
  (d % 4 = 2 → ∃ x, exec .rdbyte s = .next x ∧ exec .setrle (withArg0 x x.res.toNat) = .next t) ∧
    (d % 4 = 0 → ∃ x, exec (if d / 4 % 2 = 1 then .hufwfse (BitVec.ofNat 1 aux) else .hufwex) s = .next x ∧
      exec .hufexpand x = .next t) ∧
    (d % 4 = 1 ∨ d % 4 = 3 → t = s)

/-- One sequence table of a compressed block with sequence descriptor `q` (R156, R157, R403): predefined where the table's bit
is set, else read with the accuracy log of the accuracy byte. -/
def SequenceTable (q : Nat) (k : Tbl) (s t : State) : Prop :=
  if q / 2 ^ (tblIdx k).val % 2 = 1 then exec (.fsepredef k) s = .next t
  else ∃ r, exec .rdbyte s = .next r ∧
    exec (.fsebuild k (BitVec.ofNat 6 (5 + r.res.toNat % 16))) (checked (r.res.toNat / 16) r) = .next t

/-- The body of a compressed block up to its sequences, with control word `cw` (R163, R403). -/
def BodyRead (cw : Nat) (s t : State) : Prop :=
  ∃ a b c e g h i : State,
    let d := a.res.toNat
    let q := g.res.toNat
    exec .rdbyte s = .next a ∧ exec .rdpsize (checked (d / 8) a) = .next b ∧
      exec (.litcfg (BitVec.ofNat 2 d)) (withArg0 b b.res.toNat) = .next c ∧ LiteralTable d (cw / 2 ^ 30 % 2) c e ∧
      exec .rdbyte e = .next g ∧ SequenceTable q .ll (checked (q / 8) g) h ∧ SequenceTable q .ml h i ∧
      SequenceTable q .off i t

end Sys2Proof.Claims

open Sys2Proof Sys2Proof.Machine Sys2Proof.Claims

/-! ### Encoding -/

/-- DECODE AND ENCODE AGREE (R141, R143): the word of a legal command decodes to it, every operand at every value. -/
def Obligations.EncodeThenDecode : Prop := ∀ i : Instr, i.wf = true → decode (encode i) = .ok i

/-- Each command has one word, and a word that decodes names a legal command (R141, R145, R147). -/
def Obligations.DecodeThenEncode : Prop := ∀ (w : Word) (i : Instr), decode w = .ok i → encode i = w ∧ i.wf = true

/-- R145: a word names no command exactly when one of the seven items holds of it. -/
def Obligations.IllegalWordsAreThoseListed : Prop :=
  ∀ w : Word, (∀ i, decode w ≠ .ok i) ↔ IllegalWord w.toNat

/-- R165: the encoding examples, decoded. -/
def Obligations.SpecExampleWords : Prop :=
  decode 0x00402006#32 = .ok (.peek 0 1 8) ∧ decode 0x00440006#32 = .ok (.peek 0 32 8) ∧
    decode 0x00402008#32 = .ok (.discard 0 1 8) ∧ decode 0x00006007#32 = .ok (.peekv 0 3) ∧
    decode 0x00006009#32 = .ok (.discardv 0 3) ∧ decode 0x0004000A#32 = .ok (.discardacc 0 32) ∧
    decode 0x00280010#32 = .ok (.fsebuild .ll 5) ∧ decode 0x06300010#32 = .ok (.fsebuild .hw 6) ∧
    decode 0x02000011#32 = .ok (.fsepredef .ml) ∧ decode 0x04040012#32 = .ok (.fseinit .off 0 32) ∧
    decode 0x00002013#32 = .ok (.fsedec .ll 0 1) ∧ decode 0x02008014#32 = .ok (.fsedecnp .ml 0 4) ∧
    decode 0x00080021#32 = .ok (.hufwfse 1) ∧ decode 0x0000A023#32 = .ok (.hufdec 0 5) ∧
    decode 0x00100030#32 = .ok (.litcfg 2) ∧ decode 0x00000001#32 = .ok .reset ∧ decode 0x00000043#32 = .ok .block ∧
    decode 0x00000044#32 = .ok .run

/-! ### The step and the host -/

/-- A STEP RUNS THE DECODED COMMAND (R45, R55): with a write of a legal word to `CMD` next among the host's operations, the
step is that command's execution, the operation taken; `withFetchWord` puts such a write there; and an engine with no
operation to take keeps all its state (R464). The queue of operations is the model's choice (log entries 1 and 10). -/
def Obligations.StepRunsIssuedCommand : Prop :=
  (∀ (s : State) (rest : List HostOp) (w : Word) (i : Instr),
    s.hostOps = .write 4 0x008 w :: rest → decode w = .ok i → step s = exec i { s with hostOps := rest }) ∧
  (∀ (s : State) (w : Nat) (i : Instr), decodeTableWord 32 w = some i → step (s.withFetchWord 32 w) = exec i s) ∧
    ∀ s : State, s.hostOps = [] → step s = .next s

/-- R146: an illegal word raises `ILLEGAL_COMMAND` and changes nothing else. -/
def Obligations.IllegalWordOnlyWarns : Prop :=
  ∀ (s : State) (rest : List HostOp) (w : Word), s.hostOps = .write 4 0x008 w :: rest → IllegalWord w.toNat →
    s.sanitize = true →
    ∃ t, step s = .next t ∧ WarnedHere s t [.illegalCommand] ∧ t = { warningsOf s t with hostOps := rest }

/-- R54: an access that is not an aligned 32-bit word is outside the interface, and the model refuses it. -/
def Obligations.MisalignedAccessRefused : Prop :=
  ∀ (s : State) (rest : List HostOp) (bytes offset : Nat) (v : Word), bytes ≠ 4 ∨ offset % 4 ≠ 0 →
    (s.hostOps = .write bytes offset v :: rest → step s = .refused .hostAccessShape) ∧
      (s.hostOps = .read bytes offset :: rest → step s = .refused .hostAccessShape)

/-- What a host read of each register returns (R44, R47 to R53): nothing but the host's copy changes. `STATUS` is in
`Obligations.StatusFields`. -/
def Obligations.HostReadsRegisters : Prop :=
  ∀ (s : State) (rest : List HostOp),
    let reads := fun (offset : Nat) (v : Word) =>
      step { s with hostOps := .read 4 offset :: rest } = .next { s with hostOps := rest, hostData := v }
    reads 0x000 0x47535444 ∧ reads 0x004 ((6#8 ++ 11#8 ++ 32#8 ++ 0#7) ++ BitVec.ofBool s.sanitize) ∧ reads 0x008 0 ∧
      reads 0x00C s.arg0 ∧ reads 0x010 s.arg1 ∧
      (∀ hi lo : Word, s.res = hi ++ lo → reads 0x014 lo ∧ reads 0x018 hi) ∧
      reads 0x020 (s.warnSticky &&& 0x000FFFFE#32) ∧ reads 0x024 s.warnCount ∧ reads 0x028 (s.warnLast.setWidth 32) ∧
      reads 0x02C s.inSize ∧ reads 0x030 s.outCap ∧
      (∀ hi lo : Word, s.readPos = hi ++ lo → reads 0x034 lo ∧ reads 0x038 hi) ∧
      (∀ hi lo : Word, s.writePos = hi ++ lo → reads 0x03C lo ∧ reads 0x040 hi) ∧
      reads 0x044 s.rep0 ∧ reads 0x048 s.rep1 ∧ reads 0x04C s.rep2 ∧ reads 0x050 (s.litMode.setWidth 32) ∧
      reads 0x054 (s.rleByte.setWidth 32) ∧ reads 0x058 s.maxLit ∧ reads 0x05C s.litEmitted ∧ reads 0x060 s.litTotal ∧
      reads 0x064 s.numSeq ∧ reads 0x068 (s.hufwb.setWidth 32) ∧ reads 0x06C (s.hufn.setWidth 32) ∧
      reads 0x070 (0#16 ++ s.tacc[3] ++ s.tacc[2] ++ s.tacc[1] ++ s.tacc[0]) ∧
      (∀ l : LaneId, reads (0x100 + 4 * l.val) (s.lane l).pv ∧ reads (0x180 + 4 * l.val) (s.lane l).sym ∧
        reads (0x200 + 4 * l.val) (s.nv[l].setWidth 32) ∧ reads (0x280 + 4 * l.val) ((s.lane l).avail.setWidth 32)) ∧
      ∀ offset, offset % 4 = 0 → 0x074 ≤ offset → offset < 0x100 → reads offset 0

/-- What a host write of each register does (R44, R46, R50, R52, R53): the set-up registers take the value, `NV[l]` its bits
[5:0], and a write to any other register of the block but `CMD` is ignored. -/
def Obligations.HostWritesRegisters : Prop :=
  ∀ (s : State) (rest : List HostOp) (v : Word),
    let writes := fun (offset : Nat) (t : State) => step { s with hostOps := .write 4 offset v :: rest } = .next t
    writes 0x00C { s with hostOps := rest, arg0 := v } ∧ writes 0x010 { s with hostOps := rest, arg1 := v } ∧
      writes 0x02C { s with hostOps := rest, inSize := v } ∧ writes 0x030 { s with hostOps := rest, outCap := v } ∧
      (∀ l : LaneId, writes (0x200 + 4 * l.val) { s with hostOps := rest, nv := s.nv.set l (v.extractLsb' 0 6) }) ∧
      ∀ offset, offset % 4 = 0 → offset < 0x300 → ¬ (0x200 ≤ offset ∧ offset < 0x280) →
        offset ∉ [0x008, 0x00C, 0x010, 0x02C, 0x030] → writes offset { s with hostOps := rest }

/-- The host's bytes of the two buffers (R100, R113; the queue and the limit are the model's, log entries 1 and 13): a byte
placed is the byte there, every other byte reads as before, and no buffer has a byte at or above index 2^32 - 1. -/
def Obligations.HostPlacesBufferBytes : Prop :=
  ∀ (s : State) (rest : List HostOp) (a : Nat) (b : Byte), s.memOk = true →
    (a < 2 ^ 32 - 1 →
      (∃ t, step { s with hostOps := .placeIn a b :: rest } = .next t ∧
        (∀ k, t.inBuf.read k = if k = a then b else s.inBuf.read k) ∧
        t = { s with hostOps := rest, inBuf := t.inBuf }) ∧
      ∃ t, step { s with hostOps := .placeOut a b :: rest } = .next t ∧
        (∀ k, t.outBuf.read k = if k = a then b else s.outBuf.read k) ∧
        t = { s with hostOps := rest, outBuf := t.outBuf }) ∧
    (2 ^ 32 - 1 ≤ a →
      step { s with hostOps := .placeIn a b :: rest } = .fault .noSuchBufferByte ∧
        step { s with hostOps := .placeOut a b :: rest } = .fault .noSuchBufferByte)

/-- R48: a host read of `STATUS` delivers its value; its fields, by their places in the value, its value after the resets,
and that a write to it is ignored. -/
def Obligations.StatusFields : Prop :=
  (∀ s : State,
    s.hostRead 0x01C = s.status ∧ s.status.toNat % 2 = 0 ∧
      s.status.toNat / 2 % 2 = (if s.runState = .done then 1 else 0) ∧
      s.status.toNat / 2 ^ 2 % 2 ^ 3 = (match s.runState with
        | .awaitingBlock => 0
        | .decodingCompressedBlock => 1
        | .decodingRLEBlock => 2
        | .decodingRawBlock => 3
        | .done => 4) ∧
      s.status.toNat / 2 ^ 5 % 2 = (if s.warnSticky &&& 0x000FFFFE#32 = 0 then 0 else 1) ∧
      s.status.toNat / 2 ^ 6 % 2 = s.hufvalid.toNat ∧
      (∀ t : Tbl, s.status.toNat / 2 ^ (7 + (tblIdx t).val) % 2 = (s.built t).toNat) ∧
      s.status.toNat / 2 ^ 11 = 0) ∧
    (∀ (s : State) (rest : List HostOp),
      step { s with hostOps := .read 4 0x01C :: rest } = .next { s with hostOps := rest, hostData := s.status }) ∧
    (∀ (s : State) (rest : List HostOp) (v : Word),
      step { s with hostOps := .write 4 0x01C v :: rest } = .next { s with hostOps := rest }) ∧
    State.reset.status = 0 ∧ ∀ s t : State, exec .reset s = .next t → t.status = 0

/-- R452 with the codes of R451: what raising a warning records; nothing else changes. -/
def Obligations.WarningRecorded : Prop :=
  (∀ (c : Warn) (s : State), s.warn c = { s with
      warnSticky := s.warnSticky ||| (1#32 <<< c.code)
      warnCount := BitVec.ofNat 32 (min (s.warnCount.toNat + 1) (2 ^ 32 - 1))
      warnLast := BitVec.ofNat 8 c.code
      warnLog := s.warnLog ++ [⟨c, s.readPos, s.writePos⟩] }) ∧
    [Warn.discardUnderflow, .peekWidth, .windowOverrun, .fseAcclogRange, .fseAcclogMin, .fseProbOverflow, .fseProbSum,
      .tableNotBuilt, .hufWeightRange, .hufTablelogRange, .hufIncomplete, .litOverrun, .offsetZero, .matchBeforeStart,
      .blockTypeReserved, .litModeReserved, .reservedNonzero, .blockSizeMismatch, .illegalCommand].map Warn.code
      = List.range' 1 19

/-! ### Resets -/

/-- R401: `RESET` gives every piece of state its value in R68, and keeps the set-up registers and the buffers. -/
def Obligations.ResetCommandValues : Prop :=
  (encode .reset).toNat = wordOf 0x01 0 0 0 0 ∧
    ∀ s : State, ∃ t, exec .reset s = .next t ∧ ResetColumn t ∧ HostKept s t ∧ BuffersKept s t

/-- R500, R68: power-on reset gives every piece of state its value in R68, the set-up registers among them, and does not
touch the buffers; the state the model starts in has these values. -/
def Obligations.PowerOnResetValues : Prop :=
  let cleared := fun t : State => ResetColumn t ∧ t.arg0 = 0 ∧ t.arg1 = 0 ∧ (∀ l : LaneId, t.nv[l] = 0) ∧ t.inSize = 0 ∧
    t.outCap = 0 ∧ t.status = 0
  cleared State.reset ∧
    ∀ (s : State) (rest : List HostOp), ∃ t, step { s with hostOps := .powerOn :: rest } = .next t ∧ cleared t ∧
      BuffersKept s t ∧ t.sanitize = s.sanitize ∧ t.hostOps = rest

/-- R503: both resets establish CleanLaunch. -/
def Obligations.ResetsEstablishCleanLaunch : Prop :=
  State.reset.cleanLaunch ∧ (∀ s t : State, exec .reset s = .next t → t.cleanLaunch) ∧
    ∀ (s t : State) (rest : List HostOp), step { s with hostOps := .powerOn :: rest } = .next t → t.cleanLaunch

/-! ### The bitstream reader -/

/-- R203, with the word of R103 and R101: `RDWORD` takes the little-endian word at `READPOS`, bytes beyond `IN_SIZE` being 0. -/
def Obligations.RdwordTakesWord : Prop :=
  (encode .rdword).toNat = wordOf 0x03 0 0 0 0 ∧
    (∀ s : State, exec .rdword s =
      .next { s with res := (s.inWordAt s.readPos.toNat).setWidth 64, readPos := s.readPos + 1 }) ∧
    ∀ (s : State) (i k : Nat), k < 4 →
      (s.inWordAt i).extractLsb' (8 * k) 8 = if 4 * i + k < s.inSize.toNat then s.inBuf.read (4 * i + k) else 0

/-- R202: `RDBYTE` hands out the next raw byte. -/
def Obligations.RdbyteTakesByte : Prop :=
  (encode .rdbyte).toNat = wordOf 0x04 0 0 0 0 ∧
    ∀ s : State, ∃ t, exec .rdbyte s = .next t ∧ t.res = (rawByteAt s 0).setWidth 64 ∧ RawTaken s t 1 ∧
      t = { s with res := t.res, readPos := t.readPos, rcb := t.rcb, rcn := t.rcn }

/-- R201: `SYNC` empties the raw cache and every lane's buffer and accumulator. -/
def Obligations.SyncEmptiesReaders : Prop :=
  (encode .sync).toNat = wordOf 0x02 0 0 0 0 ∧
    ∀ s : State, ∃ t, exec .sync s = .next t ∧ t.rcn = 0 ∧ t.rcb = #v[0, 0, 0, 0] ∧
      (∀ l, t.lane l = { s.lane l with buf := 0, avail := 0, dacc := 0 }) ∧
      t = { s with rcn := t.rcn, rcb := t.rcb, lanes := t.lanes }

/-- R205, R206 (with R204): `PEEK` and `PEEKV`. -/
def Obligations.PeekWindows : Prop :=
  (∀ lo cnt n, (encode (.peek lo cnt n)).toNat = wordOf 0x06 lo.toNat cnt.toNat n.toNat 0) ∧
    (∀ lo cnt, (encode (.peekv lo cnt)).toNat = wordOf 0x07 lo.toNat cnt.toNat 0 0) ∧
    ∀ (s : State) (lo : BitVec 5) (cnt : BitVec 6), s.sanitize = true →
      (∀ n : BitVec 6, ∃ t, exec (.peek lo cnt n) s = .next t ∧ PeekEffect s t lo.toNat cnt.toNat fun _ => n.toNat) ∧
        ∃ t, exec (.peekv lo cnt) s = .next t ∧ PeekEffect s t lo.toNat cnt.toNat fun l => s.nv[l].toNat

/-- R205 "without consuming them": the same peek again changes nothing, and loads nothing. -/
def Obligations.PeekIsIdempotent : Prop :=
  ∀ (s : State) (lo : BitVec 5) (cnt n : BitVec 6), n.toNat ≤ 32 →
    ∃ t, exec (.peek lo cnt n) s = .next t ∧ exec (.peek lo cnt n) t = .next t

/-- R207 to R209 (with R210): `DISCARD`, `DISCARDV` and `DISCARDACC`. -/
def Obligations.DiscardsDropBits : Prop :=
  (∀ lo cnt n, (encode (.discard lo cnt n)).toNat = wordOf 0x08 lo.toNat cnt.toNat n.toNat 0) ∧
    (∀ lo cnt, (encode (.discardv lo cnt)).toNat = wordOf 0x09 lo.toNat cnt.toNat 0 0) ∧
    (∀ lo cnt, (encode (.discardacc lo cnt)).toNat = wordOf 0x0A lo.toNat cnt.toNat 0 0) ∧
    ∀ (s : State) (lo : BitVec 5) (cnt : BitVec 6), s.sanitize = true →
      (∀ n : BitVec 6, ∃ t, exec (.discard lo cnt n) s = .next t ∧
        DropEffect s t lo.toNat cnt.toNat (fun _ => n.toNat) id) ∧
      (∃ t, exec (.discardv lo cnt) s = .next t ∧ DropEffect s t lo.toNat cnt.toNat (fun l => s.nv[l].toNat) id) ∧
      ∃ t, exec (.discardacc lo cnt) s = .next t ∧
        DropEffect s t lo.toNat cnt.toNat (fun l => (s.lane l).dacc.toNat) fun x => { x with dacc := 0 }

/-! ### The FSE engine -/

/-- R253: `BuildTable` of a distribution whose sum is 2^A writes every slot to its cell, and nothing else. -/
def Obligations.BuildTableSpreads : Prop :=
  ∀ (s : State) (t : Tbl) (A : Nat) (prob : List Nat), 5 ≤ A → A ≤ maxAcc t → prob.length = maxSym t + 1 →
    prob.sum = 2 ^ A →
    SpreadOf (s.buildTable t A prob) t A prob ∧ OtherTablesKept s (s.buildTable t A prob) t A ∧
      s.buildTable t A prob = { s with
        fseCell := (s.buildTable t A prob).fseCell
        tacc := (s.buildTable t A prob).tacc
        tvalid := (s.buildTable t A prob).tvalid }

/-- R253, R261: in a built table each symbol is emitted from as many cells as its probability, and the next-state intervals
of one symbol's cells tile [0, 2^A) exactly once. -/
def Obligations.CellIntervalsTile : Prop :=
  ∀ (s : State) (t : Tbl) (A : Nat) (prob : List Nat), 5 ≤ A → A ≤ maxAcc t → prob.length = maxSym t + 1 →
    prob.sum = 2 ^ A →
    let cell := fun x => (s.buildTable t A prob).fseCellAt ((tableRange t).1 + x)
    ∀ sym, sym < prob.length →
      (List.range (2 ^ A)).countP (fun x => (cell x).sym == BitVec.ofNat 8 sym) = prob.getD sym 0 ∧
      (0 < prob.getD sym 0 → ∀ y, y < 2 ^ A →
        (List.range (2 ^ A)).countP (fun x => (cell x).sym == BitVec.ofNat 8 sym &&
          decide ((cell x).base.toNat ≤ y) && decide (y < (cell x).base.toNat + 2 ^ (cell x).nb.toNat)) = 1)

/-- R257, R255: `FSEPREDEF` builds the table of the predefined distribution, and reads no input; no legal word asks it of
`HW`. -/
def Obligations.FsepredefBuilds : Prop :=
  (∀ t, t ≠ .hw → (encode (.fsepredef t)).toNat = wordOf 0x11 0 0 0 (tblIdx t).val) ∧
    (∀ w : Word, decode w ≠ .ok (.fsepredef .hw)) ∧
    ∀ (s : State) (t : Tbl), t ≠ .hw →
      ∃ u, exec (.fsepredef t) s = .next u ∧ SpreadOf u t (printedDistribution t).1 (predefinedProbs t) ∧
        u.res.toNat = (printedDistribution t).1 ∧ OtherTablesKept s u t (printedDistribution t).1 ∧
        u = { s with res := u.res, fseCell := u.fseCell, tacc := u.tacc, tvalid := u.tvalid }

/-- R256 with R254, R158: `FSEBUILD` clamps the accuracy log, then reads the distribution in rounds: a peek of all 32 lanes,
and one code a lane while codes are left. What is missing to 2^A goes to the last symbol with a warning; the table built is
that of the distribution, whose sum is 2^A whatever the input bits are. -/
def Obligations.FsebuildBuilds : Prop :=
  (∀ t n, (encode (.fsebuild t n)).toNat = wordOf 0x10 0 0 n.toNat (tblIdx t).val) ∧
  ∀ (s : State) (t : Tbl) (n : BitVec 6), s.sanitize = true →
    let A := max 5 (min n.toNat (maxAcc t))
    let clamp := if maxAcc t < n.toNat then [Warn.fseAcclogRange] else if n.toNat < 5 then [.fseAcclogMin] else []
    ∃ (u : State) (R : Nat) (p q : Nat → State) (d : Nat → DistSoFar), exec (.fsebuild t n) s = .next u ∧
      WarnedHere s (p 0) clamp ∧ p 0 = warningsOf s (p 0) ∧ d 0 = ⟨List.replicate (maxSym t + 1) 0, 0, 0⟩ ∧ 0 < R ∧
      (∀ j, j < R → (d j).going t A = true ∧
        exec (.peek 0 32 (BitVec.ofNat 6 (maxAcc t + 1 + 6))) (p j) = .next (q j) ∧ DistRound t A (d j) (q j) (p (j + 1)) ∧
        d (j + 1) = (d j).afterLanes t A (fun l => ((q j).lane l).pv.toNat) 32) ∧
      (d R).going t A = false ∧ WarnedHere (p R) u (if (d R).cum < 2 ^ A then [.fseProbSum] else []) ∧
      u = { warningsOf (p R) u with res := u.res, fseCell := u.fseCell, tacc := u.tacc, tvalid := u.tvalid } ∧
      ((d R).completed A).length = maxSym t + 1 ∧ ((d R).completed A).sum = 2 ^ A ∧
      SpreadOf u t A ((d R).completed A) ∧ u.res.toNat = A ∧ OtherTablesKept s u t A ∧
      (∃ cs : List Warn, (∀ c ∈ cs, c = .fseProbOverflow ∨ c = .fseProbSum) ∧ Warned s u (clamp ++ cs)) ∧
      (∀ l, (u.lane l).pw.toNat = maxAcc t + 7 ∧ u.lane l = { s.lane l with
        buf := (u.lane l).buf, avail := (u.lane l).avail, pv := (u.lane l).pv, pw := (u.lane l).pw }) ∧
      u = { warningsOf s u with
        res := u.res, fseCell := u.fseCell, tacc := u.tacc, tvalid := u.tvalid, lanes := u.lanes, readPos := u.readPos }

/-- R258: `FSEINIT`. -/
def Obligations.FseinitSetsStates : Prop :=
  (∀ t lo cnt, (encode (.fseinit t lo cnt)).toNat = wordOf 0x12 lo.toNat cnt.toNat 0 (tblIdx t).val) ∧
    ∀ (s : State) (t : Tbl) (lo : BitVec 5) (cnt : BitVec 6), s.sanitize = true →
      ∃ u, exec (.fseinit t lo cnt) s = .next u ∧
        (∀ l, u.lane l = if inRange lo.toNat cnt.toNat l then { s.lane l with
            fss := (s.lane l).fss.set (tblIdx t) 0
            fsd := (s.lane l).fsd.set (tblIdx t) (if s.built t then s.tacc[tblIdx t] else 0) }
          else s.lane l) ∧
        WarnedHere s u (if s.built t then [] else [.tableNotBuilt]) ∧ u = { warningsOf s u with lanes := u.lanes }

/-- R259: `FSEDEC` through a built table peeks each lane's drain level, and takes the cell at the state base plus those bits;
through an unbuilt one it warns. -/
def Obligations.FsedecDecodes : Prop :=
  (∀ t lo cnt, (encode (.fsedec t lo cnt)).toNat = wordOf 0x13 lo.toNat cnt.toNat 0 (tblIdx t).val) ∧
    ∀ (s : State) (t : Tbl) (lo : BitVec 5) (cnt : BitVec 6),
      (s.built t = true →
        let d := fun l => s.fsd l t
        ∃ u, exec (.fsedec t lo cnt) s = .next u ∧
          u.readPos = s.readPos + BitVec.ofNat 64 (wordsBefore s lo.toNat cnt.toNat d 32) ∧
          (∀ l, u.lane l = if inRange lo.toNat cnt.toNat l then
              let x := windowed (filledLane s lo.toNat cnt.toNat d l) (d l)
              let c := cellOf s t (s.fss l t + x.pv.toNat)
              { dropped x (d l) with
                sym := c.sym.setWidth 32
                fss := x.fss.set (tblIdx t) c.base
                fsd := x.fsd.set (tblIdx t) c.nb }
            else s.lane l) ∧
          u = { s with readPos := u.readPos, lanes := u.lanes }) ∧
      (s.built t = false → s.sanitize = true →
        ∃ u, exec (.fsedec t lo cnt) s = .next u ∧ UnbuiltEffect s u lo.toNat cnt.toNat)

/-- R260: `FSEDECNP` takes each lane's bits from its peek window at the accumulator's offset, and drops none. -/
def Obligations.FsedecnpDecodes : Prop :=
  (∀ t lo cnt, (encode (.fsedecnp t lo cnt)).toNat = wordOf 0x14 lo.toNat cnt.toNat 0 (tblIdx t).val) ∧
    ∀ (s : State) (t : Tbl) (lo : BitVec 5) (cnt : BitVec 6), s.sanitize = true →
      (s.built t = true →
        ∃ u, exec (.fsedecnp t lo cnt) s = .next u ∧
          (∀ l, u.lane l = if inRange lo.toNat cnt.toNat l then
              let x := s.lane l
              let c := cellOf s t (s.fss l t + x.pv.toNat / 2 ^ x.dacc.toNat % 2 ^ s.fsd l t)
              { x with
                dacc := BitVec.ofNat 8 (min (x.dacc.toNat + s.fsd l t) 255)
                sym := c.sym.setWidth 32
                fss := x.fss.set (tblIdx t) c.base
                fsd := x.fsd.set (tblIdx t) c.nb }
            else s.lane l) ∧
          WarnedHere s u (List.replicate ((List.finRange 32).countP fun l => inRange lo.toNat cnt.toNat l &&
            decide ((s.lane l).pw.toNat < (s.lane l).dacc.toNat + s.fsd l t)) .windowOverrun) ∧
          u = { warningsOf s u with lanes := u.lanes }) ∧
      (s.built t = false →
        ∃ u, exec (.fsedecnp t lo cnt) s = .next u ∧ UnbuiltEffect s u lo.toNat cnt.toNat)

/-! ### The Huffman engine -/

/-- R302 (with R159): `HUFWEX` reads a count byte and the nibble weights, high nibble first, a weight above 11 becoming 0
with a warning raised once its byte is read. -/
def Obligations.HufwexReadsWeights : Prop :=
  (encode .hufwex).toNat = wordOf 0x20 0 0 0 0 ∧
    ∀ s : State, s.sanitize = true →
      let N := (rawByteAt s 0).toNat
      ∃ t, exec .hufwex s = .next t ∧ t.hufn.toNat = N ∧ t.res.toNat = N ∧
        (∀ k, k < 256 → t.hufWeight k = if k < N ∧ nibbleAt s k ≤ 11 then nibbleAt s k else 0) ∧
        RawTaken s t (1 + (N + 1) / 2) ∧
        WarnedAt s t (((List.range N).filter fun k => 11 < nibbleAt s k).map fun k =>
          ⟨.hufWeightRange, s.readPos + BitVec.ofNat 64 ((2 + k / 2 - s.rcn.val + 3) / 4), s.writePos⟩) ∧
        t = { warningsOf s t with
          res := t.res, hufn := t.hufn, hufw := t.hufw, readPos := t.readPos, rcb := t.rcb, rcn := t.rcn }

/-- R303 (with R160): `HUFWFSE` reads a count byte N, builds table `HW` at accuracy log 5 + aux and initialises every lane, as
`RDBYTE`, `FSEBUILD` and `FSEINIT` do, then decodes the weights in batches of up to 32 as `FSEDEC` does: weight k is the
symbol of lane k mod 32 in batch k / 32. The decode table is not touched. -/
def Obligations.HufwfseReadsWeights : Prop :=
  (∀ aux, (encode (.hufwfse aux)).toNat = wordOf 0x21 0 0 aux.toNat 0) ∧
  ∀ (s : State) (aux : BitVec 1), s.sanitize = true →
    let N := (rawByteAt s 0).toNat
    let A := 5 + aux.toNat
    ∃ (t a b : State) (f : Nat → State) (prob : List Nat), exec (.hufwfse aux) s = .next t ∧
      exec .rdbyte s = .next a ∧ exec (.fsebuild .hw (BitVec.ofNat 6 A)) a = .next b ∧
      exec (.fseinit .hw 0 32) b = .next (f 0) ∧
      (∀ j, j < (N + 31) / 32 →
        exec (.fsedec .hw 0 (BitVec.ofNat 6 (min 32 (N - 32 * j)))) (f j) = .next (f (j + 1))) ∧
      (∀ k, k < N → t.hufWeight k = ((f (k / 32 + 1)).lane (Fin.ofNat 32 (k % 32))).sym.toNat) ∧
      t = { f ((N + 31) / 32) with res := t.res, hufn := t.hufn, hufw := t.hufw } ∧ t.hufn.toNat = N ∧ t.res.toNat = N ∧
      prob.length = 12 ∧ prob.sum = 2 ^ A ∧ SpreadOf t .hw A prob ∧ OtherTablesKept s t .hw A ∧
      (∀ k, t.hufWeight k ≤ 11) ∧ (∀ k, N ≤ k → t.hufWeight k = 0) ∧
      t = { warningsOf s t with
        res := t.res, hufn := t.hufn, hufw := t.hufw, readPos := t.readPos, rcb := t.rcb, rcn := t.rcn
        lanes := t.lanes, fseCell := t.fseCell, tacc := t.tacc, tvalid := t.tvalid }

/-- R305 (with R304): `HUFEXPAND` gives every symbol the bit-reversed places of its numeric range and the implied symbol all
others below 2^wb; weights that need a table log above 11 give the all-zero table. -/
def Obligations.HufexpandPlacesRanges : Prop :=
  (encode .hufexpand).toNat = wordOf 0x22 0 0 0 0 ∧
    ∀ s : State, s.sanitize = true →
      let ws := weightsOf s
      let wb := bitLength (totalWeight ws)
      ∃ t, exec .hufexpand s = .next t ∧ t.hufvalid = true ∧
        (11 < wb →
          t.hufwb = 11 ∧ t.res = 11 ∧ (∀ i, i < 2048 → t.hufEntryAt i = ⟨0, 0⟩) ∧ WarnedHere s t [.hufTablelogRange]) ∧
        (wb ≤ 11 →
          t.hufwb.toNat = wb ∧ t.res.toNat = wb ∧
          (∀ sym v, sym < ws.length → 0 < ws.getD sym 0 → firstValue ws sym ≤ v →
            v < firstValue ws sym + 2 ^ (ws.getD sym 0 - 1) →
            v < 2 ^ wb ∧
            t.hufEntryAt (reversed wb v) = ⟨BitVec.ofNat 8 sym, BitVec.ofNat 4 (wb + 1 - ws.getD sym 0)⟩) ∧
          (∀ v, v < 2 ^ wb →
            (∀ sym, sym < ws.length → 0 < ws.getD sym 0 →
              v < firstValue ws sym ∨ firstValue ws sym + 2 ^ (ws.getD sym 0 - 1) ≤ v) →
            t.hufEntryAt (reversed wb v) = ⟨BitVec.ofNat 8 ws.length, BitVec.ofNat 4 (wb + 1 - impliedOf ws)⟩) ∧
          (∀ i, 2 ^ wb ≤ i → t.hufEntryAt i = s.hufEntryAt i) ∧
          WarnedHere s t (if ∃ k, k < 12 ∧ restWeight ws = 2 ^ k then [] else [.hufIncomplete])) ∧
        t = { warningsOf s t with res := t.res, hufwb := t.hufwb, hufvalid := t.hufvalid, huft := t.huft }

/-- R306, R161: after `HUFEXPAND` of weights that leave no gap, a lane whose next bits are the canonical code of a symbol,
most significant code bit first, decodes that symbol and its code length, whatever bits follow. -/
def Obligations.CanonicalCodesDecode : Prop :=
  ∀ (s : State) (sym : Nat), s.sanitize = true →
    let ws := weightsOf s
    let wb := bitLength (totalWeight ws)
    let w := ws.getD sym 0
    let len := wb + 1 - w
    wb ≤ 11 → sym < ws.length → 0 < w → (∃ k, restWeight ws = 2 ^ k) →
    ∃ t, exec .hufexpand s = .next t ∧
      ∀ pv, pv < 2 ^ wb → pv % 2 ^ len = reversed len (firstValue ws sym / 2 ^ (w - 1)) →
        t.hufEntryAt pv = ⟨BitVec.ofNat 8 sym, BitVec.ofNat 4 len⟩

/-- R307: `HUFDEC` with a table peeks `HUFWB` bits on every lane of the range, takes the entry they index, and drops its
length; without a table it warns. The premise on the entries is the invariant of `Obligations.StepKeepsTables` (R63). -/
def Obligations.HufdecDecodes : Prop :=
  (∀ lo cnt, (encode (.hufdec lo cnt)).toNat = wordOf 0x23 lo.toNat cnt.toNat 0 0) ∧
    ∀ (s : State) (lo : BitVec 5) (cnt : BitVec 6),
      (s.hufvalid = true → s.hufOk →
        let wb := s.hufwb.toNat
        ∃ u, exec (.hufdec lo cnt) s = .next u ∧
          u.readPos = s.readPos + BitVec.ofNat 64 (wordsBefore s lo.toNat cnt.toNat (fun _ => wb) 32) ∧
          (∀ l, u.lane l = if inRange lo.toNat cnt.toNat l then
              let x := windowed (filledLane s lo.toNat cnt.toNat (fun _ => wb) l) wb
              let e := s.hufEntryAt x.pv.toNat
              { dropped x e.len.toNat with sym := e.sym.setWidth 32 }
            else s.lane l) ∧
          u = { s with readPos := u.readPos, lanes := u.lanes }) ∧
      (s.hufvalid = false → s.sanitize = true →
        ∃ u, exec (.hufdec lo cnt) s = .next u ∧ UnbuiltEffect s u lo.toNat cnt.toNat)

/-! ### The sequence and literal engine -/

/-- R351 (with R154): `RDPSIZE` reads a packed size of one, two or three raw bytes. -/
def Obligations.RdpsizeReads : Prop :=
  (encode .rdpsize).toNat = wordOf 0x05 0 0 0 0 ∧
    ∀ s : State, ∃ t, exec .rdpsize s = .next t ∧ t.res.toNat = (packedSizeAt s 0).1 ∧
      RawTaken s t (packedSizeAt s 0).2 ∧ t = { s with res := t.res, readPos := t.readPos, rcb := t.rcb, rcn := t.rcn }

/-- R154: every value up to 4210815 has exactly one encoding, of one to three bytes, and no other value has one; on every
state whose raw byte stream begins with the encoding, `RDPSIZE` gives the value. -/
def Obligations.PackedSizesAreUnique : Prop :=
  (∀ s t : State, exec .rdpsize s = .next t → t.res.toNat ≤ 4210815) ∧
    ∀ V : Nat, V ≤ 4210815 →
      ∃ bs : List Byte, ∀ s : State,
        rawBytes s bs.length = bs ↔ ∃ t, exec .rdpsize s = .next t ∧ t.res.toNat = V

/-- R353, R354: `LITCFG` and `SETRLE`. -/
def Obligations.LiteralSetUp : Prop :=
  (∀ m, (encode (.litcfg m)).toNat = wordOf 0x30 0 0 m.toNat 0) ∧ (encode .setrle).toNat = wordOf 0x31 0 0 0 0 ∧
    (∀ (s : State) (m : BitVec 2), s.sanitize = true →
      ∃ t, exec (.litcfg m) s = .next t ∧ WarnedHere s t (if m = 3 then [.litModeReserved] else []) ∧
        t = { warningsOf s t with litMode := m, maxLit := s.arg0, litEmitted := 0, litTotal := 0 }) ∧
    ∀ s : State, exec .setrle s = .next { s with rleByte := s.arg0.extractLsb' 0 8 }

/-- R355: `LITTARGET` in every mode brings `LITEMITTED` up to the target, clamped to `MAXLIT`, one output byte a literal. -/
def Obligations.LittargetCounts : Prop :=
  (encode .littarget).toNat = wordOf 0x32 0 0 0 0 ∧
    ∀ s : State, s.sanitize = true →
      let T := min s.arg0.toNat s.maxLit.toNat
      ∃ (t : State) (bs : List Byte), exec .littarget s = .next t ∧
        t.litEmitted.toNat = max s.litEmitted.toNat T ∧ t.res.toNat = t.litEmitted.toNat ∧
        bs.length = T - s.litEmitted.toNat ∧ Stored s t bs ∧
        (T ≤ s.litEmitted.toNat → WarnedHere s t (if s.maxLit.toNat < s.arg0.toNat then [.litOverrun] else []) ∧
          t = { warningsOf s t with res := t.res }) ∧
        t = { warningsOf s t with
          res := t.res, litEmitted := t.litEmitted, writePos := t.writePos, outBuf := t.outBuf, written := t.written
          readPos := t.readPos, rcb := t.rcb, rcn := t.rcn, lanes := t.lanes }

/-- R355: the literal bytes. RLE mode repeats `RLEBYTE`; raw mode, and mode 3, take the raw byte stream; Huffman mode with
no table warns and emits zeros. -/
def Obligations.LittargetBytes : Prop :=
  ∀ s : State, s.sanitize = true →
    let T := min s.arg0.toNat s.maxLit.toNat
    let n := T - s.litEmitted.toNat
    let early := if s.maxLit.toNat < s.arg0.toNat then [Warn.litOverrun] else []
    ∃ t, exec .littarget s = .next t ∧
      (s.litMode = 2 → Stored s t (List.replicate n s.rleByte) ∧ WarnedHere s t early ∧ RawTaken s t 0 ∧ t.lanes = s.lanes) ∧
      (s.litMode = 1 ∨ s.litMode = 3 → Stored s t (rawBytes s n) ∧ WarnedHere s t early ∧ RawTaken s t n ∧
        t.lanes = s.lanes) ∧
      (s.litMode = 0 → s.hufvalid = false → Stored s t (List.replicate n 0) ∧
        WarnedHere s t (early ++ if 0 < n then [.tableNotBuilt] else []) ∧ RawTaken s t 0 ∧ t.lanes = s.lanes)

/-- R355, R161: in Huffman mode with a table, literal k is decoded on lane k mod 32. A target above `MAXLIT` warns and becomes
`MAXLIT`; the literals are decoded in runs that end at lane 31 or at the target, each the `HUFDEC` of its lanes, whose symbols
are the bytes; so a run of literals that ends at or before lane 31 is one `HUFDEC`. -/
def Obligations.LittargetHuffmanDecodes : Prop :=
  (∀ s : State, s.sanitize = true → s.litMode = 0 → s.hufvalid = true →
    let T := min s.arg0.toNat s.maxLit.toNat
    ∃ (t : State) (R : Nat) (f g : Nat → State), exec .littarget s = .next t ∧
      WarnedHere s (f 0) (if s.maxLit.toNat < s.arg0.toNat then [.litOverrun] else []) ∧ f 0 = warningsOf s (f 0) ∧
      (∀ j, j < R →
        let e := (f j).litEmitted.toNat
        let cnt := min (32 - e % 32) (T - e)
        e < T ∧ exec (.hufdec (BitVec.ofNat 5 (e % 32)) (BitVec.ofNat 6 cnt)) (f j) = .next (g j) ∧
          Stored (g j) (f (j + 1))
            ((List.range cnt).map fun k => ((g j).lane (Fin.ofNat 32 (e % 32 + k))).sym.setWidth 8) ∧
          (f (j + 1)).litEmitted.toNat = e + cnt ∧
          f (j + 1) = { g j with
            litEmitted := (f (j + 1)).litEmitted, writePos := (f (j + 1)).writePos, outBuf := (f (j + 1)).outBuf
            written := (f (j + 1)).written }) ∧
      T ≤ (f R).litEmitted.toNat ∧ t = { f R with res := (f R).litEmitted.setWidth 64 }) ∧
  ∀ (s : State) (lo : BitVec 5) (cnt : BitVec 6), s.sanitize = true → s.litMode = 0 → s.hufvalid = true →
    s.arg0.toNat ≤ s.maxLit.toNat → lo.toNat = s.litEmitted.toNat % 32 → rangeOk lo cnt = true →
    s.arg0.toNat = s.litEmitted.toNat + cnt.toNat →
    ∃ t u, exec .littarget s = .next t ∧ exec (.hufdec lo cnt) s = .next u ∧
      Stored s t ((List.range cnt.toNat).map fun k => (u.lane (Fin.ofNat 32 (lo.toNat + k))).sym.setWidth 8) ∧
      t = { u with
        res := s.arg0.setWidth 64, litEmitted := s.arg0, writePos := t.writePos, outBuf := t.outBuf
        written := t.written }

/-- R357: `MATCH` copies byte by byte from `off` bytes back, so the bytes repeat with period `off`; a source before index 0,
or at or beyond `OUT_CAP`, or that the engine did not write since the last reset, reads 0; an offset of 0 writes zeros. The
record of what was written is the model's form of R106 and 70 R510 (log entry 7). -/
def Obligations.MatchCopies : Prop :=
  (encode .matchcopy).toNat = wordOf 0x33 0 0 0 0 ∧
    ∀ s : State, s.sanitize = true →
      let off := s.arg0.toNat
      let len := s.arg1.toNat
      let wp := s.writePos.toNat
      ∃ t, exec .matchcopy s = .next t ∧
        (off = 0 → Stored s t (List.replicate len 0) ∧ WarnedHere s t [.offsetZero]) ∧
        (0 < off →
          Stored s t ((List.range len).map fun k =>
            let a := wp + k % off - off
            if wp + k % off < off ∨ s.outCap.toNat ≤ a ∨ s.wrote a = false then 0 else s.outBuf.read a) ∧
          WarnedHere s t (if wp < off then [.matchBeforeStart] else [])) ∧
        t = { warningsOf s t with writePos := t.writePos, outBuf := t.outBuf, written := t.written }

/-- R358, R359: the length codes tile the lengths: each code begins where the values of the code before it end. -/
def Obligations.LengthCodesTile : Prop :=
  llCode 0 = (0, 0) ∧ llCode 35 = (65536, 16) ∧ (∀ c, c < 35 → (llCode (c + 1)).1 = (llCode c).1 + 2 ^ (llCode c).2) ∧
    (List.range' 16 20).map (fun c => (llCode c).2) = [1, 1, 1, 1, 2, 2, 3, 3, 4, 6, 7, 8, 9, 10, 11, 12, 13, 14, 15, 16] ∧
    mlCode 0 = (3, 0) ∧ mlCode 52 = (65539, 16) ∧ (∀ c, c < 52 → (mlCode (c + 1)).1 = (mlCode c).1 + 2 ^ (mlCode c).2) ∧
    (List.range' 32 21).map (fun c => (mlCode c).2)
      = [1, 1, 1, 1, 2, 2, 3, 3, 4, 4, 5, 7, 8, 9, 10, 11, 12, 13, 14, 15, 16]

/-- R361: the repeat-offset rule, case by case. -/
def Obligations.ResolveOffsetCases : Prop :=
  ∀ (s : State) (ov llv : Nat), 1 ≤ ov → ov < 2 ^ 32 →
    let reps := fun (a b c : Word) => { s with rep0 := a, rep1 := b, rep2 := c }
    (3 < ov → s.resolveOffset ov llv = (ov - 3, reps (BitVec.ofNat 32 (ov - 3)) s.rep0 s.rep1)) ∧
      (ov = 1 → llv ≠ 0 → s.resolveOffset ov llv = (s.rep0.toNat, s)) ∧
      (ov = 2 ∧ llv ≠ 0 ∨ ov = 1 ∧ llv = 0 →
        s.resolveOffset ov llv = (s.rep1.toNat, reps s.rep1 s.rep0 s.rep2)) ∧
      (ov = 3 ∧ llv ≠ 0 ∨ ov = 2 ∧ llv = 0 →
        s.resolveOffset ov llv = (s.rep2.toNat, reps s.rep2 s.rep0 s.rep1)) ∧
      (ov = 3 → llv = 0 →
        s.resolveOffset ov llv = ((s.rep0 - 1).toNat, reps (s.rep0 - 1) s.rep0 s.rep1))

/-- R162, R362: what `SEQEXEC` reads for a last batch of one sequence, on lane 0 (`Obligations.SeqexecEmitsAllLiterals` has
the batches of several lanes, and ties them to the command), as arithmetic on the lane's bit stream: the buffered bits
with the next three words above them. State bits of LL, ML and OF come first, then the LL and ML extra bits, then the OF
extra bits. -/
def Obligations.SequenceFieldsOfOneLane : Prop :=
  ∀ s : State, s.lanesOk → s.tablesOk → s.built .ll = true → s.built .ml = true → s.built .off = true →
    (s.lane 0).dacc = 0 →
    let word := fun k => (s.inWordAt (s.readPos + BitVec.ofNat 64 k).toNat).toNat
    let S := (s.lane 0).buf.toNat + 2 ^ (s.lane 0).avail.toNat * (word 0 + 2 ^ 32 * word 1 + 2 ^ 64 * word 2)
    let dL := s.fsd 0 .ll
    let dM := s.fsd 0 .ml
    let dO := s.fsd 0 .off
    let cL := cellOf s .ll (s.fss 0 .ll + S % 2 ^ dL)
    let cM := cellOf s .ml (s.fss 0 .ml + S / 2 ^ dL % 2 ^ dM)
    let cO := cellOf s .off (s.fss 0 .off + S / 2 ^ (dL + dM) % 2 ^ dO)
    let S1 := S / 2 ^ (dL + dM + dO)
    let lb := (llCode cL.sym.toNat).2
    let mb := (mlCode cM.sym.toNat).2
    let ob := cO.sym.toNat
    let r := s.readBatch (laneRange 0 1)
    r.1 0 = ⟨(llCode cL.sym.toNat).1 + S1 % 2 ^ lb, (mlCode cM.sym.toNat).1 + S1 / 2 ^ lb % 2 ^ mb,
        (2 ^ ob + S1 / 2 ^ (lb + mb) % 2 ^ ob) % 2 ^ 32⟩ ∧
      (r.2.lane 0).fss = (((s.lane 0).fss.set 0 cL.base).set 1 cM.base).set 2 cO.base ∧
      (r.2.lane 0).fsd = (((s.lane 0).fsd.set 0 cL.nb).set 1 cM.nb).set 2 cO.nb ∧ (r.2.lane 0).dacc = 0

/-- R362 (with R363): `SEQEXEC` reads a packed size; with all three tables built it executes that many sequences in batches of
up to 32, the reads of a batch before its literals and matches, then emits the literals that are left; with a table unbuilt
it warns and the literals are all it emits. It always ends with every literal of the section emitted. -/
def Obligations.SeqexecEmitsAllLiterals : Prop :=
  (encode .seqexec).toNat = wordOf 0x34 0 0 0 0 ∧
  ∀ s : State, s.sanitize = true → s.litOk →
    let n := (packedSizeAt s 0).1
    let tables := s.built .ll && s.built .ml && s.built .off
    ∃ (t a : State) (bs : List Byte),
      let b := { a with numSeq := BitVec.ofNat 32 n, res := s.res }
      exec .seqexec s = .next t ∧ exec .rdpsize s = .next a ∧
      (tables = true → s.tablesOk → SequencesDone b t n) ∧
      (tables = false → ∃ y, exec .littarget { b.warn .tableNotBuilt with arg0 := s.maxLit } = .next y ∧
        t = { y with arg0 := s.arg0, res := t.res }) ∧
      t.numSeq.toNat = n ∧ t.res.toNat = n ∧ t.litEmitted = s.maxLit ∧ t.litOk ∧ Stored s t bs ∧
      (s.tablesOk → bs.length = (t.writePos - s.writePos).toNat) ∧
      (n = 0 ∨ tables = false →
        bs.length = s.maxLit.toNat - s.litEmitted.toNat ∧ t.rep0 = s.rep0 ∧ t.rep1 = s.rep1 ∧ t.rep2 = s.rep2 ∧
        t.litTotal = s.litTotal) ∧
      (tables = false → (t.warnSticky.getLsbD 8) = true) ∧
      t = { warningsOf s t with
        res := t.res, numSeq := t.numSeq, litEmitted := t.litEmitted, litTotal := t.litTotal
        writePos := t.writePos, outBuf := t.outBuf, written := t.written, readPos := t.readPos, rcb := t.rcb
        rcn := t.rcn, lanes := t.lanes, rep0 := t.rep0, rep1 := t.rep1, rep2 := t.rep2 }

/-! ### The block driver -/

/-- R404, R405: `RLEBLOCK` repeats one raw byte `SIZE` times, and `RAWBLOCK` copies `SIZE` raw bytes, `SIZE` being bits
[27:0] of `ARG0`. -/
def Obligations.RleAndRawBlocks : Prop :=
  (encode .rleblock).toNat = wordOf 0x41 0 0 0 0 ∧ (encode .rawblock).toNat = wordOf 0x42 0 0 0 0 ∧
    ∀ s : State,
      let size := s.arg0.toNat % 2 ^ 28
      (∃ t, exec .rleblock s = .next t ∧ t.res.toNat = size ∧ Stored s t (List.replicate size (rawByteAt s 0)) ∧
        RawTaken s t 1 ∧
        t = { s with
          res := t.res, writePos := t.writePos, outBuf := t.outBuf, written := t.written, readPos := t.readPos
          rcb := t.rcb, rcn := t.rcn }) ∧
      ∃ t, exec .rawblock s = .next t ∧ t.res.toNat = size ∧ Stored s t (rawBytes s size) ∧ RawTaken s t size ∧
        t = { s with
          res := t.res, writePos := t.writePos, outBuf := t.outBuf, written := t.written, readPos := t.readPos
          rcb := t.rcb, rcn := t.rcn }

/-- R403 (with R155 to R157, R163): `CBLOCK` is the sequence of its steps: the literal descriptor and size, the literal section
and its table, the sequence descriptor and the three tables, predefined or read, then the sequences; last, a warning exactly
where the bytes produced are not `SIZE`. `ARG0` and `RUNSTATE` are as before. -/
def Obligations.CblockDecodes : Prop :=
  (encode .cblock).toNat = wordOf 0x40 0 0 0 0 ∧
  ∀ s : State, s.sanitize = true →
    ∃ (t x z : State) (bs : List Byte), exec .cblock s = .next t ∧ BodyRead s.arg0.toNat s x ∧ exec .seqexec x = .next z ∧
      t = { (if t.res.toNat = s.arg0.toNat % 2 ^ 28 then z else z.warn .blockSizeMismatch) with
        arg0 := s.arg0, res := t.res } ∧
      Stored s t bs ∧ t.res = t.writePos - s.writePos ∧ (s.tablesOk → bs.length = t.res.toNat) ∧
      t.litMode = (rawByteAt s 0).extractLsb' 0 2 ∧ t.maxLit.toNat = (packedSizeAt s 1).1 ∧ t.litEmitted = t.maxLit ∧
      t.litOk ∧ t.numSeq.toNat ≤ 4210815 ∧
      t.built .ll = true ∧ t.built .ml = true ∧ t.built .off = true ∧ (t.litMode = 0 → t.hufvalid = true) ∧
      (t.litMode ≠ 0 → t.hufw = s.hufw ∧ t.hufn = s.hufn ∧ t.hufwb = s.hufwb ∧ t.hufvalid = s.hufvalid ∧
        t.huft = s.huft) ∧
      (t.litMode = 2 → t.rleByte = rawByteAt s (1 + (packedSizeAt s 1).2)) ∧
      (t.res.toNat ≠ s.arg0.toNat % 2 ^ 28 → t.warnLast = 18) ∧
      t.runState = s.runState ∧ HostKept s t

/-- R406, R402: `BLOCK` synchronises the readers, takes the control word, runs the handler of its type, and moves
`RUNSTATE`; type 3 ends the stream. -/
def Obligations.BlockDispatches : Prop :=
  (encode .block).toNat = wordOf 0x43 0 0 0 0 ∧
    ∀ s : State, s.sanitize = true →
      let cw := s.inWordAt s.readPos.toNat
      let typ := cw.toNat / 2 ^ 28 % 4
      let size := cw.toNat % 2 ^ 28
      let s1 := blockStart s
      ∃ t, exec .block s = .next t ∧ t.res = cw.setWidth 64 ∧
        t.runState = (if typ = 3 then .done else if 2 ^ 31 ≤ cw.toNat then .awaitingBlock else .done) ∧
        (typ = 0 → ∃ z, exec .cblock { s1 with runState := .decodingCompressedBlock, arg0 := cw } = .next z ∧
          t = { z with res := t.res, runState := t.runState, arg0 := s.arg0 }) ∧
        (typ = 1 → Stored s t (List.replicate size (rawByteAt s1 0)) ∧ RawTaken s1 t 1) ∧
        (typ = 2 → Stored s t (rawBytes s1 size) ∧ RawTaken s1 t size) ∧
        (typ = 1 ∨ typ = 2 → t = { s1 with
          res := t.res, runState := t.runState, writePos := t.writePos, outBuf := t.outBuf, written := t.written
          readPos := t.readPos, rcb := t.rcb, rcn := t.rcn }) ∧
        (typ = 3 → WarnedHere s1 t [.blockTypeReserved] ∧
          t = { warningsOf s1 t with res := t.res, runState := t.runState })

/-- R407: a stream of one RLE block, or of one raw block, decodes to the block's bytes, from any state the host set it up
in. -/
def Obligations.RunDecodesOneBlock : Prop :=
  ∀ s : State, s.sanitize = true →
    let cw := (s.inWordAt 0).toNat
    let size := cw % 2 ^ 28
    let s0 := { s with writePos := 0, readPos := 1, rcn := 0, written := [] }
    cw / 2 ^ 28 % 4 = 1 ∨ cw / 2 ^ 28 % 4 = 2 → cw < 2 ^ 31 →
    ∃ t, exec .run s = .next t ∧ t.runState = .done ∧ t.res.toNat = size ∧ t.writePos.toNat = size ∧ t.warnLog = [] ∧
      Stored s0 t (if cw / 2 ^ 28 % 4 = 1 then List.replicate size (rawByteAt s0 0) else rawBytes s0 size)

/-- R407, R408, R506: `RUN` is `RESET`, then `BLOCK` after `BLOCK` until `RUNSTATE` = Done, at most ceil(`IN_SIZE` / 4) + 1 of
them; then `RES` = `WRITEPOS`. Its output is what the blocks produce, from index 0 on; R59 says that `WRITEPOS` does not
wrap, and for an input below 2^20 bytes the statement says so. -/
def Obligations.RunEndsDone : Prop :=
  (encode .run).toNat = wordOf 0x44 0 0 0 0 ∧
    ∀ s : State, s.sanitize = true →
      ∃ (t : State) (bs : List Byte) (n : Nat) (f : Nat → State), exec .run s = .next t ∧ t.runState = .done ∧
        t.res = t.writePos ∧ exec .reset s = .next (f 0) ∧ n ≤ (s.inSize.toNat + 3) / 4 + 1 ∧
        (∀ j, j < n → (f j).runState ≠ .done ∧ exec .block (f j) = .next (f (j + 1))) ∧ (f n).runState = .done ∧
        t = { f n with res := (f n).writePos } ∧
        bs.length = ((List.range n).map fun j => ((f (j + 1)).writePos - (f j).writePos).toNat).sum ∧
        (s.inSize.toNat < 2 ^ 20 → bs.length = t.writePos.toNat) ∧
        Stored { s with writePos := 0, written := [] } t bs ∧ HostKept s t

/-! ### The whole machine -/

/-- R450, R46, R53, R102: no condition stops a command, in either build; and no command changes `ARG0`, `ARG1`, `NV`,
`IN_SIZE`, `OUT_CAP`, the build or the input buffer. -/
def Obligations.EveryCommandCompletes : Prop :=
  ∀ (i : Instr) (s : State), ∃ t, exec i s = .next t ∧ HostKept s t

/-- R105, R107: in a sanitized build a command other than the resets only appends to the output: as many bytes as `WRITEPOS`
advances, at ascending indices from `WRITEPOS` on, those below `OUT_CAP` stored, every other byte of `OUT` as before. The
premise is the invariant of `Obligations.StepKeepsTables`, which bounds the match lengths (R359). -/
def Obligations.OutputIsAppended : Prop :=
  ∀ (i : Instr) (s : State), s.sanitize = true → s.tablesOk → i ≠ .reset → i ≠ .run →
    ∃ (t : State) (bs : List Byte), exec i s = .next t ∧ bs.length = (t.writePos - s.writePos).toNat ∧ Stored s t bs

/-- R452, R454: in a sanitized build a command other than the resets only adds to the warning registers, in the order it
raised its warnings. -/
def Obligations.WarningsAccumulate : Prop :=
  ∀ (i : Instr) (s : State), s.sanitize = true → i ≠ .reset → i ≠ .run →
    ∃ (t : State) (cs : List Warn), exec i s = .next t ∧ Warned s t cs

/-- R106: in a sanitized build the host's initial content of `OUT` never influences a result: two states that differ only in
bytes of `OUT` the engine did not write since the last reset give, by every command, two states that differ only so. The
record of what was written is the model's form of R106 and 70 R510 (log entry 7). -/
def Obligations.UnwrittenOutputNeverRead : Prop :=
  ∀ (i : Instr) (s s' : State), s.sanitize = true → SameButUnwrittenOut s s' →
    ∃ t t', exec i s = .next t ∧ exec i s' = .next t' ∧ SameButUnwrittenOut t t'

/-- R455: in a run where no warning condition arises, the two builds behave identically. -/
def Obligations.BuildsAgreeWithoutWarnings : Prop :=
  ∀ (i : Instr) (s t : State), s.sanitize = true → exec i s = .next t →
    (i = .reset ∨ (i = .run ∧ t.warnLog = []) ∨ (i ≠ .run ∧ t.warnLog = s.warnLog)) →
    exec i { s with sanitize := false } = .next { t with sanitize := false }

/-- R455, R146: in either build, whatever warning arises, a command of the lane readers and decoders changes nothing but lane
registers, `READPOS`, the warning registers and output bytes from `WRITEPOS` on and below `OUT_CAP`, and an illegal word not
even the first two (log entry 5; `draws` is the model's own). -/
def Obligations.EitherBuildKeepsTheRest : Prop :=
  let outKept := fun s t : State => s.outBuf.wf = true →
    ∀ a, a < s.writePos.toNat ∨ s.outCap.toNat ≤ a → t.outBuf.read a = s.outBuf.read a
  (∀ (s : State) (k : Tbl) (lo : BitVec 5) (cnt n : BitVec 6),
    ∀ i ∈ [Instr.peek lo cnt n, .peekv lo cnt, .discard lo cnt n, .discardv lo cnt, .discardacc lo cnt, .fseinit k lo cnt,
        .fsedec k lo cnt, .fsedecnp k lo cnt, .hufdec lo cnt],
      ∃ t, exec i s = .next t ∧ outKept s t ∧ t = { warningsOf s t with
        readPos := t.readPos, lanes := t.lanes, outBuf := t.outBuf, draws := t.draws }) ∧
    ∀ (s : State) (rest : List HostOp) (w : Word), s.hostOps = .write 4 0x008 w :: rest → IllegalWord w.toNat →
      ∃ t, step s = .next t ∧ outKept s t ∧ t = { warningsOf s t with
        hostOps := rest, outBuf := t.outBuf, draws := t.draws }

/-! ### Invariants -/

/-- The canonical form of both buffers is kept by every step, in either build (log entry 3). -/
def Obligations.StepKeepsMemoryCanonical : Prop :=
  ∀ s t : State, s.memOk = true → step s = .next t → t.memOk = true

/-- R56: every rule preserves `BUF[l] < 2^AVAIL[l]` and the ranges of the lane registers, in a sanitized build. -/
def Obligations.StepKeepsLaneBuffers : Prop :=
  ∀ s t : State, s.sanitize = true → s.lanesOk → step s = .next t → t.lanesOk ∧ t.sanitize = true

/-- R64: `LITEMITTED` and `LITTOTAL` never exceed `MAXLIT`, in a sanitized build; and R49: in either build bit 0 and bits
[31:20] of `WARN_STICKY` stay 0. -/
def Obligations.StepKeepsLiteralCounters : Prop :=
  (∀ s t : State, s.sanitize = true → s.litOk → step s = .next t → t.litOk ∧ t.sanitize = true) ∧
    ∀ s t : State, s.stickyOk → step s = .next t → t.stickyOk

/-- R60, R62, R63: the tables that are marked built, and the live states, stay in range, in a sanitized build. -/
def Obligations.StepKeepsTables : Prop :=
  ∀ s t : State, s.sanitize = true → s.tablesOk → step s = .next t → t.tablesOk ∧ t.sanitize = true

/-- The invariants hold after reset. That the build of the reset state is sanitized and that its buffers list nothing are the
model's choice (log entries 4 and 3), and so are the zeros of its table contents (log entry 2), which no clause rests on. -/
def Obligations.ResetSatisfiesInvariants : Prop :=
  State.reset.sanitize = true ∧ State.reset.memOk = true ∧ State.reset.lanesOk ∧ State.reset.litOk ∧
    State.reset.tablesOk ∧ State.reset.stickyOk
end

