-- ==== Sys2Proof/Laws/Decode.lean ====
section
/-! SUPPORT. Lemmas about the command word: its fields are read where they are written, table ids and their codes, and what
the two field checks of the decoder answer. -/

namespace Sys2Proof

/-- The fields read from the word of given fields are those fields (R141). -/
@[simp] theorem CmdFields.ofWord_toWord (f : CmdFields) : CmdFields.ofWord f.toWord = f := by
  obtain ⟨op, lo, cnt, n, t, rsv⟩ := f
  simp only [CmdFields.ofWord, CmdFields.toWord, CmdFields.mk.injEq]
  refine ⟨?_, ?_, ?_, ?_, ?_, ?_⟩ <;>
    · ext i hi
      rw [BitVec.getElem_extractLsb', ← BitVec.getLsbD_eq_getElem]
      simp only [BitVec.getLsbD_append]
      repeat' split
      all_goals first | omega | (congr 1; omega)

/-- A word is the word of its fields: they cover every bit (R141). -/
@[simp] theorem CmdFields.toWord_ofWord (w : Word) : (CmdFields.ofWord w).toWord = w := by
  simp only [CmdFields.ofWord, CmdFields.toWord]
  ext i hi
  simp only [BitVec.getElem_append, BitVec.getElem_extractLsb']
  repeat' split
  all_goals rw [← BitVec.getLsbD_eq_getElem]; congr 1; omega

/-- Every table id is the table its code names (R141). -/
@[simp] theorem tblOf_tblCode (t : Tbl) : tblOf (tblCode t) = t := by cases t <;> rfl

/-- Every code is the code of the table it names (R141). -/
@[simp] theorem tblCode_tblOf (c : BitVec 2) : tblCode (tblOf c) = c := by revert c; decide

/-- What the decoder answers for a command that uses no field. -/
theorem decodePlain_ok_iff (f : CmdFields) (i j : Instr) :
    decodePlain f i = .ok j ↔ (f.lo = 0 ∧ f.cnt = 0 ∧ f.n = 0 ∧ f.t = 0) ∧ i = j := by
  unfold decodePlain
  split
  · simp [*]
  · rename_i h; exact ⟨nofun, fun e => absurd e.1 h⟩

/-- What the decoder answers for a command that uses a lane range. -/
theorem decodeRange_ok_iff (f : CmdFields) (ok : Bool) (i j : Instr) :
    decodeRange f ok i = .ok j ↔ ok = true ∧ rangeOk f.lo f.cnt = true ∧ i = j := by
  unfold decodeRange
  split
  · split <;> simp [*]
  · simp [*]

end Sys2Proof
end

