-- ==== Sys2Proof/Laws/State.lean ====
section
/-! SUPPORT. One lemma per field per named update of the state, true by `rfl`, so that no proof unfolds a record update. -/

namespace Sys2Proof.Machine

variable (s : State)

/-! ### `State.warn` -/

@[simp] theorem State.warn_arg0 (c : Warn) : (s.warn c).arg0 = s.arg0 := rfl
@[simp] theorem State.warn_arg1 (c : Warn) : (s.warn c).arg1 = s.arg1 := rfl
@[simp] theorem State.warn_nv (c : Warn) : (s.warn c).nv = s.nv := rfl
@[simp] theorem State.warn_inSize (c : Warn) : (s.warn c).inSize = s.inSize := rfl
@[simp] theorem State.warn_outCap (c : Warn) : (s.warn c).outCap = s.outCap := rfl
@[simp] theorem State.warn_sanitize (c : Warn) : (s.warn c).sanitize = s.sanitize := rfl
@[simp] theorem State.warn_res (c : Warn) : (s.warn c).res = s.res := rfl
@[simp] theorem State.warn_readPos (c : Warn) : (s.warn c).readPos = s.readPos := rfl
@[simp] theorem State.warn_writePos (c : Warn) : (s.warn c).writePos = s.writePos := rfl
@[simp] theorem State.warn_rcb (c : Warn) : (s.warn c).rcb = s.rcb := rfl
@[simp] theorem State.warn_rcn (c : Warn) : (s.warn c).rcn = s.rcn := rfl
@[simp] theorem State.warn_lanes (c : Warn) : (s.warn c).lanes = s.lanes := rfl
@[simp] theorem State.warn_runState (c : Warn) : (s.warn c).runState = s.runState := rfl
@[simp] theorem State.warn_rep0 (c : Warn) : (s.warn c).rep0 = s.rep0 := rfl
@[simp] theorem State.warn_rep1 (c : Warn) : (s.warn c).rep1 = s.rep1 := rfl
@[simp] theorem State.warn_rep2 (c : Warn) : (s.warn c).rep2 = s.rep2 := rfl
@[simp] theorem State.warn_litMode (c : Warn) : (s.warn c).litMode = s.litMode := rfl
@[simp] theorem State.warn_rleByte (c : Warn) : (s.warn c).rleByte = s.rleByte := rfl
@[simp] theorem State.warn_maxLit (c : Warn) : (s.warn c).maxLit = s.maxLit := rfl
@[simp] theorem State.warn_litEmitted (c : Warn) : (s.warn c).litEmitted = s.litEmitted := rfl
@[simp] theorem State.warn_litTotal (c : Warn) : (s.warn c).litTotal = s.litTotal := rfl
@[simp] theorem State.warn_numSeq (c : Warn) : (s.warn c).numSeq = s.numSeq := rfl
@[simp] theorem State.warn_tacc (c : Warn) : (s.warn c).tacc = s.tacc := rfl
@[simp] theorem State.warn_tvalid (c : Warn) : (s.warn c).tvalid = s.tvalid := rfl
@[simp] theorem State.warn_fseCell (c : Warn) : (s.warn c).fseCell = s.fseCell := rfl
@[simp] theorem State.warn_hufw (c : Warn) : (s.warn c).hufw = s.hufw := rfl
@[simp] theorem State.warn_hufn (c : Warn) : (s.warn c).hufn = s.hufn := rfl
@[simp] theorem State.warn_hufwb (c : Warn) : (s.warn c).hufwb = s.hufwb := rfl
@[simp] theorem State.warn_hufvalid (c : Warn) : (s.warn c).hufvalid = s.hufvalid := rfl
@[simp] theorem State.warn_huft (c : Warn) : (s.warn c).huft = s.huft := rfl
@[simp] theorem State.warn_warnSticky (c : Warn) : (s.warn c).warnSticky = s.warnSticky ||| BitVec.ofNat 32 (2 ^ c.code) := rfl
theorem State.warn_warnCount (c : Warn) : (s.warn c).warnCount = (if s.warnCount.toNat < 2 ^ 32 - 1 then s.warnCount + 1 else s.warnCount) := rfl
@[simp] theorem State.warn_warnLast (c : Warn) : (s.warn c).warnLast = BitVec.ofNat 8 c.code := rfl
@[simp] theorem State.warn_warnLog (c : Warn) : (s.warn c).warnLog = s.warnLog ++ [⟨c, s.readPos, s.writePos⟩] := rfl
@[simp] theorem State.warn_inBuf (c : Warn) : (s.warn c).inBuf = s.inBuf := rfl
@[simp] theorem State.warn_outBuf (c : Warn) : (s.warn c).outBuf = s.outBuf := rfl
@[simp] theorem State.warn_written (c : Warn) : (s.warn c).written = s.written := rfl
@[simp] theorem State.warn_hostOps (c : Warn) : (s.warn c).hostOps = s.hostOps := rfl
@[simp] theorem State.warn_hostData (c : Warn) : (s.warn c).hostData = s.hostData := rfl
@[simp] theorem State.warn_draws (c : Warn) : (s.warn c).draws = s.draws := rfl

/-! ### `State.inWord` -/

@[simp] theorem State.inWord_arg0 : s.inWord.2.arg0 = s.arg0 := rfl
@[simp] theorem State.inWord_arg1 : s.inWord.2.arg1 = s.arg1 := rfl
@[simp] theorem State.inWord_nv : s.inWord.2.nv = s.nv := rfl
@[simp] theorem State.inWord_inSize : s.inWord.2.inSize = s.inSize := rfl
@[simp] theorem State.inWord_outCap : s.inWord.2.outCap = s.outCap := rfl
@[simp] theorem State.inWord_sanitize : s.inWord.2.sanitize = s.sanitize := rfl
@[simp] theorem State.inWord_res : s.inWord.2.res = s.res := rfl
@[simp] theorem State.inWord_readPos : s.inWord.2.readPos = s.readPos + 1 := rfl
@[simp] theorem State.inWord_writePos : s.inWord.2.writePos = s.writePos := rfl
@[simp] theorem State.inWord_rcb : s.inWord.2.rcb = s.rcb := rfl
@[simp] theorem State.inWord_rcn : s.inWord.2.rcn = s.rcn := rfl
@[simp] theorem State.inWord_lanes : s.inWord.2.lanes = s.lanes := rfl
@[simp] theorem State.inWord_runState : s.inWord.2.runState = s.runState := rfl
@[simp] theorem State.inWord_rep0 : s.inWord.2.rep0 = s.rep0 := rfl
@[simp] theorem State.inWord_rep1 : s.inWord.2.rep1 = s.rep1 := rfl
@[simp] theorem State.inWord_rep2 : s.inWord.2.rep2 = s.rep2 := rfl
@[simp] theorem State.inWord_litMode : s.inWord.2.litMode = s.litMode := rfl
@[simp] theorem State.inWord_rleByte : s.inWord.2.rleByte = s.rleByte := rfl
@[simp] theorem State.inWord_maxLit : s.inWord.2.maxLit = s.maxLit := rfl
@[simp] theorem State.inWord_litEmitted : s.inWord.2.litEmitted = s.litEmitted := rfl
@[simp] theorem State.inWord_litTotal : s.inWord.2.litTotal = s.litTotal := rfl
@[simp] theorem State.inWord_numSeq : s.inWord.2.numSeq = s.numSeq := rfl
@[simp] theorem State.inWord_tacc : s.inWord.2.tacc = s.tacc := rfl
@[simp] theorem State.inWord_tvalid : s.inWord.2.tvalid = s.tvalid := rfl
@[simp] theorem State.inWord_fseCell : s.inWord.2.fseCell = s.fseCell := rfl
@[simp] theorem State.inWord_hufw : s.inWord.2.hufw = s.hufw := rfl
@[simp] theorem State.inWord_hufn : s.inWord.2.hufn = s.hufn := rfl
@[simp] theorem State.inWord_hufwb : s.inWord.2.hufwb = s.hufwb := rfl
@[simp] theorem State.inWord_hufvalid : s.inWord.2.hufvalid = s.hufvalid := rfl
@[simp] theorem State.inWord_huft : s.inWord.2.huft = s.huft := rfl
@[simp] theorem State.inWord_warnSticky : s.inWord.2.warnSticky = s.warnSticky := rfl
@[simp] theorem State.inWord_warnCount : s.inWord.2.warnCount = s.warnCount := rfl
@[simp] theorem State.inWord_warnLast : s.inWord.2.warnLast = s.warnLast := rfl
@[simp] theorem State.inWord_warnLog : s.inWord.2.warnLog = s.warnLog := rfl
@[simp] theorem State.inWord_inBuf : s.inWord.2.inBuf = s.inBuf := rfl
@[simp] theorem State.inWord_outBuf : s.inWord.2.outBuf = s.outBuf := rfl
@[simp] theorem State.inWord_written : s.inWord.2.written = s.written := rfl
@[simp] theorem State.inWord_hostOps : s.inWord.2.hostOps = s.hostOps := rfl
@[simp] theorem State.inWord_hostData : s.inWord.2.hostData = s.hostData := rfl
@[simp] theorem State.inWord_draws : s.inWord.2.draws = s.draws := rfl

/-! ### `State.emit` -/

@[simp] theorem State.emit_arg0 (b : Byte) : (s.emit b).arg0 = s.arg0 := rfl
@[simp] theorem State.emit_arg1 (b : Byte) : (s.emit b).arg1 = s.arg1 := rfl
@[simp] theorem State.emit_nv (b : Byte) : (s.emit b).nv = s.nv := rfl
@[simp] theorem State.emit_inSize (b : Byte) : (s.emit b).inSize = s.inSize := rfl
@[simp] theorem State.emit_outCap (b : Byte) : (s.emit b).outCap = s.outCap := rfl
@[simp] theorem State.emit_sanitize (b : Byte) : (s.emit b).sanitize = s.sanitize := rfl
@[simp] theorem State.emit_res (b : Byte) : (s.emit b).res = s.res := rfl
@[simp] theorem State.emit_readPos (b : Byte) : (s.emit b).readPos = s.readPos := rfl
@[simp] theorem State.emit_writePos (b : Byte) : (s.emit b).writePos = s.writePos + 1 := rfl
@[simp] theorem State.emit_rcb (b : Byte) : (s.emit b).rcb = s.rcb := rfl
@[simp] theorem State.emit_rcn (b : Byte) : (s.emit b).rcn = s.rcn := rfl
@[simp] theorem State.emit_lanes (b : Byte) : (s.emit b).lanes = s.lanes := rfl
@[simp] theorem State.emit_runState (b : Byte) : (s.emit b).runState = s.runState := rfl
@[simp] theorem State.emit_rep0 (b : Byte) : (s.emit b).rep0 = s.rep0 := rfl
@[simp] theorem State.emit_rep1 (b : Byte) : (s.emit b).rep1 = s.rep1 := rfl
@[simp] theorem State.emit_rep2 (b : Byte) : (s.emit b).rep2 = s.rep2 := rfl
@[simp] theorem State.emit_litMode (b : Byte) : (s.emit b).litMode = s.litMode := rfl
@[simp] theorem State.emit_rleByte (b : Byte) : (s.emit b).rleByte = s.rleByte := rfl
@[simp] theorem State.emit_maxLit (b : Byte) : (s.emit b).maxLit = s.maxLit := rfl
@[simp] theorem State.emit_litEmitted (b : Byte) : (s.emit b).litEmitted = s.litEmitted := rfl
@[simp] theorem State.emit_litTotal (b : Byte) : (s.emit b).litTotal = s.litTotal := rfl
@[simp] theorem State.emit_numSeq (b : Byte) : (s.emit b).numSeq = s.numSeq := rfl
@[simp] theorem State.emit_tacc (b : Byte) : (s.emit b).tacc = s.tacc := rfl
@[simp] theorem State.emit_tvalid (b : Byte) : (s.emit b).tvalid = s.tvalid := rfl
@[simp] theorem State.emit_fseCell (b : Byte) : (s.emit b).fseCell = s.fseCell := rfl
@[simp] theorem State.emit_hufw (b : Byte) : (s.emit b).hufw = s.hufw := rfl
@[simp] theorem State.emit_hufn (b : Byte) : (s.emit b).hufn = s.hufn := rfl
@[simp] theorem State.emit_hufwb (b : Byte) : (s.emit b).hufwb = s.hufwb := rfl
@[simp] theorem State.emit_hufvalid (b : Byte) : (s.emit b).hufvalid = s.hufvalid := rfl
@[simp] theorem State.emit_huft (b : Byte) : (s.emit b).huft = s.huft := rfl
@[simp] theorem State.emit_warnSticky (b : Byte) : (s.emit b).warnSticky = s.warnSticky := rfl
@[simp] theorem State.emit_warnCount (b : Byte) : (s.emit b).warnCount = s.warnCount := rfl
@[simp] theorem State.emit_warnLast (b : Byte) : (s.emit b).warnLast = s.warnLast := rfl
@[simp] theorem State.emit_warnLog (b : Byte) : (s.emit b).warnLog = s.warnLog := rfl
@[simp] theorem State.emit_inBuf (b : Byte) : (s.emit b).inBuf = s.inBuf := rfl
theorem State.emit_outBuf (b : Byte) : (s.emit b).outBuf = (if s.writePos.toNat < s.outCap.toNat then s.outBuf.write s.writePos.toNat b else s.outBuf) := rfl
theorem State.emit_written (b : Byte) : (s.emit b).written = (if s.writePos.toNat < s.outCap.toNat then noteWritten s.writePos.toNat s.written else s.written) := rfl
@[simp] theorem State.emit_hostOps (b : Byte) : (s.emit b).hostOps = s.hostOps := rfl
@[simp] theorem State.emit_hostData (b : Byte) : (s.emit b).hostData = s.hostData := rfl
@[simp] theorem State.emit_draws (b : Byte) : (s.emit b).draws = s.draws := rfl

/-! ### `State.setLane` -/

@[simp] theorem State.setLane_arg0 (l : LaneId) (x : Lane) : (s.setLane l x).arg0 = s.arg0 := rfl
@[simp] theorem State.setLane_arg1 (l : LaneId) (x : Lane) : (s.setLane l x).arg1 = s.arg1 := rfl
@[simp] theorem State.setLane_nv (l : LaneId) (x : Lane) : (s.setLane l x).nv = s.nv := rfl
@[simp] theorem State.setLane_inSize (l : LaneId) (x : Lane) : (s.setLane l x).inSize = s.inSize := rfl
@[simp] theorem State.setLane_outCap (l : LaneId) (x : Lane) : (s.setLane l x).outCap = s.outCap := rfl
@[simp] theorem State.setLane_sanitize (l : LaneId) (x : Lane) : (s.setLane l x).sanitize = s.sanitize := rfl
@[simp] theorem State.setLane_res (l : LaneId) (x : Lane) : (s.setLane l x).res = s.res := rfl
@[simp] theorem State.setLane_readPos (l : LaneId) (x : Lane) : (s.setLane l x).readPos = s.readPos := rfl
@[simp] theorem State.setLane_writePos (l : LaneId) (x : Lane) : (s.setLane l x).writePos = s.writePos := rfl
@[simp] theorem State.setLane_rcb (l : LaneId) (x : Lane) : (s.setLane l x).rcb = s.rcb := rfl
@[simp] theorem State.setLane_rcn (l : LaneId) (x : Lane) : (s.setLane l x).rcn = s.rcn := rfl
@[simp] theorem State.setLane_lanes (l : LaneId) (x : Lane) : (s.setLane l x).lanes = s.lanes.set l x := rfl
@[simp] theorem State.setLane_runState (l : LaneId) (x : Lane) : (s.setLane l x).runState = s.runState := rfl
@[simp] theorem State.setLane_rep0 (l : LaneId) (x : Lane) : (s.setLane l x).rep0 = s.rep0 := rfl
@[simp] theorem State.setLane_rep1 (l : LaneId) (x : Lane) : (s.setLane l x).rep1 = s.rep1 := rfl
@[simp] theorem State.setLane_rep2 (l : LaneId) (x : Lane) : (s.setLane l x).rep2 = s.rep2 := rfl
@[simp] theorem State.setLane_litMode (l : LaneId) (x : Lane) : (s.setLane l x).litMode = s.litMode := rfl
@[simp] theorem State.setLane_rleByte (l : LaneId) (x : Lane) : (s.setLane l x).rleByte = s.rleByte := rfl
@[simp] theorem State.setLane_maxLit (l : LaneId) (x : Lane) : (s.setLane l x).maxLit = s.maxLit := rfl
@[simp] theorem State.setLane_litEmitted (l : LaneId) (x : Lane) : (s.setLane l x).litEmitted = s.litEmitted := rfl
@[simp] theorem State.setLane_litTotal (l : LaneId) (x : Lane) : (s.setLane l x).litTotal = s.litTotal := rfl
@[simp] theorem State.setLane_numSeq (l : LaneId) (x : Lane) : (s.setLane l x).numSeq = s.numSeq := rfl
@[simp] theorem State.setLane_tacc (l : LaneId) (x : Lane) : (s.setLane l x).tacc = s.tacc := rfl
@[simp] theorem State.setLane_tvalid (l : LaneId) (x : Lane) : (s.setLane l x).tvalid = s.tvalid := rfl
@[simp] theorem State.setLane_fseCell (l : LaneId) (x : Lane) : (s.setLane l x).fseCell = s.fseCell := rfl
@[simp] theorem State.setLane_hufw (l : LaneId) (x : Lane) : (s.setLane l x).hufw = s.hufw := rfl
@[simp] theorem State.setLane_hufn (l : LaneId) (x : Lane) : (s.setLane l x).hufn = s.hufn := rfl
@[simp] theorem State.setLane_hufwb (l : LaneId) (x : Lane) : (s.setLane l x).hufwb = s.hufwb := rfl
@[simp] theorem State.setLane_hufvalid (l : LaneId) (x : Lane) : (s.setLane l x).hufvalid = s.hufvalid := rfl
@[simp] theorem State.setLane_huft (l : LaneId) (x : Lane) : (s.setLane l x).huft = s.huft := rfl
@[simp] theorem State.setLane_warnSticky (l : LaneId) (x : Lane) : (s.setLane l x).warnSticky = s.warnSticky := rfl
@[simp] theorem State.setLane_warnCount (l : LaneId) (x : Lane) : (s.setLane l x).warnCount = s.warnCount := rfl
@[simp] theorem State.setLane_warnLast (l : LaneId) (x : Lane) : (s.setLane l x).warnLast = s.warnLast := rfl
@[simp] theorem State.setLane_warnLog (l : LaneId) (x : Lane) : (s.setLane l x).warnLog = s.warnLog := rfl
@[simp] theorem State.setLane_inBuf (l : LaneId) (x : Lane) : (s.setLane l x).inBuf = s.inBuf := rfl
@[simp] theorem State.setLane_outBuf (l : LaneId) (x : Lane) : (s.setLane l x).outBuf = s.outBuf := rfl
@[simp] theorem State.setLane_written (l : LaneId) (x : Lane) : (s.setLane l x).written = s.written := rfl
@[simp] theorem State.setLane_hostOps (l : LaneId) (x : Lane) : (s.setLane l x).hostOps = s.hostOps := rfl
@[simp] theorem State.setLane_hostData (l : LaneId) (x : Lane) : (s.setLane l x).hostData = s.hostData := rfl
@[simp] theorem State.setLane_draws (l : LaneId) (x : Lane) : (s.setLane l x).draws = s.draws := rfl

/-! ### `State.setFseCell` -/

@[simp] theorem State.setFseCell_arg0 (i : Nat) (c : FseCell) : (s.setFseCell i c).arg0 = s.arg0 := rfl
@[simp] theorem State.setFseCell_arg1 (i : Nat) (c : FseCell) : (s.setFseCell i c).arg1 = s.arg1 := rfl
@[simp] theorem State.setFseCell_nv (i : Nat) (c : FseCell) : (s.setFseCell i c).nv = s.nv := rfl
@[simp] theorem State.setFseCell_inSize (i : Nat) (c : FseCell) : (s.setFseCell i c).inSize = s.inSize := rfl
@[simp] theorem State.setFseCell_outCap (i : Nat) (c : FseCell) : (s.setFseCell i c).outCap = s.outCap := rfl
@[simp] theorem State.setFseCell_sanitize (i : Nat) (c : FseCell) : (s.setFseCell i c).sanitize = s.sanitize := rfl
@[simp] theorem State.setFseCell_res (i : Nat) (c : FseCell) : (s.setFseCell i c).res = s.res := rfl
@[simp] theorem State.setFseCell_readPos (i : Nat) (c : FseCell) : (s.setFseCell i c).readPos = s.readPos := rfl
@[simp] theorem State.setFseCell_writePos (i : Nat) (c : FseCell) : (s.setFseCell i c).writePos = s.writePos := rfl
@[simp] theorem State.setFseCell_rcb (i : Nat) (c : FseCell) : (s.setFseCell i c).rcb = s.rcb := rfl
@[simp] theorem State.setFseCell_rcn (i : Nat) (c : FseCell) : (s.setFseCell i c).rcn = s.rcn := rfl
@[simp] theorem State.setFseCell_lanes (i : Nat) (c : FseCell) : (s.setFseCell i c).lanes = s.lanes := rfl
@[simp] theorem State.setFseCell_runState (i : Nat) (c : FseCell) : (s.setFseCell i c).runState = s.runState := rfl
@[simp] theorem State.setFseCell_rep0 (i : Nat) (c : FseCell) : (s.setFseCell i c).rep0 = s.rep0 := rfl
@[simp] theorem State.setFseCell_rep1 (i : Nat) (c : FseCell) : (s.setFseCell i c).rep1 = s.rep1 := rfl
@[simp] theorem State.setFseCell_rep2 (i : Nat) (c : FseCell) : (s.setFseCell i c).rep2 = s.rep2 := rfl
@[simp] theorem State.setFseCell_litMode (i : Nat) (c : FseCell) : (s.setFseCell i c).litMode = s.litMode := rfl
@[simp] theorem State.setFseCell_rleByte (i : Nat) (c : FseCell) : (s.setFseCell i c).rleByte = s.rleByte := rfl
@[simp] theorem State.setFseCell_maxLit (i : Nat) (c : FseCell) : (s.setFseCell i c).maxLit = s.maxLit := rfl
@[simp] theorem State.setFseCell_litEmitted (i : Nat) (c : FseCell) : (s.setFseCell i c).litEmitted = s.litEmitted := rfl
@[simp] theorem State.setFseCell_litTotal (i : Nat) (c : FseCell) : (s.setFseCell i c).litTotal = s.litTotal := rfl
@[simp] theorem State.setFseCell_numSeq (i : Nat) (c : FseCell) : (s.setFseCell i c).numSeq = s.numSeq := rfl
@[simp] theorem State.setFseCell_tacc (i : Nat) (c : FseCell) : (s.setFseCell i c).tacc = s.tacc := rfl
@[simp] theorem State.setFseCell_tvalid (i : Nat) (c : FseCell) : (s.setFseCell i c).tvalid = s.tvalid := rfl
theorem State.setFseCell_fseCell (i : Nat) (c : FseCell) : (s.setFseCell i c).fseCell = (if h : i < 1344 then s.fseCell.set i c h else s.fseCell) := rfl
@[simp] theorem State.setFseCell_hufw (i : Nat) (c : FseCell) : (s.setFseCell i c).hufw = s.hufw := rfl
@[simp] theorem State.setFseCell_hufn (i : Nat) (c : FseCell) : (s.setFseCell i c).hufn = s.hufn := rfl
@[simp] theorem State.setFseCell_hufwb (i : Nat) (c : FseCell) : (s.setFseCell i c).hufwb = s.hufwb := rfl
@[simp] theorem State.setFseCell_hufvalid (i : Nat) (c : FseCell) : (s.setFseCell i c).hufvalid = s.hufvalid := rfl
@[simp] theorem State.setFseCell_huft (i : Nat) (c : FseCell) : (s.setFseCell i c).huft = s.huft := rfl
@[simp] theorem State.setFseCell_warnSticky (i : Nat) (c : FseCell) : (s.setFseCell i c).warnSticky = s.warnSticky := rfl
@[simp] theorem State.setFseCell_warnCount (i : Nat) (c : FseCell) : (s.setFseCell i c).warnCount = s.warnCount := rfl
@[simp] theorem State.setFseCell_warnLast (i : Nat) (c : FseCell) : (s.setFseCell i c).warnLast = s.warnLast := rfl
@[simp] theorem State.setFseCell_warnLog (i : Nat) (c : FseCell) : (s.setFseCell i c).warnLog = s.warnLog := rfl
@[simp] theorem State.setFseCell_inBuf (i : Nat) (c : FseCell) : (s.setFseCell i c).inBuf = s.inBuf := rfl
@[simp] theorem State.setFseCell_outBuf (i : Nat) (c : FseCell) : (s.setFseCell i c).outBuf = s.outBuf := rfl
@[simp] theorem State.setFseCell_written (i : Nat) (c : FseCell) : (s.setFseCell i c).written = s.written := rfl
@[simp] theorem State.setFseCell_hostOps (i : Nat) (c : FseCell) : (s.setFseCell i c).hostOps = s.hostOps := rfl
@[simp] theorem State.setFseCell_hostData (i : Nat) (c : FseCell) : (s.setFseCell i c).hostData = s.hostData := rfl
@[simp] theorem State.setFseCell_draws (i : Nat) (c : FseCell) : (s.setFseCell i c).draws = s.draws := rfl

/-! ### `State.setBuilt` -/

@[simp] theorem State.setBuilt_arg0 (t : Tbl) (a : Nat) : (s.setBuilt t a).arg0 = s.arg0 := rfl
@[simp] theorem State.setBuilt_arg1 (t : Tbl) (a : Nat) : (s.setBuilt t a).arg1 = s.arg1 := rfl
@[simp] theorem State.setBuilt_nv (t : Tbl) (a : Nat) : (s.setBuilt t a).nv = s.nv := rfl
@[simp] theorem State.setBuilt_inSize (t : Tbl) (a : Nat) : (s.setBuilt t a).inSize = s.inSize := rfl
@[simp] theorem State.setBuilt_outCap (t : Tbl) (a : Nat) : (s.setBuilt t a).outCap = s.outCap := rfl
@[simp] theorem State.setBuilt_sanitize (t : Tbl) (a : Nat) : (s.setBuilt t a).sanitize = s.sanitize := rfl
@[simp] theorem State.setBuilt_res (t : Tbl) (a : Nat) : (s.setBuilt t a).res = s.res := rfl
@[simp] theorem State.setBuilt_readPos (t : Tbl) (a : Nat) : (s.setBuilt t a).readPos = s.readPos := rfl
@[simp] theorem State.setBuilt_writePos (t : Tbl) (a : Nat) : (s.setBuilt t a).writePos = s.writePos := rfl
@[simp] theorem State.setBuilt_rcb (t : Tbl) (a : Nat) : (s.setBuilt t a).rcb = s.rcb := rfl
@[simp] theorem State.setBuilt_rcn (t : Tbl) (a : Nat) : (s.setBuilt t a).rcn = s.rcn := rfl
@[simp] theorem State.setBuilt_lanes (t : Tbl) (a : Nat) : (s.setBuilt t a).lanes = s.lanes := rfl
@[simp] theorem State.setBuilt_runState (t : Tbl) (a : Nat) : (s.setBuilt t a).runState = s.runState := rfl
@[simp] theorem State.setBuilt_rep0 (t : Tbl) (a : Nat) : (s.setBuilt t a).rep0 = s.rep0 := rfl
@[simp] theorem State.setBuilt_rep1 (t : Tbl) (a : Nat) : (s.setBuilt t a).rep1 = s.rep1 := rfl
@[simp] theorem State.setBuilt_rep2 (t : Tbl) (a : Nat) : (s.setBuilt t a).rep2 = s.rep2 := rfl
@[simp] theorem State.setBuilt_litMode (t : Tbl) (a : Nat) : (s.setBuilt t a).litMode = s.litMode := rfl
@[simp] theorem State.setBuilt_rleByte (t : Tbl) (a : Nat) : (s.setBuilt t a).rleByte = s.rleByte := rfl
@[simp] theorem State.setBuilt_maxLit (t : Tbl) (a : Nat) : (s.setBuilt t a).maxLit = s.maxLit := rfl
@[simp] theorem State.setBuilt_litEmitted (t : Tbl) (a : Nat) : (s.setBuilt t a).litEmitted = s.litEmitted := rfl
@[simp] theorem State.setBuilt_litTotal (t : Tbl) (a : Nat) : (s.setBuilt t a).litTotal = s.litTotal := rfl
@[simp] theorem State.setBuilt_numSeq (t : Tbl) (a : Nat) : (s.setBuilt t a).numSeq = s.numSeq := rfl
@[simp] theorem State.setBuilt_tacc (t : Tbl) (a : Nat) : (s.setBuilt t a).tacc = s.tacc.set (tblIdx t) (BitVec.ofNat 4 a) := rfl
@[simp] theorem State.setBuilt_tvalid (t : Tbl) (a : Nat) : (s.setBuilt t a).tvalid = s.tvalid.set (tblIdx t) true := rfl
@[simp] theorem State.setBuilt_fseCell (t : Tbl) (a : Nat) : (s.setBuilt t a).fseCell = s.fseCell := rfl
@[simp] theorem State.setBuilt_hufw (t : Tbl) (a : Nat) : (s.setBuilt t a).hufw = s.hufw := rfl
@[simp] theorem State.setBuilt_hufn (t : Tbl) (a : Nat) : (s.setBuilt t a).hufn = s.hufn := rfl
@[simp] theorem State.setBuilt_hufwb (t : Tbl) (a : Nat) : (s.setBuilt t a).hufwb = s.hufwb := rfl
@[simp] theorem State.setBuilt_hufvalid (t : Tbl) (a : Nat) : (s.setBuilt t a).hufvalid = s.hufvalid := rfl
@[simp] theorem State.setBuilt_huft (t : Tbl) (a : Nat) : (s.setBuilt t a).huft = s.huft := rfl
@[simp] theorem State.setBuilt_warnSticky (t : Tbl) (a : Nat) : (s.setBuilt t a).warnSticky = s.warnSticky := rfl
@[simp] theorem State.setBuilt_warnCount (t : Tbl) (a : Nat) : (s.setBuilt t a).warnCount = s.warnCount := rfl
@[simp] theorem State.setBuilt_warnLast (t : Tbl) (a : Nat) : (s.setBuilt t a).warnLast = s.warnLast := rfl
@[simp] theorem State.setBuilt_warnLog (t : Tbl) (a : Nat) : (s.setBuilt t a).warnLog = s.warnLog := rfl
@[simp] theorem State.setBuilt_inBuf (t : Tbl) (a : Nat) : (s.setBuilt t a).inBuf = s.inBuf := rfl
@[simp] theorem State.setBuilt_outBuf (t : Tbl) (a : Nat) : (s.setBuilt t a).outBuf = s.outBuf := rfl
@[simp] theorem State.setBuilt_written (t : Tbl) (a : Nat) : (s.setBuilt t a).written = s.written := rfl
@[simp] theorem State.setBuilt_hostOps (t : Tbl) (a : Nat) : (s.setBuilt t a).hostOps = s.hostOps := rfl
@[simp] theorem State.setBuilt_hostData (t : Tbl) (a : Nat) : (s.setBuilt t a).hostData = s.hostData := rfl
@[simp] theorem State.setBuilt_draws (t : Tbl) (a : Nat) : (s.setBuilt t a).draws = s.draws := rfl

/-! ### `State.setHufWeight` -/

@[simp] theorem State.setHufWeight_arg0 (k w : Nat) : (s.setHufWeight k w).arg0 = s.arg0 := rfl
@[simp] theorem State.setHufWeight_arg1 (k w : Nat) : (s.setHufWeight k w).arg1 = s.arg1 := rfl
@[simp] theorem State.setHufWeight_nv (k w : Nat) : (s.setHufWeight k w).nv = s.nv := rfl
@[simp] theorem State.setHufWeight_inSize (k w : Nat) : (s.setHufWeight k w).inSize = s.inSize := rfl
@[simp] theorem State.setHufWeight_outCap (k w : Nat) : (s.setHufWeight k w).outCap = s.outCap := rfl
@[simp] theorem State.setHufWeight_sanitize (k w : Nat) : (s.setHufWeight k w).sanitize = s.sanitize := rfl
@[simp] theorem State.setHufWeight_res (k w : Nat) : (s.setHufWeight k w).res = s.res := rfl
@[simp] theorem State.setHufWeight_readPos (k w : Nat) : (s.setHufWeight k w).readPos = s.readPos := rfl
@[simp] theorem State.setHufWeight_writePos (k w : Nat) : (s.setHufWeight k w).writePos = s.writePos := rfl
@[simp] theorem State.setHufWeight_rcb (k w : Nat) : (s.setHufWeight k w).rcb = s.rcb := rfl
@[simp] theorem State.setHufWeight_rcn (k w : Nat) : (s.setHufWeight k w).rcn = s.rcn := rfl
@[simp] theorem State.setHufWeight_lanes (k w : Nat) : (s.setHufWeight k w).lanes = s.lanes := rfl
@[simp] theorem State.setHufWeight_runState (k w : Nat) : (s.setHufWeight k w).runState = s.runState := rfl
@[simp] theorem State.setHufWeight_rep0 (k w : Nat) : (s.setHufWeight k w).rep0 = s.rep0 := rfl
@[simp] theorem State.setHufWeight_rep1 (k w : Nat) : (s.setHufWeight k w).rep1 = s.rep1 := rfl
@[simp] theorem State.setHufWeight_rep2 (k w : Nat) : (s.setHufWeight k w).rep2 = s.rep2 := rfl
@[simp] theorem State.setHufWeight_litMode (k w : Nat) : (s.setHufWeight k w).litMode = s.litMode := rfl
@[simp] theorem State.setHufWeight_rleByte (k w : Nat) : (s.setHufWeight k w).rleByte = s.rleByte := rfl
@[simp] theorem State.setHufWeight_maxLit (k w : Nat) : (s.setHufWeight k w).maxLit = s.maxLit := rfl
@[simp] theorem State.setHufWeight_litEmitted (k w : Nat) : (s.setHufWeight k w).litEmitted = s.litEmitted := rfl
@[simp] theorem State.setHufWeight_litTotal (k w : Nat) : (s.setHufWeight k w).litTotal = s.litTotal := rfl
@[simp] theorem State.setHufWeight_numSeq (k w : Nat) : (s.setHufWeight k w).numSeq = s.numSeq := rfl
@[simp] theorem State.setHufWeight_tacc (k w : Nat) : (s.setHufWeight k w).tacc = s.tacc := rfl
@[simp] theorem State.setHufWeight_tvalid (k w : Nat) : (s.setHufWeight k w).tvalid = s.tvalid := rfl
@[simp] theorem State.setHufWeight_fseCell (k w : Nat) : (s.setHufWeight k w).fseCell = s.fseCell := rfl
theorem State.setHufWeight_hufw (k w : Nat) : (s.setHufWeight k w).hufw = (if h : k < 256 then s.hufw.set k (BitVec.ofNat 4 w) h else s.hufw) := rfl
@[simp] theorem State.setHufWeight_hufn (k w : Nat) : (s.setHufWeight k w).hufn = s.hufn := rfl
@[simp] theorem State.setHufWeight_hufwb (k w : Nat) : (s.setHufWeight k w).hufwb = s.hufwb := rfl
@[simp] theorem State.setHufWeight_hufvalid (k w : Nat) : (s.setHufWeight k w).hufvalid = s.hufvalid := rfl
@[simp] theorem State.setHufWeight_huft (k w : Nat) : (s.setHufWeight k w).huft = s.huft := rfl
@[simp] theorem State.setHufWeight_warnSticky (k w : Nat) : (s.setHufWeight k w).warnSticky = s.warnSticky := rfl
@[simp] theorem State.setHufWeight_warnCount (k w : Nat) : (s.setHufWeight k w).warnCount = s.warnCount := rfl
@[simp] theorem State.setHufWeight_warnLast (k w : Nat) : (s.setHufWeight k w).warnLast = s.warnLast := rfl
@[simp] theorem State.setHufWeight_warnLog (k w : Nat) : (s.setHufWeight k w).warnLog = s.warnLog := rfl
@[simp] theorem State.setHufWeight_inBuf (k w : Nat) : (s.setHufWeight k w).inBuf = s.inBuf := rfl
@[simp] theorem State.setHufWeight_outBuf (k w : Nat) : (s.setHufWeight k w).outBuf = s.outBuf := rfl
@[simp] theorem State.setHufWeight_written (k w : Nat) : (s.setHufWeight k w).written = s.written := rfl
@[simp] theorem State.setHufWeight_hostOps (k w : Nat) : (s.setHufWeight k w).hostOps = s.hostOps := rfl
@[simp] theorem State.setHufWeight_hostData (k w : Nat) : (s.setHufWeight k w).hostData = s.hostData := rfl
@[simp] theorem State.setHufWeight_draws (k w : Nat) : (s.setHufWeight k w).draws = s.draws := rfl

/-! ### `State.setHufEntry` -/

@[simp] theorem State.setHufEntry_arg0 (i : Nat) (e : HufEntry) : (s.setHufEntry i e).arg0 = s.arg0 := rfl
@[simp] theorem State.setHufEntry_arg1 (i : Nat) (e : HufEntry) : (s.setHufEntry i e).arg1 = s.arg1 := rfl
@[simp] theorem State.setHufEntry_nv (i : Nat) (e : HufEntry) : (s.setHufEntry i e).nv = s.nv := rfl
@[simp] theorem State.setHufEntry_inSize (i : Nat) (e : HufEntry) : (s.setHufEntry i e).inSize = s.inSize := rfl
@[simp] theorem State.setHufEntry_outCap (i : Nat) (e : HufEntry) : (s.setHufEntry i e).outCap = s.outCap := rfl
@[simp] theorem State.setHufEntry_sanitize (i : Nat) (e : HufEntry) : (s.setHufEntry i e).sanitize = s.sanitize := rfl
@[simp] theorem State.setHufEntry_res (i : Nat) (e : HufEntry) : (s.setHufEntry i e).res = s.res := rfl
@[simp] theorem State.setHufEntry_readPos (i : Nat) (e : HufEntry) : (s.setHufEntry i e).readPos = s.readPos := rfl
@[simp] theorem State.setHufEntry_writePos (i : Nat) (e : HufEntry) : (s.setHufEntry i e).writePos = s.writePos := rfl
@[simp] theorem State.setHufEntry_rcb (i : Nat) (e : HufEntry) : (s.setHufEntry i e).rcb = s.rcb := rfl
@[simp] theorem State.setHufEntry_rcn (i : Nat) (e : HufEntry) : (s.setHufEntry i e).rcn = s.rcn := rfl
@[simp] theorem State.setHufEntry_lanes (i : Nat) (e : HufEntry) : (s.setHufEntry i e).lanes = s.lanes := rfl
@[simp] theorem State.setHufEntry_runState (i : Nat) (e : HufEntry) : (s.setHufEntry i e).runState = s.runState := rfl
@[simp] theorem State.setHufEntry_rep0 (i : Nat) (e : HufEntry) : (s.setHufEntry i e).rep0 = s.rep0 := rfl
@[simp] theorem State.setHufEntry_rep1 (i : Nat) (e : HufEntry) : (s.setHufEntry i e).rep1 = s.rep1 := rfl
@[simp] theorem State.setHufEntry_rep2 (i : Nat) (e : HufEntry) : (s.setHufEntry i e).rep2 = s.rep2 := rfl
@[simp] theorem State.setHufEntry_litMode (i : Nat) (e : HufEntry) : (s.setHufEntry i e).litMode = s.litMode := rfl
@[simp] theorem State.setHufEntry_rleByte (i : Nat) (e : HufEntry) : (s.setHufEntry i e).rleByte = s.rleByte := rfl
@[simp] theorem State.setHufEntry_maxLit (i : Nat) (e : HufEntry) : (s.setHufEntry i e).maxLit = s.maxLit := rfl
@[simp] theorem State.setHufEntry_litEmitted (i : Nat) (e : HufEntry) : (s.setHufEntry i e).litEmitted = s.litEmitted := rfl
@[simp] theorem State.setHufEntry_litTotal (i : Nat) (e : HufEntry) : (s.setHufEntry i e).litTotal = s.litTotal := rfl
@[simp] theorem State.setHufEntry_numSeq (i : Nat) (e : HufEntry) : (s.setHufEntry i e).numSeq = s.numSeq := rfl
@[simp] theorem State.setHufEntry_tacc (i : Nat) (e : HufEntry) : (s.setHufEntry i e).tacc = s.tacc := rfl
@[simp] theorem State.setHufEntry_tvalid (i : Nat) (e : HufEntry) : (s.setHufEntry i e).tvalid = s.tvalid := rfl
@[simp] theorem State.setHufEntry_fseCell (i : Nat) (e : HufEntry) : (s.setHufEntry i e).fseCell = s.fseCell := rfl
@[simp] theorem State.setHufEntry_hufw (i : Nat) (e : HufEntry) : (s.setHufEntry i e).hufw = s.hufw := rfl
@[simp] theorem State.setHufEntry_hufn (i : Nat) (e : HufEntry) : (s.setHufEntry i e).hufn = s.hufn := rfl
@[simp] theorem State.setHufEntry_hufwb (i : Nat) (e : HufEntry) : (s.setHufEntry i e).hufwb = s.hufwb := rfl
@[simp] theorem State.setHufEntry_hufvalid (i : Nat) (e : HufEntry) : (s.setHufEntry i e).hufvalid = s.hufvalid := rfl
theorem State.setHufEntry_huft (i : Nat) (e : HufEntry) : (s.setHufEntry i e).huft = (if h : i < 2048 then s.huft.set i e h else s.huft) := rfl
@[simp] theorem State.setHufEntry_warnSticky (i : Nat) (e : HufEntry) : (s.setHufEntry i e).warnSticky = s.warnSticky := rfl
@[simp] theorem State.setHufEntry_warnCount (i : Nat) (e : HufEntry) : (s.setHufEntry i e).warnCount = s.warnCount := rfl
@[simp] theorem State.setHufEntry_warnLast (i : Nat) (e : HufEntry) : (s.setHufEntry i e).warnLast = s.warnLast := rfl
@[simp] theorem State.setHufEntry_warnLog (i : Nat) (e : HufEntry) : (s.setHufEntry i e).warnLog = s.warnLog := rfl
@[simp] theorem State.setHufEntry_inBuf (i : Nat) (e : HufEntry) : (s.setHufEntry i e).inBuf = s.inBuf := rfl
@[simp] theorem State.setHufEntry_outBuf (i : Nat) (e : HufEntry) : (s.setHufEntry i e).outBuf = s.outBuf := rfl
@[simp] theorem State.setHufEntry_written (i : Nat) (e : HufEntry) : (s.setHufEntry i e).written = s.written := rfl
@[simp] theorem State.setHufEntry_hostOps (i : Nat) (e : HufEntry) : (s.setHufEntry i e).hostOps = s.hostOps := rfl
@[simp] theorem State.setHufEntry_hostData (i : Nat) (e : HufEntry) : (s.setHufEntry i e).hostData = s.hostData := rfl
@[simp] theorem State.setHufEntry_draws (i : Nat) (e : HufEntry) : (s.setHufEntry i e).draws = s.draws := rfl

/-! ### `State.setRes` -/

@[simp] theorem State.setRes_arg0 (v : Nat) : (s.setRes v).arg0 = s.arg0 := rfl
@[simp] theorem State.setRes_arg1 (v : Nat) : (s.setRes v).arg1 = s.arg1 := rfl
@[simp] theorem State.setRes_nv (v : Nat) : (s.setRes v).nv = s.nv := rfl
@[simp] theorem State.setRes_inSize (v : Nat) : (s.setRes v).inSize = s.inSize := rfl
@[simp] theorem State.setRes_outCap (v : Nat) : (s.setRes v).outCap = s.outCap := rfl
@[simp] theorem State.setRes_sanitize (v : Nat) : (s.setRes v).sanitize = s.sanitize := rfl
@[simp] theorem State.setRes_res (v : Nat) : (s.setRes v).res = BitVec.ofNat 64 v := rfl
@[simp] theorem State.setRes_readPos (v : Nat) : (s.setRes v).readPos = s.readPos := rfl
@[simp] theorem State.setRes_writePos (v : Nat) : (s.setRes v).writePos = s.writePos := rfl
@[simp] theorem State.setRes_rcb (v : Nat) : (s.setRes v).rcb = s.rcb := rfl
@[simp] theorem State.setRes_rcn (v : Nat) : (s.setRes v).rcn = s.rcn := rfl
@[simp] theorem State.setRes_lanes (v : Nat) : (s.setRes v).lanes = s.lanes := rfl
@[simp] theorem State.setRes_runState (v : Nat) : (s.setRes v).runState = s.runState := rfl
@[simp] theorem State.setRes_rep0 (v : Nat) : (s.setRes v).rep0 = s.rep0 := rfl
@[simp] theorem State.setRes_rep1 (v : Nat) : (s.setRes v).rep1 = s.rep1 := rfl
@[simp] theorem State.setRes_rep2 (v : Nat) : (s.setRes v).rep2 = s.rep2 := rfl
@[simp] theorem State.setRes_litMode (v : Nat) : (s.setRes v).litMode = s.litMode := rfl
@[simp] theorem State.setRes_rleByte (v : Nat) : (s.setRes v).rleByte = s.rleByte := rfl
@[simp] theorem State.setRes_maxLit (v : Nat) : (s.setRes v).maxLit = s.maxLit := rfl
@[simp] theorem State.setRes_litEmitted (v : Nat) : (s.setRes v).litEmitted = s.litEmitted := rfl
@[simp] theorem State.setRes_litTotal (v : Nat) : (s.setRes v).litTotal = s.litTotal := rfl
@[simp] theorem State.setRes_numSeq (v : Nat) : (s.setRes v).numSeq = s.numSeq := rfl
@[simp] theorem State.setRes_tacc (v : Nat) : (s.setRes v).tacc = s.tacc := rfl
@[simp] theorem State.setRes_tvalid (v : Nat) : (s.setRes v).tvalid = s.tvalid := rfl
@[simp] theorem State.setRes_fseCell (v : Nat) : (s.setRes v).fseCell = s.fseCell := rfl
@[simp] theorem State.setRes_hufw (v : Nat) : (s.setRes v).hufw = s.hufw := rfl
@[simp] theorem State.setRes_hufn (v : Nat) : (s.setRes v).hufn = s.hufn := rfl
@[simp] theorem State.setRes_hufwb (v : Nat) : (s.setRes v).hufwb = s.hufwb := rfl
@[simp] theorem State.setRes_hufvalid (v : Nat) : (s.setRes v).hufvalid = s.hufvalid := rfl
@[simp] theorem State.setRes_huft (v : Nat) : (s.setRes v).huft = s.huft := rfl
@[simp] theorem State.setRes_warnSticky (v : Nat) : (s.setRes v).warnSticky = s.warnSticky := rfl
@[simp] theorem State.setRes_warnCount (v : Nat) : (s.setRes v).warnCount = s.warnCount := rfl
@[simp] theorem State.setRes_warnLast (v : Nat) : (s.setRes v).warnLast = s.warnLast := rfl
@[simp] theorem State.setRes_warnLog (v : Nat) : (s.setRes v).warnLog = s.warnLog := rfl
@[simp] theorem State.setRes_inBuf (v : Nat) : (s.setRes v).inBuf = s.inBuf := rfl
@[simp] theorem State.setRes_outBuf (v : Nat) : (s.setRes v).outBuf = s.outBuf := rfl
@[simp] theorem State.setRes_written (v : Nat) : (s.setRes v).written = s.written := rfl
@[simp] theorem State.setRes_hostOps (v : Nat) : (s.setRes v).hostOps = s.hostOps := rfl
@[simp] theorem State.setRes_hostData (v : Nat) : (s.setRes v).hostData = s.hostData := rfl
@[simp] theorem State.setRes_draws (v : Nat) : (s.setRes v).draws = s.draws := rfl

/-! ### `State.fillCache` -/

@[simp] theorem State.fillCache_arg0 (w : Word) : (s.fillCache w).arg0 = s.arg0 := rfl
@[simp] theorem State.fillCache_arg1 (w : Word) : (s.fillCache w).arg1 = s.arg1 := rfl
@[simp] theorem State.fillCache_nv (w : Word) : (s.fillCache w).nv = s.nv := rfl
@[simp] theorem State.fillCache_inSize (w : Word) : (s.fillCache w).inSize = s.inSize := rfl
@[simp] theorem State.fillCache_outCap (w : Word) : (s.fillCache w).outCap = s.outCap := rfl
@[simp] theorem State.fillCache_sanitize (w : Word) : (s.fillCache w).sanitize = s.sanitize := rfl
@[simp] theorem State.fillCache_res (w : Word) : (s.fillCache w).res = s.res := rfl
@[simp] theorem State.fillCache_readPos (w : Word) : (s.fillCache w).readPos = s.readPos := rfl
@[simp] theorem State.fillCache_writePos (w : Word) : (s.fillCache w).writePos = s.writePos := rfl
@[simp] theorem State.fillCache_rcb (w : Word) : (s.fillCache w).rcb = #v[w.extractLsb' 0 8, w.extractLsb' 8 8, w.extractLsb' 16 8, w.extractLsb' 24 8] := rfl
theorem State.fillCache_rcn (w : Word) : (s.fillCache w).rcn = (4) := rfl
@[simp] theorem State.fillCache_lanes (w : Word) : (s.fillCache w).lanes = s.lanes := rfl
@[simp] theorem State.fillCache_runState (w : Word) : (s.fillCache w).runState = s.runState := rfl
@[simp] theorem State.fillCache_rep0 (w : Word) : (s.fillCache w).rep0 = s.rep0 := rfl
@[simp] theorem State.fillCache_rep1 (w : Word) : (s.fillCache w).rep1 = s.rep1 := rfl
@[simp] theorem State.fillCache_rep2 (w : Word) : (s.fillCache w).rep2 = s.rep2 := rfl
@[simp] theorem State.fillCache_litMode (w : Word) : (s.fillCache w).litMode = s.litMode := rfl
@[simp] theorem State.fillCache_rleByte (w : Word) : (s.fillCache w).rleByte = s.rleByte := rfl
@[simp] theorem State.fillCache_maxLit (w : Word) : (s.fillCache w).maxLit = s.maxLit := rfl
@[simp] theorem State.fillCache_litEmitted (w : Word) : (s.fillCache w).litEmitted = s.litEmitted := rfl
@[simp] theorem State.fillCache_litTotal (w : Word) : (s.fillCache w).litTotal = s.litTotal := rfl
@[simp] theorem State.fillCache_numSeq (w : Word) : (s.fillCache w).numSeq = s.numSeq := rfl
@[simp] theorem State.fillCache_tacc (w : Word) : (s.fillCache w).tacc = s.tacc := rfl
@[simp] theorem State.fillCache_tvalid (w : Word) : (s.fillCache w).tvalid = s.tvalid := rfl
@[simp] theorem State.fillCache_fseCell (w : Word) : (s.fillCache w).fseCell = s.fseCell := rfl
@[simp] theorem State.fillCache_hufw (w : Word) : (s.fillCache w).hufw = s.hufw := rfl
@[simp] theorem State.fillCache_hufn (w : Word) : (s.fillCache w).hufn = s.hufn := rfl
@[simp] theorem State.fillCache_hufwb (w : Word) : (s.fillCache w).hufwb = s.hufwb := rfl
@[simp] theorem State.fillCache_hufvalid (w : Word) : (s.fillCache w).hufvalid = s.hufvalid := rfl
@[simp] theorem State.fillCache_huft (w : Word) : (s.fillCache w).huft = s.huft := rfl
@[simp] theorem State.fillCache_warnSticky (w : Word) : (s.fillCache w).warnSticky = s.warnSticky := rfl
@[simp] theorem State.fillCache_warnCount (w : Word) : (s.fillCache w).warnCount = s.warnCount := rfl
@[simp] theorem State.fillCache_warnLast (w : Word) : (s.fillCache w).warnLast = s.warnLast := rfl
@[simp] theorem State.fillCache_warnLog (w : Word) : (s.fillCache w).warnLog = s.warnLog := rfl
@[simp] theorem State.fillCache_inBuf (w : Word) : (s.fillCache w).inBuf = s.inBuf := rfl
@[simp] theorem State.fillCache_outBuf (w : Word) : (s.fillCache w).outBuf = s.outBuf := rfl
@[simp] theorem State.fillCache_written (w : Word) : (s.fillCache w).written = s.written := rfl
@[simp] theorem State.fillCache_hostOps (w : Word) : (s.fillCache w).hostOps = s.hostOps := rfl
@[simp] theorem State.fillCache_hostData (w : Word) : (s.fillCache w).hostData = s.hostData := rfl
@[simp] theorem State.fillCache_draws (w : Word) : (s.fillCache w).draws = s.draws := rfl

/-! ### `State.takeCached` -/

@[simp] theorem State.takeCached_arg0 : s.takeCached.2.arg0 = s.arg0 := rfl
@[simp] theorem State.takeCached_arg1 : s.takeCached.2.arg1 = s.arg1 := rfl
@[simp] theorem State.takeCached_nv : s.takeCached.2.nv = s.nv := rfl
@[simp] theorem State.takeCached_inSize : s.takeCached.2.inSize = s.inSize := rfl
@[simp] theorem State.takeCached_outCap : s.takeCached.2.outCap = s.outCap := rfl
@[simp] theorem State.takeCached_sanitize : s.takeCached.2.sanitize = s.sanitize := rfl
@[simp] theorem State.takeCached_res : s.takeCached.2.res = s.res := rfl
@[simp] theorem State.takeCached_readPos : s.takeCached.2.readPos = s.readPos := rfl
@[simp] theorem State.takeCached_writePos : s.takeCached.2.writePos = s.writePos := rfl
@[simp] theorem State.takeCached_rcb : s.takeCached.2.rcb = s.rcb := rfl
theorem State.takeCached_rcn : s.takeCached.2.rcn = (⟨s.rcn.val - 1, by omega⟩) := rfl
@[simp] theorem State.takeCached_lanes : s.takeCached.2.lanes = s.lanes := rfl
@[simp] theorem State.takeCached_runState : s.takeCached.2.runState = s.runState := rfl
@[simp] theorem State.takeCached_rep0 : s.takeCached.2.rep0 = s.rep0 := rfl
@[simp] theorem State.takeCached_rep1 : s.takeCached.2.rep1 = s.rep1 := rfl
@[simp] theorem State.takeCached_rep2 : s.takeCached.2.rep2 = s.rep2 := rfl
@[simp] theorem State.takeCached_litMode : s.takeCached.2.litMode = s.litMode := rfl
@[simp] theorem State.takeCached_rleByte : s.takeCached.2.rleByte = s.rleByte := rfl
@[simp] theorem State.takeCached_maxLit : s.takeCached.2.maxLit = s.maxLit := rfl
@[simp] theorem State.takeCached_litEmitted : s.takeCached.2.litEmitted = s.litEmitted := rfl
@[simp] theorem State.takeCached_litTotal : s.takeCached.2.litTotal = s.litTotal := rfl
@[simp] theorem State.takeCached_numSeq : s.takeCached.2.numSeq = s.numSeq := rfl
@[simp] theorem State.takeCached_tacc : s.takeCached.2.tacc = s.tacc := rfl
@[simp] theorem State.takeCached_tvalid : s.takeCached.2.tvalid = s.tvalid := rfl
@[simp] theorem State.takeCached_fseCell : s.takeCached.2.fseCell = s.fseCell := rfl
@[simp] theorem State.takeCached_hufw : s.takeCached.2.hufw = s.hufw := rfl
@[simp] theorem State.takeCached_hufn : s.takeCached.2.hufn = s.hufn := rfl
@[simp] theorem State.takeCached_hufwb : s.takeCached.2.hufwb = s.hufwb := rfl
@[simp] theorem State.takeCached_hufvalid : s.takeCached.2.hufvalid = s.hufvalid := rfl
@[simp] theorem State.takeCached_huft : s.takeCached.2.huft = s.huft := rfl
@[simp] theorem State.takeCached_warnSticky : s.takeCached.2.warnSticky = s.warnSticky := rfl
@[simp] theorem State.takeCached_warnCount : s.takeCached.2.warnCount = s.warnCount := rfl
@[simp] theorem State.takeCached_warnLast : s.takeCached.2.warnLast = s.warnLast := rfl
@[simp] theorem State.takeCached_warnLog : s.takeCached.2.warnLog = s.warnLog := rfl
@[simp] theorem State.takeCached_inBuf : s.takeCached.2.inBuf = s.inBuf := rfl
@[simp] theorem State.takeCached_outBuf : s.takeCached.2.outBuf = s.outBuf := rfl
@[simp] theorem State.takeCached_written : s.takeCached.2.written = s.written := rfl
@[simp] theorem State.takeCached_hostOps : s.takeCached.2.hostOps = s.hostOps := rfl
@[simp] theorem State.takeCached_hostData : s.takeCached.2.hostData = s.hostData := rfl
@[simp] theorem State.takeCached_draws : s.takeCached.2.draws = s.draws := rfl

/-! ### `State.clearWeights` -/

@[simp] theorem State.clearWeights_arg0 : s.clearWeights.arg0 = s.arg0 := rfl
@[simp] theorem State.clearWeights_arg1 : s.clearWeights.arg1 = s.arg1 := rfl
@[simp] theorem State.clearWeights_nv : s.clearWeights.nv = s.nv := rfl
@[simp] theorem State.clearWeights_inSize : s.clearWeights.inSize = s.inSize := rfl
@[simp] theorem State.clearWeights_outCap : s.clearWeights.outCap = s.outCap := rfl
@[simp] theorem State.clearWeights_sanitize : s.clearWeights.sanitize = s.sanitize := rfl
@[simp] theorem State.clearWeights_res : s.clearWeights.res = s.res := rfl
@[simp] theorem State.clearWeights_readPos : s.clearWeights.readPos = s.readPos := rfl
@[simp] theorem State.clearWeights_writePos : s.clearWeights.writePos = s.writePos := rfl
@[simp] theorem State.clearWeights_rcb : s.clearWeights.rcb = s.rcb := rfl
@[simp] theorem State.clearWeights_rcn : s.clearWeights.rcn = s.rcn := rfl
@[simp] theorem State.clearWeights_lanes : s.clearWeights.lanes = s.lanes := rfl
@[simp] theorem State.clearWeights_runState : s.clearWeights.runState = s.runState := rfl
@[simp] theorem State.clearWeights_rep0 : s.clearWeights.rep0 = s.rep0 := rfl
@[simp] theorem State.clearWeights_rep1 : s.clearWeights.rep1 = s.rep1 := rfl
@[simp] theorem State.clearWeights_rep2 : s.clearWeights.rep2 = s.rep2 := rfl
@[simp] theorem State.clearWeights_litMode : s.clearWeights.litMode = s.litMode := rfl
@[simp] theorem State.clearWeights_rleByte : s.clearWeights.rleByte = s.rleByte := rfl
@[simp] theorem State.clearWeights_maxLit : s.clearWeights.maxLit = s.maxLit := rfl
@[simp] theorem State.clearWeights_litEmitted : s.clearWeights.litEmitted = s.litEmitted := rfl
@[simp] theorem State.clearWeights_litTotal : s.clearWeights.litTotal = s.litTotal := rfl
@[simp] theorem State.clearWeights_numSeq : s.clearWeights.numSeq = s.numSeq := rfl
@[simp] theorem State.clearWeights_tacc : s.clearWeights.tacc = s.tacc := rfl
@[simp] theorem State.clearWeights_tvalid : s.clearWeights.tvalid = s.tvalid := rfl
@[simp] theorem State.clearWeights_fseCell : s.clearWeights.fseCell = s.fseCell := rfl
@[simp] theorem State.clearWeights_hufw : s.clearWeights.hufw = Vector.replicate 256 0 := rfl
@[simp] theorem State.clearWeights_hufn : s.clearWeights.hufn = s.hufn := rfl
@[simp] theorem State.clearWeights_hufwb : s.clearWeights.hufwb = s.hufwb := rfl
@[simp] theorem State.clearWeights_hufvalid : s.clearWeights.hufvalid = s.hufvalid := rfl
@[simp] theorem State.clearWeights_huft : s.clearWeights.huft = s.huft := rfl
@[simp] theorem State.clearWeights_warnSticky : s.clearWeights.warnSticky = s.warnSticky := rfl
@[simp] theorem State.clearWeights_warnCount : s.clearWeights.warnCount = s.warnCount := rfl
@[simp] theorem State.clearWeights_warnLast : s.clearWeights.warnLast = s.warnLast := rfl
@[simp] theorem State.clearWeights_warnLog : s.clearWeights.warnLog = s.warnLog := rfl
@[simp] theorem State.clearWeights_inBuf : s.clearWeights.inBuf = s.inBuf := rfl
@[simp] theorem State.clearWeights_outBuf : s.clearWeights.outBuf = s.outBuf := rfl
@[simp] theorem State.clearWeights_written : s.clearWeights.written = s.written := rfl
@[simp] theorem State.clearWeights_hostOps : s.clearWeights.hostOps = s.hostOps := rfl
@[simp] theorem State.clearWeights_hostData : s.clearWeights.hostData = s.hostData := rfl
@[simp] theorem State.clearWeights_draws : s.clearWeights.draws = s.draws := rfl

/-! ### `State.setHufn` -/

@[simp] theorem State.setHufn_arg0 (N : Nat) : (s.setHufn N).arg0 = s.arg0 := rfl
@[simp] theorem State.setHufn_arg1 (N : Nat) : (s.setHufn N).arg1 = s.arg1 := rfl
@[simp] theorem State.setHufn_nv (N : Nat) : (s.setHufn N).nv = s.nv := rfl
@[simp] theorem State.setHufn_inSize (N : Nat) : (s.setHufn N).inSize = s.inSize := rfl
@[simp] theorem State.setHufn_outCap (N : Nat) : (s.setHufn N).outCap = s.outCap := rfl
@[simp] theorem State.setHufn_sanitize (N : Nat) : (s.setHufn N).sanitize = s.sanitize := rfl
@[simp] theorem State.setHufn_res (N : Nat) : (s.setHufn N).res = s.res := rfl
@[simp] theorem State.setHufn_readPos (N : Nat) : (s.setHufn N).readPos = s.readPos := rfl
@[simp] theorem State.setHufn_writePos (N : Nat) : (s.setHufn N).writePos = s.writePos := rfl
@[simp] theorem State.setHufn_rcb (N : Nat) : (s.setHufn N).rcb = s.rcb := rfl
@[simp] theorem State.setHufn_rcn (N : Nat) : (s.setHufn N).rcn = s.rcn := rfl
@[simp] theorem State.setHufn_lanes (N : Nat) : (s.setHufn N).lanes = s.lanes := rfl
@[simp] theorem State.setHufn_runState (N : Nat) : (s.setHufn N).runState = s.runState := rfl
@[simp] theorem State.setHufn_rep0 (N : Nat) : (s.setHufn N).rep0 = s.rep0 := rfl
@[simp] theorem State.setHufn_rep1 (N : Nat) : (s.setHufn N).rep1 = s.rep1 := rfl
@[simp] theorem State.setHufn_rep2 (N : Nat) : (s.setHufn N).rep2 = s.rep2 := rfl
@[simp] theorem State.setHufn_litMode (N : Nat) : (s.setHufn N).litMode = s.litMode := rfl
@[simp] theorem State.setHufn_rleByte (N : Nat) : (s.setHufn N).rleByte = s.rleByte := rfl
@[simp] theorem State.setHufn_maxLit (N : Nat) : (s.setHufn N).maxLit = s.maxLit := rfl
@[simp] theorem State.setHufn_litEmitted (N : Nat) : (s.setHufn N).litEmitted = s.litEmitted := rfl
@[simp] theorem State.setHufn_litTotal (N : Nat) : (s.setHufn N).litTotal = s.litTotal := rfl
@[simp] theorem State.setHufn_numSeq (N : Nat) : (s.setHufn N).numSeq = s.numSeq := rfl
@[simp] theorem State.setHufn_tacc (N : Nat) : (s.setHufn N).tacc = s.tacc := rfl
@[simp] theorem State.setHufn_tvalid (N : Nat) : (s.setHufn N).tvalid = s.tvalid := rfl
@[simp] theorem State.setHufn_fseCell (N : Nat) : (s.setHufn N).fseCell = s.fseCell := rfl
@[simp] theorem State.setHufn_hufw (N : Nat) : (s.setHufn N).hufw = s.hufw := rfl
@[simp] theorem State.setHufn_hufn (N : Nat) : (s.setHufn N).hufn = BitVec.ofNat 8 N := rfl
@[simp] theorem State.setHufn_hufwb (N : Nat) : (s.setHufn N).hufwb = s.hufwb := rfl
@[simp] theorem State.setHufn_hufvalid (N : Nat) : (s.setHufn N).hufvalid = s.hufvalid := rfl
@[simp] theorem State.setHufn_huft (N : Nat) : (s.setHufn N).huft = s.huft := rfl
@[simp] theorem State.setHufn_warnSticky (N : Nat) : (s.setHufn N).warnSticky = s.warnSticky := rfl
@[simp] theorem State.setHufn_warnCount (N : Nat) : (s.setHufn N).warnCount = s.warnCount := rfl
@[simp] theorem State.setHufn_warnLast (N : Nat) : (s.setHufn N).warnLast = s.warnLast := rfl
@[simp] theorem State.setHufn_warnLog (N : Nat) : (s.setHufn N).warnLog = s.warnLog := rfl
@[simp] theorem State.setHufn_inBuf (N : Nat) : (s.setHufn N).inBuf = s.inBuf := rfl
@[simp] theorem State.setHufn_outBuf (N : Nat) : (s.setHufn N).outBuf = s.outBuf := rfl
@[simp] theorem State.setHufn_written (N : Nat) : (s.setHufn N).written = s.written := rfl
@[simp] theorem State.setHufn_hostOps (N : Nat) : (s.setHufn N).hostOps = s.hostOps := rfl
@[simp] theorem State.setHufn_hostData (N : Nat) : (s.setHufn N).hostData = s.hostData := rfl
@[simp] theorem State.setHufn_draws (N : Nat) : (s.setHufn N).draws = s.draws := rfl

/-! ### `State.setHufBuilt` -/

@[simp] theorem State.setHufBuilt_arg0 (wb : Nat) : (s.setHufBuilt wb).arg0 = s.arg0 := rfl
@[simp] theorem State.setHufBuilt_arg1 (wb : Nat) : (s.setHufBuilt wb).arg1 = s.arg1 := rfl
@[simp] theorem State.setHufBuilt_nv (wb : Nat) : (s.setHufBuilt wb).nv = s.nv := rfl
@[simp] theorem State.setHufBuilt_inSize (wb : Nat) : (s.setHufBuilt wb).inSize = s.inSize := rfl
@[simp] theorem State.setHufBuilt_outCap (wb : Nat) : (s.setHufBuilt wb).outCap = s.outCap := rfl
@[simp] theorem State.setHufBuilt_sanitize (wb : Nat) : (s.setHufBuilt wb).sanitize = s.sanitize := rfl
@[simp] theorem State.setHufBuilt_res (wb : Nat) : (s.setHufBuilt wb).res = s.res := rfl
@[simp] theorem State.setHufBuilt_readPos (wb : Nat) : (s.setHufBuilt wb).readPos = s.readPos := rfl
@[simp] theorem State.setHufBuilt_writePos (wb : Nat) : (s.setHufBuilt wb).writePos = s.writePos := rfl
@[simp] theorem State.setHufBuilt_rcb (wb : Nat) : (s.setHufBuilt wb).rcb = s.rcb := rfl
@[simp] theorem State.setHufBuilt_rcn (wb : Nat) : (s.setHufBuilt wb).rcn = s.rcn := rfl
@[simp] theorem State.setHufBuilt_lanes (wb : Nat) : (s.setHufBuilt wb).lanes = s.lanes := rfl
@[simp] theorem State.setHufBuilt_runState (wb : Nat) : (s.setHufBuilt wb).runState = s.runState := rfl
@[simp] theorem State.setHufBuilt_rep0 (wb : Nat) : (s.setHufBuilt wb).rep0 = s.rep0 := rfl
@[simp] theorem State.setHufBuilt_rep1 (wb : Nat) : (s.setHufBuilt wb).rep1 = s.rep1 := rfl
@[simp] theorem State.setHufBuilt_rep2 (wb : Nat) : (s.setHufBuilt wb).rep2 = s.rep2 := rfl
@[simp] theorem State.setHufBuilt_litMode (wb : Nat) : (s.setHufBuilt wb).litMode = s.litMode := rfl
@[simp] theorem State.setHufBuilt_rleByte (wb : Nat) : (s.setHufBuilt wb).rleByte = s.rleByte := rfl
@[simp] theorem State.setHufBuilt_maxLit (wb : Nat) : (s.setHufBuilt wb).maxLit = s.maxLit := rfl
@[simp] theorem State.setHufBuilt_litEmitted (wb : Nat) : (s.setHufBuilt wb).litEmitted = s.litEmitted := rfl
@[simp] theorem State.setHufBuilt_litTotal (wb : Nat) : (s.setHufBuilt wb).litTotal = s.litTotal := rfl
@[simp] theorem State.setHufBuilt_numSeq (wb : Nat) : (s.setHufBuilt wb).numSeq = s.numSeq := rfl
@[simp] theorem State.setHufBuilt_tacc (wb : Nat) : (s.setHufBuilt wb).tacc = s.tacc := rfl
@[simp] theorem State.setHufBuilt_tvalid (wb : Nat) : (s.setHufBuilt wb).tvalid = s.tvalid := rfl
@[simp] theorem State.setHufBuilt_fseCell (wb : Nat) : (s.setHufBuilt wb).fseCell = s.fseCell := rfl
@[simp] theorem State.setHufBuilt_hufw (wb : Nat) : (s.setHufBuilt wb).hufw = s.hufw := rfl
@[simp] theorem State.setHufBuilt_hufn (wb : Nat) : (s.setHufBuilt wb).hufn = s.hufn := rfl
@[simp] theorem State.setHufBuilt_hufwb (wb : Nat) : (s.setHufBuilt wb).hufwb = BitVec.ofNat 4 wb := rfl
@[simp] theorem State.setHufBuilt_hufvalid (wb : Nat) : (s.setHufBuilt wb).hufvalid = true := rfl
@[simp] theorem State.setHufBuilt_huft (wb : Nat) : (s.setHufBuilt wb).huft = s.huft := rfl
@[simp] theorem State.setHufBuilt_warnSticky (wb : Nat) : (s.setHufBuilt wb).warnSticky = s.warnSticky := rfl
@[simp] theorem State.setHufBuilt_warnCount (wb : Nat) : (s.setHufBuilt wb).warnCount = s.warnCount := rfl
@[simp] theorem State.setHufBuilt_warnLast (wb : Nat) : (s.setHufBuilt wb).warnLast = s.warnLast := rfl
@[simp] theorem State.setHufBuilt_warnLog (wb : Nat) : (s.setHufBuilt wb).warnLog = s.warnLog := rfl
@[simp] theorem State.setHufBuilt_inBuf (wb : Nat) : (s.setHufBuilt wb).inBuf = s.inBuf := rfl
@[simp] theorem State.setHufBuilt_outBuf (wb : Nat) : (s.setHufBuilt wb).outBuf = s.outBuf := rfl
@[simp] theorem State.setHufBuilt_written (wb : Nat) : (s.setHufBuilt wb).written = s.written := rfl
@[simp] theorem State.setHufBuilt_hostOps (wb : Nat) : (s.setHufBuilt wb).hostOps = s.hostOps := rfl
@[simp] theorem State.setHufBuilt_hostData (wb : Nat) : (s.setHufBuilt wb).hostData = s.hostData := rfl
@[simp] theorem State.setHufBuilt_draws (wb : Nat) : (s.setHufBuilt wb).draws = s.draws := rfl

/-! ### `State.setRle` -/

@[simp] theorem State.setRle_arg0 (b : Byte) : (s.setRle b).arg0 = s.arg0 := rfl
@[simp] theorem State.setRle_arg1 (b : Byte) : (s.setRle b).arg1 = s.arg1 := rfl
@[simp] theorem State.setRle_nv (b : Byte) : (s.setRle b).nv = s.nv := rfl
@[simp] theorem State.setRle_inSize (b : Byte) : (s.setRle b).inSize = s.inSize := rfl
@[simp] theorem State.setRle_outCap (b : Byte) : (s.setRle b).outCap = s.outCap := rfl
@[simp] theorem State.setRle_sanitize (b : Byte) : (s.setRle b).sanitize = s.sanitize := rfl
@[simp] theorem State.setRle_res (b : Byte) : (s.setRle b).res = s.res := rfl
@[simp] theorem State.setRle_readPos (b : Byte) : (s.setRle b).readPos = s.readPos := rfl
@[simp] theorem State.setRle_writePos (b : Byte) : (s.setRle b).writePos = s.writePos := rfl
@[simp] theorem State.setRle_rcb (b : Byte) : (s.setRle b).rcb = s.rcb := rfl
@[simp] theorem State.setRle_rcn (b : Byte) : (s.setRle b).rcn = s.rcn := rfl
@[simp] theorem State.setRle_lanes (b : Byte) : (s.setRle b).lanes = s.lanes := rfl
@[simp] theorem State.setRle_runState (b : Byte) : (s.setRle b).runState = s.runState := rfl
@[simp] theorem State.setRle_rep0 (b : Byte) : (s.setRle b).rep0 = s.rep0 := rfl
@[simp] theorem State.setRle_rep1 (b : Byte) : (s.setRle b).rep1 = s.rep1 := rfl
@[simp] theorem State.setRle_rep2 (b : Byte) : (s.setRle b).rep2 = s.rep2 := rfl
@[simp] theorem State.setRle_litMode (b : Byte) : (s.setRle b).litMode = s.litMode := rfl
@[simp] theorem State.setRle_rleByte (b : Byte) : (s.setRle b).rleByte = b := rfl
@[simp] theorem State.setRle_maxLit (b : Byte) : (s.setRle b).maxLit = s.maxLit := rfl
@[simp] theorem State.setRle_litEmitted (b : Byte) : (s.setRle b).litEmitted = s.litEmitted := rfl
@[simp] theorem State.setRle_litTotal (b : Byte) : (s.setRle b).litTotal = s.litTotal := rfl
@[simp] theorem State.setRle_numSeq (b : Byte) : (s.setRle b).numSeq = s.numSeq := rfl
@[simp] theorem State.setRle_tacc (b : Byte) : (s.setRle b).tacc = s.tacc := rfl
@[simp] theorem State.setRle_tvalid (b : Byte) : (s.setRle b).tvalid = s.tvalid := rfl
@[simp] theorem State.setRle_fseCell (b : Byte) : (s.setRle b).fseCell = s.fseCell := rfl
@[simp] theorem State.setRle_hufw (b : Byte) : (s.setRle b).hufw = s.hufw := rfl
@[simp] theorem State.setRle_hufn (b : Byte) : (s.setRle b).hufn = s.hufn := rfl
@[simp] theorem State.setRle_hufwb (b : Byte) : (s.setRle b).hufwb = s.hufwb := rfl
@[simp] theorem State.setRle_hufvalid (b : Byte) : (s.setRle b).hufvalid = s.hufvalid := rfl
@[simp] theorem State.setRle_huft (b : Byte) : (s.setRle b).huft = s.huft := rfl
@[simp] theorem State.setRle_warnSticky (b : Byte) : (s.setRle b).warnSticky = s.warnSticky := rfl
@[simp] theorem State.setRle_warnCount (b : Byte) : (s.setRle b).warnCount = s.warnCount := rfl
@[simp] theorem State.setRle_warnLast (b : Byte) : (s.setRle b).warnLast = s.warnLast := rfl
@[simp] theorem State.setRle_warnLog (b : Byte) : (s.setRle b).warnLog = s.warnLog := rfl
@[simp] theorem State.setRle_inBuf (b : Byte) : (s.setRle b).inBuf = s.inBuf := rfl
@[simp] theorem State.setRle_outBuf (b : Byte) : (s.setRle b).outBuf = s.outBuf := rfl
@[simp] theorem State.setRle_written (b : Byte) : (s.setRle b).written = s.written := rfl
@[simp] theorem State.setRle_hostOps (b : Byte) : (s.setRle b).hostOps = s.hostOps := rfl
@[simp] theorem State.setRle_hostData (b : Byte) : (s.setRle b).hostData = s.hostData := rfl
@[simp] theorem State.setRle_draws (b : Byte) : (s.setRle b).draws = s.draws := rfl

/-! ### `State.setRep` -/

@[simp] theorem State.setRep_arg0 (a b c : Word) : (s.setRep a b c).arg0 = s.arg0 := rfl
@[simp] theorem State.setRep_arg1 (a b c : Word) : (s.setRep a b c).arg1 = s.arg1 := rfl
@[simp] theorem State.setRep_nv (a b c : Word) : (s.setRep a b c).nv = s.nv := rfl
@[simp] theorem State.setRep_inSize (a b c : Word) : (s.setRep a b c).inSize = s.inSize := rfl
@[simp] theorem State.setRep_outCap (a b c : Word) : (s.setRep a b c).outCap = s.outCap := rfl
@[simp] theorem State.setRep_sanitize (a b c : Word) : (s.setRep a b c).sanitize = s.sanitize := rfl
@[simp] theorem State.setRep_res (a b c : Word) : (s.setRep a b c).res = s.res := rfl
@[simp] theorem State.setRep_readPos (a b c : Word) : (s.setRep a b c).readPos = s.readPos := rfl
@[simp] theorem State.setRep_writePos (a b c : Word) : (s.setRep a b c).writePos = s.writePos := rfl
@[simp] theorem State.setRep_rcb (a b c : Word) : (s.setRep a b c).rcb = s.rcb := rfl
@[simp] theorem State.setRep_rcn (a b c : Word) : (s.setRep a b c).rcn = s.rcn := rfl
@[simp] theorem State.setRep_lanes (a b c : Word) : (s.setRep a b c).lanes = s.lanes := rfl
@[simp] theorem State.setRep_runState (a b c : Word) : (s.setRep a b c).runState = s.runState := rfl
@[simp] theorem State.setRep_rep0 (a b c : Word) : (s.setRep a b c).rep0 = a := rfl
@[simp] theorem State.setRep_rep1 (a b c : Word) : (s.setRep a b c).rep1 = b := rfl
@[simp] theorem State.setRep_rep2 (a b c : Word) : (s.setRep a b c).rep2 = c := rfl
@[simp] theorem State.setRep_litMode (a b c : Word) : (s.setRep a b c).litMode = s.litMode := rfl
@[simp] theorem State.setRep_rleByte (a b c : Word) : (s.setRep a b c).rleByte = s.rleByte := rfl
@[simp] theorem State.setRep_maxLit (a b c : Word) : (s.setRep a b c).maxLit = s.maxLit := rfl
@[simp] theorem State.setRep_litEmitted (a b c : Word) : (s.setRep a b c).litEmitted = s.litEmitted := rfl
@[simp] theorem State.setRep_litTotal (a b c : Word) : (s.setRep a b c).litTotal = s.litTotal := rfl
@[simp] theorem State.setRep_numSeq (a b c : Word) : (s.setRep a b c).numSeq = s.numSeq := rfl
@[simp] theorem State.setRep_tacc (a b c : Word) : (s.setRep a b c).tacc = s.tacc := rfl
@[simp] theorem State.setRep_tvalid (a b c : Word) : (s.setRep a b c).tvalid = s.tvalid := rfl
@[simp] theorem State.setRep_fseCell (a b c : Word) : (s.setRep a b c).fseCell = s.fseCell := rfl
@[simp] theorem State.setRep_hufw (a b c : Word) : (s.setRep a b c).hufw = s.hufw := rfl
@[simp] theorem State.setRep_hufn (a b c : Word) : (s.setRep a b c).hufn = s.hufn := rfl
@[simp] theorem State.setRep_hufwb (a b c : Word) : (s.setRep a b c).hufwb = s.hufwb := rfl
@[simp] theorem State.setRep_hufvalid (a b c : Word) : (s.setRep a b c).hufvalid = s.hufvalid := rfl
@[simp] theorem State.setRep_huft (a b c : Word) : (s.setRep a b c).huft = s.huft := rfl
@[simp] theorem State.setRep_warnSticky (a b c : Word) : (s.setRep a b c).warnSticky = s.warnSticky := rfl
@[simp] theorem State.setRep_warnCount (a b c : Word) : (s.setRep a b c).warnCount = s.warnCount := rfl
@[simp] theorem State.setRep_warnLast (a b c : Word) : (s.setRep a b c).warnLast = s.warnLast := rfl
@[simp] theorem State.setRep_warnLog (a b c : Word) : (s.setRep a b c).warnLog = s.warnLog := rfl
@[simp] theorem State.setRep_inBuf (a b c : Word) : (s.setRep a b c).inBuf = s.inBuf := rfl
@[simp] theorem State.setRep_outBuf (a b c : Word) : (s.setRep a b c).outBuf = s.outBuf := rfl
@[simp] theorem State.setRep_written (a b c : Word) : (s.setRep a b c).written = s.written := rfl
@[simp] theorem State.setRep_hostOps (a b c : Word) : (s.setRep a b c).hostOps = s.hostOps := rfl
@[simp] theorem State.setRep_hostData (a b c : Word) : (s.setRep a b c).hostData = s.hostData := rfl
@[simp] theorem State.setRep_draws (a b c : Word) : (s.setRep a b c).draws = s.draws := rfl

/-! ### `State.setLitTotal` -/

@[simp] theorem State.setLitTotal_arg0 (n : Nat) : (s.setLitTotal n).arg0 = s.arg0 := rfl
@[simp] theorem State.setLitTotal_arg1 (n : Nat) : (s.setLitTotal n).arg1 = s.arg1 := rfl
@[simp] theorem State.setLitTotal_nv (n : Nat) : (s.setLitTotal n).nv = s.nv := rfl
@[simp] theorem State.setLitTotal_inSize (n : Nat) : (s.setLitTotal n).inSize = s.inSize := rfl
@[simp] theorem State.setLitTotal_outCap (n : Nat) : (s.setLitTotal n).outCap = s.outCap := rfl
@[simp] theorem State.setLitTotal_sanitize (n : Nat) : (s.setLitTotal n).sanitize = s.sanitize := rfl
@[simp] theorem State.setLitTotal_res (n : Nat) : (s.setLitTotal n).res = s.res := rfl
@[simp] theorem State.setLitTotal_readPos (n : Nat) : (s.setLitTotal n).readPos = s.readPos := rfl
@[simp] theorem State.setLitTotal_writePos (n : Nat) : (s.setLitTotal n).writePos = s.writePos := rfl
@[simp] theorem State.setLitTotal_rcb (n : Nat) : (s.setLitTotal n).rcb = s.rcb := rfl
@[simp] theorem State.setLitTotal_rcn (n : Nat) : (s.setLitTotal n).rcn = s.rcn := rfl
@[simp] theorem State.setLitTotal_lanes (n : Nat) : (s.setLitTotal n).lanes = s.lanes := rfl
@[simp] theorem State.setLitTotal_runState (n : Nat) : (s.setLitTotal n).runState = s.runState := rfl
@[simp] theorem State.setLitTotal_rep0 (n : Nat) : (s.setLitTotal n).rep0 = s.rep0 := rfl
@[simp] theorem State.setLitTotal_rep1 (n : Nat) : (s.setLitTotal n).rep1 = s.rep1 := rfl
@[simp] theorem State.setLitTotal_rep2 (n : Nat) : (s.setLitTotal n).rep2 = s.rep2 := rfl
@[simp] theorem State.setLitTotal_litMode (n : Nat) : (s.setLitTotal n).litMode = s.litMode := rfl
@[simp] theorem State.setLitTotal_rleByte (n : Nat) : (s.setLitTotal n).rleByte = s.rleByte := rfl
@[simp] theorem State.setLitTotal_maxLit (n : Nat) : (s.setLitTotal n).maxLit = s.maxLit := rfl
@[simp] theorem State.setLitTotal_litEmitted (n : Nat) : (s.setLitTotal n).litEmitted = s.litEmitted := rfl
@[simp] theorem State.setLitTotal_litTotal (n : Nat) : (s.setLitTotal n).litTotal = BitVec.ofNat 32 n := rfl
@[simp] theorem State.setLitTotal_numSeq (n : Nat) : (s.setLitTotal n).numSeq = s.numSeq := rfl
@[simp] theorem State.setLitTotal_tacc (n : Nat) : (s.setLitTotal n).tacc = s.tacc := rfl
@[simp] theorem State.setLitTotal_tvalid (n : Nat) : (s.setLitTotal n).tvalid = s.tvalid := rfl
@[simp] theorem State.setLitTotal_fseCell (n : Nat) : (s.setLitTotal n).fseCell = s.fseCell := rfl
@[simp] theorem State.setLitTotal_hufw (n : Nat) : (s.setLitTotal n).hufw = s.hufw := rfl
@[simp] theorem State.setLitTotal_hufn (n : Nat) : (s.setLitTotal n).hufn = s.hufn := rfl
@[simp] theorem State.setLitTotal_hufwb (n : Nat) : (s.setLitTotal n).hufwb = s.hufwb := rfl
@[simp] theorem State.setLitTotal_hufvalid (n : Nat) : (s.setLitTotal n).hufvalid = s.hufvalid := rfl
@[simp] theorem State.setLitTotal_huft (n : Nat) : (s.setLitTotal n).huft = s.huft := rfl
@[simp] theorem State.setLitTotal_warnSticky (n : Nat) : (s.setLitTotal n).warnSticky = s.warnSticky := rfl
@[simp] theorem State.setLitTotal_warnCount (n : Nat) : (s.setLitTotal n).warnCount = s.warnCount := rfl
@[simp] theorem State.setLitTotal_warnLast (n : Nat) : (s.setLitTotal n).warnLast = s.warnLast := rfl
@[simp] theorem State.setLitTotal_warnLog (n : Nat) : (s.setLitTotal n).warnLog = s.warnLog := rfl
@[simp] theorem State.setLitTotal_inBuf (n : Nat) : (s.setLitTotal n).inBuf = s.inBuf := rfl
@[simp] theorem State.setLitTotal_outBuf (n : Nat) : (s.setLitTotal n).outBuf = s.outBuf := rfl
@[simp] theorem State.setLitTotal_written (n : Nat) : (s.setLitTotal n).written = s.written := rfl
@[simp] theorem State.setLitTotal_hostOps (n : Nat) : (s.setLitTotal n).hostOps = s.hostOps := rfl
@[simp] theorem State.setLitTotal_hostData (n : Nat) : (s.setLitTotal n).hostData = s.hostData := rfl
@[simp] theorem State.setLitTotal_draws (n : Nat) : (s.setLitTotal n).draws = s.draws := rfl

/-! ### `State.setNumSeq` -/

@[simp] theorem State.setNumSeq_arg0 (n : Nat) : (s.setNumSeq n).arg0 = s.arg0 := rfl
@[simp] theorem State.setNumSeq_arg1 (n : Nat) : (s.setNumSeq n).arg1 = s.arg1 := rfl
@[simp] theorem State.setNumSeq_nv (n : Nat) : (s.setNumSeq n).nv = s.nv := rfl
@[simp] theorem State.setNumSeq_inSize (n : Nat) : (s.setNumSeq n).inSize = s.inSize := rfl
@[simp] theorem State.setNumSeq_outCap (n : Nat) : (s.setNumSeq n).outCap = s.outCap := rfl
@[simp] theorem State.setNumSeq_sanitize (n : Nat) : (s.setNumSeq n).sanitize = s.sanitize := rfl
@[simp] theorem State.setNumSeq_res (n : Nat) : (s.setNumSeq n).res = s.res := rfl
@[simp] theorem State.setNumSeq_readPos (n : Nat) : (s.setNumSeq n).readPos = s.readPos := rfl
@[simp] theorem State.setNumSeq_writePos (n : Nat) : (s.setNumSeq n).writePos = s.writePos := rfl
@[simp] theorem State.setNumSeq_rcb (n : Nat) : (s.setNumSeq n).rcb = s.rcb := rfl
@[simp] theorem State.setNumSeq_rcn (n : Nat) : (s.setNumSeq n).rcn = s.rcn := rfl
@[simp] theorem State.setNumSeq_lanes (n : Nat) : (s.setNumSeq n).lanes = s.lanes := rfl
@[simp] theorem State.setNumSeq_runState (n : Nat) : (s.setNumSeq n).runState = s.runState := rfl
@[simp] theorem State.setNumSeq_rep0 (n : Nat) : (s.setNumSeq n).rep0 = s.rep0 := rfl
@[simp] theorem State.setNumSeq_rep1 (n : Nat) : (s.setNumSeq n).rep1 = s.rep1 := rfl
@[simp] theorem State.setNumSeq_rep2 (n : Nat) : (s.setNumSeq n).rep2 = s.rep2 := rfl
@[simp] theorem State.setNumSeq_litMode (n : Nat) : (s.setNumSeq n).litMode = s.litMode := rfl
@[simp] theorem State.setNumSeq_rleByte (n : Nat) : (s.setNumSeq n).rleByte = s.rleByte := rfl
@[simp] theorem State.setNumSeq_maxLit (n : Nat) : (s.setNumSeq n).maxLit = s.maxLit := rfl
@[simp] theorem State.setNumSeq_litEmitted (n : Nat) : (s.setNumSeq n).litEmitted = s.litEmitted := rfl
@[simp] theorem State.setNumSeq_litTotal (n : Nat) : (s.setNumSeq n).litTotal = s.litTotal := rfl
@[simp] theorem State.setNumSeq_numSeq (n : Nat) : (s.setNumSeq n).numSeq = BitVec.ofNat 32 n := rfl
@[simp] theorem State.setNumSeq_tacc (n : Nat) : (s.setNumSeq n).tacc = s.tacc := rfl
@[simp] theorem State.setNumSeq_tvalid (n : Nat) : (s.setNumSeq n).tvalid = s.tvalid := rfl
@[simp] theorem State.setNumSeq_fseCell (n : Nat) : (s.setNumSeq n).fseCell = s.fseCell := rfl
@[simp] theorem State.setNumSeq_hufw (n : Nat) : (s.setNumSeq n).hufw = s.hufw := rfl
@[simp] theorem State.setNumSeq_hufn (n : Nat) : (s.setNumSeq n).hufn = s.hufn := rfl
@[simp] theorem State.setNumSeq_hufwb (n : Nat) : (s.setNumSeq n).hufwb = s.hufwb := rfl
@[simp] theorem State.setNumSeq_hufvalid (n : Nat) : (s.setNumSeq n).hufvalid = s.hufvalid := rfl
@[simp] theorem State.setNumSeq_huft (n : Nat) : (s.setNumSeq n).huft = s.huft := rfl
@[simp] theorem State.setNumSeq_warnSticky (n : Nat) : (s.setNumSeq n).warnSticky = s.warnSticky := rfl
@[simp] theorem State.setNumSeq_warnCount (n : Nat) : (s.setNumSeq n).warnCount = s.warnCount := rfl
@[simp] theorem State.setNumSeq_warnLast (n : Nat) : (s.setNumSeq n).warnLast = s.warnLast := rfl
@[simp] theorem State.setNumSeq_warnLog (n : Nat) : (s.setNumSeq n).warnLog = s.warnLog := rfl
@[simp] theorem State.setNumSeq_inBuf (n : Nat) : (s.setNumSeq n).inBuf = s.inBuf := rfl
@[simp] theorem State.setNumSeq_outBuf (n : Nat) : (s.setNumSeq n).outBuf = s.outBuf := rfl
@[simp] theorem State.setNumSeq_written (n : Nat) : (s.setNumSeq n).written = s.written := rfl
@[simp] theorem State.setNumSeq_hostOps (n : Nat) : (s.setNumSeq n).hostOps = s.hostOps := rfl
@[simp] theorem State.setNumSeq_hostData (n : Nat) : (s.setNumSeq n).hostData = s.hostData := rfl
@[simp] theorem State.setNumSeq_draws (n : Nat) : (s.setNumSeq n).draws = s.draws := rfl

/-! ### `State.setRunState` -/

@[simp] theorem State.setRunState_arg0 (r : RunState) : (s.setRunState r).arg0 = s.arg0 := rfl
@[simp] theorem State.setRunState_arg1 (r : RunState) : (s.setRunState r).arg1 = s.arg1 := rfl
@[simp] theorem State.setRunState_nv (r : RunState) : (s.setRunState r).nv = s.nv := rfl
@[simp] theorem State.setRunState_inSize (r : RunState) : (s.setRunState r).inSize = s.inSize := rfl
@[simp] theorem State.setRunState_outCap (r : RunState) : (s.setRunState r).outCap = s.outCap := rfl
@[simp] theorem State.setRunState_sanitize (r : RunState) : (s.setRunState r).sanitize = s.sanitize := rfl
@[simp] theorem State.setRunState_res (r : RunState) : (s.setRunState r).res = s.res := rfl
@[simp] theorem State.setRunState_readPos (r : RunState) : (s.setRunState r).readPos = s.readPos := rfl
@[simp] theorem State.setRunState_writePos (r : RunState) : (s.setRunState r).writePos = s.writePos := rfl
@[simp] theorem State.setRunState_rcb (r : RunState) : (s.setRunState r).rcb = s.rcb := rfl
@[simp] theorem State.setRunState_rcn (r : RunState) : (s.setRunState r).rcn = s.rcn := rfl
@[simp] theorem State.setRunState_lanes (r : RunState) : (s.setRunState r).lanes = s.lanes := rfl
@[simp] theorem State.setRunState_runState (r : RunState) : (s.setRunState r).runState = r := rfl
@[simp] theorem State.setRunState_rep0 (r : RunState) : (s.setRunState r).rep0 = s.rep0 := rfl
@[simp] theorem State.setRunState_rep1 (r : RunState) : (s.setRunState r).rep1 = s.rep1 := rfl
@[simp] theorem State.setRunState_rep2 (r : RunState) : (s.setRunState r).rep2 = s.rep2 := rfl
@[simp] theorem State.setRunState_litMode (r : RunState) : (s.setRunState r).litMode = s.litMode := rfl
@[simp] theorem State.setRunState_rleByte (r : RunState) : (s.setRunState r).rleByte = s.rleByte := rfl
@[simp] theorem State.setRunState_maxLit (r : RunState) : (s.setRunState r).maxLit = s.maxLit := rfl
@[simp] theorem State.setRunState_litEmitted (r : RunState) : (s.setRunState r).litEmitted = s.litEmitted := rfl
@[simp] theorem State.setRunState_litTotal (r : RunState) : (s.setRunState r).litTotal = s.litTotal := rfl
@[simp] theorem State.setRunState_numSeq (r : RunState) : (s.setRunState r).numSeq = s.numSeq := rfl
@[simp] theorem State.setRunState_tacc (r : RunState) : (s.setRunState r).tacc = s.tacc := rfl
@[simp] theorem State.setRunState_tvalid (r : RunState) : (s.setRunState r).tvalid = s.tvalid := rfl
@[simp] theorem State.setRunState_fseCell (r : RunState) : (s.setRunState r).fseCell = s.fseCell := rfl
@[simp] theorem State.setRunState_hufw (r : RunState) : (s.setRunState r).hufw = s.hufw := rfl
@[simp] theorem State.setRunState_hufn (r : RunState) : (s.setRunState r).hufn = s.hufn := rfl
@[simp] theorem State.setRunState_hufwb (r : RunState) : (s.setRunState r).hufwb = s.hufwb := rfl
@[simp] theorem State.setRunState_hufvalid (r : RunState) : (s.setRunState r).hufvalid = s.hufvalid := rfl
@[simp] theorem State.setRunState_huft (r : RunState) : (s.setRunState r).huft = s.huft := rfl
@[simp] theorem State.setRunState_warnSticky (r : RunState) : (s.setRunState r).warnSticky = s.warnSticky := rfl
@[simp] theorem State.setRunState_warnCount (r : RunState) : (s.setRunState r).warnCount = s.warnCount := rfl
@[simp] theorem State.setRunState_warnLast (r : RunState) : (s.setRunState r).warnLast = s.warnLast := rfl
@[simp] theorem State.setRunState_warnLog (r : RunState) : (s.setRunState r).warnLog = s.warnLog := rfl
@[simp] theorem State.setRunState_inBuf (r : RunState) : (s.setRunState r).inBuf = s.inBuf := rfl
@[simp] theorem State.setRunState_outBuf (r : RunState) : (s.setRunState r).outBuf = s.outBuf := rfl
@[simp] theorem State.setRunState_written (r : RunState) : (s.setRunState r).written = s.written := rfl
@[simp] theorem State.setRunState_hostOps (r : RunState) : (s.setRunState r).hostOps = s.hostOps := rfl
@[simp] theorem State.setRunState_hostData (r : RunState) : (s.setRunState r).hostData = s.hostData := rfl
@[simp] theorem State.setRunState_draws (r : RunState) : (s.setRunState r).draws = s.draws := rfl

/-! ### The lane updates -/

@[simp] theorem Lane.load_buf (x : Lane) (w : Word) : (x.load w).buf = x.buf ||| (w.setWidth 64 <<< x.avail.toNat) := rfl
@[simp] theorem Lane.load_avail (x : Lane) (w : Word) : (x.load w).avail = x.avail + 32 := rfl
@[simp] theorem Lane.load_pv (x : Lane) (w : Word) : (x.load w).pv = x.pv := rfl
@[simp] theorem Lane.load_pw (x : Lane) (w : Word) : (x.load w).pw = x.pw := rfl
@[simp] theorem Lane.load_dacc (x : Lane) (w : Word) : (x.load w).dacc = x.dacc := rfl
@[simp] theorem Lane.load_sym (x : Lane) (w : Word) : (x.load w).sym = x.sym := rfl
@[simp] theorem Lane.load_fss (x : Lane) (w : Word) : (x.load w).fss = x.fss := rfl
@[simp] theorem Lane.load_fsd (x : Lane) (w : Word) : (x.load w).fsd = x.fsd := rfl

@[simp] theorem Lane.consume_buf (x : Lane) (n : Nat) : (x.consume n).buf = x.buf >>> n := rfl
@[simp] theorem Lane.consume_avail (x : Lane) (n : Nat) : (x.consume n).avail = x.avail - BitVec.ofNat 7 n := rfl
@[simp] theorem Lane.consume_pv (x : Lane) (n : Nat) : (x.consume n).pv = x.pv := rfl
@[simp] theorem Lane.consume_pw (x : Lane) (n : Nat) : (x.consume n).pw = x.pw := rfl
@[simp] theorem Lane.consume_dacc (x : Lane) (n : Nat) : (x.consume n).dacc = x.dacc := rfl
@[simp] theorem Lane.consume_sym (x : Lane) (n : Nat) : (x.consume n).sym = x.sym := rfl
@[simp] theorem Lane.consume_fss (x : Lane) (n : Nat) : (x.consume n).fss = x.fss := rfl
@[simp] theorem Lane.consume_fsd (x : Lane) (n : Nat) : (x.consume n).fsd = x.fsd := rfl

@[simp] theorem Lane.window_buf (x : Lane) (n : Nat) : (x.window n).buf = x.buf := rfl
@[simp] theorem Lane.window_avail (x : Lane) (n : Nat) : (x.window n).avail = x.avail := rfl
@[simp] theorem Lane.window_pv (x : Lane) (n : Nat) : (x.window n).pv = BitVec.ofNat 32 (lowBits n x.buf.toNat) := rfl
@[simp] theorem Lane.window_pw (x : Lane) (n : Nat) : (x.window n).pw = BitVec.ofNat 6 n := rfl
@[simp] theorem Lane.window_dacc (x : Lane) (n : Nat) : (x.window n).dacc = x.dacc := rfl
@[simp] theorem Lane.window_sym (x : Lane) (n : Nat) : (x.window n).sym = x.sym := rfl
@[simp] theorem Lane.window_fss (x : Lane) (n : Nat) : (x.window n).fss = x.fss := rfl
@[simp] theorem Lane.window_fsd (x : Lane) (n : Nat) : (x.window n).fsd = x.fsd := rfl

/-! ### Lane registers read back -/

theorem State.setLane_lane (l k : LaneId) (x : Lane) : (s.setLane l x).lane k = if k = l then x else s.lane k := by
  simp only [State.setLane, State.lane, Fin.getElem_fin, Vector.getElem_set, Fin.ext_iff, eq_comm]

@[simp] theorem State.setLane_lane_self (l : LaneId) (x : Lane) : (s.setLane l x).lane l = x := by
  simp [State.setLane_lane]

theorem State.setLane_lane_other {l k : LaneId} (x : Lane) (h : k ≠ l) : (s.setLane l x).lane k = s.lane k := by
  simp [State.setLane_lane, h]

theorem State.modLane_lane (l k : LaneId) (f : Lane → Lane) :
    (s.modLane l f).lane k = if k = l then f (s.lane l) else s.lane k := State.setLane_lane s l k _

@[simp] theorem State.modLane_arg0 (l : LaneId) (f : Lane → Lane) : (s.modLane l f).arg0 = s.arg0 := rfl
@[simp] theorem State.modLane_arg1 (l : LaneId) (f : Lane → Lane) : (s.modLane l f).arg1 = s.arg1 := rfl
@[simp] theorem State.modLane_nv (l : LaneId) (f : Lane → Lane) : (s.modLane l f).nv = s.nv := rfl
@[simp] theorem State.modLane_inSize (l : LaneId) (f : Lane → Lane) : (s.modLane l f).inSize = s.inSize := rfl
@[simp] theorem State.modLane_outCap (l : LaneId) (f : Lane → Lane) : (s.modLane l f).outCap = s.outCap := rfl
@[simp] theorem State.modLane_sanitize (l : LaneId) (f : Lane → Lane) : (s.modLane l f).sanitize = s.sanitize := rfl
@[simp] theorem State.modLane_res (l : LaneId) (f : Lane → Lane) : (s.modLane l f).res = s.res := rfl
@[simp] theorem State.modLane_readPos (l : LaneId) (f : Lane → Lane) : (s.modLane l f).readPos = s.readPos := rfl
@[simp] theorem State.modLane_writePos (l : LaneId) (f : Lane → Lane) : (s.modLane l f).writePos = s.writePos := rfl
@[simp] theorem State.modLane_rcb (l : LaneId) (f : Lane → Lane) : (s.modLane l f).rcb = s.rcb := rfl
@[simp] theorem State.modLane_rcn (l : LaneId) (f : Lane → Lane) : (s.modLane l f).rcn = s.rcn := rfl
@[simp] theorem State.modLane_runState (l : LaneId) (f : Lane → Lane) : (s.modLane l f).runState = s.runState := rfl
@[simp] theorem State.modLane_rep0 (l : LaneId) (f : Lane → Lane) : (s.modLane l f).rep0 = s.rep0 := rfl
@[simp] theorem State.modLane_rep1 (l : LaneId) (f : Lane → Lane) : (s.modLane l f).rep1 = s.rep1 := rfl
@[simp] theorem State.modLane_rep2 (l : LaneId) (f : Lane → Lane) : (s.modLane l f).rep2 = s.rep2 := rfl
@[simp] theorem State.modLane_litMode (l : LaneId) (f : Lane → Lane) : (s.modLane l f).litMode = s.litMode := rfl
@[simp] theorem State.modLane_rleByte (l : LaneId) (f : Lane → Lane) : (s.modLane l f).rleByte = s.rleByte := rfl
@[simp] theorem State.modLane_maxLit (l : LaneId) (f : Lane → Lane) : (s.modLane l f).maxLit = s.maxLit := rfl
@[simp] theorem State.modLane_litEmitted (l : LaneId) (f : Lane → Lane) : (s.modLane l f).litEmitted = s.litEmitted := rfl
@[simp] theorem State.modLane_litTotal (l : LaneId) (f : Lane → Lane) : (s.modLane l f).litTotal = s.litTotal := rfl
@[simp] theorem State.modLane_numSeq (l : LaneId) (f : Lane → Lane) : (s.modLane l f).numSeq = s.numSeq := rfl
@[simp] theorem State.modLane_tacc (l : LaneId) (f : Lane → Lane) : (s.modLane l f).tacc = s.tacc := rfl
@[simp] theorem State.modLane_tvalid (l : LaneId) (f : Lane → Lane) : (s.modLane l f).tvalid = s.tvalid := rfl
@[simp] theorem State.modLane_fseCell (l : LaneId) (f : Lane → Lane) : (s.modLane l f).fseCell = s.fseCell := rfl
@[simp] theorem State.modLane_hufw (l : LaneId) (f : Lane → Lane) : (s.modLane l f).hufw = s.hufw := rfl
@[simp] theorem State.modLane_hufn (l : LaneId) (f : Lane → Lane) : (s.modLane l f).hufn = s.hufn := rfl
@[simp] theorem State.modLane_hufwb (l : LaneId) (f : Lane → Lane) : (s.modLane l f).hufwb = s.hufwb := rfl
@[simp] theorem State.modLane_hufvalid (l : LaneId) (f : Lane → Lane) : (s.modLane l f).hufvalid = s.hufvalid := rfl
@[simp] theorem State.modLane_huft (l : LaneId) (f : Lane → Lane) : (s.modLane l f).huft = s.huft := rfl
@[simp] theorem State.modLane_warnSticky (l : LaneId) (f : Lane → Lane) : (s.modLane l f).warnSticky = s.warnSticky := rfl
@[simp] theorem State.modLane_warnCount (l : LaneId) (f : Lane → Lane) : (s.modLane l f).warnCount = s.warnCount := rfl
@[simp] theorem State.modLane_warnLast (l : LaneId) (f : Lane → Lane) : (s.modLane l f).warnLast = s.warnLast := rfl
@[simp] theorem State.modLane_warnLog (l : LaneId) (f : Lane → Lane) : (s.modLane l f).warnLog = s.warnLog := rfl
@[simp] theorem State.modLane_inBuf (l : LaneId) (f : Lane → Lane) : (s.modLane l f).inBuf = s.inBuf := rfl
@[simp] theorem State.modLane_outBuf (l : LaneId) (f : Lane → Lane) : (s.modLane l f).outBuf = s.outBuf := rfl
@[simp] theorem State.modLane_written (l : LaneId) (f : Lane → Lane) : (s.modLane l f).written = s.written := rfl
@[simp] theorem State.modLane_hostOps (l : LaneId) (f : Lane → Lane) : (s.modLane l f).hostOps = s.hostOps := rfl
@[simp] theorem State.modLane_hostData (l : LaneId) (f : Lane → Lane) : (s.modLane l f).hostData = s.hostData := rfl
@[simp] theorem State.modLane_draws (l : LaneId) (f : Lane → Lane) : (s.modLane l f).draws = s.draws := rfl

/-- Two states with the same lane registers, register by register, have the same register file. -/
theorem State.lanes_ext {s t : State} (h : ∀ l : LaneId, t.lane l = s.lane l) : t.lanes = s.lanes := by
  apply Vector.ext
  intro i hi
  exact h ⟨i, hi⟩

end Sys2Proof.Machine
end

