-- ==== Sys2Proof/Laws/Frame.lean ====
section
/-! SUPPORT. One induction for every claim of the form "whatever a command does, ...": a relation between states that is
reflexive, transitive and kept by the elementary updates (`Closed`) relates the state before any shared operation to the
state after it. Frames, the growth of the output and of the warning log, and most invariants are such relations. -/

namespace Sys2Proof.Machine

/-! ### Visiting lanes, repeating -/

@[simp] theorem forLanes_nil (f : LaneId → State → State) (s : State) : forLanes [] f s = s := rfl

@[simp] theorem forLanes_cons (l : LaneId) (ls : List LaneId) (f : LaneId → State → State) (s : State) :
    forLanes (l :: ls) f s = forLanes ls f (f l s) := rfl

theorem forLanes_append (ls ks : List LaneId) (f : LaneId → State → State) (s : State) :
    forLanes (ls ++ ks) f s = forLanes ks f (forLanes ls f s) := by simp [forLanes]

/-- A property every visit keeps, the whole visit keeps. -/
theorem forLanes_keeps {P : State → Prop} {f : LaneId → State → State} (ls : List LaneId)
    (h : ∀ l ∈ ls, ∀ s, P s → P (f l s)) {s : State} (hs : P s) : P (forLanes ls f s) := by
  induction ls generalizing s with
  | nil => exact hs
  | cons l ls ih => exact ih (fun k hk => h k (by simp [hk])) (h l (by simp) s hs)

@[simp] theorem times_zero (f : State → State) (s : State) : times 0 f s = s := rfl

@[simp] theorem times_succ (n : Nat) (f : State → State) (s : State) : times (n + 1) f s = times n f (f s) := rfl

/-- The last of `n + 1` repetitions comes after the first `n`. -/
theorem times_succ_last (n : Nat) (f : State → State) (s : State) : times (n + 1) f s = f (times n f s) := by
  induction n generalizing s with
  | zero => rfl
  | succ n ih => rw [times_succ, ih, times_succ]

/-- A property each repetition keeps, all of them keep. -/
theorem times_keeps {P : State → Prop} {f : State → State} (n : Nat) (h : ∀ s, P s → P (f s)) {s : State} (hs : P s) :
    P (times n f s) := by
  induction n generalizing s with
  | zero => exact hs
  | succ n ih => exact ih (h s hs)

theorem mem_laneRange {lo cnt : Nat} {l : LaneId} : l ∈ laneRange lo cnt ↔ lo ≤ l.val ∧ l.val < lo + cnt := by
  simp [laneRange, allLanes]

theorem mem_allLanes (l : LaneId) : l ∈ allLanes := by simp [allLanes]

theorem allLanes_nodup : allLanes.Nodup := List.nodup_finRange 32

theorem laneRange_nodup (lo cnt : Nat) : (laneRange lo cnt).Nodup := allLanes_nodup.filter _

/-! ### Closed relations -/

/-- A relation between states that every elementary update of a command respects. `RES` and the resets are left out: they
are written by commands as a whole, not by the shared operations. -/
structure Closed (R : State → State → Prop) : Prop where
  refl : ∀ s, R s s
  trans : ∀ {s t u}, R s t → R t u → R s u
  warn : ∀ c s, R s (s.warn c)
  inWord : ∀ s, R s s.inWord.2
  emit : ∀ b s, R s (s.emit b)
  refill : ∀ l n s, n ≤ 32 → R s (s.refill l n)
  window : ∀ l n s, n ≤ 32 → R s (s.modLane l fun x => x.window n)
  drop : ∀ l n s, R s (s.drop l n)
  setDacc : ∀ l v s, R s (s.modLane l fun x => { x with dacc := v })
  emptyLane : ∀ l s, R s (s.modLane l fun x => { x with buf := 0, avail := 0, dacc := 0 })
  clearCache : ∀ s, R s { s with rcn := 0, rcb := Vector.replicate 4 0 }
  fillCache : ∀ w s, R s (s.fillCache w)
  takeCached : ∀ s, R s s.takeCached.2
  setSym : ∀ l v s, R s (s.setSym l v)
  setFse : ∀ l t b n s, R s (s.setFse l t b n)
  setFseCell : ∀ i c s, R s (s.setFseCell i c)
  setBuilt : ∀ t a s, R s (s.setBuilt t a)
  clearWeights : ∀ s, R s s.clearWeights
  setHufWeight : ∀ k w s, R s (s.setHufWeight k w)
  setHufn : ∀ n s, R s (s.setHufn n)
  setHufEntry : ∀ i e s, R s (s.setHufEntry i e)
  setHufBuilt : ∀ n s, R s (s.setHufBuilt n)
  openLits : ∀ m n s, R s { s with litMode := m, maxLit := n, litEmitted := 0, litTotal := 0 }
  setRle : ∀ b s, R s (s.setRle b)
  countLit : ∀ s, R s { s with litEmitted := s.litEmitted + 1 }
  setRep : ∀ a b c s, R s (s.setRep a b c)
  setLitTotal : ∀ n s, R s (s.setLitTotal n)
  setNumSeq : ∀ n s, R s (s.setNumSeq n)
  setRunState : ∀ r s, R s (s.setRunState r)

variable {R : State → State → Prop} (h : Closed R)
include h

theorem Closed.ite {p : Prop} [Decidable p] {s t u : State} (ht : R s t) (hu : R s u) : R s (if p then t else u) := by
  have _ := h.refl s
  split <;> assumption

theorem Closed.forLanes {f : LaneId → State → State} (hf : ∀ l s, R s (f l s)) (ls : List LaneId) (s : State) :
    R s (forLanes ls f s) :=
  forLanes_keeps ls (P := R s) (fun l _ t ht => h.trans ht (hf l t)) (h.refl s)

theorem Closed.times {f : State → State} (hf : ∀ s, R s (f s)) (n : Nat) (s : State) : R s (times n f s) :=
  times_keeps n (P := R s) (fun t ht => h.trans ht (hf t)) (h.refl s)

/-! The bitstream reader. -/

theorem Closed.peekLane (l : LaneId) (w : Nat) (s : State) : R s (s.peekLane l w) := by
  unfold State.peekLane
  refine h.trans ?_ (h.window l _ _ (Nat.min_le_right _ _))
  exact h.trans (h.ite (h.warn _ s) (h.refl s)) (h.refill l _ _ (Nat.min_le_right _ _))

theorem Closed.peekV (ls : List LaneId) (w : LaneId → Nat) (s : State) : R s (s.peekV ls w) :=
  h.forLanes (fun l s => h.peekLane l (w l) s) ls s

theorem Closed.discardV (ls : List LaneId) (w : LaneId → Nat) (s : State) : R s (s.discardV ls w) :=
  h.forLanes (fun l s => h.drop l (w l) s) ls s

theorem Closed.dropAcc (l : LaneId) (s : State) : R s (s.dropAcc l) := h.trans (h.drop l _ s) (h.setDacc l 0 _)

theorem Closed.discardAcc (ls : List LaneId) (s : State) : R s (s.discardAcc ls) := h.forLanes h.dropAcc ls s

theorem Closed.readByte (s : State) : R s s.readByte.2 := by
  unfold State.readByte
  split
  · exact h.trans (h.inWord s) (h.trans (h.fillCache s.inWord.1 _) (h.takeCached _))
  · exact h.takeCached s

theorem Closed.sync (s : State) : R s s.sync := h.trans (h.clearCache s) (h.forLanes h.emptyLane _ _)

/-! The FSE engine. -/

theorem Closed.writeSlots (t : Tbl) (A j : Nat) (cs : List FseCell) (s : State) : R s (writeSlots t A j cs s) := by
  induction cs generalizing j s with
  | nil => exact h.refl s
  | cons c cs ih => exact h.trans (h.setFseCell _ c s) (ih _ _)

theorem Closed.buildTable (t : Tbl) (A : Nat) (p : List Nat) (s : State) : R s (s.buildTable t A p) :=
  h.trans (h.writeSlots t A 0 _ s) (h.setBuilt t A _)

theorem Closed.takeCode (t : Tbl) (A : Nat) (d : DistProgress) (l : LaneId) : R d.mach (takeCode t A d l).mach := by
  unfold Machine.takeCode
  split
  · simp only
    split <;> exact h.trans (h.ite (h.warn _ _) (h.refl _)) (h.drop _ _ _)
  · exact h.refl _

theorem Closed.takeCodes (t : Tbl) (A : Nat) (ls : List LaneId) (d : DistProgress) :
    R d.mach (ls.foldl (Machine.takeCode t A) d).mach := by
  induction ls generalizing d with
  | nil => exact h.refl _
  | cons l ls ih => exact h.trans (h.takeCode t A d l) (ih _)

theorem Closed.distRound (t : Tbl) (A : Nat) (d : DistProgress) : R d.mach (distRound t A d).mach :=
  h.trans (h.peekV allLanes (fun _ => maxAcc t + 1 + zprb) d.mach)
    (h.takeCodes t A allLanes { d with mach := d.mach.peek allLanes (maxAcc t + 1 + zprb) })

theorem Closed.distLoop (t : Tbl) (A fuel : Nat) (d : DistProgress) : R d.mach (distLoop t A fuel d).mach := by
  induction fuel generalizing d with
  | zero => exact h.refl _
  | succ n ih =>
    unfold Machine.distLoop
    split
    · exact h.trans (h.distRound t A d) (ih _)
    · exact h.refl _

theorem Closed.readDistribution (t : Tbl) (A : Nat) (s : State) : R s (s.readDistribution t A).2 := by
  refine h.trans (h.distLoop t A (maxSym t + 1) (distStart t s)) ?_
  unfold State.readDistribution distComplete
  split
  · exact h.warn _ _
  · exact h.refl _

theorem Closed.clampAcc (t : Tbl) (a : Nat) (s : State) : R s (s.clampAcc t a).2 := by
  unfold State.clampAcc
  split
  · exact h.warn _ _
  · split
    · exact h.warn _ _
    · exact h.refl _

theorem Closed.fseBuild (t : Tbl) (a : Nat) (s : State) : R s (s.fseBuild t a).2 :=
  h.trans (h.trans (h.clampAcc t a s) (h.readDistribution t _ _)) (h.buildTable t _ _ _)

theorem Closed.fsePredef (t : Tbl) (s : State) : R s (s.fsePredef t).2 := by
  unfold State.fsePredef
  split
  · exact h.buildTable _ _ _ _
  · exact h.refl _

theorem Closed.fseInit (t : Tbl) (ls : List LaneId) (s : State) : R s (s.fseInit t ls) :=
  h.trans (h.ite (h.refl s) (h.warn _ s)) (h.forLanes (fun l s => h.setFse l t _ _ s) ls _)

theorem Closed.decodeUnbuilt (ls : List LaneId) (s : State) : R s (s.decodeUnbuilt ls) :=
  h.trans (h.warn _ s) (h.forLanes (fun l s => h.setSym l 0 s) ls _)

theorem Closed.takeCell (l : LaneId) (t : Tbl) (c : FseCell) (s : State) : R s (s.takeCell l t c) :=
  h.trans (h.setSym l _ s) (h.setFse l t _ _ _)

theorem Closed.fseDecLane (t : Tbl) (l : LaneId) (s : State) : R s (s.fseDecLane t l) :=
  h.trans (h.drop l _ s) (h.takeCell l t _ _)

theorem Closed.fseDec (t : Tbl) (ls : List LaneId) (s : State) : R s (s.fseDec t ls) :=
  h.ite (h.trans (h.peekV ls _ s) (h.forLanes (h.fseDecLane t) ls _)) (h.decodeUnbuilt ls s)

theorem Closed.fseDecNPLane (t : Tbl) (l : LaneId) (s : State) : R s (s.fseDecNPLane t l) := by
  unfold State.fseDecNPLane
  refine h.trans ?_ (h.takeCell l t _ _)
  exact h.trans (h.ite (h.warn _ s) (h.refl s)) (h.setDacc l _ _)

theorem Closed.fseDecNP (t : Tbl) (ls : List LaneId) (s : State) : R s (s.fseDecNP t ls) :=
  h.ite (h.forLanes (h.fseDecNPLane t) ls s) (h.decodeUnbuilt ls s)

/-! The Huffman engine. -/

theorem Closed.storeWeight (N k w : Nat) (s : State) : R s (s.storeWeight N k w) :=
  h.ite (h.ite (h.trans (h.warn _ s) (h.setHufWeight _ _ _)) (h.setHufWeight _ _ _)) (h.refl s)

theorem Closed.readWeightBytes (N left i : Nat) (s : State) : R s (readWeightBytes N left i s) := by
  induction left generalizing i s with
  | zero => exact h.refl s
  | succ n ih =>
    exact h.trans (h.trans (h.trans (h.readByte s) (h.storeWeight _ _ _ _)) (h.storeWeight _ _ _ _)) (ih _ _)

theorem Closed.hufWeightsExplicit (s : State) : R s s.hufWeightsExplicit.2 :=
  h.trans (h.trans (h.trans (h.readByte s) (h.clearWeights _)) (h.readWeightBytes _ _ _ _)) (h.setHufn _ _)

theorem Closed.storeSymbols (k : Nat) (ls : List LaneId) (s : State) : R s (storeSymbols k ls s) :=
  h.forLanes (fun _ s => h.setHufWeight _ _ s) ls s

theorem Closed.fseWeightBatches (Nw fuel k : Nat) (s : State) : R s (fseWeightBatches Nw fuel k s) := by
  induction fuel generalizing k s with
  | zero => exact h.refl s
  | succ n ih =>
    unfold Machine.fseWeightBatches
    split
    · exact h.trans (h.trans (h.fseDec _ _ s) (h.storeSymbols _ _ _)) (ih _ _)
    · exact h.refl s

theorem Closed.hufWeightsFse (aux : Nat) (s : State) : R s (s.hufWeightsFse aux).2 := by
  unfold State.hufWeightsFse
  refine h.trans ?_ (h.setHufn _ _)
  refine h.trans ?_ (h.fseWeightBatches _ _ _ _)
  refine h.trans ?_ (h.clearWeights _)
  refine h.trans ?_ (h.fseInit _ _ _)
  refine h.trans ?_ (h.buildTable _ _ _ _)
  exact h.trans (h.readByte s) (h.readDistribution _ _ _)

theorem Closed.fillRange (wb : Nat) (e : HufEntry) (n v : Nat) (s : State) : R s (fillRange wb e n v s) := by
  induction n generalizing v s with
  | zero => exact h.refl s
  | succ n ih => exact h.trans (h.setHufEntry _ e s) (ih _ _)

theorem Closed.gapFill (e : HufEntry) (n i : Nat) (s : State) : R s (gapFill e n i s) := by
  induction n generalizing i s with
  | zero => exact h.refl s
  | succ n ih => exact h.trans (h.setHufEntry _ e s) (ih _ _)

theorem Closed.placeSymbols (wb : Nat) (ws : List Nat) (sym : Nat) (next : List Nat) (s : State) :
    R s (placeSymbols wb ws sym next s) := by
  induction ws generalizing sym next s with
  | nil => exact h.refl s
  | cons w ws ih =>
    unfold Machine.placeSymbols
    split
    · exact ih _ _ _
    · exact h.trans (h.fillRange wb _ _ _ s) (ih _ _ _)

theorem Closed.hufExpand (s : State) : R s s.hufExpand.2 := by
  unfold State.hufExpand
  simp only
  split
  · refine h.trans ?_ (h.setHufBuilt _ _)
    exact h.trans (h.warn _ s) (h.gapFill _ 2048 0 _)
  · unfold State.expandWeights
    refine h.trans ?_ (h.setHufBuilt _ _)
    refine h.trans ?_ (h.placeSymbols _ _ _ _ _)
    refine h.trans ?_ (h.gapFill _ _ _ _)
    exact h.ite (h.refl s) (h.warn _ s)

theorem Closed.hufDecLane (l : LaneId) (s : State) : R s (s.hufDecLane l) := h.trans (h.setSym l _ s) (h.drop l _ _)

theorem Closed.hufDec (ls : List LaneId) (s : State) : R s (s.hufDec ls) :=
  h.ite (h.trans (h.peekV ls _ s) (h.forLanes h.hufDecLane ls _)) (h.decodeUnbuilt ls s)

/-! The sequence and literal engine. -/

theorem Closed.readPackedSize (s : State) : R s s.readPackedSize.2 := by
  unfold State.readPackedSize
  simp only
  split
  · exact h.readByte s
  · split
    · exact h.trans (h.readByte s) (h.readByte _)
    · exact h.trans (h.trans (h.readByte s) (h.readByte _)) (h.readByte _)

theorem Closed.litCfg (mode : BitVec 2) (n : Word) (s : State) : R s (s.litCfg mode n) :=
  h.trans (h.ite (p := mode = 3) (h.warn .litModeReserved s) (h.refl s)) (h.openLits mode n _)

theorem Closed.emitLit (b : Byte) (s : State) : R s (s.emitLit b) := h.trans (h.emit b s) (h.countLit _)

theorem Closed.emitRawLit (s : State) : R s s.emitRawLit := h.trans (h.readByte s) (h.emitLit _ _)

theorem Closed.emitLaneLits (ls : List LaneId) (s : State) : R s (s.emitLaneLits ls) :=
  h.forLanes (fun _ s => h.emitLit _ s) ls s

theorem Closed.hufLits (target fuel : Nat) (s : State) : R s (hufLits target fuel s) := by
  induction fuel generalizing s with
  | zero => exact h.refl s
  | succ n ih =>
    unfold Machine.hufLits
    simp only
    split
    · exact h.trans (h.trans (h.hufDec _ s) (h.emitLaneLits _ _)) (ih _)
    · exact h.refl s

theorem Closed.emitLits (target : Nat) (s : State) : R s (s.emitLits target) :=
  h.ite (h.ite (h.trans (h.warn _ s) (h.times (h.emitLit 0) _ _)) (h.hufLits _ _ s))
    (h.ite (h.times (fun s => h.emitLit s.rleByte s) _ s) (h.times h.emitRawLit _ s))

theorem Closed.litTarget (target : Nat) (s : State) : R s (s.litTarget target) :=
  h.ite (h.trans (h.warn _ s) (h.emitLits _ _)) (h.emitLits _ s)

theorem Closed.copyByte (off : Nat) (s : State) : R s (s.copyByte off) := h.emit _ s

theorem Closed.matchCopy (off len : Nat) (s : State) : R s (s.matchCopy off len) :=
  h.ite (h.trans (h.warn _ s) (h.times (h.emit 0) _ _))
    (h.trans (h.ite (h.warn _ s) (h.refl s)) (h.times (h.copyByte off) _ _))

theorem Closed.resolveOffset (ov llv : Nat) (s : State) : R s (s.resolveOffset ov llv).2 := by
  unfold State.resolveOffset
  split
  · exact h.setRep _ _ _ s
  · split
    · exact h.refl s
    · exact h.setRep _ _ _ s
    · exact h.setRep _ _ _ s
    · exact h.setRep _ _ _ s

theorem Closed.clampTotal (llv : Nat) (s : State) : R s (s.clampTotal llv).2 := by
  unfold State.clampTotal
  simp only
  split
  · exact h.warn _ s
  · exact h.refl s

theorem Closed.execSeq (q : SeqVals) (s : State) : R s (s.execSeq q) := by
  unfold State.execSeq
  refine h.trans ?_ (h.matchCopy _ _ _)
  refine h.trans ?_ (h.litTarget _ _)
  refine h.trans ?_ (h.setLitTotal _ _)
  exact h.trans (h.resolveOffset q.ov q.llv s) (h.clampTotal q.llv _)

theorem Closed.readBatch (G : List LaneId) (s : State) : R s (s.readBatch G).2 := by
  unfold State.readBatch
  refine h.trans ?_ (h.discardV G _ _)
  refine h.trans ?_ (h.peekV G _ _)
  refine h.trans ?_ (h.discardV G _ _)
  refine h.trans ?_ (h.peekV G _ _)
  refine h.trans ?_ (h.discardAcc G _)
  refine h.trans ?_ (h.fseDecNP .off G _)
  refine h.trans ?_ (h.fseDecNP .ml G _)
  exact h.trans (h.peekV G _ s) (h.fseDecNP .ll G _)

theorem Closed.seqBatch (G : List LaneId) (s : State) : R s (s.seqBatch G) :=
  h.trans (h.readBatch G s) (h.forLanes (fun l s => h.execSeq ((State.readBatch G _).1 l) s) G _)

theorem Closed.seqBatches (fuel left : Nat) (s : State) : R s (seqBatches fuel left s) := by
  induction fuel generalizing left s with
  | zero => exact h.refl s
  | succ n ih =>
    unfold Machine.seqBatches
    split
    · exact h.trans (h.seqBatch _ s) (ih _ _)
    · exact h.refl s

theorem Closed.seqExec (s : State) : R s s.seqExec := by
  unfold State.seqExec
  have h1 := h.trans (h.readPackedSize s) (h.setNumSeq s.readPackedSize.1 _)
  simp only
  split
  · refine h.trans ?_ (h.litTarget _ _)
    refine h.trans ?_ (h.seqBatches _ _ _)
    refine h.trans ?_ (h.fseInit _ _ _)
    refine h.trans ?_ (h.fseInit _ _ _)
    exact h.trans h1 (h.fseInit _ _ _)
  · exact h.trans (h.trans h1 (h.warn _ _)) (h.litTarget _ _)

/-! The block driver. -/

theorem Closed.checkReserved (r : Nat) (s : State) : R s (s.checkReserved r) := h.ite (h.refl s) (h.warn _ s)

theorem Closed.litSection (aux : Nat) (s : State) : R s (s.litSection aux) := by
  unfold State.litSection
  simp only
  have h1 := h.trans (h.trans (h.trans (h.readByte s) (h.checkReserved (descReserved s.readByte.1) _))
    (h.readPackedSize _)) (h.litCfg (descLitMode s.readByte.1) (BitVec.ofNat 32
      (s.readByte.2.checkReserved (descReserved s.readByte.1)).readPackedSize.1) _)
  split
  · exact h.trans h1 (h.trans (h.readByte _) (h.setRle _ _))
  · split
    · exact h.trans h1 (h.trans (h.ite (h.hufWeightsFse _ _) (h.hufWeightsExplicit _)) (h.hufExpand _))
    · exact h1

theorem Closed.seqTable (d : Byte) (t : Tbl) (s : State) : R s (s.seqTable d t) :=
  h.ite (h.fsePredef t s) (h.trans (h.trans (h.readByte s) (h.checkReserved _ _)) (h.fseBuild t _ _))

theorem Closed.seqTables (s : State) : R s s.seqTables :=
  h.trans (h.trans (h.trans (h.trans (h.readByte s) (h.checkReserved _ _)) (h.seqTable _ _ _)) (h.seqTable _ _ _))
    (h.seqTable _ _ _)

theorem Closed.cBlock (cw : Word) (s : State) : R s (s.cBlock cw).2 := by
  have h1 := h.trans (h.trans (h.litSection (cwAux cw) s) (h.seqTables _)) (h.seqExec _)
  exact h.ite h1 (h.trans h1 (h.warn _ _))

theorem Closed.rleBlock (cw : Word) (s : State) : R s (s.rleBlock cw).2 :=
  h.trans (h.readByte s) (h.times (h.emit _) _ _)

theorem Closed.emitRaw (s : State) : R s s.emitRaw := h.trans (h.readByte s) (h.emit _ _)

theorem Closed.rawBlock (cw : Word) (s : State) : R s (s.rawBlock cw).2 := h.times h.emitRaw _ s

theorem Closed.blockBody (cw : Word) (s : State) : R s (s.blockBody cw) := by
  unfold State.blockBody
  split
  · exact h.trans (h.setRunState _ s) (h.cBlock cw _)
  · exact h.trans (h.setRunState _ s) (h.rleBlock cw _)
  · exact h.trans (h.setRunState _ s) (h.rawBlock cw _)
  · exact h.warn _ s

theorem Closed.block (s : State) : R s s.block.2 :=
  h.trans (h.trans (h.trans (h.sync s) (h.inWord _)) (h.blockBody _ _)) (h.setRunState _ _)

theorem Closed.runBlocks (fuel : Nat) (s : State) : R s (runBlocks fuel s) := by
  induction fuel generalizing s with
  | zero => exact h.refl s
  | succ n ih =>
    unfold Machine.runBlocks
    split
    · exact h.refl s
    · exact h.trans (h.block s) (ih _)

omit h

/-! ### The host's side -/

theorem HostKept.refl (s : State) : HostKept s s := ⟨rfl, rfl, rfl, rfl, rfl, rfl, rfl, rfl, rfl⟩

theorem HostKept.trans {s t u : State} (h : HostKept s t) (k : HostKept t u) : HostKept s u :=
  ⟨k.arg0.trans h.arg0, k.arg1.trans h.arg1, k.nv.trans h.nv, k.inSize.trans h.inSize, k.outCap.trans h.outCap,
    k.sanitize.trans h.sanitize, k.inBuf.trans h.inBuf, k.hostOps.trans h.hostOps, k.hostData.trans h.hostData⟩

theorem State.setLane_kept (l : LaneId) (x : Lane) (s : State) : HostKept s (s.setLane l x) :=
  ⟨rfl, rfl, rfl, rfl, rfl, rfl, rfl, rfl, rfl⟩

theorem State.doReset_kept (s : State) : HostKept s s.doReset := ⟨rfl, rfl, rfl, rfl, rfl, rfl, rfl, rfl, rfl⟩

theorem State.unsanitized_kept (w : Writes) (s : State) : HostKept s (s.unsanitized w) :=
  ⟨rfl, rfl, rfl, rfl, rfl, rfl, rfl, rfl, rfl⟩

/-- No shared operation of a command touches what `HostKept` lists. -/
theorem hostKept_closed : Closed HostKept where
  refl := HostKept.refl
  trans := HostKept.trans
  warn _ _ := ⟨rfl, rfl, rfl, rfl, rfl, rfl, rfl, rfl, rfl⟩
  inWord _ := ⟨rfl, rfl, rfl, rfl, rfl, rfl, rfl, rfl, rfl⟩
  emit _ _ := ⟨rfl, rfl, rfl, rfl, rfl, rfl, rfl, rfl, rfl⟩
  refill l n s _ := by
    unfold State.refill
    split
    · exact ⟨rfl, rfl, rfl, rfl, rfl, rfl, rfl, rfl, rfl⟩
    · exact HostKept.refl s
  window l _ s _ := State.setLane_kept l _ s
  drop l n s := by
    unfold State.drop
    split
    · exact ⟨rfl, rfl, rfl, rfl, rfl, rfl, rfl, rfl, rfl⟩
    · exact State.setLane_kept l _ s
  setDacc l _ s := State.setLane_kept l _ s
  emptyLane l s := State.setLane_kept l _ s
  clearCache _ := ⟨rfl, rfl, rfl, rfl, rfl, rfl, rfl, rfl, rfl⟩
  fillCache _ _ := ⟨rfl, rfl, rfl, rfl, rfl, rfl, rfl, rfl, rfl⟩
  takeCached _ := ⟨rfl, rfl, rfl, rfl, rfl, rfl, rfl, rfl, rfl⟩
  setSym l _ s := State.setLane_kept l _ s
  setFse l _ _ _ s := State.setLane_kept l _ s
  setFseCell _ _ _ := ⟨rfl, rfl, rfl, rfl, rfl, rfl, rfl, rfl, rfl⟩
  setBuilt _ _ _ := ⟨rfl, rfl, rfl, rfl, rfl, rfl, rfl, rfl, rfl⟩
  clearWeights _ := ⟨rfl, rfl, rfl, rfl, rfl, rfl, rfl, rfl, rfl⟩
  setHufWeight _ _ _ := ⟨rfl, rfl, rfl, rfl, rfl, rfl, rfl, rfl, rfl⟩
  setHufn _ _ := ⟨rfl, rfl, rfl, rfl, rfl, rfl, rfl, rfl, rfl⟩
  setHufEntry _ _ _ := ⟨rfl, rfl, rfl, rfl, rfl, rfl, rfl, rfl, rfl⟩
  setHufBuilt _ _ := ⟨rfl, rfl, rfl, rfl, rfl, rfl, rfl, rfl, rfl⟩
  openLits _ _ _ := ⟨rfl, rfl, rfl, rfl, rfl, rfl, rfl, rfl, rfl⟩
  setRle _ _ := ⟨rfl, rfl, rfl, rfl, rfl, rfl, rfl, rfl, rfl⟩
  countLit _ := ⟨rfl, rfl, rfl, rfl, rfl, rfl, rfl, rfl, rfl⟩
  setRep _ _ _ _ := ⟨rfl, rfl, rfl, rfl, rfl, rfl, rfl, rfl, rfl⟩
  setLitTotal _ _ := ⟨rfl, rfl, rfl, rfl, rfl, rfl, rfl, rfl, rfl⟩
  setNumSeq _ _ := ⟨rfl, rfl, rfl, rfl, rfl, rfl, rfl, rfl, rfl⟩
  setRunState _ _ := ⟨rfl, rfl, rfl, rfl, rfl, rfl, rfl, rfl, rfl⟩

end Sys2Proof.Machine
end

