-- ==== Sys2Proof/Laws/Memory.lean ====
section
/-! SUPPORT. The laws of a buffer: read after write, and the canonical form that every operation keeps. -/

namespace Sys2Proof.Machine

theorem wfCells_cons (c : Host.Cell) (cs : List Host.Cell) :
    wfCells (c :: cs) = true ↔ c.2 ≠ Memory.unlisted ∧ (∀ d ∈ cs, c.1 < d.1) ∧ wfCells cs = true := by
  simp [wfCells, and_assoc]

/-- An index below every listed one reads as unlisted. -/
theorem readCells_below {cs : List Host.Cell} {a : Nat} (h : ∀ d ∈ cs, a < d.1) :
    readCells cs a = Memory.unlisted := by
  induction cs with
  | nil => rfl
  | cons c cs ih =>
    have hc := h c (by simp)
    simp [readCells, (Nat.ne_of_lt hc).symm, ih fun d hd => h d (by simp [hd])]

/-- The cells of a write hold indices already listed, or the index written. -/
theorem mem_writeCells {cs : List Host.Cell} {a : Nat} {b : Byte} {d : Host.Cell} (h : d ∈ writeCells cs a b) :
    d.1 = a ∨ d ∈ cs := by
  induction cs with
  | nil =>
    unfold writeCells at h
    split at h <;> simp_all
  | cons c cs ih =>
    unfold writeCells at h
    split at h
    · split at h
      · exact .inr h
      · rcases List.mem_cons.mp h with rfl | h
        · exact .inl rfl
        · exact .inr h
    · split at h
      · split at h
        · exact .inr (by simp [h])
        · rcases List.mem_cons.mp h with rfl | h
          · exact .inl rfl
          · exact .inr (by simp [h])
      · rcases List.mem_cons.mp h with rfl | h
        · exact .inr (by simp)
        · rcases ih h with h | h
          · exact .inl h
          · exact .inr (by simp [h])

/-- A write keeps the canonical form. -/
theorem writeCells_wf {cs : List Host.Cell} (a : Nat) (b : Byte) (h : wfCells cs = true) :
    wfCells (writeCells cs a b) = true := by
  induction cs with
  | nil =>
    unfold writeCells
    split
    · rfl
    · rename_i hb
      simp [wfCells, hb]
  | cons c cs ih =>
    obtain ⟨hc, hlt, hcs⟩ := (wfCells_cons c cs).mp h
    unfold writeCells
    split
    · rename_i hac
      split
      · exact h
      · rename_i hb
        refine (wfCells_cons _ _).mpr ⟨hb, ?_, h⟩
        intro d hd
        rcases List.mem_cons.mp hd with rfl | hd
        · exact hac
        · exact Nat.lt_trans hac (hlt d hd)
    · split
      · rename_i hac
        split
        · exact hcs
        · rename_i hb
          exact (wfCells_cons _ _).mpr ⟨hb, fun d hd => hac ▸ hlt d hd, hcs⟩
      · rename_i h1 h2
        refine (wfCells_cons _ _).mpr ⟨hc, fun d hd => ?_, ih hcs⟩
        rcases mem_writeCells hd with rfl | hd
        · omega
        · exact hlt d hd

/-- Read after write: the index written gives the byte, every other index is untouched. -/
theorem readCells_writeCells {cs : List Host.Cell} (a k : Nat) (b : Byte) (h : wfCells cs = true) :
    readCells (writeCells cs a b) k = if k = a then b else readCells cs k := by
  induction cs with
  | nil =>
    unfold writeCells
    split
    · rename_i hb
      subst hb
      simp [readCells]
    · simp [readCells, eq_comm]
  | cons c cs ih =>
    obtain ⟨hc, hlt, hcs⟩ := (wfCells_cons c cs).mp h
    unfold writeCells
    split
    · rename_i hac
      have hbelow : readCells (c :: cs) a = Memory.unlisted := by
        refine readCells_below fun d hd => ?_
        rcases List.mem_cons.mp hd with rfl | hd
        · exact hac
        · exact Nat.lt_trans hac (hlt d hd)
      split
      · rename_i hb
        by_cases hk : k = a <;> simp [hk, hbelow, hb]
      · simp only [readCells, eq_comm]
    · split
      · rename_i hac
        subst hac
        have hbelow : readCells cs c.1 = Memory.unlisted := readCells_below hlt
        split
        · rename_i hb
          by_cases hk : k = c.1
          · simp [hk, hbelow, hb]
          · simp [readCells, hk, Ne.symm hk]
        · by_cases hk : k = c.1
          · simp [readCells, hk]
          · simp [readCells, hk, Ne.symm hk]
      · rename_i h1 h2
        by_cases hk : k = c.1
        · have : k ≠ a := by omega
          simp [readCells, hk, Ne.symm h2]
        · simp [readCells, Ne.symm hk, ih hcs]

/-- The empty buffer is canonical. -/
@[simp] theorem Memory.wf_empty : Memory.wf ⟨[]⟩ = true := rfl

/-- Every memory operation keeps the canonical form. -/
theorem Memory.write_wf {m : Memory} (a : Nat) (b : Byte) (h : m.wf = true) : (m.write a b).wf = true :=
  writeCells_wf a b h

/-- Read after write. -/
theorem Memory.read_write {m : Memory} (a k : Nat) (b : Byte) (h : m.wf = true) :
    (m.write a b).read k = if k = a then b else m.read k := readCells_writeCells a k b h

/-- The index written reads the byte. -/
theorem Memory.read_write_same {m : Memory} (a : Nat) (b : Byte) (h : m.wf = true) : (m.write a b).read a = b := by
  simp [Memory.read_write a a b h]

/-- Every other index is untouched. -/
theorem Memory.read_write_other {m : Memory} {a k : Nat} (b : Byte) (h : m.wf = true) (hk : k ≠ a) :
    (m.write a b).read k = m.read k := by
  simp [Memory.read_write a k b h, hk]

theorem cells_ext {cs ds : List Host.Cell} (hc : wfCells cs = true) (hd : wfCells ds = true)
    (h : ∀ a, readCells cs a = readCells ds a) : cs = ds := by
  induction cs generalizing ds with
  | nil =>
    cases ds with
    | nil => rfl
    | cons d ds =>
      have := h d.1
      simp only [readCells, if_pos] at this
      exact absurd this.symm ((wfCells_cons d ds).mp hd).1
  | cons c cs ih =>
    obtain ⟨hc0, hclt, hcs⟩ := (wfCells_cons c cs).mp hc
    cases ds with
    | nil =>
      have := h c.1
      simp only [readCells, if_pos] at this
      exact absurd this hc0
    | cons d ds =>
      obtain ⟨hd0, hdlt, hds⟩ := (wfCells_cons d ds).mp hd
      have h1 : c.1 = d.1 := by
        rcases Nat.lt_trichotomy c.1 d.1 with hlt | heq | hgt
        · have hb : readCells (d :: ds) c.1 = Memory.unlisted := readCells_below fun e he => by
            rcases List.mem_cons.mp he with rfl | he
            · exact hlt
            · exact Nat.lt_trans hlt (hdlt e he)
          have := h c.1
          rw [hb] at this
          simp only [readCells, if_pos] at this
          exact absurd this hc0
        · exact heq
        · have hb : readCells (c :: cs) d.1 = Memory.unlisted := readCells_below fun e he => by
            rcases List.mem_cons.mp he with rfl | he
            · exact hgt
            · exact Nat.lt_trans hgt (hclt e he)
          have := h d.1
          rw [hb] at this
          simp only [readCells, if_pos] at this
          exact absurd this.symm hd0
      have h2 : c.2 = d.2 := by
        have := h c.1
        simpa [readCells, h1] using this
      have h3 : cs = ds := by
        refine ih hcs hds fun a => ?_
        by_cases ha : a = c.1
        · rw [ha, readCells_below hclt, readCells_below (h1 ▸ hdlt)]
        · have := h a
          simpa [readCells, Ne.symm ha, h1 ▸ Ne.symm ha] using this
      rw [show c = d from Prod.ext h1 h2, h3]

/-- Equal canonical buffers are equal data. -/
theorem Memory.ext_of_read {m n : Memory} (hm : m.wf = true) (hn : n.wf = true) (h : ∀ a, m.read a = n.read a) :
    m = n := by
  have := cells_ext hm hn h
  cases m; cases n; simp_all

end Sys2Proof.Machine
end

