-- ==== Sys2Proof/Laws/Ops.lean ====
section
/-! SUPPORT. One lemma for each shared operation that says all it does, in the words the statements are made of: the end of
a command, the warnings (`Warned`), the output (`Stored`), the raw byte reader (`RawTaken`), and the lane reader. -/

namespace Sys2Proof.Machine

open Sys2Proof.Claims

/-! ### The end of a command -/

/-- In a sanitized build a command ends in the state it computed. -/
theorem finish_of_sanitize {w : Writes} {base t : State} (h : base.sanitize = true) : finish w base t = .next t := by
  simp [finish, h]

/-- A command that logged no warning ends in the state it computed, in either build. -/
theorem finish_of_warnLog {w : Writes} {base t : State} (h : t.warnLog = base.warnLog) : finish w base t = .next t := by
  simp [finish, warned, h]

/-- Every command ends in some state: the one it computed, or that of an unsanitized build. -/
theorem finish_cases (w : Writes) (base t : State) :
    finish w base t = .next t ∨ (base.sanitize = false ∧ finish w base t = .next (base.unsanitized w)) := by
  by_cases hs : base.sanitize = true
  · exact .inl (finish_of_sanitize hs)
  · by_cases hw : warned base t = true
    · exact .inr ⟨by simpa using hs, by simp [finish, hs, hw]⟩
    · exact .inl (by simp [finish, hw])

/-! ### Lanes -/

/-- Reading a lane after one lane was replaced. -/
theorem State.lane_setLane (l k : LaneId) (x : Lane) (s : State) :
    (s.setLane l x).lane k = if k = l then x else s.lane k := by
  simp only [State.lane, State.setLane, Fin.getElem_fin, Vector.getElem_set]
  by_cases h : k = l
  · simp [h]
  · rw [if_neg h, if_neg (fun e => h (Fin.ext e.symm))]

/-- Reading a lane after one lane was changed. -/
theorem State.lane_modLane (l k : LaneId) (f : Lane → Lane) (s : State) :
    (s.modLane l f).lane k = if k = l then f (s.lane l) else s.lane k := s.lane_setLane l k _

@[simp] theorem State.lane_modLane_same (l : LaneId) (f : Lane → Lane) (s : State) :
    (s.modLane l f).lane l = f (s.lane l) := by simp [State.lane_modLane]

/-- Two states whose lanes read alike hold the same lane registers. -/
theorem lanes_ext {s t : State} (h : ∀ l, s.lane l = t.lane l) : s.lanes = t.lanes := by
  ext i hi
  exact h ⟨i, hi⟩

/-- `Refill` (R204): a lane that holds fewer bits than asked for takes the next word above them. -/
theorem State.refill_eq (l : LaneId) (n : Nat) (s : State) :
    s.refill l n =
      if (s.lane l).avail.toNat < n then
        { s with
          readPos := s.readPos + 1
          lanes := s.lanes.set l ((s.lane l).load (s.inWordAt s.readPos.toNat)) }
      else s := rfl

/-- `Drop` (R210): the low bits go, or the whole buffer with a warning where it holds fewer. -/
theorem State.drop_eq (l : LaneId) (n : Nat) (s : State) :
    s.drop l n =
      if (s.lane l).avail.toNat < n then (s.warn .discardUnderflow).setLane l (dropped (s.lane l) n)
      else s.setLane l (dropped (s.lane l) n) := by
  unfold State.drop dropped
  split <;> rfl

/-- Where a lane holds enough bits, `Drop` only consumes them. -/
theorem State.drop_of_le {l : LaneId} {n : Nat} {s : State} (h : n ≤ (s.lane l).avail.toNat) :
    s.drop l n = s.modLane l fun x => x.consume n := by simp [State.drop, Nat.not_lt.mpr h]

/-- One lane of a peek of a legal width (R206): the refill, then the window. -/
theorem State.peekLane_of_le {l : LaneId} {w : Nat} (h : w ≤ 32) (s : State) :
    s.peekLane l w = (s.refill l w).modLane l fun x => x.window w := by
  simp [State.peekLane, Nat.not_lt.mpr h, Nat.min_eq_left h]

/-- A command that changes each lane of a list by itself, and nothing else, changes exactly those lanes. -/
theorem forLanes_modLane {ls : List LaneId} (hd : ls.Nodup) (f : LaneId → Lane → Lane) (s : State) :
    (∀ k, (forLanes ls (fun l => State.modLane l (f l)) s).lane k = if k ∈ ls then f k (s.lane k) else s.lane k) ∧
      forLanes ls (fun l => State.modLane l (f l)) s =
        { s with lanes := (forLanes ls (fun l => State.modLane l (f l)) s).lanes } := by
  induction ls generalizing s with
  | nil => exact ⟨fun k => by simp [forLanes], rfl⟩
  | cons l ls ih =>
    have hl := List.nodup_cons.1 hd
    obtain ⟨h1, h2⟩ := ih hl.2 (s.modLane l (f l))
    refine ⟨fun k => ?_, h2⟩
    rw [show forLanes (l :: ls) (fun l => State.modLane l (f l)) s
      = forLanes ls (fun l => State.modLane l (f l)) (s.modLane l (f l)) from rfl, h1 k, State.lane_modLane]
    by_cases hk : k = l
    · simp [hk, hl.1]
    · simp [hk]

/-! ### Warnings -/

end Sys2Proof.Machine

namespace Sys2Proof.Claims

open Sys2Proof.Machine

theorem WarnedAt.refl (s : State) : WarnedAt s s [] :=
  ⟨by simp, rfl, by have := s.warnCount.isLt; simp; omega, rfl⟩

/-- Warnings add up, whatever cursors they logged. -/
theorem WarnedAt.trans {s t u : State} {es fs : List WarnEntry} (h : WarnedAt s t es) (k : WarnedAt t u fs) :
    WarnedAt s u (es ++ fs) := by
  obtain ⟨hl, hs, hn, ha⟩ := h
  obtain ⟨kl, ks, kn, ka⟩ := k
  refine ⟨by rw [kl, hl, List.append_assoc], by rw [ks, hs, List.foldl_append], ?_, ?_⟩
  · simp only [List.length_append]; omega
  · rw [ka, ha]
    cases hd : fs.getLast? with
    | none => simp [List.getLast?_eq_none_iff.1 hd]
    | some d => simp [List.getLast?_append, hd]

/-- A state with the same warning registers has the same warnings. -/
theorem WarnedAt.congr {s t u : State} {es : List WarnEntry} (h : WarnedAt s t es) (h1 : u.warnLog = t.warnLog)
    (h2 : u.warnSticky = t.warnSticky) (h3 : u.warnCount = t.warnCount) (h4 : u.warnLast = t.warnLast) :
    WarnedAt s u es := by
  unfold WarnedAt; rw [h1, h2, h3, h4]; exact h

/-- Where the warnings start from the same warning registers. -/
theorem WarnedAt.congr_left {s r t : State} {es : List WarnEntry} (h : WarnedAt s t es) (h1 : r.warnLog = s.warnLog)
    (h2 : r.warnSticky = s.warnSticky) (h3 : r.warnCount = s.warnCount) (h4 : r.warnLast = s.warnLast) :
    WarnedAt r t es := by
  unfold WarnedAt; rw [h1, h2, h3, h4]; exact h

theorem WarnedHere.refl (s : State) : WarnedHere s s [] := WarnedAt.refl s

/-- Warnings at the cursors of `s` add up while the cursors stay. -/
theorem WarnedHere.trans {s t u : State} {cs ds : List Warn} (h : WarnedHere s t cs) (k : WarnedHere t u ds)
    (hr : t.readPos = s.readPos) (hw : t.writePos = s.writePos) : WarnedHere s u (cs ++ ds) := by
  unfold WarnedHere at *
  rw [hr, hw] at k
  rw [List.map_append]
  exact WarnedAt.trans h k

/-- Warnings at known cursors are warnings. -/
theorem WarnedAt.warned {s t : State} {es : List WarnEntry} (h : WarnedAt s t es) : Warned s t (es.map (·.code)) :=
  ⟨es, h, rfl⟩

theorem WarnedHere.warned {s t : State} {cs : List Warn} (h : WarnedHere s t cs) : Warned s t cs :=
  ⟨_, h, by simp [Function.comp_def]⟩

theorem Warned.refl (s : State) : Warned s s [] := (WarnedAt.refl s).warned

theorem Warned.trans {s t u : State} {cs ds : List Warn} (h : Warned s t cs) (k : Warned t u ds) :
    Warned s u (cs ++ ds) := by
  obtain ⟨es, he, rfl⟩ := h
  obtain ⟨fs, hf, rfl⟩ := k
  exact ⟨es ++ fs, he.trans hf, List.map_append⟩

/-! ### Output -/

/-- The record of written indices with one index added holds that index and those it held. -/
theorem inRanges_noteWritten (a p : Nat) (rs : List (Nat × Nat)) :
    inRanges a (noteWritten p rs) = (inRanges a rs || decide (a = p)) := by
  cases rs with
  | nil => rw [Bool.eq_iff_iff]; simp [noteWritten, inRanges]; omega
  | cons r rs =>
    simp only [noteWritten]
    split
    · rename_i e
      rw [Bool.eq_iff_iff]
      simp only [inRanges, List.any_cons, Bool.or_eq_true, Bool.and_eq_true, decide_eq_true_eq]
      constructor
      · rintro (h | h)
        · by_cases ha : a = p
          · exact .inr ha
          · exact .inl (.inl (by omega))
        · exact .inl (.inr h)
      · rintro ((h | h) | h)
        · exact .inl (by omega)
        · exact .inr h
        · exact .inl (by omega)
    · rw [Bool.eq_iff_iff]
      simp only [inRanges, List.any_cons, Bool.or_eq_true, Bool.and_eq_true, decide_eq_true_eq]
      constructor
      · rintro (h | h)
        · exact .inr (by omega)
        · exact .inl h
      · rintro (h | h)
        · exact .inr h
        · exact .inl (by omega)

/-- What `Emit` (R105) records: its index, where it is below `OUT_CAP`. -/
theorem State.wrote_emit (b : Byte) (s : State) (a : Nat) :
    (s.emit b).wrote a = (s.wrote a || (decide (a = s.writePos.toNat) && decide (a < s.outCap.toNat))) := by
  simp only [State.wrote, State.emit]
  split
  · rename_i h
    rw [inRanges_noteWritten]
    by_cases e : a = s.writePos.toNat
    · simp [e, h]
    · simp [e]
  · rename_i h
    by_cases e : a = s.writePos.toNat
    · simp [e, h]
    · simp [e]

/-- What was written depends on the record alone. -/
theorem State.wrote_congr {s t : State} (h : t.written = s.written) (a : Nat) : t.wrote a = s.wrote a := by
  simp [State.wrote, h]

theorem Stored.refl (s : State) : Stored s s [] := by
  refine ⟨by simp, fun _ => ⟨fun a => ?_, fun hw => ⟨hw, fun a => ?_⟩⟩⟩
  · rw [Bool.eq_iff_iff]; simp
  · rw [if_neg (by simp; omega)]

theorem Stored.trans {s t u : State} {bs cs : List Byte} (h : Stored s t bs) (k : Stored t u cs)
    (hcap : t.outCap = s.outCap) : Stored s u (bs ++ cs) := by
  obtain ⟨hp, hm⟩ := h
  obtain ⟨kp, km⟩ := k
  refine ⟨?_, fun hlt => ?_⟩
  · rw [kp, hp, List.length_append, BitVec.ofNat_add, BitVec.add_assoc]
  · rw [List.length_append] at hlt ⊢
    have hpn : t.writePos.toNat = s.writePos.toNat + bs.length := by
      rw [hp, BitVec.toNat_add, BitVec.toNat_ofNat, Nat.mod_eq_of_lt (a := bs.length) (by omega),
        Nat.mod_eq_of_lt (by omega)]
    obtain ⟨hv, hm⟩ := hm (by omega)
    obtain ⟨kv, km⟩ := km (by omega)
    refine ⟨fun a => ?_, fun hw => ?_⟩
    · rw [kv a, hv a, hcap, hpn, Bool.eq_iff_iff]
      simp only [Bool.or_eq_true, Bool.and_eq_true, decide_eq_true_eq]
      by_cases hs : s.wrote a = true
      · simp [hs]
      · simp only [hs, Bool.false_eq_true, false_or]; omega
    obtain ⟨ht, hr⟩ := hm hw
    obtain ⟨hu, kr⟩ := km ht
    refine ⟨hu, fun a => ?_⟩
    rw [kr a, hr a, hcap, hpn]
    by_cases h1 : a < s.outCap.toNat
    · by_cases h2 : s.writePos.toNat + bs.length ≤ a
      · by_cases h3 : a < s.writePos.toNat + bs.length + cs.length
        · rw [if_pos ⟨h2, h3, h1⟩, if_pos ⟨by omega, by omega, h1⟩, List.getD_append_right _ _ _ _ (by omega)]
          congr 1; omega
        · rw [if_neg (by omega), if_neg (by omega), if_neg (by omega)]
      · rw [if_neg (by omega)]
        by_cases h3 : s.writePos.toNat ≤ a
        · rw [if_pos ⟨h3, by omega, h1⟩, if_pos ⟨h3, by omega, h1⟩, List.getD_append _ _ _ _ (by omega)]
        · rw [if_neg (by omega), if_neg (by omega)]
    · rw [if_neg (by omega), if_neg (by omega), if_neg (by omega)]

/-- A state with the same output as `t` has the same bytes produced. -/
theorem Stored.congr {s t u : State} {bs : List Byte} (h : Stored s t bs) (hp : u.writePos = t.writePos)
    (ho : u.outBuf = t.outBuf) (hv : u.written = t.written) : Stored s u bs := by
  unfold Stored; simp only [State.wrote_congr hv]; rw [hp, ho]; exact h

/-- Where the bytes start from the same output. -/
theorem Stored.congr_left {s r t : State} {bs : List Byte} (h : Stored s t bs) (hp : r.writePos = s.writePos)
    (ho : r.outBuf = s.outBuf) (hv : r.written = s.written) (hc : r.outCap = s.outCap) : Stored r t bs := by
  unfold Stored; simp only [State.wrote_congr hv]; rw [hp, ho, hc]; exact h

/-! ### The raw byte reader -/

theorem RawTaken.zero (s : State) : RawTaken s s 0 := by
  refine ⟨?_, ?_, fun k => by rw [Nat.zero_add]⟩
  · rw [show (0 - s.rcn.val + 3) / 4 = 0 by omega]; simp
  · simp

/-- The raw stream depends on the reader's own state and the input alone. -/
theorem rawByteAt_congr {s t : State} (h1 : t.rcn = s.rcn) (h2 : t.rcb = s.rcb) (h3 : t.readPos = s.readPos)
    (h4 : t.inBuf = s.inBuf) (h5 : t.inSize = s.inSize) (k : Nat) : rawByteAt t k = rawByteAt s k := by
  have hw : ∀ i, t.inWordAt i = s.inWordAt i := fun i => by simp [State.inWordAt, State.inByte, h4, h5]
  simp only [rawByteAt, h1, h2, h3, hw]

/-- The two halves of what the raw byte reader took: `n` bytes, then `m`. -/
theorem RawTaken.trans {s t u : State} {n m : Nat} (h : RawTaken s t n) (k : RawTaken t u m) : RawTaken s u (n + m) := by
  obtain ⟨hp, hc, hr⟩ := h
  obtain ⟨kp, kc, kr⟩ := k
  have h1 := s.rcn.isLt
  have h2 := t.rcn.isLt
  refine ⟨?_, ?_, fun j => by rw [kr, hr, Nat.add_assoc]⟩
  · rw [kp, hp, BitVec.add_assoc, ← BitVec.ofNat_add]
    congr 2
    split at hc <;> omega
  · rw [kc]
    split at hc <;> split <;> split <;> omega

/-- A state with the same raw reader and input has taken the same bytes. -/
theorem RawTaken.congr {s t u : State} {n : Nat} (h : RawTaken s t n) (h1 : u.rcn = t.rcn) (h2 : u.rcb = t.rcb)
    (h3 : u.readPos = t.readPos) (h4 : u.inBuf = t.inBuf) (h5 : u.inSize = t.inSize) : RawTaken s u n := by
  obtain ⟨hp, hc, hr⟩ := h
  exact ⟨by rw [h3, hp], by rw [h1, hc], fun k => by rw [rawByteAt_congr h1 h2 h3 h4 h5, hr]⟩

end Sys2Proof.Claims

namespace Sys2Proof.Machine

open Sys2Proof.Claims

/-- `raise Warn(c)` records exactly `c`, at the cursors of its state (R452). -/
theorem State.warn_warnedHere (c : Warn) (s : State) : WarnedHere s (s.warn c) [c] := by
  refine ⟨rfl, ?_, ?_, rfl⟩
  · have hc : BitVec.ofNat 32 (2 ^ c.code) = 1#32 <<< c.code := by cases c <;> rfl
    simp [State.warn, hc]
  · have := s.warnCount.isLt
    simp only [State.warn, List.map_cons, List.map_nil, List.length_singleton]
    split
    · rw [BitVec.toNat_add]; simp; omega
    · omega

/-- A warning leaves the reserved bits of `WARN_STICKY` 0 (R49). -/
theorem State.warn_stickyOk {c : Warn} {s : State} (h : s.stickyOk) : (s.warn c).stickyOk := by
  simp only [State.stickyOk, State.warn, BitVec.and_or_distrib_right] at *
  rw [h]; cases c <;> rfl

/-- What an unsanitized build may leave in `WARN_STICKY` has its reserved bits 0 (R49, 93 I13). -/
theorem State.unsanitized_stickyOk (w : Writes) (s : State) : (s.unsanitized w).stickyOk := by
  simp only [State.stickyOk, State.unsanitized, stickyMask, BitVec.and_assoc]
  rw [show (0x000FFFFE#32 &&& 0xFFF00001#32) = 0 from rfl]; simp

/-- `Emit` (R105) produces its byte. -/
theorem State.emit_stored (b : Byte) (s : State) : Stored s (s.emit b) [b] := by
  refine ⟨rfl, fun _ => ⟨fun a => ?_, fun hw => ⟨?_, fun a => ?_⟩⟩⟩
  · rw [State.wrote_emit, Bool.eq_iff_iff]
    simp only [List.length_singleton, Bool.or_eq_true, Bool.and_eq_true, decide_eq_true_eq]
    by_cases hs : s.wrote a = true
    · simp [hs]
    · simp only [hs, Bool.false_eq_true, false_or]; omega
  · simp only [State.emit]
    split
    · exact Memory.write_wf _ _ hw
    · exact hw
  · simp only [State.emit, List.length_singleton]
    by_cases hc : s.writePos.toNat < s.outCap.toNat
    · rw [if_pos hc, Memory.read_write _ _ _ hw]
      by_cases ha : a = s.writePos.toNat
      · subst ha; simp [hc]
      · rw [if_neg ha, if_neg (by omega)]
    · rw [if_neg hc, if_neg (by omega)]

/-- `n` times the same byte. -/
theorem times_emit_stored (n : Nat) (b : Byte) (s : State) :
    Stored s (times n (State.emit b) s) (List.replicate n b) ∧
      times n (State.emit b) s =
        { s with
          writePos := (times n (State.emit b) s).writePos
          outBuf := (times n (State.emit b) s).outBuf
          written := (times n (State.emit b) s).written } := by
  induction n generalizing s with
  | zero => exact ⟨Stored.refl s, rfl⟩
  | succ n ih =>
    obtain ⟨h, k⟩ := ih (s.emit b)
    exact ⟨Stored.trans (s.emit_stored b) h rfl, k⟩

/-- The byte at place `k` of the cache that a word fills. -/
theorem fillCache_getD (w : Word) (s : State) {k : Nat} (hk : k < 4) :
    (s.fillCache w).rcb.toList.getD k 0 = w.extractLsb' (8 * k) 8 := by
  interval_cases k <;> rfl

/-- `ReadByte` (R202): the next byte of the raw stream, which goes on after it; only the raw reader changes. -/
theorem State.readByte_taken (s : State) :
    s.readByte.1 = rawByteAt s 0 ∧ RawTaken s s.readByte.2 1 ∧
      s.readByte.2 = { s with
        readPos := s.readByte.2.readPos, rcb := s.readByte.2.rcb, rcn := s.readByte.2.rcn } := by
  have hlt := s.rcn.isLt
  unfold State.readByte
  split
  · rename_i h0
    have hc : s.rcn.val = 0 := by rw [h0]; rfl
    refine ⟨?_, ⟨?_, ?_, fun k => ?_⟩, rfl⟩
    · simp only [rawByteAt, hc]; simp [State.takeCached, State.cachedByte, State.fillCache, State.inWord]
    · simp [State.takeCached, State.fillCache, State.inWord, hc]
    · simp [State.takeCached, State.fillCache, hc]
    · simp only [rawByteAt, hc, Nat.sub_zero, Nat.not_lt_zero, if_false]
      have e1 : ((s.inWord.2.fillCache s.inWord.1).takeCached).2.rcn.val = 3 := rfl
      rw [e1]
      by_cases hk : k < 3
      · rw [if_pos hk]
        have e2 : ((s.inWord.2.fillCache s.inWord.1).takeCached).2.rcb = (s.inWord.2.fillCache s.inWord.1).rcb := rfl
        rw [e2, fillCache_getD _ _ (by omega), show (1 + k) / 4 = 0 by omega, show (1 + k) % 4 = 4 - 3 + k by omega]
        simp [State.inWord]
      · rw [if_neg hk]
        have e3 : ((s.inWord.2.fillCache s.inWord.1).takeCached).2.readPos = s.readPos + 1#64 := rfl
        have e4 : ∀ i, ((s.inWord.2.fillCache s.inWord.1).takeCached).2.inWordAt i = s.inWordAt i := fun _ => rfl
        rw [e3, e4, show (1 + k) / 4 = 1 + (k - 3) / 4 by omega, show (1 + k) % 4 = (k - 3) % 4 by omega,
          BitVec.ofNat_add, BitVec.add_assoc]
  · rename_i h0
    have hc : 0 < s.rcn.val := Nat.pos_of_ne_zero fun e => h0 (Fin.ext e)
    refine ⟨?_, ⟨?_, ?_, fun k => ?_⟩, rfl⟩
    · rw [rawByteAt, if_pos hc]
      simp only [State.takeCached, State.cachedByte]
      split <;> rename_i e <;> simp_all [Vector.getElem_toList]
    · rw [show (1 - s.rcn.val + 3) / 4 = 0 by omega]; simp [State.takeCached]
    · rw [if_pos (by omega)]; rfl
    · have e1 : (s.takeCached).2.rcn.val = s.rcn.val - 1 := rfl
      have e2 : (s.takeCached).2.rcb = s.rcb := rfl
      have e3 : (s.takeCached).2.readPos = s.readPos := rfl
      have e4 : ∀ i, (s.takeCached).2.inWordAt i = s.inWordAt i := fun _ => rfl
      simp only [rawByteAt, e1, e2, e3, e4]
      by_cases hk : k < s.rcn.val - 1
      · rw [if_pos hk, if_pos (by omega)]; congr 1; omega
      · rw [if_neg hk, if_neg (by omega), show k - (s.rcn.val - 1) = 1 + k - s.rcn.val by omega]

/-- Two changes of the raw reader and the output alone are one such change. -/
theorem rawOut_trans {s t u : State}
    (h : t = { s with
      readPos := t.readPos, rcb := t.rcb, rcn := t.rcn, writePos := t.writePos, outBuf := t.outBuf, written := t.written })
    (k : u = { t with
      readPos := u.readPos, rcb := u.rcb, rcn := u.rcn, writePos := u.writePos, outBuf := u.outBuf, written := u.written }) :
    u = { s with
      readPos := u.readPos, rcb := u.rcb, rcn := u.rcn, writePos := u.writePos, outBuf := u.outBuf
      written := u.written } := by
  rw [k, h]

/-- `n` raw bytes emitted, one at a time (R405). -/
theorem times_emitRaw_stored (n : Nat) (s : State) :
    Stored s (times n State.emitRaw s) (rawBytes s n) ∧ RawTaken s (times n State.emitRaw s) n ∧
      times n State.emitRaw s =
        { s with
          readPos := (times n State.emitRaw s).readPos
          rcb := (times n State.emitRaw s).rcb
          rcn := (times n State.emitRaw s).rcn
          writePos := (times n State.emitRaw s).writePos
          outBuf := (times n State.emitRaw s).outBuf
          written := (times n State.emitRaw s).written } := by
  induction n generalizing s with
  | zero => exact ⟨Stored.refl s, RawTaken.zero s, rfl⟩
  | succ n ih =>
    obtain ⟨hb, ht, hf⟩ := s.readByte_taken
    obtain ⟨i1, i2, i3⟩ := ih s.emitRaw
    have hE : s.emitRaw = { s with
        readPos := s.emitRaw.readPos, rcb := s.emitRaw.rcb, rcn := s.emitRaw.rcn
        writePos := s.emitRaw.writePos, outBuf := s.emitRaw.outBuf, written := s.emitRaw.written } := by
      show s.readByte.2.emit s.readByte.1 = _
      simp only [State.emitRaw]
      rw [hf]; rfl
    have hT : RawTaken s s.emitRaw 1 := ht.congr rfl rfl rfl rfl rfl
    have hS : Stored s s.emitRaw [rawByteAt s 0] := by
      have := (s.readByte.2).emit_stored s.readByte.1
      rw [hb] at this
      rw [show s.emitRaw = s.readByte.2.emit (rawByteAt s 0) by rw [← hb]; rfl]
      exact this.congr_left (by rw [hf]) (by rw [hf]) (by rw [hf]) (by rw [hf])
    have hR : rawBytes s (n + 1) = [rawByteAt s 0] ++ rawBytes s.emitRaw n := by
      simp only [rawBytes, List.range_succ_eq_map, List.map_cons, List.map_map, List.singleton_append]
      congr 1
      refine List.map_congr_left fun k _ => ?_
      rw [hT.2.2 k, Nat.add_comm]; rfl
    have hcap : s.emitRaw.outCap = s.outCap := by rw [hE]
    refine ⟨?_, ?_, ?_⟩
    · rw [hR]; exact hS.trans i1 hcap
    · have := hT.trans i2
      rwa [Nat.add_comm] at this
    · exact rawOut_trans hE i3

end Sys2Proof.Machine
end

