-- ==== Sys2Proof/Laws/PerInstr.lean ====
section
/-! SUPPORT. The per-instruction family `EncodedFields`: the word of each command, well-formed or not, carries exactly the
command's fields at their places (30_encoding.md R141), and its reserved bits [31:27] are 0. -/

namespace Sys2Proof.Laws

/-- The fields of the command's word are the command's fields, the five reserved bits among them 0. -/
def EncodedFields.Statement (i : Instr) : Prop :=
  CmdFields.ofWord (encode i) = i.fields ∧ (CmdFields.ofWord (encode i)).rsv = 0

/-- The statement follows from the command's own `rsv` field being 0. -/
theorem encodedFields_of_rsv (i : Instr) (h : i.fields.rsv = 0) : EncodedFields.Statement i := by
  simp [EncodedFields.Statement, encode, h]

theorem EncodedFields.reset : EncodedFields.Statement .reset :=
  encodedFields_of_rsv _ rfl

theorem EncodedFields.sync : EncodedFields.Statement .sync :=
  encodedFields_of_rsv _ rfl

theorem EncodedFields.rdword : EncodedFields.Statement .rdword :=
  encodedFields_of_rsv _ rfl

theorem EncodedFields.rdbyte : EncodedFields.Statement .rdbyte :=
  encodedFields_of_rsv _ rfl

theorem EncodedFields.rdpsize : EncodedFields.Statement .rdpsize :=
  encodedFields_of_rsv _ rfl

theorem EncodedFields.peek (lo : BitVec 5) (cnt : BitVec 6) (n : BitVec 6) : EncodedFields.Statement (.peek lo cnt n) :=
  encodedFields_of_rsv _ rfl

theorem EncodedFields.peekv (lo : BitVec 5) (cnt : BitVec 6) : EncodedFields.Statement (.peekv lo cnt) :=
  encodedFields_of_rsv _ rfl

theorem EncodedFields.discard (lo : BitVec 5) (cnt : BitVec 6) (n : BitVec 6) : EncodedFields.Statement (.discard lo cnt n) :=
  encodedFields_of_rsv _ rfl

theorem EncodedFields.discardv (lo : BitVec 5) (cnt : BitVec 6) : EncodedFields.Statement (.discardv lo cnt) :=
  encodedFields_of_rsv _ rfl

theorem EncodedFields.discardacc (lo : BitVec 5) (cnt : BitVec 6) : EncodedFields.Statement (.discardacc lo cnt) :=
  encodedFields_of_rsv _ rfl

theorem EncodedFields.fsebuild (t : Tbl) (n : BitVec 6) : EncodedFields.Statement (.fsebuild t n) :=
  encodedFields_of_rsv _ rfl

theorem EncodedFields.fsepredef (t : Tbl) : EncodedFields.Statement (.fsepredef t) :=
  encodedFields_of_rsv _ rfl

theorem EncodedFields.fseinit (t : Tbl) (lo : BitVec 5) (cnt : BitVec 6) : EncodedFields.Statement (.fseinit t lo cnt) :=
  encodedFields_of_rsv _ rfl

theorem EncodedFields.fsedec (t : Tbl) (lo : BitVec 5) (cnt : BitVec 6) : EncodedFields.Statement (.fsedec t lo cnt) :=
  encodedFields_of_rsv _ rfl

theorem EncodedFields.fsedecnp (t : Tbl) (lo : BitVec 5) (cnt : BitVec 6) : EncodedFields.Statement (.fsedecnp t lo cnt) :=
  encodedFields_of_rsv _ rfl

theorem EncodedFields.hufwex : EncodedFields.Statement .hufwex :=
  encodedFields_of_rsv _ rfl

theorem EncodedFields.hufwfse (aux : BitVec 1) : EncodedFields.Statement (.hufwfse aux) :=
  encodedFields_of_rsv _ rfl

theorem EncodedFields.hufexpand : EncodedFields.Statement .hufexpand :=
  encodedFields_of_rsv _ rfl

theorem EncodedFields.hufdec (lo : BitVec 5) (cnt : BitVec 6) : EncodedFields.Statement (.hufdec lo cnt) :=
  encodedFields_of_rsv _ rfl

theorem EncodedFields.litcfg (mode : BitVec 2) : EncodedFields.Statement (.litcfg mode) :=
  encodedFields_of_rsv _ rfl

theorem EncodedFields.setrle : EncodedFields.Statement .setrle :=
  encodedFields_of_rsv _ rfl

theorem EncodedFields.littarget : EncodedFields.Statement .littarget :=
  encodedFields_of_rsv _ rfl

theorem EncodedFields.matchcopy : EncodedFields.Statement .matchcopy :=
  encodedFields_of_rsv _ rfl

theorem EncodedFields.seqexec : EncodedFields.Statement .seqexec :=
  encodedFields_of_rsv _ rfl

theorem EncodedFields.cblock : EncodedFields.Statement .cblock :=
  encodedFields_of_rsv _ rfl

theorem EncodedFields.rleblock : EncodedFields.Statement .rleblock :=
  encodedFields_of_rsv _ rfl

theorem EncodedFields.rawblock : EncodedFields.Statement .rawblock :=
  encodedFields_of_rsv _ rfl

theorem EncodedFields.block : EncodedFields.Statement .block :=
  encodedFields_of_rsv _ rfl

theorem EncodedFields.run : EncodedFields.Statement .run :=
  encodedFields_of_rsv _ rfl

end Sys2Proof.Laws
end

