-- ==== Sys2Proof/Tests/Slice0.lean ====
section
/-! SUPPORT. The model's own tests. Expected values are those of 95_test_vectors.md (the vector is named beside each test) or
are worked out by hand from the rule named. After them, one witness for the hypotheses of every statement of
Certificates/Slice0/Obligations.lean that has any, a clause at a time where it has several. -/

namespace Sys2Proof.Tests

-- One theorem at a time: the kernel evaluations below are not worth a thread each.
set_option Elab.async false

open Sys2Proof.Machine Sys2Proof.Claims

/-! ### States to test on -/

/-- A buffer that holds the given bytes from index `k` on. -/
def cellsFrom : Nat → List Nat → List Host.Cell
  | _, [] => []
  | k, b :: bs => if b = 0 then cellsFrom (k + 1) bs else (k, BitVec.ofNat 8 b) :: cellsFrom (k + 1) bs

/-- After reset, with the given input and an output capacity of 64. -/
def onInput (bytes : List Nat) : State :=
  { State.reset with inSize := BitVec.ofNat 32 bytes.length, outCap := 64, inBuf := ⟨cellsFrom 0 bytes⟩ }

/-- After reset, with the given output produced. -/
def onOutput (bytes : List Nat) (cap off len : Word) : State :=
  { State.reset with
    outCap := cap
    outBuf := ⟨cellsFrom 0 bytes⟩
    written := [(0, bytes.length)]
    writePos := BitVec.ofNat 64 bytes.length
    arg0 := off
    arg1 := len }

/-- The state after a command. -/
def after (i : Instr) (s : State) : State :=
  match exec i s with
  | .next t => t
  | _ => s

/-- The first `n` bytes of the output. -/
def output (s : State) (n : Nat) : List Nat := (List.range n).map fun a => (s.outBuf.read a).toNat

/-- The input image of the vectors of section 2.3. -/
def readerInput : State := onInput [0x21, 0x43, 0x65, 0x87, 0x98, 0xBA, 0xDC, 0xFE, 0xAA]

/-- Vector F8: table LL of prob[1] = prob[3] = 16, with lane 0's first word 0xB27. -/
def withF8 : State := (onInput [0x27, 0x0B]).buildTable .ll 5 ([0, 16, 0, 16] ++ List.replicate 32 0)

/-- The three predefined tables built, and every lane's states initialised. -/
def withTables : State :=
  let s := (((onInput [0x42, 1]).fsePredef .ll).2.fsePredef .ml).2.fsePredef .off
  ((s.2.fseInit .ll allLanes).fseInit .ml allLanes).fseInit .off allLanes

/-- Weights written as `HUFWEX` leaves them. -/
def withWeights (ws : List Nat) : State :=
  { State.reset with
    hufn := BitVec.ofNat 8 ws.length
    hufw := tabulate 256 fun k => BitVec.ofNat 4 (ws.getD k 0) }

/-- The Huffman table of vector H3. -/
def withHuffman : State := (withWeights [2, 1, 1]).hufExpand.2

/-- A reset state whose host writes one command word. -/
def issuing (w : Word) : State := { State.reset with hostOps := [.write 4 0x008 w] }

/-- The image of Program 1. -/
def program1 : List Nat := [0x0a, 0, 0, 0, 1, 2, 7, 2, 0x42, 1, 0, 0, 0x61, 0, 0, 0]

/-! ### WellFormed: an ill-formed term for each check -/

theorem test_wf_refuses_peek_range : (Instr.peek 31 2 8).wf = false := by decide
theorem test_wf_refuses_peekv_range : (Instr.peekv 0 33).wf = false := by decide
theorem test_wf_refuses_discard_range : (Instr.discard 31 2 1).wf = false := by decide
theorem test_wf_refuses_discardv_range : (Instr.discardv 1 32).wf = false := by decide
theorem test_wf_refuses_discardacc_range : (Instr.discardacc 16 17).wf = false := by decide
theorem test_wf_refuses_fseinit_range : (Instr.fseinit .ll 1 32).wf = false := by decide
theorem test_wf_refuses_fsedec_range : (Instr.fsedec .ml 31 63).wf = false := by decide
theorem test_wf_refuses_fsedecnp_range : (Instr.fsedecnp .off 30 3).wf = false := by decide
theorem test_wf_refuses_hufdec_range : (Instr.hufdec 2 31).wf = false := by decide
theorem test_wf_refuses_fsepredef_hw : (Instr.fsepredef .hw).wf = false := by decide
theorem test_wf_allows_whole_range : (Instr.peek 0 32 63).wf = true ∧ (Instr.peek 31 1 0).wf = true := by decide

/-! ### Decode: words of 95_test_vectors.md section 2.1 -/

theorem test_decode_reset : decode 0x00000001 = .ok .reset := by decide
theorem test_decode_sync : decode 0x00000002 = .ok .sync := by decide
theorem test_decode_rdword : decode 0x00000003 = .ok .rdword := by decide
theorem test_decode_rdbyte : decode 0x00000004 = .ok .rdbyte := by decide
theorem test_decode_rdpsize : decode 0x00000005 = .ok .rdpsize := by decide
theorem test_decode_peek : decode 0x00E02006 = .ok (.peek 0 1 28) := by decide
theorem test_decode_peekv : decode 0x00006007 = .ok (.peekv 0 3) := by decide
theorem test_decode_discard : decode 0x01C02008 = .ok (.discard 0 1 56) := by decide
theorem test_decode_discardv : decode 0x00006009 = .ok (.discardv 0 3) := by decide
theorem test_decode_discardacc : decode 0x0000200A = .ok (.discardacc 0 1) := by decide
theorem test_decode_fsebuild : decode 0x04180010 = .ok (.fsebuild .off 3) := by decide
theorem test_decode_fsepredef : decode 0x04000011 = .ok (.fsepredef .off) := by decide
theorem test_decode_fseinit : decode 0x04040012 = .ok (.fseinit .off 0 32) := by decide
theorem test_decode_fsedec : decode 0x00002013 = .ok (.fsedec .ll 0 1) := by decide
theorem test_decode_fsedecnp : decode 0x02008014 = .ok (.fsedecnp .ml 0 4) := by decide
theorem test_decode_hufwex : decode 0x00000020 = .ok .hufwex := by decide
theorem test_decode_hufwfse : decode 0x00080021 = .ok (.hufwfse 1) := by decide
theorem test_decode_hufexpand : decode 0x00000022 = .ok .hufexpand := by decide
theorem test_decode_hufdec : decode 0x0000A023 = .ok (.hufdec 0 5) := by decide
theorem test_decode_litcfg : decode 0x00180030 = .ok (.litcfg 3) := by decide
theorem test_decode_setrle : decode 0x00000031 = .ok .setrle := by decide
theorem test_decode_littarget : decode 0x00000032 = .ok .littarget := by decide
theorem test_decode_match : decode 0x00000033 = .ok .matchcopy := by decide
theorem test_decode_seqexec : decode 0x00000034 = .ok .seqexec := by decide
theorem test_decode_cblock : decode 0x00000040 = .ok .cblock := by decide
theorem test_decode_rleblock : decode 0x00000041 = .ok .rleblock := by decide
theorem test_decode_rawblock : decode 0x00000042 = .ok .rawblock := by decide
theorem test_decode_block : decode 0x00000043 = .ok .block := by decide
theorem test_decode_run : decode 0x00000044 = .ok .run := by decide

/-- Vectors X1 to X12: each illegal word, with the item it falls under. -/
theorem test_decode_illegal :
    decode 0x00000000 = .error .unassignedOpcode ∧ decode 0x000000FF = .error .unassignedOpcode ∧
      decode 0x00000015 = .error .unassignedOpcode ∧ decode 0x08000001 = .error .reservedBits ∧
      decode 0x00000101 = .error .unusedField ∧ decode 0x00280110 = .error .unusedField ∧
      decode 0x00405F06 = .error .laneRange ∧ decode 0x000C2006 = .error .laneRange ∧
      decode 0x06000011 = .error .predefOfHW ∧ decode 0x00100021 = .error .auxFlag ∧
      decode 0x00200030 = .error .literalMode ∧ decode 0x00400007 = .error .unusedField := by decide

/-- The word the table numbers from bit 0 is the command word. -/
theorem test_decode_table_word : decodeTableWord 32 0x02008014 = some (.fsedecnp .ml 0 4) := by decide

/-! ### One step of each command -/

/-- W3: a reset keeps `ARG0` and clears the warning registers. -/
theorem test_reset : (after .reset ((onOutput [1] 4 7 8).warn .offsetZero)).arg0 = 7 ∧
    (after .reset ((onOutput [1] 4 7 8).warn .offsetZero)).warnCount = 0 := by decide +kernel

/-- BR14: a peek, then `SYNC`: the buffer is emptied, the window and the cursor stay. -/
theorem test_sync : let t := after .sync (after (.peek 0 1 8) readerInput)
    (t.lane 0).avail = 0 ∧ (t.lane 0).pv = 0x21 ∧ t.readPos = 1 := by decide +kernel

/-- BR12. -/
theorem test_rdword : (after .rdword readerInput).res = 0x87654321 ∧ (after .rdword readerInput).readPos = 1 := by
  decide +kernel

/-- BR13: `RDBYTE`, then a word that leaves the cache alone. -/
theorem test_rdbyte : let t := after .rdword (after .rdbyte readerInput)
    (after .rdbyte readerInput).res = 0x21 ∧ t.res = 0xFEDCBA98 ∧ t.rcn = 3 ∧ (after .rdbyte t).res = 0x43 := by
  decide +kernel

/-- P5 and P9. -/
theorem test_rdpsize : (after .rdpsize (onInput [5, 1])).res = 193 ∧
    (after .rdpsize (onInput [255, 255, 255])).res = 4210815 := by decide +kernel

/-- BR8: three lanes take three words in lane order. -/
theorem test_peek : let t := after (.peek 0 3 4) readerInput
    [(t.lane 0).pv, (t.lane 1).pv, (t.lane 2).pv] = [0x1, 0x8, 0xA] ∧ t.readPos = 3 := by decide +kernel

/-- X13: a width above 32 warns and becomes 32. -/
theorem test_peek_wide : let t := after (.peek 0 1 40) readerInput
    (t.lane 0).pv = 0x87654321 ∧ (t.lane 0).pw = 32 ∧ t.warnLast = 2 := by decide +kernel

/-- BR9, BR10: lane 0 has width 0 and loads nothing; then the discard. -/
theorem test_peekv_discardv :
    let t := after (.peekv 0 3) { readerInput with nv := (readerInput.nv.set 1 4).set 2 4 }
    [(t.lane 0).pv, (t.lane 1).pv, (t.lane 2).pv] = [0, 1, 8] ∧ t.readPos = 2 ∧
      ((after (.discardv 0 3) t).lane 1).buf = 0x08765432 := by decide +kernel

/-- BR2. -/
theorem test_discard : let t := after (.discard 0 1 8) (after (.peek 0 1 8) readerInput)
    (t.lane 0).buf = 0x876543 ∧ (t.lane 0).avail = 24 ∧ (t.lane 0).pv = 0x21 := by decide +kernel

/-- R210: a discard beyond what the lane holds warns and empties it (BR7). -/
theorem test_discard_underflow : let t := after (.discard 0 1 40) (after (.peek 0 1 8) readerInput)
    (t.lane 0).buf = 0 ∧ (t.lane 0).avail = 0 ∧ t.warnSticky = 2 := by decide +kernel

/-- BR16. -/
theorem test_discardacc :
    let t := after (.discardacc 0 1) ((after (.peek 0 1 8) readerInput).modLane 0 fun x => { x with dacc := 15 })
    (t.lane 0).avail = 17 ∧ (t.lane 0).dacc = 0 := by decide +kernel

/-- F2: a compressed distribution with a zero run. -/
theorem test_fsebuild : let t := after (.fsebuild .ll 5) (onInput [5, 0, 0, 0, 0x40, 0, 0, 0, 0x14, 0, 0, 0, 7])
    t.res = 5 ∧ t.readPos = 32 ∧ t.fseCellAt 4 = ⟨5, 2, 8⟩ ∧ t.fseCellAt 31 = ⟨5, 3, 24⟩ ∧ (t.lane 1).avail = 21 := by
  decide +kernel

/-- F3: a code above the budget warns and is clamped to it. -/
theorem test_fsebuild_overflow : let t := after (.fsebuild .ll 5) (onInput [27, 0, 0, 0, 6])
    t.warnLast = 6 ∧ (t.lane 1).avail = 29 := by decide +kernel

/-- F-OF: cells 0, 1 and 31. -/
theorem test_fsepredef : let t := after (.fsepredef .off) State.reset
    t.res = 5 ∧ t.fseCellAt 1024 = ⟨0, 5, 0⟩ ∧ t.fseCellAt 1025 = ⟨6, 4, 16⟩ ∧ t.fseCellAt 1055 = ⟨22, 5, 0⟩ := by
  decide +kernel

/-- F9, F17. -/
theorem test_fseinit : (after (.fseinit .ll 0 1) withF8).fsd 0 .ll = 5 ∧
    (after (.fseinit .ml 0 0) State.reset).warnLast = 8 := by decide +kernel

/-- F10, F11: two decodes of lane 0. -/
theorem test_fsedec : let t := after (.fsedec .ll 0 1) (after (.fseinit .ll 0 1) withF8)
    t.syms 0 = 3 ∧ t.fss 0 .ll = 2 ∧ t.fsd 0 .ll = 1 ∧ (t.lane 0).avail = 27 ∧
      (after (.fsedec .ll 0 1) t).fss 0 .ll = 10 := by decide +kernel

/-- F13, F14: two decodes from one window. -/
theorem test_fsedecnp :
    let s := (after (.fseinit .ll 0 1) withF8).modLane 0 fun x => { x with pv := 0x2D, pw := 6 }
    let t := after (.fsedecnp .ll 0 1) s
    t.syms 0 = 3 ∧ t.fss 0 .ll = 22 ∧ (t.lane 0).dacc = 5 ∧ t.readPos = 0 ∧
      (after (.fsedecnp .ll 0 1) t).fss 0 .ll = 2 := by decide +kernel

/-- H1, and H11's clamp. -/
theorem test_hufwex : let t := after .hufwex (onInput [3, 0x21, 0x10])
    t.weights = [2, 1, 1] ∧ t.res = 3 ∧ t.rcn = 1 ∧ (after .hufwex (onInput [1, 0xC0])).warnLast = 9 := by decide +kernel

/-- H2. -/
theorem test_hufwfse :
    let t := after (.hufwfse 0) (onInput ([3, 0, 0, 0, 0, 0x30, 0, 0, 0x10, 0, 0, 0, 0x10]))
    t.weights = [2, 1, 1] ∧ t.res = 3 ∧ t.readPos = 33 := by decide +kernel

/-- H3. -/
theorem test_hufexpand : let t := after .hufexpand (withWeights [2, 1, 1])
    (List.range 8).map t.hufEntryAt = [⟨1, 3⟩, ⟨3, 1⟩, ⟨0, 2⟩, ⟨3, 1⟩, ⟨2, 3⟩, ⟨3, 1⟩, ⟨0, 2⟩, ⟨3, 1⟩] ∧ t.res = 3 := by
  decide +kernel

/-- H9: a table log of 12 warns, and the table has log 11. -/
theorem test_hufexpand_too_long : let t := after .hufexpand (withWeights [11, 11, 11])
    t.hufwb = 11 ∧ t.warnLast = 10 := by decide +kernel

/-- H12: the bits 0b010 decode symbol 0 of length 2. -/
theorem test_hufdec : let t := after (.hufdec 0 1) (withHuffman.modLane 0 fun x => { x with buf := 2, avail := 3 })
    t.syms 0 = 0 ∧ (t.lane 0).avail = 1 ∧ (t.lane 0).buf = 0 := by decide +kernel

/-- Q10. -/
theorem test_litcfg : (after (.litcfg 3) State.reset).warnLast = 16 ∧
    (after (.litcfg 1) (onOutput [] 64 3 0)).maxLit = 3 := by decide +kernel

/-- Q9: `ARG0[31:8]` is ignored. -/
theorem test_setrle : (after .setrle (onOutput [] 64 0x178 0)).rleByte = 0x78 := by decide +kernel

/-- Q8: a target above `MAXLIT`. -/
theorem test_littarget :
    let t := after .littarget { onInput [0x61, 0x62, 0x63] with litMode := 1, maxLit := 3, arg0 := 5 }
    output t 4 = [0x61, 0x62, 0x63, 0] ∧ t.res = 3 ∧ t.warnLast = 12 := by decide +kernel

/-- Q11: Huffman mode with no table. -/
theorem test_littarget_unbuilt : let t := after .littarget { onInput [0x61] with maxLit := 3, arg0 := 2 }
    t.writePos = 2 ∧ t.litEmitted = 2 ∧ t.warnLast = 8 ∧ t.readPos = 0 := by decide +kernel

/-- Q1: offset 1 repeats one byte. R106, R510: a byte dropped at `OUT_CAP` = 1 reads 0 after the host raised `OUT_CAP`,
whatever stood there. -/
theorem test_match : output (after .matchcopy (onOutput [0x78, 0x79, 0x7a] 64 1 4)) 8
      = [0x78, 0x79, 0x7a, 0x7a, 0x7a, 0x7a, 0x7a, 0] ∧
    (let s := ((onOutput [] 1 1 1).emit 0x61).emit 0x62
     output (after .matchcopy { s with outCap := 64, outBuf := (s.outBuf.write 1 0x99).write 2 0x99 }) 3
      = [0x61, 0x99, 0]) := by decide +kernel

/-- Q3: a source before index 0 reads 0. -/
theorem test_match_before_start : let t := after .matchcopy (onOutput [0x61, 0x62] 64 4 3)
    output t 5 = [0x61, 0x62, 0, 0, 0x61] ∧ t.warnLast = 14 := by decide +kernel

/-- Q12: no table, no sequence. -/
theorem test_seqexec_unbuilt : let t := after .seqexec (onInput [0])
    t.res = 0 ∧ t.warnLast = 8 ∧ t.readPos = 1 ∧ t.writePos = 0 := by decide +kernel

/-- The repeat-offset matrix of section 2.6, its row ov = 3. -/
theorem test_resolve_offset :
    let s := { State.reset with rep0 := 10, rep1 := 20, rep2 := 30 }
    (s.resolveOffset 3 0).1 = 9 ∧ (s.resolveOffset 3 0).2.rep1 = 10 ∧ (s.resolveOffset 3 5).1 = 30 ∧
      (s.resolveOffset 3 5).2.rep0 = 30 := by decide +kernel

/-- Program 1 from its control word on: literals, one sequence, the size. -/
theorem test_cblock : let t := after .cblock { onInput (program1.drop 4) with arg0 := 10 }
    output t 10 = List.replicate 10 0x61 ∧ t.res = 10 ∧ t.warnCount = 0 := by decide +kernel

/-- B2. -/
theorem test_rleblock : let t := after .rleblock { onInput [0x21] with arg0 := 0x10000003 }
    output t 4 = [0x21, 0x21, 0x21, 0] ∧ t.res = 3 ∧ t.rcn = 3 := by decide +kernel

/-- B1. -/
theorem test_rawblock : let t := after .rawblock { onInput [0x48, 0x69] with arg0 := 0x20000002 }
    output t 2 = [0x48, 0x69] ∧ t.res = 2 ∧ t.rcn = 2 := by decide +kernel

/-- Program 3, its first block: raw, more to come. -/
theorem test_block : let t := after .block (onInput [2, 0, 0, 0xa0, 0x48, 0x69])
    output t 2 = [0x48, 0x69] ∧ t.res = 0xA0000002 ∧ t.runState = .awaitingBlock ∧ t.readPos = 2 := by decide +kernel

/-- Program 1, run whole. -/
theorem test_run : let t := after .run (onInput program1)
    output t 10 = List.replicate 10 0x61 ∧ t.res = 10 ∧ t.status = 0x392 ∧ t.warnLog = [] := by decide +kernel

/-- B5: block type 3 ends the stream. -/
theorem test_run_reserved_type : let t := after .run (onInput [0, 0, 0, 0x30])
    t.warnLast = 15 ∧ t.runState = .done ∧ t.readPos = 1 := by decide +kernel

/-- The step takes the host's operations in order: a set-up write, then a command. -/
theorem test_step : ∃ t u, step { State.reset with hostOps := [.write 4 0x00C 0x78, .write 4 0x008 0x31] } = .next t ∧
    step t = .next u ∧ u.rleByte = 0x78 ∧ u.hostOps = [] := ⟨_, _, rfl, rfl, rfl, rfl⟩

/-! ### Witnesses: the hypotheses of the statements can be met -/

theorem witness_EncodeThenDecode : (Instr.fsedec .hw 31 1).wf = true ∧ (Instr.fsedec .hw 0 32).wf = true := by decide

theorem witness_DecodeThenEncode : decode 0x06300010 = .ok (.fsebuild .hw 6) := by decide

theorem witness_IllegalWordsAreThoseListed : IllegalWord 0x00405F06 ∧ ¬ IllegalWord 0x00440006 := by
  unfold IllegalWord; decide

theorem witness_StepRunsIssuedCommand :
    ((issuing 0x44).hostOps = .write 4 0x008 0x44 :: [] ∧ decode 0x44 = .ok .run) ∧
      decodeTableWord 32 0x44 = some .run ∧ State.reset.hostOps = [] := by decide

theorem witness_IllegalWordOnlyWarns : (issuing 0).hostOps = .write 4 0x008 0 :: [] ∧
    IllegalWord (0#32).toNat ∧ (issuing 0).sanitize = true := by unfold IllegalWord; decide

theorem witness_MisalignedAccessRefused : (2 ≠ 4 ∨ 0 % 4 ≠ 0) ∧ (4 ≠ 4 ∨ 0x002 % 4 ≠ 0) ∧
    ({ State.reset with hostOps := [.write 2 0 5] } : State).hostOps = .write 2 0 5 :: [] ∧
    ({ State.reset with hostOps := [.read 4 2] } : State).hostOps = .read 4 2 :: [] := by decide

theorem witness_HostReadsRegisters :
    (∃ hi lo : Word, State.reset.res = hi ++ lo) ∧ (∃ hi lo : Word, State.reset.readPos = hi ++ lo) ∧
      (∃ hi lo : Word, State.reset.writePos = hi ++ lo) ∧
      (0x074 % 4 = 0 ∧ 0x074 ≤ 0x074 ∧ 0x074 < 0x100) ∧ 0x0FC % 4 = 0 ∧ 0x074 ≤ 0x0FC ∧ 0x0FC < 0x100 :=
  ⟨⟨0, 0, rfl⟩, ⟨0, 0, rfl⟩, ⟨0, 0, rfl⟩, by decide⟩

theorem witness_HostWritesRegisters : ∀ offset ∈ [0x000, 0x01C, 0x034, 0x074, 0x1FC, 0x280, 0x2FC],
    offset % 4 = 0 ∧ offset < 0x300 ∧ ¬ (0x200 ≤ offset ∧ offset < 0x280) ∧
      offset ∉ [0x008, 0x00C, 0x010, 0x02C, 0x030] := by decide

theorem witness_HostPlacesBufferBytes : State.reset.memOk = true ∧ (onInput [1, 2]).memOk = true ∧
    2 ^ 32 - 2 < 2 ^ 32 - 1 ∧ 2 ^ 32 - 1 ≤ 2 ^ 32 - 1 := by decide +kernel

theorem witness_StatusFields : ∃ t, exec .reset State.reset = .next t := ⟨_, rfl⟩

theorem witness_ResetsEstablishCleanLaunch : (∃ t, exec .reset (onInput program1) = .next t) ∧
    ∃ t, step { State.reset with hostOps := [.powerOn] } = .next t := ⟨⟨_, rfl⟩, ⟨_, rfl⟩⟩

theorem witness_RdwordTakesWord : 0 < 4 ∧ 3 < 4 := by decide

/-- Every statement that asks for a sanitized build: the state after reset is one, and so is one with an input. -/
theorem witness_sanitized : State.reset.sanitize = true ∧ (onInput program1).sanitize = true := by decide

theorem witness_PeekIsIdempotent : (32#6).toNat ≤ 32 ∧ (0#6).toNat ≤ 32 := by decide

/-- `BuildTableSpreads` and `CellIntervalsTile`: the smallest and the largest accuracy log, and a symbol with slots. -/
theorem witness_BuildTableSpreads :
    (5 ≤ 5 ∧ 5 ≤ maxAcc .hw ∧ ([0, 16, 16] ++ List.replicate 9 0).length = maxSym .hw + 1 ∧
      ([0, 16, 16] ++ List.replicate 9 0).sum = 2 ^ 5) ∧
    5 ≤ 9 ∧ 9 ≤ maxAcc .ll ∧ (512 :: List.replicate 35 0).length = maxSym .ll + 1 ∧
      (512 :: List.replicate 35 0).sum = 2 ^ 9 ∧ 0 < (512 :: List.replicate 35 0).getD 0 0 ∧ 511 < 2 ^ 9 := by decide

theorem witness_FsepredefBuilds : Tbl.ll ≠ .hw ∧ Tbl.ml ≠ .hw ∧ Tbl.off ≠ .hw := by decide

/-- `FsedecDecodes` and `FsedecnpDecodes`: a table built, and one not. -/
theorem witness_FsedecDecodes : withF8.built .ll = true ∧ withF8.sanitize = true ∧ State.reset.built .ll = false ∧
    State.reset.sanitize = true := by decide +kernel

/-- `HufexpandPlacesRanges`: a table log of 11, one of 12; a symbol's range at both ends, and a value in no range. -/
theorem witness_HufexpandPlacesRanges :
    (withWeights [11]).sanitize = true ∧ bitLength (totalWeight (weightsOf (withWeights [11]))) = 11 ∧
      11 < bitLength (totalWeight (weightsOf (withWeights [11, 11]))) ∧
      (let ws := weightsOf (withWeights [2, 1, 1])
       0 < ws.length ∧ 0 < ws.getD 0 0 ∧ firstValue ws 0 = 2 ∧ 3 < firstValue ws 0 + 2 ^ (ws.getD 0 0 - 1) ∧
       4 < 2 ^ bitLength (totalWeight ws) ∧
       ∀ sym, sym < ws.length → 0 < ws.getD sym 0 →
         4 < firstValue ws sym ∨ firstValue ws sym + 2 ^ (ws.getD sym 0 - 1) ≤ 4) := by decide +kernel

theorem witness_CanonicalCodesDecode :
    let ws := weightsOf (withWeights [2, 1, 1])
    let wb := bitLength (totalWeight ws)
    (withWeights [2, 1, 1]).sanitize = true ∧ wb ≤ 11 ∧ 0 < ws.length ∧ 0 < ws.getD 0 0 ∧ restWeight ws = 2 ^ 2 ∧
      6 < 2 ^ wb ∧ 6 % 2 ^ (wb + 1 - ws.getD 0 0) = reversed (wb + 1 - ws.getD 0 0) (firstValue ws 0 / 2 ^ (ws.getD 0 0 - 1)) := by
  decide +kernel

theorem withHuffman_ok : withHuffman.hufOk := by unfold State.hufOk; decide +kernel

theorem witness_HufdecDecodes : withHuffman.hufvalid = true ∧ withHuffman.hufOk ∧ State.reset.hufvalid = false ∧
    State.reset.sanitize = true := ⟨by decide +kernel, withHuffman_ok, rfl, rfl⟩

theorem witness_PackedSizesAreUnique : (∃ t, exec .rdpsize State.reset = .next t) ∧
    rawBytes (onInput [0xFE]) 1 = [0xFE] ∧ rawBytes (onInput [1, 0]) 2 = [1, 0] ∧
    rawBytes (onInput [0xFD, 0xFF]) 2 = [0xFD, 0xFF] ∧ rawBytes (onInput [3, 0, 0]) 3 = [3, 0, 0] ∧
    rawBytes (onInput [255, 255, 255]) 3 = [255, 255, 255] := ⟨⟨_, rfl⟩, by decide +kernel⟩

/-- `LittargetBytes`: each mode, and Huffman mode with no table. -/
theorem witness_LittargetBytes : ({ State.reset with litMode := 2 } : State).litMode = 2 ∧
    ({ State.reset with litMode := 1 } : State).litMode = 1 ∧ ({ State.reset with litMode := 3 } : State).litMode = 3 ∧
    State.reset.litMode = 0 ∧ State.reset.hufvalid = false ∧ State.reset.sanitize = true := by decide

/-- `LittargetCounts`: a target not above the literals emitted. -/
theorem witness_LittargetCounts : State.reset.sanitize = true ∧
    min State.reset.arg0.toNat State.reset.maxLit.toNat ≤ State.reset.litEmitted.toNat := by
  decide

/-- A target above `MAXLIT` with literals that cross lane 31; the last literal of lane 31. -/
theorem witness_LittargetHuffmanDecodes :
    (let s := { withHuffman with maxLit := 40, litEmitted := 31, arg0 := 41 }
     s.sanitize = true ∧ s.litMode = 0 ∧ s.hufvalid = true) ∧
    let s := { withHuffman with maxLit := 40, litEmitted := 31, arg0 := 32 }
    s.sanitize = true ∧ s.litMode = 0 ∧ s.hufvalid = true ∧ s.arg0.toNat ≤ s.maxLit.toNat ∧
      (31#5).toNat = s.litEmitted.toNat % 32 ∧ rangeOk 31 1 = true ∧ s.arg0.toNat = s.litEmitted.toNat + (1#6).toNat := by
  decide +kernel

theorem witness_MatchCopies : (onOutput [1, 2] 64 0 4).arg0.toNat = 0 ∧ 0 < (onOutput [1, 2] 64 1 4).arg0.toNat ∧
    (onOutput [1, 2] 64 1 4).sanitize = true := by decide

theorem witness_LengthCodesTile : 0 < 35 ∧ 34 < 35 ∧ 0 < 52 ∧ 51 < 52 := by decide

/-- `ResolveOffsetCases`: a value for each clause, at the ends of its range. -/
theorem witness_ResolveOffsetCases : (1 ≤ 4 ∧ 4 < 2 ^ 32 ∧ 3 < 4) ∧ (1 ≤ 2 ^ 32 - 1 ∧ 2 ^ 32 - 1 < 2 ^ 32) ∧
    (1 ≤ 1 ∧ 1 < 2 ^ 32) ∧ (1 ≤ 3 ∧ 3 < 2 ^ 32) ∧ (5 ≠ 0 ∧ 0 = 0) := by decide

theorem withTables_ok : withTables.tablesOk := by
  refine ⟨fun t => ?_, by unfold State.hufOk; decide +kernel, by decide +kernel⟩
  cases t <;> · unfold State.fseTableOk; decide +kernel

theorem withTables_lanesOk : withTables.lanesOk := by unfold State.lanesOk; decide +kernel

theorem witness_SequenceFieldsOfOneLane : withTables.lanesOk ∧ withTables.tablesOk ∧ withTables.built .ll = true ∧
    withTables.built .ml = true ∧ withTables.built .off = true ∧ (withTables.lane 0).dacc = 0 :=
  ⟨withTables_lanesOk, withTables_ok, by decide +kernel, by decide +kernel, by decide +kernel, by decide +kernel⟩

/-- `SeqexecEmitsAllLiterals`: no sequence and no table; all three tables. -/
theorem witness_SeqexecEmitsAllLiterals : (State.reset.sanitize = true ∧ State.reset.litOk ∧
    (packedSizeAt State.reset 0).1 = 0 ∧
    (State.reset.built .ll && State.reset.built .ml && State.reset.built .off) = false) ∧
    withTables.sanitize = true ∧ withTables.litOk ∧ withTables.tablesOk ∧
    (withTables.built .ll && withTables.built .ml && withTables.built .off) = true :=
  ⟨⟨rfl, by unfold State.litOk; decide, by decide +kernel, by decide +kernel⟩, by decide +kernel,
    by unfold State.litOk; decide +kernel, withTables_ok, by decide +kernel⟩

/-- `CblockDecodes`: literal modes 0 and 2, and a size that does not match (its `tablesOk`: `withTables_ok`). -/
theorem witness_CblockDecodes : (after .cblock (onInput [1, 0, 7, 0])).litMode = 1 ∧
    (after .cblock { onInput [2, 0, 5, 7, 0] with arg0 := 1 }).litMode = 2 ∧
    (after .cblock { onInput [2, 0, 5, 7, 0] with arg0 := 1 }).res.toNat ≠ 1 ∧
    (after .cblock (onInput [0, 0, 0, 7, 0])).litMode = 0 ∧ (onInput [2, 0, 5, 7, 0]).sanitize = true := by decide +kernel

/-- `BlockDispatches`: a control word of each type. -/
theorem witness_BlockDispatches :
    (onInput program1).inWordAt 0 / 2 ^ 28 % 4 = 0 ∧ (onInput [3, 0, 0, 0x10]).inWordAt 0 / 2 ^ 28 % 4 = 1 ∧
      (onInput [2, 0, 0, 0xa0]).inWordAt 0 / 2 ^ 28 % 4 = 2 ∧ (onInput [0, 0, 0, 0x30]).inWordAt 0 / 2 ^ 28 % 4 = 3 ∧
      ∀ bytes ∈ [program1, [3, 0, 0, 0x10], [2, 0, 0, 0xa0], [0, 0, 0, 0x30]], (onInput bytes).sanitize = true := by
  decide +kernel

theorem witness_RunDecodesOneBlock :
    let rle := ((onInput [3, 0, 0, 0x10, 0x21]).inWordAt 0).toNat
    let raw := ((onInput [2, 0, 0, 0x20, 0x48, 0x69]).inWordAt 0).toNat
    (rle / 2 ^ 28 % 4 = 1 ∧ rle < 2 ^ 31 ∧ (onInput [3, 0, 0, 0x10, 0x21]).sanitize = true) ∧ raw / 2 ^ 28 % 4 = 2 ∧
      raw < 2 ^ 31 ∧ (onInput [2, 0, 0, 0x20, 0x48, 0x69]).sanitize = true := by decide +kernel

/-- `RunEndsDone`: an input below 2^20 bytes. -/
theorem witness_RunEndsDone : (onInput program1).sanitize = true ∧ (onInput program1).inSize.toNat < 2 ^ 20 := by decide

/-- `OutputIsAppended` and `WarningsAccumulate`: a command that is no reset. -/
theorem witness_OutputIsAppended : withTables.sanitize = true ∧ withTables.tablesOk ∧ Instr.matchcopy ≠ .reset ∧
    Instr.matchcopy ≠ .run := ⟨by decide +kernel, withTables_ok, by decide, by decide⟩

/-- `EitherBuildKeepsTheRest`: a buffer in canonical form, and an illegal word. -/
theorem witness_EitherBuildKeepsTheRest : (onOutput [1, 2] 64 1 1).outBuf.wf = true ∧ 1 < (onOutput [1, 2] 64 1 1).writePos.toNat ∧
    (issuing 0).hostOps = .write 4 0x008 0 :: [] ∧ IllegalWord (0#32).toNat := by unfold IllegalWord; decide

/-- Two states that differ in a byte of `OUT` at `WRITEPOS`. -/
theorem witness_UnwrittenOutputNeverRead : State.reset.sanitize = true ∧
    SameButUnwrittenOut (onOutput [1, 2] 64 1 1)
      { onOutput [1, 2] 64 1 1 with outBuf := (onOutput [1, 2] 64 1 1).outBuf.write 2 9 } := by
  refine ⟨rfl, rfl, by decide, by decide, fun a ha => ?_⟩
  have h : a < 2 := by simpa [State.wrote, onOutput, inRanges] using ha
  interval_cases a <;> decide

/-- `BuildsAgreeWithoutWarnings`: each of its three cases. -/
theorem witness_BuildsAgreeWithoutWarnings : (∃ t, exec .reset State.reset = .next t) ∧
    (after .run (onInput program1)).warnLog = [] ∧ (after .setrle State.reset).warnLog = State.reset.warnLog :=
  ⟨⟨_, rfl⟩, by decide +kernel, rfl⟩

/-- The step invariants: a state that meets them all, with a step to take. -/
theorem witness_StepKeepsInvariants : (issuing 0x31).sanitize = true ∧ (issuing 0x31).memOk = true ∧
    (issuing 0x31).lanesOk ∧ (issuing 0x31).litOk ∧ (issuing 0x31).tablesOk ∧ (issuing 0x31).stickyOk ∧
    ∃ t, step (issuing 0x31) = .next t := by
  refine ⟨rfl, rfl, ?_, ?_, ⟨fun t => ?_, ?_, ?_⟩, rfl, ⟨_, rfl⟩⟩
  · unfold State.lanesOk; decide +kernel
  · unfold State.litOk; decide
  · intro h; cases t <;> exact absurd h (by decide)
  · unfold State.hufOk; decide +kernel
  · decide +kernel

end Sys2Proof.Tests
end

section
/-! The base case of the step invariants. Each of them follows from the `RESET` column of 10_state.md R68 alone, so the lemmas
are about every state that has those values; `State.reset` is then shown to have them. -/

namespace Sys2Proof.Machine

/-! ### What a lane holds after a reset -/

/-- An empty bit buffer and an empty peek window are in range (R56, R68). -/
@[simp] theorem Lane.reset_bufOk : Lane.reset.bufOk = true := by decide

/-- Zero live states are in range for every table (R60, R68). -/
@[simp] theorem Lane.reset_fseOk : Lane.reset.fseOk = true := by decide

/-! ### Tables that are not built -/

/-- Nothing is asked of a table that is not built (R62). -/
theorem State.fseTableOk_of_not_built {s : State} {t : Tbl} (h : s.built t = false) : s.fseTableOk t :=
  fun hb => absurd hb (by simp [h])

/-- Nothing is asked of the entries of a Huffman table that is not valid (R63). -/
theorem State.hufOk_of_not_hufvalid {s : State} (hwb : s.hufwb.toNat ≤ maxHufBits) (h : s.hufvalid = false) : s.hufOk :=
  ⟨hwb, fun hv => absurd hv (by simp [h])⟩

/-! ### What the state after reset reads as -/

theorem State.reset_lane (l : LaneId) : State.reset.lane l = Lane.reset := by simp [State.lane, State.reset]

theorem State.reset_accLog (t : Tbl) : State.reset.accLog t = 0 := by simp [State.accLog, State.reset]

theorem State.reset_built (t : Tbl) : State.reset.built t = false := by simp [State.built, State.reset]

theorem State.reset_hufWeight (k : Nat) : State.reset.hufWeight k = 0 := by simp [State.hufWeight, State.reset]

theorem State.reset_memOk : State.reset.memOk = true := by simp [State.memOk, State.reset]

end Sys2Proof.Machine

namespace Sys2Proof.Claims

open Sys2Proof.Machine

/-! ### The invariants from the values of R68 -/

section
variable {s : State}

theorem ResetColumn.lane (h : ResetColumn s) (l : LaneId) : s.lane l = Lane.reset := by
  obtain ⟨_, _, _, _, _, hlane, _⟩ := h
  exact hlane l

theorem ResetColumn.lanesOk (h : ResetColumn s) : s.lanesOk := fun l => by simp [h.lane l]

theorem ResetColumn.litOk (h : ResetColumn s) : s.litOk := by
  obtain ⟨_, _, _, _, _, _, _, _, _, _, _, _, _, hemitted, htotal, _⟩ := h
  simp [State.litOk, hemitted, htotal]

theorem ResetColumn.tablesOk (h : ResetColumn s) : s.tablesOk := by
  have hfse : ∀ l, (s.lane l).fseOk = true := fun l => by simp [h.lane l]
  obtain ⟨_, _, _, _, _, _, _, _, _, _, _, _, _, _, _, _, hbuilt, _, _, hwb, hvalid, _⟩ := h
  exact ⟨fun t => State.fseTableOk_of_not_built (hbuilt t).2, State.hufOk_of_not_hufvalid (by simp [hwb]) hvalid, hfse⟩

theorem ResetColumn.stickyOk (h : ResetColumn s) : s.stickyOk := by
  obtain ⟨_, _, _, _, _, _, _, _, _, _, _, _, _, _, _, _, _, _, _, _, _, hsticky, _⟩ := h
  simp [State.stickyOk, hsticky]

end

/-! ### The state the model starts in -/

/-- The state the model starts in has the values of R68. -/
theorem reset_resetColumn : ResetColumn State.reset :=
  ⟨rfl, rfl, rfl, rfl, rfl, State.reset_lane, rfl, rfl, rfl, rfl, rfl, rfl, rfl, rfl, rfl, rfl,
    fun t => ⟨State.reset_accLog t, State.reset_built t⟩, State.reset_hufWeight, rfl, rfl, rfl, rfl, rfl, rfl, rfl⟩

/-- Settles O60: the four invariants come from the values of R68, the build and the buffers from the model's choices. -/
theorem resetSatisfiesInvariants : Obligations.ResetSatisfiesInvariants :=
  have hreset := reset_resetColumn
  ⟨rfl, State.reset_memOk, hreset.lanesOk, hreset.litOk, hreset.tablesOk, hreset.stickyOk⟩

end Sys2Proof.Claims
end

section
/-! The host's side (10_state.md R44 to R55): what a step does with each operation of the host, what each offset of the register
block reads and takes, the fields of `STATUS`, and the values that both resets leave. -/

namespace Sys2Proof.Machine

/-! ### One operation of the host -/

/-- A step takes the next operation of the host and performs it (R55). -/
theorem step_of_hostOps {s : State} {op : HostOp} {rest : List HostOp} (h : s.hostOps = op :: rest) :
    step s = hostStep op { s with hostOps := rest } := by
  simp only [step, h]

/-- An access of another shape is refused before anything else is looked at (R54). -/
theorem accessOk_eq_false {bytes offset : Nat} (h : bytes ≠ 4 ∨ offset % 4 ≠ 0) : accessOk bytes offset = false := by
  rcases h with h | h <;> simp [accessOk, h]

/-- An aligned read within the block delivers the register and changes nothing else (R44). -/
theorem hostStep_read {offset : Nat} (s : State) (ha : offset % 4 = 0) (hb : offset < 0x300) :
    hostStep (.read 4 offset) s = .next { s with hostData := s.hostRead offset } := by
  simp [hostStep, accessOk, blockEnd, ha, hb]

/-- An aligned write within the block that is not to `CMD` issues no command (R44, R45). -/
theorem hostStep_write {offset : Nat} (s : State) (v : Word) (ha : offset % 4 = 0) (hb : offset < 0x300)
    (hc : offset ≠ 0x008) : hostStep (.write 4 offset v) s = .next (s.hostWrite offset v) := by
  simp [hostStep, accessOk, blockEnd, cmdOffset, ha, hb, hc]

/-- A write to `CMD` issues its word (R45). -/
theorem hostStep_command (s : State) (c : Word) : hostStep (.write 4 0x008 c) s = issue c s := rfl

/-- A legal word executes the command it names (R45). -/
theorem issue_of_decode {c : Word} {i : Instr} (h : decode c = .ok i) (s : State) : issue c s = exec i s := by
  simp only [issue, h]

/-! ### The register map -/

/-- The lane that the register at `base + 4l` of a window belongs to is `l` (R44). -/
@[simp] theorem windowLane_add (base : Nat) (l : LaneId) : windowLane base (base + 4 * l.val) = l := by
  simp [windowLane]

/-- Beyond `TACC` a read reaches only the four lane windows (R44). -/
theorem State.hostRead_of_ge (s : State) {offset : Nat} (h : 0x074 ≤ offset) :
    s.hostRead offset =
      if 0x100 ≤ offset ∧ offset < 0x180 then (s.lane (windowLane 0x100 offset)).pv
      else if 0x180 ≤ offset ∧ offset < 0x200 then (s.lane (windowLane 0x180 offset)).sym
      else if 0x200 ≤ offset ∧ offset < 0x280 then s.nv[windowLane 0x200 offset].setWidth 32
      else if 0x280 ≤ offset ∧ offset < 0x300 then (s.lane (windowLane 0x280 offset)).avail.setWidth 32
      else 0 := by
  unfold State.hostRead
  split
  iterate 28 omega
  rfl

/-- The reserved offsets between `TACC` and the lane windows read 0 (R44). -/
theorem State.hostRead_reserved (s : State) {offset : Nat} (h : 0x074 ≤ offset) (h' : offset < 0x100) :
    s.hostRead offset = 0 := by
  rw [s.hostRead_of_ge h]
  simp [show ¬ 0x100 ≤ offset by omega, show ¬ 0x180 ≤ offset by omega, show ¬ 0x200 ≤ offset by omega,
    show ¬ 0x280 ≤ offset by omega]

/-- Each lane window reads its lane's register (R44, R53, R56, R61). -/
theorem State.hostRead_windows (s : State) (l : LaneId) :
    s.hostRead (0x100 + 4 * l.val) = (s.lane l).pv ∧ s.hostRead (0x180 + 4 * l.val) = (s.lane l).sym ∧
      s.hostRead (0x200 + 4 * l.val) = s.nv[l].setWidth 32 ∧
      s.hostRead (0x280 + 4 * l.val) = (s.lane l).avail.setWidth 32 := by
  have hl := l.isLt
  refine ⟨?_, ?_, ?_, ?_⟩
  · rw [s.hostRead_of_ge (by omega), if_pos (by omega), windowLane_add]
  · rw [s.hostRead_of_ge (by omega), if_neg (by omega), if_pos (by omega), windowLane_add]
  · rw [s.hostRead_of_ge (by omega), if_neg (by omega), if_neg (by omega), if_pos (by omega)]
    simp only [windowLane_add]
  · rw [s.hostRead_of_ge (by omega), if_neg (by omega), if_neg (by omega), if_neg (by omega), if_pos (by omega),
      windowLane_add]

/-- A write to `NV[l]` keeps bits [5:0] (R53). -/
theorem State.hostWrite_nv (s : State) (l : LaneId) (v : Word) :
    s.hostWrite (0x200 + 4 * l.val) v = { s with nv := s.nv.set l (v.extractLsb' 0 6) } := by
  have hl := l.isLt
  unfold State.hostWrite
  split
  iterate 4 omega
  rw [if_pos (by omega), BitVec.setWidth_eq_extractLsb' (by omega)]
  simp only [windowLane_add]

/-- A write to an offset that holds no set-up register is ignored (R44). -/
theorem State.hostWrite_ignored (s : State) {offset : Nat} (v : Word) (hw : ¬ (0x200 ≤ offset ∧ offset < 0x280))
    (hs : offset ∉ [0x00C, 0x010, 0x02C, 0x030]) : s.hostWrite offset v = s := by
  unfold State.hostWrite
  split
  iterate 4 exact absurd (by decide) hs
  rw [if_neg hw]

/-! ### The values that are put together for the host -/

/-- `BUILD` is its four fields (R51). -/
theorem State.build_eq (s : State) :
    s.build = (6#8 ++ 11#8 ++ 32#8 ++ 0#7) ++ BitVec.ofBool s.sanitize := by
  unfold State.build
  cases s.sanitize <;> rfl

/-- The value of two words side by side. -/
theorem append_toNat {m n : Nat} (x : BitVec m) (y : BitVec n) : (x ++ y).toNat = x.toNat * 2 ^ n + y.toNat := by
  rw [BitVec.toNat_append, ← Nat.shiftLeft_add_eq_or_of_lt y.isLt, Nat.shiftLeft_eq]

/-- `TACC` is the accuracy logs of the four tables, each in its nibble (R44). -/
theorem State.taccView_eq (s : State) :
    s.taccView = 0#16 ++ s.tacc[3] ++ s.tacc[2] ++ s.tacc[1] ++ s.tacc[0] := by
  apply BitVec.eq_of_toNat_eq
  have h0 := s.tacc[0].isLt
  have h1 := s.tacc[1].isLt
  have h2 := s.tacc[2].isLt
  have h3 := s.tacc[3].isLt
  simp only [append_toNat, State.taccView, State.accLog, tblIdx, Fin.getElem_fin, Fin.val_zero, Fin.val_one, Fin.val_two,
    show ((3 : Fin 4) : Nat) = 3 from rfl, BitVec.toNat_ofNat]
  omega

/-! ### `STATUS` (R48) -/

theorem bit_eq (b : Bool) (i : Nat) : bit b i = b.toNat * 2 ^ i := by cases b <;> simp [bit]

theorem RunState.code_le (r : RunState) : r.code ≤ 4 := by cases r <;> decide

/-- The fields of `STATUS`, each at its place: none runs into the next, and none is lost. -/
theorem State.status_toNat (s : State) :
    s.status.toNat =
      (decide (s.runState = .done)).toNat * 2 + s.runState.code * 4 + (s.stickyView != 0).toNat * 2 ^ 5 +
        s.hufvalid.toNat * 2 ^ 6 + (s.built .ll).toNat * 2 ^ 7 + (s.built .ml).toNat * 2 ^ 8 +
        (s.built .off).toNat * 2 ^ 9 + (s.built .hw).toNat * 2 ^ 10 := by
  have hr := s.runState.code_le
  have hbool := fun b => Bool.toNat_le b
  simp only [State.status, bit_eq, BitVec.toNat_ofNat, Nat.pow_one]
  apply Nat.mod_eq_of_lt
  linarith [hbool (decide (s.runState = .done)), hbool (s.stickyView != 0), hbool s.hufvalid, hbool (s.built .ll),
    hbool (s.built .ml), hbool (s.built .off), hbool (s.built .hw)]

end Sys2Proof.Machine

namespace Sys2Proof.Claims

open Sys2Proof.Machine

/-- Settles O5: the operation taken is the write to `CMD`, and its word decodes. -/
theorem stepRunsIssuedCommand : Obligations.StepRunsIssuedCommand := by
  refine ⟨fun s rest w i hops hdec => ?_, fun s w i hdec => ?_, fun s hops => ?_⟩
  · rw [step_of_hostOps hops, hostStep_command, issue_of_decode hdec]
  · have hword : decode (BitVec.ofNat 32 (w % 2 ^ 32)) = .ok i := by
      cases hd : decode (BitVec.ofNat 32 (w % 2 ^ 32)) with
      | error e => rw [decodeTableWord, hd] at hdec; exact absurd hdec nofun
      | ok j => rw [decodeTableWord, hd] at hdec; exact congrArg _ (Option.some.inj hdec)
    rw [step_of_hostOps (s := s.withFetchWord 32 w) rfl]
    exact issue_of_decode hword s
  · simp only [step, hops]

/-- Settles O7: the shape of an access is checked first. -/
theorem misalignedAccessRefused : Obligations.MisalignedAccessRefused := by
  intro s rest bytes offset v hshape
  have hacc := accessOk_eq_false hshape
  refine ⟨fun hops => ?_, fun hops => ?_⟩ <;> simp [step_of_hostOps hops, hostStep, hacc]

/-- Settles O8: a read delivers `hostRead` of its offset, and that is the register map. -/
theorem hostReadsRegisters : Obligations.HostReadsRegisters := by
  intro s rest
  have read : ∀ (offset : Nat) (v : Word), offset % 4 = 0 → offset < 0x300 → s.hostRead offset = v →
      step { s with hostOps := .read 4 offset :: rest } = .next { s with hostOps := rest, hostData := v } := by
    intro offset v ha hb hv
    rw [step_of_hostOps rfl, hostStep_read _ ha hb, ← hv]
    rfl
  refine ⟨rfl, read _ _ rfl (by decide) s.build_eq, rfl, rfl, rfl, fun hi lo h => ⟨?_, ?_⟩, rfl, rfl, rfl, rfl, rfl,
    fun hi lo h => ⟨?_, ?_⟩, fun hi lo h => ⟨?_, ?_⟩, rfl, rfl, rfl, rfl, rfl, rfl, rfl, rfl, rfl, rfl, rfl,
    read _ _ rfl (by decide) s.taccView_eq, fun l => ?_,
    fun offset ha hge hlt => read _ _ ha (by omega) (s.hostRead_reserved hge hlt)⟩
  iterate 3
    · exact read _ _ rfl (by decide) ((congrArg (BitVec.extractLsb' 0 32) h).trans BitVec.extractLsb'_append_eq_right)
    · exact read _ _ rfl (by decide) ((congrArg (BitVec.extractLsb' 32 32) h).trans BitVec.extractLsb'_append_eq_left)
  · obtain ⟨hpv, hsym, hnv, havail⟩ := s.hostRead_windows l
    exact ⟨read _ _ (by omega) (by omega) hpv, read _ _ (by omega) (by omega) hsym, read _ _ (by omega) (by omega) hnv,
      read _ _ (by omega) (by omega) havail⟩

/-- Settles O9: the five arms of `hostWrite`. -/
theorem hostWritesRegisters : Obligations.HostWritesRegisters := by
  intro s rest v
  refine ⟨rfl, rfl, rfl, rfl, fun l => ?_, fun offset ha hb hwin hset => ?_⟩
  · show step _ = _
    rw [step_of_hostOps rfl, hostStep_write _ _ (by omega) (by omega) (by omega), State.hostWrite_nv]
  · show step _ = _
    rw [List.mem_cons, not_or] at hset
    rw [step_of_hostOps rfl, hostStep_write _ _ ha hb hset.1, State.hostWrite_ignored _ v hwin hset.2]

end Sys2Proof.Claims

namespace Sys2Proof.Machine

open Sys2Proof.Claims

/-! ### The values after a reset -/

theorem State.doReset_lane (s : State) (l : LaneId) : s.doReset.lane l = Lane.reset := by simp [State.lane, State.doReset]

/-- `Reset()` leaves the values of the `RESET` column (R68, R401). -/
theorem State.doReset_resetColumn (s : State) : ResetColumn s.doReset :=
  ⟨rfl, rfl, rfl, rfl, rfl, s.doReset_lane, rfl, rfl, rfl, rfl, rfl, rfl, rfl, rfl, rfl, rfl,
    fun k => by simp [State.accLog, State.built, State.doReset],
    fun k => by simp [State.hufWeight, State.doReset], rfl, rfl, rfl, rfl, rfl, rfl, rfl⟩

/-- Power-on differs from `Reset()` in the set-up registers alone (R500, R501). -/
theorem State.doPowerOn_resetColumn (s : State) : ResetColumn s.doPowerOn := s.doReset_resetColumn

end Sys2Proof.Machine

namespace Sys2Proof.Claims

open Sys2Proof.Machine

/-- After a reset `STATUS` is 0 (R48). -/
theorem ResetColumn.status_eq_zero {s : State} (h : ResetColumn s) : s.status = 0 := by
  obtain ⟨_, _, _, _, _, _, hrun, _, _, _, _, _, _, _, _, _, htables, _, _, _, hvalid, hsticky, _⟩ := h
  have hbuilt : ∀ k, s.built k = false := fun k => (htables k).2
  simp [State.status, bit, RunState.code, State.stickyView, hrun, hvalid, hsticky, hbuilt]

/-- Settles O14: both the start state and the power-on operation give the column of R68. -/
theorem powerOnResetValues : Obligations.PowerOnResetValues := by
  refine ⟨⟨reset_resetColumn, rfl, rfl, fun l => by simp [State.reset], rfl, rfl, reset_resetColumn.status_eq_zero⟩,
    fun s rest => ⟨_, rfl, ⟨State.doPowerOn_resetColumn _, rfl, rfl, fun l => by simp [State.doPowerOn], rfl, rfl,
      (State.doPowerOn_resetColumn _).status_eq_zero⟩, ⟨rfl, rfl⟩, rfl, rfl⟩⟩

/-- Settles O11: the sum of `status_toNat` taken apart at the places of R48. -/
theorem statusFields : Obligations.StatusFields := by
  refine ⟨fun s => ?_, fun s rest => rfl, fun s rest v => rfl, reset_resetColumn.status_eq_zero, fun s t h => ?_⟩
  · have hr := s.runState.code_le
    have hd := Bool.toNat_le (decide (s.runState = .done))
    have hw := Bool.toNat_le (s.stickyView != 0)
    have hh := Bool.toNat_le s.hufvalid
    have hll := Bool.toNat_le (s.built .ll)
    have hml := Bool.toNat_le (s.built .ml)
    have hof := Bool.toNat_le (s.built .off)
    have hhw := Bool.toNat_le (s.built .hw)
    have hdone : (decide (s.runState = .done)).toNat = if s.runState = .done then 1 else 0 := by split <;> simp [*]
    have hwarned : (s.stickyView != 0).toNat = if s.warnSticky &&& 0x000FFFFE#32 = 0 then 0 else 1 := by
      simp only [State.stickyView, stickyMask, bne]
      split <;> simp_all
    rw [s.status_toNat, ← hdone, ← hwarned]
    refine ⟨rfl, by omega, by omega, ?_, by omega, by omega, fun t => ?_, by omega⟩
    · show _ = s.runState.code
      omega
    · cases t <;> simp only [tblIdx, Fin.val_zero, Fin.val_one, Fin.val_two, show ((3 : Fin 4) : Nat) = 3 from rfl] <;>
        omega
  · have ht : s.doReset = t := by simpa [exec, execReset] using h
    exact ht ▸ s.doReset_resetColumn.status_eq_zero

end Sys2Proof.Claims
end

section
/-! What the lane readers leave alone, what a distribution read from the stream adds up to, and one induction over everything
a command does that is sharper than `Closed`: it counts the words loaded and the bytes produced, and it knows of every update
of the live states, the tables and the literal counters that the value written is in range. -/

namespace Sys2Proof.Machine

open Sys2Proof.Claims

/-! ### The frame of the lane readers -/

/-- `t` differs from `s` at most in the lane registers, the input cursor and the warnings: what the peeks, the discards and the
decodes write. -/
def LaneFrame (s t : State) : Prop := t = { warningsOf s t with readPos := t.readPos, lanes := t.lanes }

theorem LaneFrame.refl (s : State) : LaneFrame s s := rfl

theorem LaneFrame.trans {s t u : State} (h : LaneFrame s t) (k : LaneFrame t u) : LaneFrame s u := by
  unfold LaneFrame at *
  rw [k, h]
  rfl

theorem LaneFrame.warn (c : Warn) (s : State) : LaneFrame s (s.warn c) := rfl

theorem LaneFrame.modLane (l : LaneId) (f : Lane → Lane) (s : State) : LaneFrame s (s.modLane l f) := rfl

theorem LaneFrame.ite {p : Prop} [Decidable p] {s t u : State} (ht : LaneFrame s t) (hu : LaneFrame s u) :
    LaneFrame s (if p then t else u) := by
  split <;> assumption

theorem LaneFrame.forLanes {f : LaneId → State → State} (hf : ∀ l s, LaneFrame s (f l s)) (ls : List LaneId) (s : State) :
    LaneFrame s (forLanes ls f s) :=
  forLanes_keeps ls (P := LaneFrame s) (fun l _ t ht => ht.trans (hf l t)) (.refl s)

theorem LaneFrame.refill (l : LaneId) (n : Nat) (s : State) : LaneFrame s (s.refill l n) :=
  .ite (t := s.inWord.2.modLane l fun x => x.load s.inWord.1) rfl (.refl s)

theorem LaneFrame.drop (l : LaneId) (n : Nat) (s : State) : LaneFrame s (s.drop l n) := .ite rfl rfl

theorem LaneFrame.peekLane (l : LaneId) (w : Nat) (s : State) : LaneFrame s (s.peekLane l w) := by
  have hwarn : LaneFrame s (if 32 < w then s.warn .peekWidth else s) := .ite (.warn _ s) (.refl s)
  unfold State.peekLane
  exact (hwarn.trans (.refill l _ _)).trans (.modLane l _ _)

theorem LaneFrame.peekV (ls : List LaneId) (w : LaneId → Nat) (s : State) : LaneFrame s (s.peekV ls w) :=
  .forLanes (fun l s => .peekLane l (w l) s) ls s

theorem LaneFrame.takeCell (l : LaneId) (t : Tbl) (c : FseCell) (s : State) : LaneFrame s (s.takeCell l t c) := rfl

theorem LaneFrame.fseDecLane (t : Tbl) (l : LaneId) (s : State) : LaneFrame s (s.fseDecLane t l) :=
  (LaneFrame.drop l _ s).trans (.takeCell l t _ _)

theorem LaneFrame.fseDecNPLane (t : Tbl) (l : LaneId) (s : State) : LaneFrame s (s.fseDecNPLane t l) := by
  have hwarn : LaneFrame s (if (s.lane l).pw.toNat < (s.lane l).dacc.toNat + s.fsd l t then s.warn .windowOverrun else s) :=
    .ite (.warn _ s) (.refl s)
  exact (hwarn.trans (.modLane l _ _)).trans (.takeCell l t _ _)

theorem LaneFrame.decodeUnbuilt (ls : List LaneId) (s : State) : LaneFrame s (s.decodeUnbuilt ls) :=
  (LaneFrame.warn _ s).trans (.forLanes (fun l s => .modLane l _ s) ls _)

theorem LaneFrame.fseDecNP (t : Tbl) (ls : List LaneId) (s : State) : LaneFrame s (s.fseDecNP t ls) :=
  .ite (.forLanes (fun l s => .fseDecNPLane t l s) ls s) (.decodeUnbuilt ls s)

theorem LaneFrame.hufDecLane (l : LaneId) (s : State) : LaneFrame s (s.hufDecLane l) :=
  (LaneFrame.modLane l _ s).trans (.drop l _ _)

theorem LaneFrame.hufDec (ls : List LaneId) (s : State) : LaneFrame s (s.hufDec ls) :=
  .ite ((LaneFrame.peekV ls _ s).trans (.forLanes LaneFrame.hufDecLane ls _)) (.decodeUnbuilt ls s)

theorem LaneFrame.built {s t : State} (h : LaneFrame s t) (k : Tbl) : t.built k = s.built k := by rw [h]; rfl

theorem LaneFrame.maxLit {s t : State} (h : LaneFrame s t) : t.maxLit = s.maxLit := by rw [h]; rfl

theorem LaneFrame.litEmitted {s t : State} (h : LaneFrame s t) : t.litEmitted = s.litEmitted := by rw [h]; rfl

/-- All four FSE tables are in range (R62). -/
def State.fseTablesOk (s : State) : Prop := ∀ k, s.fseTableOk k

/-- The lane readers do not write the tables. -/
theorem LaneFrame.fseTablesOk_iff {s t : State} (h : LaneFrame s t) : t.fseTablesOk ↔ s.fseTablesOk := by rw [h]; rfl

/-- `ReadByte` does not write the literal counters (R202). -/
theorem State.readByte_maxLit (s : State) : s.readByte.2.maxLit = s.maxLit := by rw [s.readByte_taken.2.2]

theorem State.readByte_litEmitted (s : State) : s.readByte.2.litEmitted = s.litEmitted := by rw [s.readByte_taken.2.2]

/-! ### Cells of a table in range -/

theorem maxAcc_le (t : Tbl) : maxAcc t ≤ 9 := by cases t <;> decide

theorem minAccuracyLog_le_maxAcc (t : Tbl) : minAccuracyLog ≤ maxAcc t := by cases t <;> decide

theorem maxSym_le (t : Tbl) : maxSym t ≤ 52 := by cases t <;> decide

theorem FseCell.ok_iff {t : Tbl} {A : Nat} {c : FseCell} :
    c.ok t A = true ↔ c.sym.toNat ≤ maxSym t ∧ c.nb.toNat ≤ A ∧ c.base.toNat + 2 ^ c.nb.toNat ≤ 2 ^ A := by
  simp [FseCell.ok, and_assoc]

/-- Any cell that a decode through a built table in range reads is a cell of the table (R251, R62). -/
theorem State.cell_ok {s : State} {t : Tbl} (h : s.fseTableOk t) (hb : s.built t = true) (x : Nat) :
    (s.cell t x).ok t (s.accLog t) = true :=
  (h hb).2.2 _ (Nat.mod_lt _ (Nat.two_pow_pos _))

/-- The next state such a cell gives is a live state in range (R60). -/
theorem State.cell_live {s : State} {t : Tbl} (h : s.fseTableOk t) (hb : s.built t = true) (x : Nat) :
    (s.cell t x).base.toNat < 2 ^ 9 ∧ (s.cell t x).nb.toNat ≤ 9 := by
  obtain ⟨-, hnb, hbase⟩ := FseCell.ok_iff.1 (State.cell_ok h hb x)
  have hA : s.accLog t ≤ 9 := (h hb).2.1.trans (maxAcc_le t)
  have hsize : 2 ^ s.accLog t ≤ 2 ^ 9 := Nat.pow_le_pow_right (by omega) hA
  have hpos := Nat.two_pow_pos (s.cell t x).nb.toNat
  exact ⟨by omega, by omega⟩

/-! ### Distributions (42_fse.md R253, R254) -/

/-- A distribution that a table can be built from: a legal accuracy log, a probability for each symbol, and the sum 2^A (R253). -/
structure TableSpec (t : Tbl) (A : Nat) (prob : List Nat) : Prop where
  min_le : minAccuracyLog ≤ A
  le_max : A ≤ maxAcc t
  length : prob.length = maxSym t + 1
  sum : prob.sum = 2 ^ A

theorem tableSpec_predefined {t : Tbl} {p : Nat × List Nat} (h : predefined t = some p) : TableSpec t p.1 p.2 := by
  cases t with
  | hw => exact absurd h nofun
  | ll => obtain rfl := Option.some.inj h; exact ⟨by decide, by decide, rfl, rfl⟩
  | ml => obtain rfl := Option.some.inj h; exact ⟨by decide, by decide, rfl, rfl⟩
  | off => obtain rfl := Option.some.inj h; exact ⟨by decide, by decide, rfl, rfl⟩

/-- Replacing one entry of a list moves its sum by the difference. -/
theorem sum_set_add_getD (ps : List Nat) (k v : Nat) (h : k < ps.length) :
    (ps.set k v).sum + ps.getD k 0 = ps.sum + v := by
  induction ps generalizing k with
  | nil => exact absurd h (by simp)
  | cons p ps ih =>
    cases k with
    | zero => simp; omega
    | succ k =>
      have := ih k (by simpa using h)
      simp only [List.set_cons_succ, List.sum_cons, List.getD_cons_succ]
      omega

/-- How far a distribution is read (R254): the probabilities so far add up to `cum`, which is within the budget, and none was
read from symbol `sym` on. -/
structure DistProgress.Wf (t : Tbl) (A : Nat) (d : DistProgress) : Prop where
  length : d.prob.length = maxSym t + 1
  sum : d.prob.sum = d.cum
  cum_le : d.cum ≤ 2 ^ A
  unread : ∀ k, d.sym ≤ k → d.prob.getD k 0 = 0

theorem distStart_wf (t : Tbl) (A : Nat) (s : State) : (distStart t s).Wf t A where
  length := by simp [distStart]
  sum := by simp [distStart]
  cum_le := Nat.zero_le _
  unread := fun k _ => by simp [distStart]

theorem takeCode_wf {t : Tbl} {A : Nat} {d : DistProgress} (h : d.Wf t A) (l : LaneId) : (takeCode t A d l).Wf t A := by
  obtain ⟨hlen, hsum, hcum, hunread⟩ := h
  unfold takeCode
  split
  · rename_i hmore
    obtain ⟨hlt, hsym⟩ : d.cum < 2 ^ A ∧ d.sym ≤ maxSym t := by simpa [DistProgress.more] using hmore
    simp only
    generalize hv : min (lowBits (highbit1 (2 ^ A - d.cum)) (d.mach.lane l).pv.toNat) (2 ^ A - d.cum) = v
    have hvle : v ≤ 2 ^ A - d.cum := hv ▸ Nat.min_le_right _ _
    split
    · exact ⟨hlen, hsum, hcum, fun k hk => hunread k (by simp only at hk; omega)⟩
    · have hset := sum_set_add_getD d.prob d.sym v (by omega)
      rw [hunread d.sym (le_refl _)] at hset
      refine ⟨by simpa using hlen, by simp only; omega, by simp only; omega, fun k hk => ?_⟩
      have hne : d.sym ≠ k := by simp only at hk; omega
      simp only at hk ⊢
      rw [List.getD_eq_getElem?_getD, List.getElem?_set_ne hne, ← List.getD_eq_getElem?_getD]
      exact hunread k (by omega)
  · exact ⟨hlen, hsum, hcum, hunread⟩

theorem distRound_wf {t : Tbl} {A : Nat} {d : DistProgress} (h : d.Wf t A) : (distRound t A d).Wf t A := by
  have hcodes : ∀ (ls : List LaneId) (d : DistProgress), d.Wf t A → (ls.foldl (takeCode t A) d).Wf t A := by
    intro ls
    induction ls with
    | nil => exact fun _ hd => hd
    | cons l ls ih => exact fun d hd => ih _ (takeCode_wf hd l)
  exact hcodes allLanes _ ⟨h.length, h.sum, h.cum_le, h.unread⟩

theorem distLoop_wf {t : Tbl} {A : Nat} (fuel : Nat) {d : DistProgress} (h : d.Wf t A) : (distLoop t A fuel d).Wf t A := by
  induction fuel generalizing d with
  | zero => exact h
  | succ n ih =>
    unfold distLoop
    split
    · exact ih (distRound_wf h)
    · exact h

/-- The symbol that takes a deficit is one of the alphabet (R254). -/
theorem lastNonzero_lt (ps : List Nat) (k best : Nat) (h : best < k + ps.length) :
    lastNonzero ps k best < k + ps.length := by
  induction ps generalizing k best with
  | nil => exact h
  | cons p ps ih =>
    have hb : (if 0 < p then k else best) < k + 1 + ps.length := by
      simp only [List.length_cons] at h
      split <;> omega
    have := ih (k + 1) _ hb
    simp only [lastNonzero, List.length_cons]
    omega

/-- A completed distribution has a probability for each symbol, and the sum 2^A (R254). -/
theorem distComplete_sum {t : Tbl} {A : Nat} {d : DistProgress} (h : d.Wf t A) :
    (distComplete A d).1.length = maxSym t + 1 ∧ (distComplete A d).1.sum = 2 ^ A := by
  obtain ⟨hlen, hsum, hcum, -⟩ := h
  unfold distComplete
  split
  · have hk : lastNonzero d.prob 0 0 < d.prob.length := by simpa using lastNonzero_lt d.prob 0 0 (by omega)
    have hset := sum_set_add_getD d.prob _ (d.prob.getD (lastNonzero d.prob 0 0) 0 + (2 ^ A - d.cum)) hk
    exact ⟨by simpa using hlen, by simp only; omega⟩
  · exact ⟨hlen, by simp only; omega⟩

/-- `ReadDistribution` answers a distribution that a table can be built from, whatever the stream holds (R254). -/
theorem State.readDistribution_spec (s : State) {t : Tbl} {A : Nat} (hmin : minAccuracyLog ≤ A) (hmax : A ≤ maxAcc t) :
    TableSpec t A (s.readDistribution t A).1 := by
  obtain ⟨hlen, hsum⟩ := distComplete_sum (distLoop_wf (maxSym t + 1) (distStart_wf t A s))
  exact ⟨hmin, hmax, hlen, hsum⟩

/-- The accuracy log of `FSEBUILD` is legal after its two clamps (R256). -/
theorem State.clampAcc_mem (t : Tbl) (a : Nat) (s : State) :
    minAccuracyLog ≤ (s.clampAcc t a).1 ∧ (s.clampAcc t a).1 ≤ maxAcc t := by
  have := minAccuracyLog_le_maxAcc t
  unfold State.clampAcc
  split
  · exact ⟨this, le_refl _⟩
  · split <;> exact ⟨by simp only; omega, by simp only; omega⟩

/-! ### How many lanes -/

theorem laneRange_length_le (lo cnt : Nat) : (laneRange lo cnt).length ≤ cnt := by
  have hnodup : ((laneRange lo cnt).map Fin.val).Nodup := (laneRange_nodup lo cnt).map Fin.val_injective
  have hsub : ((laneRange lo cnt).map Fin.val).toFinset ⊆ Finset.Ico lo (lo + cnt) := by
    intro k hk
    obtain ⟨l, hl, rfl⟩ := List.mem_map.1 (List.mem_toFinset.1 hk)
    exact Finset.mem_Ico.2 (mem_laneRange.1 hl)
  have hcard := Finset.card_le_card hsub
  rw [List.toFinset_card_of_nodup hnodup, List.length_map, Nat.card_Ico] at hcard
  omega

theorem allLanes_length : allLanes.length = 32 := List.length_finRange

theorem laneRange_length_le_32 (lo cnt : Nat) : (laneRange lo cnt).length ≤ 32 :=
  allLanes_length ▸ List.length_filter_le _ _

/-! ### The sharper induction -/

/-- A family of relations between states, `R a b s t` being read as "`t` comes from `s` by a part of a command that loads at
most `a` input words and produces at most `b` bytes, literals apart", that every elementary update respects. A literal is
counted by `LITEMITTED` instead; opening a literal section, which empties that counter, stands for the 2^32 it can have
counted. A live state is only ever set in range of the tables, a table only built from a distribution, a literal only emitted
below `MAXLIT`, and `LITTOTAL` only set up to it. -/
structure Tracked (R : Nat → Nat → State → State → Prop) : Prop where
  refl : ∀ s, R 0 0 s s
  trans : ∀ {a b c d s t u}, R a b s t → R c d t u → R (a + c) (b + d) s u
  mono : ∀ {a b c d s t}, a ≤ c → b ≤ d → R a b s t → R c d s t
  warn : ∀ c s, R 0 0 s (s.warn c)
  inWord : ∀ s, R 1 0 s s.inWord.2
  emit : ∀ b s, R 0 1 s (s.emit b)
  refill : ∀ l n s, n ≤ 32 → R 1 0 s (s.refill l n)
  window : ∀ l n s, n ≤ 32 → R 0 0 s (s.modLane l fun x => x.window n)
  drop : ∀ l n s, R 0 0 s (s.drop l n)
  setDacc : ∀ l v s, R 0 0 s (s.modLane l fun x => { x with dacc := v })
  emptyLane : ∀ l s, R 0 0 s (s.modLane l fun x => { x with buf := 0, avail := 0, dacc := 0 })
  clearCache : ∀ s, R 0 0 s { s with rcn := 0, rcb := Vector.replicate 4 0 }
  fillCache : ∀ w s, R 0 0 s (s.fillCache w)
  takeCached : ∀ s, R 0 0 s s.takeCached.2
  setSym : ∀ l v s, R 0 0 s (s.setSym l v)
  setFse : ∀ l t base nb s, (s.fseTablesOk → base.toNat < 2 ^ 9 ∧ nb.toNat ≤ 9) → R 0 0 s (s.setFse l t base nb)
  buildTable : ∀ t A prob s, TableSpec t A prob → R 0 0 s (s.buildTable t A prob)
  clearWeights : ∀ s, R 0 0 s s.clearWeights
  setHufWeight : ∀ k w s, R 0 0 s (s.setHufWeight k w)
  setHufn : ∀ n s, R 0 0 s (s.setHufn n)
  hufExpand : ∀ s, R 0 0 s s.hufExpand.2
  openLits : ∀ m n s, R 0 (2 ^ 32) s { s with litMode := m, maxLit := n, litEmitted := 0, litTotal := 0 }
  setRle : ∀ b s, R 0 0 s (s.setRle b)
  emitLit : ∀ b s, s.litEmitted.toNat < s.maxLit.toNat → R 0 0 s (s.emitLit b)
  setRep : ∀ a b c s, R 0 0 s (s.setRep a b c)
  setLitTotal : ∀ n s, n ≤ s.maxLit.toNat → R 0 0 s (s.setLitTotal n)
  setNumSeq : ∀ n s, R 0 0 s (s.setNumSeq n)
  setRunState : ∀ r s, R 0 0 s (s.setRunState r)
  setRes : ∀ v s, R 0 0 s { s with res := v }

/-- A relation closed under the elementary updates, and under a change of `RES`, needs no count and no range. -/
theorem Closed.tracked {R : State → State → Prop} (h : Closed R) (hres : ∀ v s, R s { s with res := v }) :
    Tracked fun _ _ => R where
  refl := h.refl
  trans := h.trans
  mono _ _ := id
  warn := h.warn
  inWord := h.inWord
  emit := h.emit
  refill := h.refill
  window := h.window
  drop := h.drop
  setDacc := h.setDacc
  emptyLane := h.emptyLane
  clearCache := h.clearCache
  fillCache := h.fillCache
  takeCached := h.takeCached
  setSym := h.setSym
  setFse l t base nb s _ := h.setFse l t base nb s
  buildTable t A prob s _ := h.buildTable t A prob s
  clearWeights := h.clearWeights
  setHufWeight := h.setHufWeight
  setHufn := h.setHufn
  hufExpand := h.hufExpand
  openLits := h.openLits
  setRle := h.setRle
  emitLit b s _ := h.emitLit b s
  setRep := h.setRep
  setLitTotal n s _ := h.setLitTotal n s
  setNumSeq := h.setNumSeq
  setRunState := h.setRunState
  setRes := hres

section
variable {R : Nat → Nat → State → State → Prop} (h : Tracked R)
include h

/-- Two parts in a row, within given bounds. -/
theorem Tracked.seq {a b c d m n : Nat} {s t u : State} (hst : R a b s t) (htu : R c d t u) (hm : a + c ≤ m := by omega)
    (hn : b + d ≤ n := by omega) : R m n s u :=
  h.mono hm hn (h.trans hst htu)

/-- A part that loads and produces nothing costs nothing. -/
theorem Tracked.free {a b : Nat} {s t u : State} (hst : R a b s t) (htu : R 0 0 t u) : R a b s u := h.trans hst htu

/-- A part that loads and produces nothing, first. -/
theorem Tracked.free_left {a b : Nat} {s t u : State} (hst : R 0 0 s t) (htu : R a b t u) : R a b s u := h.seq hst htu

theorem Tracked.ite {p : Prop} [Decidable p] {a b : Nat} {s t u : State} (ht : R a b s t) (hu : R a b s u) :
    R a b s (if p then t else u) := by
  have _ := h.refl s
  split <;> assumption

/-- A visit of lanes, each visit in a state that `I` holds of. -/
theorem Tracked.forLanes_of {I : State → Prop} {a b : Nat} {f : LaneId → State → State} {ls : List LaneId}
    (hf : ∀ l ∈ ls, ∀ s, I s → R a b s (f l s) ∧ I (f l s)) {s : State} (hs : I s) :
    R (ls.length * a) (ls.length * b) s (forLanes ls f s) := by
  induction ls generalizing s with
  | nil => exact h.mono (Nat.zero_le _) (Nat.zero_le _) (h.refl s)
  | cons l ls ih =>
    obtain ⟨hl, hI⟩ := hf l (by simp) s hs
    exact h.seq hl (ih (fun k hk => hf k (by simp [hk])) hI) (by simp [Nat.add_mul]; omega) (by simp [Nat.add_mul]; omega)

theorem Tracked.forLanes {a b : Nat} {f : LaneId → State → State} (hf : ∀ l s, R a b s (f l s)) (ls : List LaneId)
    (s : State) : R (ls.length * a) (ls.length * b) s (forLanes ls f s) :=
  h.forLanes_of (I := fun _ => True) (fun l _ s _ => ⟨hf l s, trivial⟩) trivial

theorem Tracked.times {a b : Nat} {f : State → State} (hf : ∀ s, R a b s (f s)) (n : Nat) (s : State) :
    R (n * a) (n * b) s (times n f s) := by
  induction n generalizing s with
  | zero => exact h.mono (Nat.zero_le _) (Nat.zero_le _) (h.refl s)
  | succ n ih => exact h.seq (hf s) (ih _) (by simp [Nat.add_mul]; omega) (by simp [Nat.add_mul]; omega)

/-! The bitstream reader. -/

theorem Tracked.peekLane (l : LaneId) (w : Nat) (s : State) : R 1 0 s (s.peekLane l w) :=
  h.free (h.free_left (h.ite (h.warn _ s) (h.refl s)) (h.refill l _ _ (Nat.min_le_right _ _)))
    (h.window l _ _ (Nat.min_le_right _ _))

theorem Tracked.peekV (ls : List LaneId) (w : LaneId → Nat) (s : State) : R ls.length 0 s (s.peekV ls w) :=
  h.mono (by omega) (by omega) (h.forLanes (fun l s => h.peekLane l (w l) s) ls s)

theorem Tracked.discardV (ls : List LaneId) (w : LaneId → Nat) (s : State) : R 0 0 s (s.discardV ls w) :=
  h.forLanes (fun l s => h.drop l (w l) s) ls s

theorem Tracked.discardAcc (ls : List LaneId) (s : State) : R 0 0 s (s.discardAcc ls) :=
  h.forLanes (fun l s => h.free (h.drop l _ s) (h.setDacc l 0 _)) ls s

theorem Tracked.readByte (s : State) : R 1 0 s s.readByte.2 := by
  unfold State.readByte
  split
  · exact h.free (h.free (h.inWord s) (h.fillCache s.inWord.1 _)) (h.takeCached _)
  · exact h.mono (by omega) (by omega) (h.takeCached s)

theorem Tracked.sync (s : State) : R 0 0 s s.sync := h.free (h.clearCache s) (h.forLanes h.emptyLane allLanes _)

/-! The FSE engine. -/

theorem Tracked.takeCode (t : Tbl) (A : Nat) (d : DistProgress) (l : LaneId) :
    R 0 0 d.mach (Machine.takeCode t A d l).mach := by
  unfold Machine.takeCode
  split
  · simp only
    split <;> exact h.free (h.ite (h.warn _ _) (h.refl _)) (h.drop _ _ _)
  · exact h.refl _

theorem Tracked.distRound (t : Tbl) (A : Nat) (d : DistProgress) : R 32 0 d.mach (Machine.distRound t A d).mach := by
  have hcodes : ∀ (ls : List LaneId) (d : DistProgress), R 0 0 d.mach (ls.foldl (Machine.takeCode t A) d).mach := by
    intro ls
    induction ls with
    | nil => exact fun d => h.refl _
    | cons l ls ih => exact fun d => h.free (h.takeCode t A d l) (ih _)
  exact h.seq (h.peekV allLanes (fun _ => maxAcc t + 1 + zprb) d.mach)
    (hcodes allLanes { d with mach := d.mach.peek allLanes (maxAcc t + 1 + zprb) }) (by simp [allLanes_length])

theorem Tracked.distLoop (t : Tbl) (A fuel : Nat) (d : DistProgress) :
    R (32 * fuel) 0 d.mach (Machine.distLoop t A fuel d).mach := by
  induction fuel generalizing d with
  | zero => exact h.refl _
  | succ n ih =>
    unfold Machine.distLoop
    split
    · exact h.seq (h.distRound t A d) (ih _)
    · exact h.mono (by omega) (by omega) (h.refl _)

theorem Tracked.readDistribution (t : Tbl) (A : Nat) (s : State) : R 1696 0 s (s.readDistribution t A).2 := by
  have hsym := maxSym_le t
  have hloop := h.mono (c := 1696) (d := 0) (by omega) (by omega) (h.distLoop t A (maxSym t + 1) (distStart t s))
  refine h.free hloop ?_
  unfold State.readDistribution distComplete
  split
  · exact h.warn _ _
  · exact h.refl _

theorem Tracked.clampAcc (t : Tbl) (a : Nat) (s : State) : R 0 0 s (s.clampAcc t a).2 := by
  unfold State.clampAcc
  split
  · exact h.warn _ _
  · split
    · exact h.warn _ _
    · exact h.refl _

theorem Tracked.fseBuild (t : Tbl) (a : Nat) (s : State) : R 1696 0 s (s.fseBuild t a).2 := by
  obtain ⟨hmin, hmax⟩ := s.clampAcc_mem t a
  exact h.free (h.free_left (h.clampAcc t a s) (h.readDistribution t _ _))
    (h.buildTable t _ _ _ (State.readDistribution_spec _ hmin hmax))

theorem Tracked.fsePredef (t : Tbl) (s : State) : R 0 0 s (s.fsePredef t).2 := by
  unfold State.fsePredef
  split
  · rename_i hp
    exact h.buildTable _ _ _ _ (tableSpec_predefined hp)
  · exact h.refl s

theorem Tracked.fseInit (t : Tbl) (ls : List LaneId) (s : State) : R 0 0 s (s.fseInit t ls) := by
  have hs1 : R 0 0 s (if s.built t then s else s.warn .tableNotBuilt) := h.ite (h.refl s) (h.warn _ s)
  have hframe : LaneFrame s (if s.built t then s else s.warn .tableNotBuilt) := .ite (.refl s) (.warn _ s)
  have hlive : s.fseTablesOk →
      (0#16).toNat < 2 ^ 9 ∧ (if s.built t then s.tacc[tblIdx t] else 0).toNat ≤ 9 := by
    intro hok
    refine ⟨by decide, ?_⟩
    split
    · rename_i hb
      exact (hok t hb).2.1.trans (maxAcc_le t)
    · decide
  exact h.free hs1 (h.forLanes_of (I := LaneFrame s)
    (fun l _ u hu => ⟨h.setFse l t 0 _ u fun hok => hlive (hu.fseTablesOk_iff.1 hok), hu.trans (.modLane l _ u)⟩) hframe)

theorem Tracked.decodeUnbuilt (ls : List LaneId) (s : State) : R 0 0 s (s.decodeUnbuilt ls) :=
  h.free (h.warn _ s) (h.forLanes (fun l s => h.setSym l 0 s) ls _)

theorem Tracked.takeCell (l : LaneId) (t : Tbl) (c : FseCell) (s : State)
    (hc : s.fseTablesOk → c.base.toNat < 2 ^ 9 ∧ c.nb.toNat ≤ 9) : R 0 0 s (s.takeCell l t c) :=
  h.free (h.setSym l _ s) (h.setFse l t _ _ _ hc)

theorem Tracked.fseDecLane (t : Tbl) (l : LaneId) (s : State) (hb : s.built t = true) : R 0 0 s (s.fseDecLane t l) :=
  h.free (h.drop l _ s)
    (h.takeCell l t _ _ fun hok => State.cell_live ((LaneFrame.drop l _ s).fseTablesOk_iff.1 hok t) hb _)

theorem Tracked.fseDec (t : Tbl) (ls : List LaneId) (s : State) : R ls.length 0 s (s.fseDec t ls) := by
  unfold State.fseDec
  split
  · rename_i hb
    have hpeek : (s.peekV ls fun l => s.fsd l t).built t = true := by rw [(LaneFrame.peekV ls _ s).built, hb]
    exact h.free (h.peekV ls _ s) (h.forLanes_of (I := fun u => u.built t = true) (fun l _ u hu =>
      ⟨h.fseDecLane t l u hu, by rw [(LaneFrame.fseDecLane t l u).built, hu]⟩) hpeek)
  · exact h.mono (by omega) (by omega) (h.decodeUnbuilt ls s)

theorem Tracked.fseDecNPLane (t : Tbl) (l : LaneId) (s : State) (hb : s.built t = true) :
    R 0 0 s (s.fseDecNPLane t l) := by
  unfold State.fseDecNPLane
  refine h.free (h.free (h.ite (h.warn _ s) (h.refl s)) (h.setDacc l _ _))
    (h.takeCell l t _ _ fun hok => ?_)
  have hframe : LaneFrame s (if (s.lane l).pw.toNat < (s.lane l).dacc.toNat + s.fsd l t then s.warn .windowOverrun else s) :=
    .ite (.warn _ s) (.refl s)
  have hframe' := hframe.trans (.modLane l
    (fun y => { y with dacc := BitVec.ofNat 8 (min ((s.lane l).dacc.toNat + s.fsd l t) 255) }) _)
  exact State.cell_live (hframe'.fseTablesOk_iff.1 hok t) hb _

theorem Tracked.fseDecNP (t : Tbl) (ls : List LaneId) (s : State) : R 0 0 s (s.fseDecNP t ls) := by
  unfold State.fseDecNP
  split
  · rename_i hb
    exact h.forLanes_of (I := fun u => u.built t = true) (fun l _ u hu =>
      ⟨h.fseDecNPLane t l u hu, by rw [(LaneFrame.fseDecNPLane t l u).built, hu]⟩) hb
  · exact h.decodeUnbuilt ls s

/-! The Huffman engine. -/

theorem Tracked.storeWeight (N k w : Nat) (s : State) : R 0 0 s (s.storeWeight N k w) :=
  h.ite (h.ite (h.free (h.warn _ s) (h.setHufWeight _ _ _)) (h.setHufWeight _ _ _)) (h.refl s)

theorem Tracked.readWeightBytes (N left i : Nat) (s : State) : R left 0 s (Machine.readWeightBytes N left i s) := by
  induction left generalizing i s with
  | zero => exact h.refl s
  | succ n ih =>
    exact h.seq (h.free (h.free (h.readByte s) (h.storeWeight _ _ _ _)) (h.storeWeight _ _ _ _)) (ih _ _)

theorem Tracked.hufWeightsExplicit (s : State) : R 129 0 s s.hufWeightsExplicit.2 := by
  have hN := s.readByte.1.isLt
  exact h.seq (h.free (h.readByte s) (h.clearWeights _)) (h.free (h.readWeightBytes _ _ _ _) (h.setHufn _ _))

theorem Tracked.fseWeightBatches (Nw fuel k : Nat) (s : State) :
    R (32 * fuel) 0 s (Machine.fseWeightBatches Nw fuel k s) := by
  induction fuel generalizing k s with
  | zero => exact h.refl s
  | succ n ih =>
    unfold Machine.fseWeightBatches
    split
    · have hlen := laneRange_length_le_32 0 (min 32 (Nw - k))
      have hstore : R 0 0 _ (storeSymbols k (laneRange 0 (min 32 (Nw - k))) (s.fseDec .hw (laneRange 0 (min 32 (Nw - k))))) :=
        h.forLanes (fun _ s => h.setHufWeight _ _ s) _ _
      exact h.seq (h.free (h.fseDec _ _ s) hstore) (ih _ _)
    · exact h.mono (by omega) (by omega) (h.refl s)

theorem Tracked.hufWeightsFse {aux : Nat} (haux : aux ≤ 1) (s : State) : R 2000 0 s (s.hufWeightsFse aux).2 := by
  have hN := s.readByte.1.isLt
  have hspec : TableSpec .hw (5 + aux) (s.readByte.2.readDistribution .hw (5 + aux)).1 :=
    State.readDistribution_spec _ (by simp only [minAccuracyLog]; omega) (by simp only [maxAcc]; omega)
  have hread := h.trans (h.readByte s) (h.readDistribution .hw (5 + aux) _)
  have hinit := h.free (h.free hread (h.buildTable .hw _ _ _ hspec)) (h.fseInit .hw allLanes _)
  exact h.seq (h.free hinit (h.clearWeights _)) (h.free (h.fseWeightBatches _ _ _ _) (h.setHufn _ _))

theorem Tracked.hufDec (ls : List LaneId) (s : State) : R ls.length 0 s (s.hufDec ls) :=
  h.ite (h.free (h.peekV ls _ s) (h.forLanes (a := 0) (b := 0) (fun l s => h.free (h.setSym l _ s) (h.drop l _ _)) ls _))
    (h.mono (by omega) (by omega) (h.decodeUnbuilt ls s))

/-! The sequence and literal engine. -/

theorem Tracked.readPackedSize (s : State) : R 3 0 s s.readPackedSize.2 := by
  unfold State.readPackedSize
  simp only
  split
  · exact h.mono (by omega) (by omega) (h.readByte s)
  · split
    · exact h.seq (h.readByte s) (h.readByte _)
    · exact h.trans (h.trans (h.readByte s) (h.readByte _)) (h.readByte _)

theorem Tracked.litCfg (mode : BitVec 2) (n : Word) (s : State) : R 0 (2 ^ 32) s (s.litCfg mode n) :=
  h.free_left (h.ite (p := mode = 3) (h.warn .litModeReserved s) (h.refl s)) (h.openLits mode n _)

end

/-! ### Literals, which are counted -/

@[simp] theorem State.emitLit_maxLit (b : Byte) (s : State) : (s.emitLit b).maxLit = s.maxLit := rfl

/-- Below `MAXLIT` the count of literals does not wrap. -/
theorem State.emitLit_litEmitted (b : Byte) {s : State} (h : s.litEmitted.toNat < s.maxLit.toNat) :
    (s.emitLit b).litEmitted.toNat = s.litEmitted.toNat + 1 := by
  have := s.maxLit.isLt
  show (s.litEmitted + 1).toNat = _
  rw [BitVec.toNat_add]
  exact Nat.mod_eq_of_lt (by simp; omega)

/-- `f` emits one literal: `LITEMITTED` is one higher, `MAXLIT` as before. -/
def EmitsOneLit (f : State → State) : Prop :=
  ∀ s : State, s.litEmitted.toNat < s.maxLit.toNat →
    (f s).litEmitted.toNat = s.litEmitted.toNat + 1 ∧ (f s).maxLit = s.maxLit

theorem emitsOneLit_emitLit (b : State → Byte) : EmitsOneLit fun s => s.emitLit (b s) :=
  fun _ hs => ⟨State.emitLit_litEmitted _ hs, rfl⟩

theorem emitsOneLit_emitRawLit : EmitsOneLit State.emitRawLit := by
  intro s hs
  refine ⟨?_, s.readByte_maxLit⟩
  have hroom : s.readByte.2.litEmitted.toNat < s.readByte.2.maxLit.toNat := by
    rwa [s.readByte_litEmitted, s.readByte_maxLit]
  show (s.readByte.2.emitLit _).litEmitted.toNat = _
  rw [State.emitLit_litEmitted _ hroom, s.readByte_litEmitted]

theorem State.emitLaneLits_maxLit (ls : List LaneId) (s : State) : (s.emitLaneLits ls).maxLit = s.maxLit :=
  forLanes_keeps (P := fun u => u.maxLit = s.maxLit) (f := fun l u => u.emitLit ((u.lane l).sym.extractLsb' 0 8)) ls
    (fun _ _ _ hu => hu) rfl

section
variable {R : Nat → Nat → State → State → Prop} (h : Tracked R)
include h

/-- As many literals as there is room for, one after the other. -/
theorem Tracked.timesLit {a : Nat} {f : State → State} (hf : EmitsOneLit f)
    (hR : ∀ s : State, s.litEmitted.toNat < s.maxLit.toNat → R a 0 s (f s)) (n : Nat) (s : State)
    (hn : n ≤ s.maxLit.toNat - s.litEmitted.toNat) : R (n * a) 0 s (Machine.times n f s) := by
  induction n generalizing s with
  | zero => exact h.mono (Nat.zero_le _) (Nat.zero_le _) (h.refl s)
  | succ n ih =>
    obtain ⟨hlit, hmax⟩ := hf s (by omega)
    exact h.seq (hR s (by omega)) (ih _ (by rw [hlit, hmax]; omega)) (by simp [Nat.add_mul]; omega)

theorem Tracked.emitRawLit (s : State) (hs : s.litEmitted.toNat < s.maxLit.toNat) : R 1 0 s s.emitRawLit :=
  h.free (h.readByte s) (h.emitLit _ _ (by rwa [s.readByte_litEmitted, s.readByte_maxLit]))

theorem Tracked.emitLaneLits (ls : List LaneId) (s : State) (hn : ls.length ≤ s.maxLit.toNat - s.litEmitted.toNat) :
    R 0 0 s (s.emitLaneLits ls) := by
  induction ls generalizing s with
  | nil => exact h.refl s
  | cons l ls ih =>
    simp only [List.length_cons] at hn
    have hroom : s.litEmitted.toNat < s.maxLit.toNat := by omega
    exact h.free (h.emitLit _ s hroom) (ih _ (by rw [State.emitLit_litEmitted _ hroom, State.emitLit_maxLit]; omega))

theorem Tracked.hufLits (target fuel : Nat) (s : State) (ht : target ≤ s.maxLit.toNat) :
    R (32 * fuel) 0 s (Machine.hufLits target fuel s) := by
  induction fuel generalizing s with
  | zero => exact h.refl s
  | succ n ih =>
    unfold Machine.hufLits
    simp only
    split
    · generalize hls : laneRange (s.litEmitted.toNat % 32)
        (min (32 - s.litEmitted.toNat % 32) (target - s.litEmitted.toNat)) = ls
      have hlen : ls.length ≤ 32 := hls ▸ laneRange_length_le_32 _ _
      have hroom : ls.length ≤ target - s.litEmitted.toNat :=
        hls ▸ (laneRange_length_le _ _).trans (Nat.min_le_right _ _)
      have hdec := LaneFrame.hufDec ls s
      have hemit := h.emitLaneLits ls (s.hufDec ls) (by rw [hdec.maxLit, hdec.litEmitted]; omega)
      exact h.seq (h.free (h.hufDec ls s) hemit)
        (ih _ (by rw [State.emitLaneLits_maxLit, hdec.maxLit]; exact ht))
    · exact h.mono (by omega) (by omega) (h.refl s)

theorem Tracked.emitLits (target : Nat) (s : State) (ht : target ≤ s.maxLit.toNat) :
    R (2 ^ 37) 0 s (s.emitLits target) := by
  have hmax := s.maxLit.isLt
  have hone : ∀ b : State → Byte, ∀ u : State, target - s.litEmitted.toNat ≤ u.maxLit.toNat - u.litEmitted.toNat →
      R 0 0 u (Machine.times (target - s.litEmitted.toNat) (fun u => u.emitLit (b u)) u) :=
    fun b u hu => h.timesLit (emitsOneLit_emitLit b) (fun u hroom => h.emitLit (b u) u hroom) _ u hu
  unfold State.emitLits
  split
  · split
    · exact h.seq (h.warn _ s) (hone (fun _ => 0) _ (by simp only [State.warn_maxLit, State.warn_litEmitted]; omega))
    · exact h.mono (by omega) (by omega) (h.hufLits target _ s ht)
  · split
    · exact h.mono (by omega) (by omega) (hone State.rleByte s (by omega))
    · exact h.mono (by omega) (by omega) (h.timesLit emitsOneLit_emitRawLit h.emitRawLit _ s (by omega))

theorem Tracked.litTarget (target : Nat) (s : State) : R (2 ^ 37) 0 s (s.litTarget target) := by
  unfold State.litTarget
  split
  · exact h.free_left (h.warn _ s) (h.emitLits _ _ (le_refl _))
  · exact h.emitLits _ s (by omega)

theorem Tracked.matchCopy (off len : Nat) (s : State) : R 0 len s (s.matchCopy off len) := by
  have htimes : ∀ (f : State → State), (∀ u, R 0 1 u (f u)) → ∀ u, R 0 len u (Machine.times len f u) :=
    fun f hf u => h.mono (by omega) (by omega) (h.times hf len u)
  exact h.ite (h.free_left (h.warn _ s) (htimes _ (h.emit 0) _))
    (h.free_left (h.ite (h.warn _ s) (h.refl s)) (htimes _ (fun u => h.emit _ u) _))

theorem Tracked.resolveOffset (ov llv : Nat) (s : State) : R 0 0 s (s.resolveOffset ov llv).2 := by
  unfold State.resolveOffset
  split
  · exact h.setRep _ _ _ s
  · split
    · exact h.refl s
    · exact h.setRep _ _ _ s
    · exact h.setRep _ _ _ s
    · exact h.setRep _ _ _ s

/-- The clamp of the running total (R362): a total of at most `MAXLIT`. -/
theorem Tracked.clampTotal (llv : Nat) (s : State) :
    R 0 0 s (s.clampTotal llv).2 ∧ (s.clampTotal llv).1 ≤ (s.clampTotal llv).2.maxLit.toNat := by
  unfold State.clampTotal
  simp only
  split
  · exact ⟨h.warn _ s, le_refl _⟩
  · exact ⟨h.refl s, by simp only; omega⟩

theorem Tracked.execSeq (q : SeqVals) (s : State) : R (2 ^ 37) q.mlv s (s.execSeq q) := by
  obtain ⟨hclamp, hle⟩ := h.clampTotal q.llv (s.resolveOffset q.ov q.llv).2
  have htotal := h.free (h.free (h.resolveOffset q.ov q.llv s) hclamp) (h.setLitTotal _ _ hle)
  exact h.seq htotal (h.trans (h.litTarget _ _) (h.matchCopy _ _ _))

theorem Tracked.readBatch (G : List LaneId) (s : State) : R (3 * G.length) 0 s (s.readBatch G).2 := by
  unfold State.readBatch
  refine h.free ?_ (h.discardV G _ _)
  refine h.seq (a := 2 * G.length) (b := 0) ?_ (h.peekV G _ _)
  refine h.free ?_ (h.discardV G _ _)
  refine h.seq (a := G.length) (b := 0) ?_ (h.peekV G _ _)
  refine h.free ?_ (h.discardAcc G _)
  refine h.free ?_ (h.fseDecNP .off G _)
  refine h.free ?_ (h.fseDecNP .ml G _)
  exact h.free (h.peekV G _ s) (h.fseDecNP .ll G _)

end

end Sys2Proof.Machine
end

section
/-! What keeps the invariants of 10_state.md: the rules by which each elementary update keeps the lane buffers (R56), the literal
counters (R64), the tables and the live states (R60, R62, R63) in range, and the reserved bits of `WARN_STICKY` (R49) 0. -/

namespace Sys2Proof.Machine

open Sys2Proof.Claims

/-! ### Lane buffers (R56) -/

theorem Lane.bufOk_iff {x : Lane} :
    x.bufOk = true ↔
      x.buf.toNat < 2 ^ x.avail.toNat ∧ x.avail.toNat ≤ 63 ∧ x.pv.toNat < 2 ^ x.pw.toNat ∧ x.pw.toNat ≤ 32 := by
  simp [Lane.bufOk, and_assoc]

/-- A refill loads a word above at most 31 bits (R204), so the buffer still holds fewer than 64. -/
theorem Lane.load_bufOk {x : Lane} (w : Word) (h : x.bufOk = true) (ha : x.avail.toNat < 32) : (x.load w).bufOk = true := by
  obtain ⟨hbuf, hav, hwin⟩ := Lane.bufOk_iff.1 h
  have havail : (x.load w).avail.toNat = x.avail.toNat + 32 := by
    simp only [Lane.load_avail, BitVec.toNat_add, show (32 : BitVec 7).toNat = 32 from rfl]
    omega
  have hpow : 2 ^ (x.avail.toNat + 32) = 2 ^ x.avail.toNat * 2 ^ 32 := Nat.pow_add ..
  have hword : (w.setWidth 64 <<< x.avail.toNat).toNat < 2 ^ (x.avail.toNat + 32) := by
    have hw : w.toNat * 2 ^ x.avail.toNat < 2 ^ 32 * 2 ^ x.avail.toNat :=
      (Nat.mul_lt_mul_right (Nat.two_pow_pos _)).2 w.isLt
    simp only [BitVec.toNat_shiftLeft, Nat.shiftLeft_eq]
    refine (Nat.mod_le _ _).trans_lt ?_
    rw [BitVec.toNat_setWidth, Nat.mod_eq_of_lt (w.isLt.trans (by decide)), hpow, Nat.mul_comm (2 ^ x.avail.toNat)]
    exact hw
  refine Lane.bufOk_iff.2 ⟨?_, by omega, hwin⟩
  rw [havail, Lane.load_buf, BitVec.toNat_or]
  exact Nat.or_lt_two_pow (hbuf.trans_le (Nat.pow_le_pow_right (by decide) (by omega))) hword

/-- Consuming buffered bits leaves that many fewer (R210). -/
theorem Lane.consume_bufOk {x : Lane} {n : Nat} (h : x.bufOk = true) (hn : n ≤ x.avail.toNat) :
    (x.consume n).bufOk = true := by
  obtain ⟨hbuf, hav, hwin⟩ := Lane.bufOk_iff.1 h
  have havail : (x.consume n).avail.toNat = x.avail.toNat - n := by
    simp only [Lane.consume_avail, BitVec.toNat_sub, BitVec.toNat_ofNat]
    omega
  refine Lane.bufOk_iff.2 ⟨?_, by omega, hwin⟩
  rw [havail, Lane.consume_buf, BitVec.toNat_ushiftRight, Nat.shiftRight_eq_div_pow]
  refine Nat.div_lt_of_lt_mul ?_
  rw [← Nat.pow_add, Nat.add_sub_cancel' hn]
  exact hbuf

/-- A peek window of a legal width holds that many bits (R206). -/
theorem Lane.window_bufOk {x : Lane} {n : Nat} (h : x.bufOk = true) (hn : n ≤ 32) : (x.window n).bufOk = true := by
  obtain ⟨hbuf, hav, -⟩ := Lane.bufOk_iff.1 h
  have hpw : (x.window n).pw.toNat = n := by
    simp only [Lane.window_pw, BitVec.toNat_ofNat]
    omega
  refine Lane.bufOk_iff.2 ⟨hbuf, hav, ?_, by omega⟩
  rw [hpw, Lane.window_pv, BitVec.toNat_ofNat]
  exact (Nat.mod_le _ _).trans_lt (Nat.mod_lt _ (Nat.two_pow_pos n))

/-- An emptied buffer is in range. -/
theorem Lane.bufOk_of_empty {x y : Lane} (h : x.bufOk = true) (hbuf : y.buf = 0) (hav : y.avail = 0) (hpv : y.pv = x.pv)
    (hpw : y.pw = x.pw) : y.bufOk = true := by
  obtain ⟨-, -, hwin⟩ := Lane.bufOk_iff.1 h
  exact Lane.bufOk_iff.2 ⟨by simp [hbuf, hav], by simp [hav], by rw [hpv, hpw]; exact hwin⟩

/-- Changing one lane keeps every lane buffer in range where the new registers of that lane are. -/
theorem State.lanesOk_modLane {s : State} {l : LaneId} {f : Lane → Lane} (hs : s.lanesOk)
    (hf : (f (s.lane l)).bufOk = true) : (s.modLane l f).lanesOk := by
  intro k
  rw [State.lane_modLane]
  split
  · exact hf
  · exact hs k

/-- Every elementary update keeps the lane buffers in range (R56). -/
theorem lanesOk_closed : Closed fun s t => s.lanesOk → t.lanesOk where
  refl _ := id
  trans h k := k ∘ h
  warn _ _ := id
  inWord _ := id
  emit _ _ := id
  refill l n s hn hs := by
    unfold State.refill
    split
    · rename_i hlt
      exact State.lanesOk_modLane (s := s.inWord.2) hs (Lane.load_bufOk _ (hs l) (hlt.trans_le hn))
    · exact hs
  window l n s hn hs := State.lanesOk_modLane hs (Lane.window_bufOk (hs l) hn)
  drop l n s hs := by
    unfold State.drop
    split
    · exact State.lanesOk_modLane (s := s.warn .discardUnderflow) hs (Lane.bufOk_of_empty (hs l) rfl rfl rfl rfl)
    · exact State.lanesOk_modLane hs (Lane.consume_bufOk (hs l) (by omega))
  setDacc l v s hs := State.lanesOk_modLane hs (hs l)
  emptyLane l s hs := State.lanesOk_modLane hs (Lane.bufOk_of_empty (hs l) rfl rfl rfl rfl)
  clearCache _ := id
  fillCache _ _ := id
  takeCached _ := id
  setSym l v s hs := State.lanesOk_modLane hs (hs l)
  setFse l t base nb s hs := State.lanesOk_modLane hs (hs l)
  setFseCell _ _ _ := id
  setBuilt _ _ _ := id
  clearWeights _ := id
  setHufWeight _ _ _ := id
  setHufn _ _ := id
  setHufEntry _ _ _ := id
  setHufBuilt _ _ := id
  openLits _ _ _ := id
  setRle _ _ := id
  countLit _ := id
  setRep _ _ _ _ := id
  setLitTotal _ _ := id
  setNumSeq _ _ := id
  setRunState _ _ := id

/-! ### The reserved bits of `WARN_STICKY` (R49) -/

/-- Every elementary update keeps the reserved bits 0: only a warning writes the register. -/
theorem stickyOk_closed : Closed fun s t => s.stickyOk → t.stickyOk where
  refl _ := id
  trans h k := k ∘ h
  warn _ _ := State.warn_stickyOk
  inWord _ := id
  emit _ _ := id
  refill l n s _ hs := by
    unfold State.refill
    split <;> exact hs
  window _ _ _ _ := id
  drop l n s hs := by
    unfold State.drop
    split
    · exact State.warn_stickyOk hs
    · exact hs
  setDacc _ _ _ := id
  emptyLane _ _ := id
  clearCache _ := id
  fillCache _ _ := id
  takeCached _ := id
  setSym _ _ _ := id
  setFse _ _ _ _ _ := id
  setFseCell _ _ _ := id
  setBuilt _ _ _ := id
  clearWeights _ := id
  setHufWeight _ _ _ := id
  setHufn _ _ := id
  setHufEntry _ _ _ := id
  setHufBuilt _ _ := id
  openLits _ _ _ := id
  setRle _ _ := id
  countLit _ := id
  setRep _ _ _ _ := id
  setLitTotal _ _ := id
  setNumSeq _ _ := id
  setRunState _ _ := id

/-! ### What the builders leave alone -/

/-- Writing cells changes the arena alone. -/
theorem writeSlots_frame (t : Tbl) (A j : Nat) (cs : List FseCell) (s : State) :
    writeSlots t A j cs s = { s with fseCell := (writeSlots t A j cs s).fseCell } := by
  induction cs generalizing j s with
  | nil => rfl
  | cons c cs ih => exact ih _ _

/-- `BuildTable` (R253) changes the arena, `TACC` and `TVALID` alone. -/
theorem State.buildTable_frame (t : Tbl) (A : Nat) (prob : List Nat) (s : State) :
    s.buildTable t A prob = { s with
      fseCell := (s.buildTable t A prob).fseCell
      tacc := s.tacc.set (tblIdx t) (BitVec.ofNat 4 A)
      tvalid := s.tvalid.set (tblIdx t) true } := by
  show (writeSlots t A 0 (slotCells A 0 prob) s).setBuilt t A = _
  rw [writeSlots_frame]
  rfl

theorem fillRange_frame (wb : Nat) (e : HufEntry) (n v : Nat) (s : State) :
    fillRange wb e n v s = { s with huft := (fillRange wb e n v s).huft } := by
  induction n generalizing v s with
  | zero => rfl
  | succ n ih => exact ih _ _

theorem gapFill_frame (e : HufEntry) (n i : Nat) (s : State) :
    gapFill e n i s = { s with huft := (gapFill e n i s).huft } := by
  induction n generalizing i s with
  | zero => rfl
  | succ n ih => exact ih _ _

theorem placeSymbols_frame (wb : Nat) (ws : List Nat) (sym : Nat) (next : List Nat) (s : State) :
    placeSymbols wb ws sym next s = { s with huft := (placeSymbols wb ws sym next s).huft } := by
  induction ws generalizing sym next s with
  | nil => rfl
  | cons w ws ih =>
    unfold placeSymbols
    split
    · exact ih _ _ _
    · simp only
      rw [ih, fillRange_frame]

/-- `HUFEXPAND` (R305) changes the Huffman table and the warnings alone. -/
theorem State.hufExpand_frame (s : State) :
    s.hufExpand.2 = { warningsOf s s.hufExpand.2 with
      huft := s.hufExpand.2.huft, hufwb := s.hufExpand.2.hufwb, hufvalid := s.hufExpand.2.hufvalid } := by
  unfold State.hufExpand
  simp only
  split
  · have hgap := gapFill_frame ⟨0, 0⟩ 2048 0 (s.warn .hufTablelogRange)
    generalize gapFill ⟨0, 0⟩ 2048 0 (s.warn .hufTablelogRange) = u at hgap ⊢
    rw [hgap]
    rfl
  · unfold State.expandWeights
    simp only
    rw [placeSymbols_frame, gapFill_frame]
    split <;> rfl

/-! ### The literal counters (R64) -/

/-- Every tracked update keeps `LITEMITTED` and `LITTOTAL` at most `MAXLIT` (R64). -/
theorem litOk_tracked : Tracked fun _ _ s t => s.litOk → t.litOk where
  refl _ := id
  trans h k := k ∘ h
  mono _ _ := id
  warn _ _ := id
  inWord _ := id
  emit _ _ := id
  refill l n s _ hs := by
    unfold State.refill
    split <;> exact hs
  window _ _ _ _ := id
  drop l n s hs := by
    unfold State.drop
    split <;> exact hs
  setDacc _ _ _ := id
  emptyLane _ _ := id
  clearCache _ := id
  fillCache _ _ := id
  takeCached _ := id
  setSym _ _ _ := id
  setFse _ _ _ _ _ _ := id
  buildTable t A prob s _ hs := by
    rw [State.buildTable_frame]
    exact hs
  clearWeights _ := id
  setHufWeight _ _ _ := id
  setHufn _ _ := id
  hufExpand s hs := by
    rw [State.hufExpand_frame]
    exact hs
  openLits _ _ _ _ := ⟨Nat.zero_le _, Nat.zero_le _⟩
  setRle _ _ := id
  emitLit b s hroom hs := ⟨by rw [State.emitLit_litEmitted b hroom]; exact hroom, hs.2⟩
  setRep _ _ _ _ := id
  setLitTotal n s hn hs := ⟨hs.1, (BitVec.toNat_ofNat n 32).trans_le ((Nat.mod_le _ _).trans hn)⟩
  setNumSeq _ _ := id
  setRunState _ _ := id
  setRes _ _ := id

/-! ### Live states (R60) -/

theorem Lane.fseOk_iff {x : Lane} :
    x.fseOk = true ↔ ∀ t, (x.fsd[tblIdx t]).toNat ≤ 9 ∧ (x.fss[tblIdx t]).toNat < 2 ^ 9 := by
  simp only [Lane.fseOk, List.all_cons, List.all_nil, Bool.and_true, Bool.and_eq_true, decide_eq_true_eq]
  constructor
  · rintro ⟨hll, hml, hoff, hhw⟩ t
    cases t <;> assumption
  · exact fun h => ⟨h .ll, h .ml, h .off, h .hw⟩

theorem tblIdx_injective {t k : Tbl} (h : (tblIdx t).val = (tblIdx k).val) : t = k := by
  have hcode : ∀ t : Tbl, tblOf (BitVec.ofNat 2 (tblIdx t).val) = t := by
    intro t
    cases t <;> rfl
  rw [← hcode t, h, hcode k]

theorem Lane.fseOk_set {x : Lane} (h : x.fseOk = true) (t : Tbl) {base : BitVec 16} {nb : BitVec 4}
    (hbase : base.toNat < 2 ^ 9) (hnb : nb.toNat ≤ 9) :
    ({ x with fss := x.fss.set (tblIdx t) base, fsd := x.fsd.set (tblIdx t) nb } : Lane).fseOk = true := by
  refine Lane.fseOk_iff.2 fun k => ?_
  have hk := Lane.fseOk_iff.1 h k
  simp only [Fin.getElem_fin, Vector.getElem_set] at hk ⊢
  split
  · exact ⟨hnb, hbase⟩
  · exact hk

/-- Changing one lane keeps the tables and the live states in range where the new live states of that lane are. -/
theorem State.tablesOk_modLane {s : State} {l : LaneId} {f : Lane → Lane} (hs : s.tablesOk)
    (hf : (f (s.lane l)).fseOk = true) : (s.modLane l f).tablesOk := by
  obtain ⟨htab, hhuf, hlane⟩ := hs
  refine ⟨htab, hhuf, fun k => ?_⟩
  rw [State.lane_modLane]
  split
  · exact hf
  · exact hlane k

theorem State.tablesOk.lane {s : State} (h : s.tablesOk) (l : LaneId) : (s.lane l).fseOk = true := h.2.2 l

/-! ### Building an FSE table in range (42_fse.md R253, R261) -/

theorem mem_tabFrom {α : Type} {f : Nat → α} {n k : Nat} {x : α} (h : x ∈ tabFrom f n k) :
    ∃ i, k ≤ i ∧ i < k + n ∧ x = f i := by
  induction n generalizing k with
  | zero => exact absurd h List.not_mem_nil
  | succ n ih =>
    rcases List.mem_cons.1 h with rfl | h
    · exact ⟨k, le_refl _, by omega, rfl⟩
    · obtain ⟨i, hle, hlt, rfl⟩ := ih h
      exact ⟨i, by omega, by omega, rfl⟩

/-- A distribution has as many slots as its probabilities add up to (R253). -/
theorem slotCells_length (A sym : Nat) (ps : List Nat) : (slotCells A sym ps).length = ps.sum := by
  induction ps generalizing sym with
  | nil => rfl
  | cons p ps ih => simp [slotCells, tabFrom_length, ih]

/-- Every slot is that of a symbol with its probability, at a rank below it. -/
theorem mem_slotCells {A sym : Nat} {ps : List Nat} {c : FseCell} (h : c ∈ slotCells A sym ps) :
    ∃ i p k, i < ps.length ∧ p ∈ ps ∧ k < p ∧ c = slotCell A (sym + i) p k := by
  induction ps generalizing sym with
  | nil => exact absurd h List.not_mem_nil
  | cons p ps ih =>
    rcases List.mem_append.1 h with h | h
    · obtain ⟨k, -, hk, rfl⟩ := mem_tabFrom h
      exact ⟨0, p, k, by simp, by simp, by omega, rfl⟩
    · obtain ⟨i, q, k, hi, hq, hk, rfl⟩ := ih h
      exact ⟨i + 1, q, k, by simpa using hi, by simp [hq], hk, by rw [Nat.add_right_comm, Nat.add_assoc]⟩

theorem highbit1_of_pos {x : Nat} (h : 0 < x) : highbit1 x = Nat.log 2 x + 1 := by
  simp [highbit1, Nat.ne_of_gt h, Nat.log2_eq_log_two]

theorem floorlog2_eq {x : Nat} (h : 0 < x) : floorlog2 x = Nat.log 2 x := by simp [floorlog2, highbit1_of_pos h]

/-- The cell of a slot: its next states `[base, base + 2^nb)` lie within the table (R253, R261). -/
theorem slotCell_ok {t : Tbl} {A sym p k : Nat} (hA : A ≤ 9) (hsym : sym ≤ maxSym t) (hp : p ≤ 2 ^ A) (hk : k < p) :
    (slotCell A sym p k).ok t A = true := by
  have hpos : 0 < p + k := by omega
  have hlow : 2 ^ Nat.log 2 (p + k) ≤ p + k := Nat.pow_log_le_self 2 (by omega)
  have hhigh : p + k < 2 ^ (Nat.log 2 (p + k) + 1) := Nat.lt_pow_succ_log_self (by decide) _
  have hlog : Nat.log 2 (p + k) ≤ A := by
    have : Nat.log 2 (p + k) < A + 1 := Nat.log_lt_of_lt_pow (by omega) (by rw [Nat.pow_succ]; omega)
    omega
  have hsize : 2 ^ A ≤ 2 ^ 9 := Nat.pow_le_pow_right (by decide) hA
  generalize hnb : A - Nat.log 2 (p + k) = nb
  have hA' : 2 ^ A = 2 ^ Nat.log 2 (p + k) * 2 ^ nb := by rw [← Nat.pow_add, ← hnb, Nat.add_sub_cancel' hlog]
  have hge : 2 ^ A ≤ (p + k) * 2 ^ nb := hA' ▸ Nat.mul_le_mul_right _ hlow
  have hle : (p + k) * 2 ^ nb + 2 ^ nb ≤ 2 * 2 ^ A := by
    calc (p + k) * 2 ^ nb + 2 ^ nb = (p + k + 1) * 2 ^ nb := by ring
      _ ≤ 2 ^ (Nat.log 2 (p + k) + 1) * 2 ^ nb := Nat.mul_le_mul_right _ hhigh
      _ = 2 * 2 ^ A := by rw [hA', Nat.pow_succ]; ring
  have hnbpos := Nat.two_pow_pos nb
  have hsymle := maxSym_le t
  have hsymcell : (slotCell A sym p k).sym.toNat = sym := by
    simp only [slotCell, BitVec.toNat_ofNat]
    omega
  have hnbcell : (slotCell A sym p k).nb.toNat = nb := by
    simp only [slotCell, floorlog2_eq hpos, hnb, BitVec.toNat_ofNat]
    omega
  have hbasecell : (slotCell A sym p k).base.toNat = (p + k) * 2 ^ nb - 2 ^ A := by
    simp only [slotCell, floorlog2_eq hpos, hnb, BitVec.toNat_ofNat]
    omega
  rw [FseCell.ok_iff, hsymcell, hnbcell, hbasecell]
  exact ⟨hsym, by omega, by omega⟩

/-- Every slot of a legal distribution is a cell of its table. -/
theorem TableSpec.slotCells_ok {t : Tbl} {A : Nat} {prob : List Nat} (h : TableSpec t A prob) {c : FseCell}
    (hc : c ∈ slotCells A 0 prob) : c.ok t A = true := by
  obtain ⟨i, p, k, hi, hp, hk, rfl⟩ := mem_slotCells hc
  have hlen := h.length
  exact slotCell_ok (h.le_max.trans (maxAcc_le t)) (by omega) (h.sum ▸ List.le_sum_of_mem hp) hk

/-- The step between slots is odd, so it visits every cell of the table (R253). -/
theorem slotPos_surjective {A : Nat} (hA : 4 ≤ A) {i : Nat} (hi : i < 2 ^ A) : ∃ m, m < 2 ^ A ∧ slotPos A m = i := by
  have hodd : Nat.Coprime (2 ^ A) (5 * 2 ^ (A - 3) + 3) := by
    refine Nat.Coprime.pow_left _ (Nat.coprime_two_left.2 ?_)
    obtain ⟨e, rfl⟩ : ∃ e, A = e + 4 := ⟨A - 4, by omega⟩
    rw [show e + 4 - 3 = e + 1 by omega, Nat.pow_succ]
    exact ⟨5 * 2 ^ e + 1, by ring⟩
  have hone : 1 < 2 ^ A := Nat.one_lt_two_pow (by omega)
  obtain ⟨inv, -, hinv⟩ := Nat.exists_mul_mod_eq_one_of_coprime hodd.symm hone
  refine ⟨i * inv % 2 ^ A, Nat.mod_lt _ (by omega), ?_⟩
  unfold slotPos
  rw [Nat.mod_mul_mod, Nat.mul_assoc, Nat.mul_comm inv, Nat.mul_mod, hinv, Nat.mul_one, Nat.mod_mod, Nat.mod_eq_of_lt hi]

/-- Every cell of a table stands within the arena (00_scope.md R6). -/
theorem tableStart_add_lt {t : Tbl} {A i : Nat} (hA : A ≤ maxAcc t) (hi : i < 2 ^ A) : tableStart t + i < 1344 := by
  have hsize : 2 ^ A ≤ 2 ^ maxAcc t := Nat.pow_le_pow_right (by decide) hA
  have hend : tableStart t + 2 ^ maxAcc t ≤ 1344 := by cases t <;> decide
  omega

/-- The tables stand in the arena one after the other (00_scope.md R6). -/
theorem tableStart_add_le {t k : Tbl} (h : (tblIdx t).val < (tblIdx k).val) :
    tableStart t + 2 ^ maxAcc t ≤ tableStart k := by
  revert h
  cases t <;> cases k <;> decide

/-- No cell is a cell of two tables (00_scope.md R6). -/
theorem tableStart_add_ne {t k : Tbl} (htk : k ≠ t) {A B i j : Nat} (hA : A ≤ maxAcc t) (hB : B ≤ maxAcc k)
    (hi : i < 2 ^ A) (hj : j < 2 ^ B) : tableStart k + j ≠ tableStart t + i := by
  have hsizeA : 2 ^ A ≤ 2 ^ maxAcc t := Nat.pow_le_pow_right (by decide) hA
  have hsizeB : 2 ^ B ≤ 2 ^ maxAcc k := Nat.pow_le_pow_right (by decide) hB
  rcases Nat.lt_or_gt_of_ne fun h => htk (tblIdx_injective h) with hlt | hgt
  · have := tableStart_add_le hlt
    omega
  · have := tableStart_add_le hgt
    omega

theorem State.setFseCell_fseCellAt {i : Nat} (hi : i < 1344) (k : Nat) (c : FseCell) (s : State) :
    (s.setFseCell i c).fseCellAt k = if k = i then c else s.fseCellAt k := by
  simp only [State.fseCellAt, State.setFseCell, dif_pos hi]
  split
  · simp only [Vector.getElem_set, eq_comm]
  · rw [if_neg (by omega)]

section
variable {t : Tbl} {A : Nat} (hA : A ≤ maxAcc t)
include hA

theorem writeSlots_cons_fseCellAt (j k : Nat) (c : FseCell) (s : State) :
    (s.setFseCell (tableStart t + slotPos A j) c).fseCellAt k =
      if k = tableStart t + slotPos A j then c else s.fseCellAt k :=
  State.setFseCell_fseCellAt (tableStart_add_lt hA (Nat.mod_lt _ (Nat.two_pow_pos A))) k c s

/-- A cell that no slot stands at keeps its content. -/
theorem writeSlots_fseCellAt_other {k : Nat} (hk : ∀ m, k ≠ tableStart t + slotPos A m) (j : Nat) (cs : List FseCell)
    (s : State) : (writeSlots t A j cs s).fseCellAt k = s.fseCellAt k := by
  induction cs generalizing j s with
  | nil => rfl
  | cons c cs ih =>
    show (writeSlots t A (j + 1) cs _).fseCellAt k = _
    rw [ih, writeSlots_cons_fseCellAt hA, if_neg (hk j)]

/-- What holds of every slot and of a cell before, holds of the cell after. -/
theorem writeSlots_keeps {P : FseCell → Prop} {cs : List FseCell} (hcs : ∀ c ∈ cs, P c) (j k : Nat) {s : State}
    (hs : P (s.fseCellAt k)) : P ((writeSlots t A j cs s).fseCellAt k) := by
  induction cs generalizing j s with
  | nil => exact hs
  | cons c cs ih =>
    refine ih (fun d hd => hcs d (by simp [hd])) (j + 1) ?_
    rw [writeSlots_cons_fseCellAt hA]
    split
    · exact hcs c (by simp)
    · exact hs

/-- What holds of every slot holds of the cell at the place of slot `j + m`. -/
theorem writeSlots_at {P : FseCell → Prop} {cs : List FseCell} (hcs : ∀ c ∈ cs, P c) {m : Nat} (hm : m < cs.length)
    (j : Nat) (s : State) : P ((writeSlots t A j cs s).fseCellAt (tableStart t + slotPos A (j + m))) := by
  induction cs generalizing j m s with
  | nil => exact absurd hm (by simp)
  | cons c cs ih =>
    have htail : ∀ d ∈ cs, P d := fun d hd => hcs d (by simp [hd])
    cases m with
    | zero =>
      refine writeSlots_keeps hA htail (j + 1) _ ?_
      rw [writeSlots_cons_fseCellAt hA, Nat.add_zero, if_pos rfl]
      exact hcs c (by simp)
    | succ m =>
      have := ih htail (m := m) (by simpa using hm) (j + 1) (s.setFseCell (tableStart t + slotPos A j) c)
      rwa [Nat.add_right_comm, Nat.add_assoc] at this

end

theorem State.buildTable_accLog {t : Tbl} {A : Nat} (hA : A ≤ maxAcc t) (prob : List Nat) (s : State) :
    (s.buildTable t A prob).accLog t = A := by
  have := maxAcc_le t
  rw [State.buildTable_frame]
  simp only [State.accLog, Fin.getElem_fin, Vector.getElem_set_self, BitVec.toNat_ofNat]
  omega

theorem State.buildTable_other {t k : Tbl} (hk : k ≠ t) (A : Nat) (prob : List Nat) (s : State) :
    (s.buildTable t A prob).accLog k = s.accLog k ∧ (s.buildTable t A prob).built k = s.built k := by
  have hne : (tblIdx t).val ≠ (tblIdx k).val := fun h => hk (tblIdx_injective h).symm
  rw [State.buildTable_frame]
  simp only [State.accLog, State.built, Fin.getElem_fin, Vector.getElem_set_ne _ _ hne, and_self]

/-- `BuildTable` (R253) leaves the table it builds in range, and the others as they were. -/
theorem State.buildTable_fseTablesOk {t : Tbl} {A : Nat} {prob : List Nat} {s : State} (h : TableSpec t A prob)
    (hs : s.fseTablesOk) : (s.buildTable t A prob).fseTablesOk := by
  intro k hb
  by_cases hk : k = t
  · subst hk
    rw [State.buildTable_accLog h.le_max]
    refine ⟨h.min_le, h.le_max, fun i hi => ?_⟩
    obtain ⟨m, hm, rfl⟩ := slotPos_surjective (A := A) ((by decide : 4 ≤ minAccuracyLog).trans h.min_le) hi
    have hcell := writeSlots_at h.le_max (P := fun c => c.ok k A = true) (fun c => h.slotCells_ok)
      (m := m) (by rw [slotCells_length, h.sum]; exact hm) 0 s
    rwa [Nat.zero_add] at hcell
  · obtain ⟨hacc, hbuilt⟩ := s.buildTable_other hk A prob
    obtain ⟨hmin, hmax, hcells⟩ := hs k (hbuilt ▸ hb)
    rw [hacc]
    refine ⟨hmin, hmax, fun i hi => ?_⟩
    have hcell := writeSlots_fseCellAt_other h.le_max (k := tableStart k + i)
      (fun m => tableStart_add_ne hk h.le_max hmax (Nat.mod_lt _ (Nat.two_pow_pos A)) hi) 0 (slotCells A 0 prob) s
    exact (congrArg (fun c => c.ok k (s.accLog k)) hcell).trans (hcells i hi)

/-! ### Expanding Huffman weights in range (43_huffman.md R304, R305) -/

/-- What holds of an entry written and of a place before, holds of the place after. -/
theorem State.setHufEntry_keeps {P : HufEntry → Prop} {e : HufEntry} (he : P e) (i : Nat) {k : Nat} {s : State}
    (hs : P (s.hufEntryAt k)) : P ((s.setHufEntry i e).hufEntryAt k) := by
  unfold State.hufEntryAt State.setHufEntry at *
  simp only
  split
  · rename_i hk
    rw [dif_pos hk] at hs
    split
    · simp only [Vector.getElem_set]
      split
      · exact he
      · exact hs
    · exact hs
  · rename_i hk
    rw [dif_neg hk] at hs
    exact hs

theorem State.setHufEntry_same {i : Nat} (hi : i < 2048) (e : HufEntry) (s : State) :
    (s.setHufEntry i e).hufEntryAt i = e := by
  simp [State.hufEntryAt, State.setHufEntry, hi]

theorem fillRange_keeps {P : HufEntry → Prop} {e : HufEntry} (he : P e) (wb n v : Nat) {k : Nat} {s : State}
    (hs : P (s.hufEntryAt k)) : P ((fillRange wb e n v s).hufEntryAt k) := by
  induction n generalizing v s with
  | zero => exact hs
  | succ n ih => exact ih _ (State.setHufEntry_keeps he _ hs)

theorem gapFill_keeps {P : HufEntry → Prop} {e : HufEntry} (he : P e) (n i : Nat) {k : Nat} {s : State}
    (hs : P (s.hufEntryAt k)) : P ((gapFill e n i s).hufEntryAt k) := by
  induction n generalizing i s with
  | zero => exact hs
  | succ n ih => exact ih _ (State.setHufEntry_keeps he _ hs)

/-- The gap fill leaves its entry at every place it covers. -/
theorem gapFill_covers {P : HufEntry → Prop} {e : HufEntry} (he : P e) {n i k : Nat} (hik : i ≤ k) (hk : k < i + n)
    (hn : i + n ≤ 2048) (s : State) : P ((gapFill e n i s).hufEntryAt k) := by
  induction n generalizing i s with
  | zero => omega
  | succ n ih =>
    by_cases h : k = i
    · subst h
      refine gapFill_keeps he n (k + 1) ?_
      rwa [State.setHufEntry_same (by omega)]
    · exact ih (by omega) (by omega) (by omega) _

theorem placeSymbols_keeps {P : HufEntry → Prop} {wb : Nat}
    (hP : ∀ sym w : Nat, w ≠ 0 → P ⟨BitVec.ofNat 8 sym, BitVec.ofNat 4 (wb + 1 - w)⟩) (ws : List Nat) (sym : Nat)
    (next : List Nat) {k : Nat} {s : State} (hs : P (s.hufEntryAt k)) :
    P ((placeSymbols wb ws sym next s).hufEntryAt k) := by
  induction ws generalizing sym next s with
  | nil => exact hs
  | cons w ws ih =>
    unfold placeSymbols
    split
    · exact ih _ _ hs
    · rename_i hw
      exact ih _ _ (fillRange_keeps (hP sym w hw) _ _ _ hs)

theorem lt_two_pow_highbit1 (x : Nat) : x < 2 ^ highbit1 x := by
  by_cases h : x = 0
  · simp [h, highbit1]
  · rw [highbit1_of_pos (Nat.pos_of_ne_zero h)]
    exact Nat.lt_pow_succ_log_self (by decide) x

/-- The implied symbol has a weight, so its code is no longer than the table log (R304). -/
theorem impliedWeight_ne_zero (ws : List Nat) : impliedWeight ws ≠ 0 := by
  have hrest : 0 < weightRest ws := Nat.sub_pos_of_lt (lt_two_pow_highbit1 _)
  rw [impliedWeight, highbit1_of_pos hrest]
  omega

/-- A code length of a weight that is not 0 is at most the table log (R305). -/
theorem codeLength_le (wb : Nat) {w : Nat} (hw : w ≠ 0) : (BitVec.ofNat 4 (wb + 1 - w)).toNat ≤ wb :=
  (Nat.mod_le _ _).trans (by omega)

theorem State.setHufBuilt_hufOk {wb : Nat} {s : State} (hwb : wb ≤ maxHufBits)
    (hs : ∀ i, i < 2 ^ wb → (s.hufEntryAt i).len.toNat ≤ wb) : (s.setHufBuilt wb).hufOk := by
  have hval : (s.setHufBuilt wb).hufwb.toNat = wb := by
    simp only [maxHufBits] at hwb
    simp only [State.setHufBuilt_hufwb, BitVec.toNat_ofNat]
    omega
  exact ⟨hval.symm ▸ hwb, fun _ i hi => by rw [hval] at hi ⊢; exact hs i hi⟩

/-- `HUFEXPAND` (R305) leaves a table in range, whatever the weights. -/
theorem State.hufExpand_hufOk (s : State) : s.hufExpand.2.hufOk := by
  unfold State.hufExpand
  simp only
  split
  · refine State.setHufBuilt_hufOk (le_refl _) fun i hi => ?_
    exact gapFill_covers (P := fun e => e.len.toNat ≤ maxHufBits) (by decide) (Nat.zero_le i)
      (by simpa [maxHufBits] using hi) (by decide) _
  · rename_i hwb
    replace hwb : weightBits s.weights ≤ maxHufBits := Nat.not_lt.1 hwb
    have hsize : 2 ^ weightBits s.weights ≤ 2 ^ 11 := Nat.pow_le_pow_right (by decide) hwb
    refine State.setHufBuilt_hufOk hwb fun i hi => ?_
    refine placeSymbols_keeps (P := fun e => e.len.toNat ≤ weightBits s.weights) (fun _ _ hw => codeLength_le _ hw) _ _ _ ?_
    exact gapFill_covers (P := fun e => e.len.toNat ≤ weightBits s.weights) (codeLength_le _ (impliedWeight_ne_zero _))
      (Nat.zero_le i) (by omega) (by omega) _

/-- Every tracked update keeps the tables and the live states in range (R60, R62, R63). -/
theorem tablesOk_tracked : Tracked fun _ _ s t => s.tablesOk → t.tablesOk where
  refl _ := id
  trans h k := k ∘ h
  mono _ _ := id
  warn _ _ := id
  inWord _ := id
  emit _ _ := id
  refill l n s _ hs := by
    unfold State.refill
    split
    · exact State.tablesOk_modLane (s := s.inWord.2) hs (hs.lane l)
    · exact hs
  window l n s _ hs := State.tablesOk_modLane hs (hs.lane l)
  drop l n s hs := by
    unfold State.drop
    split
    · exact State.tablesOk_modLane (s := s.warn .discardUnderflow) hs (hs.lane l)
    · exact State.tablesOk_modLane hs (hs.lane l)
  setDacc l v s hs := State.tablesOk_modLane hs (hs.lane l)
  emptyLane l s hs := State.tablesOk_modLane hs (hs.lane l)
  clearCache _ := id
  fillCache _ _ := id
  takeCached _ := id
  setSym l v s hs := State.tablesOk_modLane hs (hs.lane l)
  setFse l t base nb s hlive hs := by
    obtain ⟨hbase, hnb⟩ := hlive hs.1
    exact State.tablesOk_modLane hs (Lane.fseOk_set (hs.lane l) t hbase hnb)
  buildTable t A prob s hspec hs := by
    have htab := State.buildTable_fseTablesOk hspec hs.1
    rw [State.buildTable_frame] at htab ⊢
    exact ⟨htab, hs.2⟩
  clearWeights _ := id
  setHufWeight _ _ _ := id
  setHufn _ _ := id
  hufExpand s hs := by
    have hhuf := s.hufExpand_hufOk
    rw [State.hufExpand_frame] at hhuf ⊢
    exact ⟨hs.1, hhuf, hs.2.2⟩
  openLits _ _ _ := id
  setRle _ _ := id
  emitLit _ _ _ := id
  setRep _ _ _ _ := id
  setLitTotal _ _ _ := id
  setNumSeq _ _ := id
  setRunState _ _ := id
  setRes _ _ := id

end Sys2Proof.Machine
end

section
/-! The sharper induction carried on to the sequence engine, the block driver and the commands; then what one step can do, and
with it the invariants of every step. -/

namespace Sys2Proof.Machine

open Sys2Proof.Claims

/-! ### The symbols a decode leaves (42_fse.md R260) -/

/-- What each visit establishes for its own lane, and keeps for every lane, holds of all lanes visited. -/
theorem forLanes_each {I : State → Prop} {P : LaneId → State → Prop} {f : LaneId → State → State}
    (hI : ∀ l s, I s → I (f l s)) (hown : ∀ l s, I s → P l (f l s)) (hkeep : ∀ l k s, I s → P k s → P k (f l s))
    (ls : List LaneId) {s : State} (hs : I s) {l : LaneId} (hl : l ∈ ls) : P l (forLanes ls f s) := by
  have hrest : ∀ (ks : List LaneId) (u : State), I u → P l u → P l (forLanes ks f u) := by
    intro ks u hu hP
    exact (forLanes_keeps (P := fun v => I v ∧ P l v) ks (fun k _ v hv => ⟨hI k v hv.1, hkeep k l v hv.1 hv.2⟩) ⟨hu, hP⟩).2
  induction ls generalizing s with
  | nil => exact absurd hl List.not_mem_nil
  | cons k ks ih =>
    rcases List.mem_cons.1 hl with rfl | hl
    · exact hrest ks _ (hI l s hs) (hown l s hs)
    · exact ih (hI k s hs) hl

theorem State.setSym_syms (l k : LaneId) (v : Nat) (s : State) :
    (s.setSym l v).syms k = if k = l then v % 2 ^ 32 else s.syms k := by
  unfold State.syms State.setSym
  rw [State.lane_modLane]
  split
  · exact BitVec.toNat_ofNat v 32
  · rfl

/-- A change of a lane that leaves `SYM` alone leaves all of them. -/
theorem State.modLane_syms {l : LaneId} {f : Lane → Lane} (hf : ∀ x, (f x).sym = x.sym) (k : LaneId) (s : State) :
    (s.modLane l f).syms k = s.syms k := by
  unfold State.syms
  rw [State.lane_modLane]
  split
  · rename_i h
    rw [hf, h]
  · rfl

theorem State.takeCell_syms (l k : LaneId) (t : Tbl) (c : FseCell) (s : State) :
    (s.takeCell l t c).syms k = if k = l then c.sym.toNat else s.syms k := by
  have hc : c.sym.toNat % 2 ^ 32 = c.sym.toNat := Nat.mod_eq_of_lt (c.sym.isLt.trans (by decide))
  unfold State.takeCell State.setFse
  rw [State.modLane_syms, State.setSym_syms, hc]
  exact fun _ => rfl

/-- One lane of `FseDecNP` leaves the symbol of a cell of the table. -/
theorem State.fseDecNPLane_syms (t : Tbl) (l k : LaneId) (s : State) :
    ∃ x, (s.fseDecNPLane t l).syms k = if k = l then (s.cell t x).sym.toNat else s.syms k := by
  refine ⟨s.fss l t + lowBits (s.fsd l t) ((s.lane l).pv.toNat / 2 ^ (s.lane l).dacc.toNat), ?_⟩
  unfold State.fseDecNPLane
  simp only
  rw [State.takeCell_syms, State.modLane_syms]
  · split
    · rfl
    · split <;> rfl
  · exact fun _ => rfl

/-- `FseDecNP` through a table in range leaves on each lane a symbol of the alphabet; through no table, 0 (R260). -/
theorem State.fseDecNP_syms_le {t : Tbl} {s : State} (hok : s.fseTableOk t) {ls : List LaneId} {l : LaneId} (hl : l ∈ ls) :
    (s.fseDecNP t ls).syms l ≤ maxSym t := by
  unfold State.fseDecNP
  split
  · rename_i hb
    refine forLanes_each (I := fun u => u.fseTableOk t ∧ u.built t = true) (P := fun k u => u.syms k ≤ maxSym t)
      (fun l u hu => ?_) (fun l u hu => ?_) (fun l k u hu hk => ?_) ls ⟨hok, hb⟩ hl
    · have hframe := LaneFrame.fseDecNPLane t l u
      rw [hframe]
      exact hu
    · obtain ⟨x, hx⟩ := u.fseDecNPLane_syms t l l
      rw [hx, if_pos rfl]
      exact (FseCell.ok_iff.1 (State.cell_ok hu.1 hu.2 x)).1
    · obtain ⟨x, hx⟩ := u.fseDecNPLane_syms t l k
      rw [hx]
      split
      · exact (FseCell.ok_iff.1 (State.cell_ok hu.1 hu.2 x)).1
      · exact hk
  · refine forLanes_each (I := fun _ => True) (P := fun k u => u.syms k ≤ maxSym t) (fun _ _ _ => trivial)
      (fun l u _ => ?_) (fun l k u _ hk => ?_) ls trivial hl
    · rw [State.setSym_syms, if_pos rfl]
      exact Nat.zero_le _
    · rw [State.setSym_syms]
      split
      · exact Nat.zero_le _
      · exact hk

/-- The match lengths of R359: a base of at most 65539 and at most 16 extra bits. -/
theorem mlCode_le {c : Nat} (hc : c ≤ 52) : (mlCode c).1 ≤ 65539 ∧ (mlCode c).2 ≤ 16 := by
  have htable : ∀ c < 53, (mlCode c).1 ≤ 65539 ∧ (mlCode c).2 ≤ 16 := by decide
  exact htable c (by omega)

/-- Through a match-length table in range no match is longer than 2^18 bytes (R359, R362). -/
theorem State.readBatch_mlv_le {s : State} (hok : s.fseTableOk .ml) {G : List LaneId} {l : LaneId} (hl : l ∈ G) :
    ((s.readBatch G).1 l).mlv ≤ 2 ^ 18 := by
  have hframe := (LaneFrame.peekV G (fun l => s.fsd l .ll + s.fsd l .ml + s.fsd l .off) s).trans (.fseDecNP .ll G _)
  generalize hL : (s.peekV G fun l => s.fsd l .ll + s.fsd l .ml + s.fsd l .off).fseDecNP .ll G = sL at hframe
  have hokL : sL.fseTableOk .ml := by
    rw [hframe]
    exact hok
  obtain ⟨hbase, hbits⟩ := mlCode_le (State.fseDecNP_syms_le hokL hl)
  have hwindow : ∀ (u : State) (k : LaneId → Nat),
      u.windowBits k (fun l => (mlCode ((sL.fseDecNP .ml G).syms l)).2) l < 2 ^ 16 :=
    fun u k => (Nat.mod_lt _ (Nat.two_pow_pos _)).trans_le (Nat.pow_le_pow_right (by decide) hbits)
  unfold State.readBatch
  simp only [hL]
  have := hwindow
    (((((sL.fseDecNP .ml G).fseDecNP .off G).discardAcc G).peekV G fun l =>
      (llCode (sL.syms l)).2 + (mlCode ((sL.fseDecNP .ml G).syms l)).2)) (fun l => (llCode (sL.syms l)).2)
  omega

/-! ### Sequences and blocks -/

theorem cwAux_le (cw : Word) : cwAux cw ≤ 1 := Nat.le_of_lt_succ (cw.extractLsb' 30 1).isLt

theorem cwSize_lt (cw : Word) : cwSize cw < 2 ^ 28 := (cw.extractLsb' 0 28).isLt

/-- The packed sizes end at 4210815 (30_encoding.md R154). -/
theorem State.readPackedSize_le (s : State) : s.readPackedSize.1 ≤ 4210815 := by
  have hbyte : ∀ b : Byte, b.toNat < 256 := fun b => b.isLt
  unfold State.readPackedSize
  simp only
  split
  · have := hbyte s.readByte.1
    simp only
    omega
  · split
    · have h0 := hbyte s.readByte.1
      have h1 := hbyte s.readByte.2.readByte.1
      simp only [packed2]
      omega
    · have h0 := hbyte s.readByte.1
      have h1 := hbyte s.readByte.2.readByte.1
      have h2 := hbyte s.readByte.2.readByte.2.readByte.1
      simp only [packed3]
      omega

section
variable {R : Nat → Nat → State → State → Prop} (h : Tracked R)
include h

/-- One batch (R362). Its matches are as long as the lanes' match lengths say, at most 2^18 bytes each through a table in
range. -/
theorem Tracked.seqBatch {G : List LaneId} (hG : G.length ≤ 32) (s : State) :
    ∃ w, R (2 ^ 43) w s (s.seqBatch G) ∧ (s.fseTableOk .ml → w ≤ 2 ^ 23) := by
  have hbatch : ∀ M, (∀ l ∈ G, ((s.readBatch G).1 l).mlv ≤ M) → R (2 ^ 43) (32 * M) s (s.seqBatch G) := by
    intro M hM
    have hlanes := h.forLanes_of (I := fun _ => True) (f := fun l => State.execSeq ((s.readBatch G).1 l)) (ls := G)
      (fun l hl u _ => ⟨h.mono (le_refl _) (hM l hl) (h.execSeq _ u), trivial⟩) (s := (s.readBatch G).2) trivial
    exact h.seq (h.readBatch G s) hlanes (by omega) ((Nat.zero_add _).trans_le (Nat.mul_le_mul_right M hG))
  by_cases hok : s.fseTableOk .ml
  · exact ⟨32 * 2 ^ 18, hbatch _ fun l hl => State.readBatch_mlv_le hok hl, fun _ => by decide⟩
  · exact ⟨_, hbatch (Finset.univ.sup fun l => ((s.readBatch G).1 l).mlv) fun l _ =>
      Finset.le_sup (f := fun l => ((s.readBatch G).1 l).mlv) (Finset.mem_univ l), fun hok' => absurd hok' hok⟩

theorem Tracked.seqBatches (fuel left : Nat) (s : State) :
    ∃ w, R (fuel * 2 ^ 43) w s (Machine.seqBatches fuel left s) ∧ (s.tablesOk → w ≤ fuel * 2 ^ 23) := by
  induction fuel generalizing left s with
  | zero => exact ⟨0, h.mono (Nat.zero_le _) (Nat.zero_le _) (h.refl s), fun _ => Nat.zero_le _⟩
  | succ n ih =>
    unfold Machine.seqBatches
    split
    · have hG := laneRange_length_le_32 0 (min 32 left)
      obtain ⟨w, hw, hle⟩ := h.seqBatch hG s
      obtain ⟨v, hv, hle'⟩ := ih (left - min 32 left) (s.seqBatch (laneRange 0 (min 32 left)))
      obtain ⟨-, hkeep, -⟩ := tablesOk_tracked.seqBatch hG s
      refine ⟨w + v, h.seq hw hv, fun hok => ?_⟩
      have := hle (hok.1 .ml)
      have := hle' (hkeep hok)
      omega
    · exact ⟨0, h.mono (Nat.zero_le _) (Nat.zero_le _) (h.refl s), fun _ => Nat.zero_le _⟩

/-- The live states of all three tables set up (R362). -/
theorem Tracked.initStates (s : State) :
    R 0 0 s (((s.fseInit .ll allLanes).fseInit .ml allLanes).fseInit .off allLanes) :=
  h.free (h.free (h.fseInit .ll allLanes s) (h.fseInit .ml allLanes _)) (h.fseInit .off allLanes _)

theorem Tracked.readNumSeq (s : State) : R 3 0 s (s.readPackedSize.2.setNumSeq s.readPackedSize.1) :=
  h.free (h.readPackedSize s) (h.setNumSeq _ _)

/-- `SeqExec` (R362): at most 4210815 sequences. -/
theorem Tracked.seqExec (s : State) : ∃ w, R (2 ^ 61) w s s.seqExec ∧ (s.tablesOk → w ≤ 2 ^ 41) := by
  have hnum := s.readPackedSize_le
  unfold State.seqExec
  simp only
  split
  · obtain ⟨w, hw, hle⟩ := h.seqBatches ((s.readPackedSize.1 + 31) / 32) s.readPackedSize.1
      ((((s.readPackedSize.2.setNumSeq s.readPackedSize.1).fseInit .ll allLanes).fseInit .ml allLanes).fseInit .off allLanes)
    have hinit := h.free (h.readNumSeq s) (h.initStates _)
    refine ⟨w, h.seq (h.trans hinit hw) (h.litTarget _ _), fun hok => ?_⟩
    have := hle (tablesOk_tracked.initStates _ (tablesOk_tracked.readNumSeq s hok))
    omega
  · exact ⟨0, h.seq (h.free (h.readNumSeq s) (h.warn _ _)) (h.litTarget _ _), fun _ => Nat.zero_le _⟩

theorem Tracked.checkReserved (r : Nat) (s : State) : R 0 0 s (s.checkReserved r) := h.ite (h.refl s) (h.warn _ s)

theorem Tracked.litSection {aux : Nat} (haux : aux ≤ 1) (s : State) : R 4096 (2 ^ 32) s (s.litSection aux) := by
  unfold State.litSection
  simp only
  have hhead := h.trans (h.trans (h.free (h.readByte s) (h.checkReserved (descReserved s.readByte.1) _))
    (h.readPackedSize _)) (h.litCfg (descLitMode s.readByte.1)
      (BitVec.ofNat 32 (s.readByte.2.checkReserved (descReserved s.readByte.1)).readPackedSize.1) _)
  split
  · exact h.seq hhead (h.free (h.readByte _) (h.setRle _ _))
  · split
    · exact h.seq hhead (h.free (h.ite (h.hufWeightsFse haux _)
        (h.mono (c := 2000) (d := 0) (by omega) (le_refl _) (h.hufWeightsExplicit _))) (h.hufExpand _))
    · exact h.mono (by omega) (by omega) hhead

theorem Tracked.seqTable (d : Byte) (t : Tbl) (s : State) : R 1697 0 s (s.seqTable d t) :=
  h.ite (h.mono (by omega) (by omega) (h.fsePredef t s))
    (h.seq (h.free (h.readByte s) (h.checkReserved _ _)) (h.fseBuild t _ _))

theorem Tracked.seqTables (s : State) : R 5092 0 s s.seqTables :=
  h.trans (h.trans (h.trans (h.free (h.readByte s) (h.checkReserved _ _)) (h.seqTable _ _ _)) (h.seqTable _ _ _))
    (h.seqTable _ _ _)

/-- The body of a compressed block (R403): the literals, at most 2^32 of them, are counted by `LITEMITTED`. -/
theorem Tracked.cBlock (cw : Word) (s : State) : ∃ w, R (2 ^ 62) w s (s.cBlock cw).2 ∧ (s.tablesOk → w ≤ 2 ^ 42) := by
  have htables := h.trans (h.litSection (cwAux_le cw) s) (h.seqTables _)
  have hok := fun hs => tablesOk_tracked.seqTables _ (tablesOk_tracked.litSection (cwAux_le cw) s hs)
  obtain ⟨w, hw, hle⟩ := h.seqExec (s.litSection (cwAux cw)).seqTables
  have hbody := h.seq (m := 2 ^ 62) (n := 2 ^ 32 + w) htables hw
  refine ⟨2 ^ 32 + w, h.ite hbody (h.free hbody (h.warn _ _)), fun hs => ?_⟩
  have := hle (hok hs)
  omega

theorem Tracked.rleBlock (cw : Word) (s : State) : R 1 (cwSize cw) s (s.rleBlock cw).2 :=
  h.seq (h.readByte s) (h.times (h.emit _) (cwSize cw) _)

theorem Tracked.rawBlock (cw : Word) (s : State) : R (cwSize cw) (cwSize cw) s (s.rawBlock cw).2 :=
  h.mono (by omega) (by omega) (h.times (fun u => h.trans (h.readByte u) (h.emit _ _)) (cwSize cw) s)

/-- The body of any block (R406): fewer than 2^63 words, and through tables in range at most 2^42 bytes, literals apart. -/
theorem Tracked.blockBody (cw : Word) (s : State) :
    ∃ w, R (2 ^ 62) w s (s.blockBody cw) ∧ (s.tablesOk → w ≤ 2 ^ 42) := by
  have hsize := cwSize_lt cw
  unfold State.blockBody
  split
  · obtain ⟨w, hw, hle⟩ := h.cBlock cw (s.setRunState .decodingCompressedBlock)
    exact ⟨w, h.free_left (h.setRunState _ s) hw, fun hs => hle hs⟩
  · exact ⟨cwSize cw, h.seq (h.setRunState _ s) (h.rleBlock cw _), fun _ => by omega⟩
  · exact ⟨cwSize cw, h.seq (h.setRunState _ s) (h.rawBlock cw _), fun _ => by omega⟩
  · exact ⟨0, h.mono (by omega) (by omega) (h.warn _ s), fun _ => Nat.zero_le _⟩

theorem Tracked.block (s : State) : ∃ w, R (2 ^ 63) w s s.block.2 := by
  obtain ⟨w, hw, -⟩ := h.blockBody s.sync.inWord.1 s.sync.inWord.2
  exact ⟨w, h.seq (h.free_left (h.sync s) (h.inWord _)) (h.free hw (h.setRunState _ _))⟩

theorem Tracked.runBlocks (fuel : Nat) (s : State) : ∃ a b, R a b s (Machine.runBlocks fuel s) := by
  induction fuel generalizing s with
  | zero => exact ⟨0, 0, h.refl s⟩
  | succ n ih =>
    unfold Machine.runBlocks
    split
    · exact ⟨0, 0, h.refl s⟩
    · obtain ⟨w, hw⟩ := h.block s
      obtain ⟨a, b, hab⟩ := ih s.block.2
      exact ⟨_, _, h.trans hw hab⟩

end

/-! ### What a command can do -/

/-- The state in which a command's warnings begin (R401, R407): after the reset, for the two commands that reset. -/
def commandBase (i : Instr) (s : State) : State :=
  match i with
  | .reset => s.doReset
  | .run => s.doReset
  | _ => s

theorem commandBase_cases (i : Instr) (s : State) : commandBase i s = s ∨ commandBase i s = s.doReset := by
  unfold commandBase
  split
  · exact .inr rfl
  · exact .inr rfl
  · exact .inl rfl

/-- What a command can end in: a state that updates of the command lead to, or what an unsanitized build leaves after a warning. -/
def CommandEnd (R : Nat → Nat → State → State → Prop) (base t : State) : Prop :=
  (∃ a b, R a b base t) ∨ (base.sanitize = false ∧ ∃ w, t = base.unsanitized w)

theorem finish_commandEnd {R : Nat → Nat → State → State → Prop} {a b : Nat} {base t : State} (w : Writes)
    (hR : R a b base t) : ∃ u, finish w base t = .next u ∧ CommandEnd R base u := by
  rcases finish_cases w base t with hfin | ⟨hsan, hfin⟩
  · exact ⟨t, hfin, .inl ⟨a, b, hR⟩⟩
  · exact ⟨_, hfin, .inr ⟨hsan, w, rfl⟩⟩

section
variable {R : Nat → Nat → State → State → Prop} (h : Tracked R)
include h

/-- Every command ends in some state, and what it ends in is one of two kinds (R450, R455). -/
theorem Tracked.exec (i : Instr) (s : State) : ∃ t, Machine.exec i s = .next t ∧ CommandEnd R (commandBase i s) t := by
  have hres : ∀ {a b : Nat} {t u : State} (v : Dword), R a b t u → R a b t { u with res := v } :=
    fun v hR => h.free hR (h.setRes v _)
  cases i with
  | reset => exact ⟨_, rfl, .inl ⟨0, 0, h.refl _⟩⟩
  | sync => exact finish_commandEnd _ (h.sync s)
  | rdword => exact finish_commandEnd _ (hres _ (h.inWord s))
  | rdbyte => exact finish_commandEnd _ (hres _ (h.readByte s))
  | rdpsize => exact finish_commandEnd _ (hres _ (h.readPackedSize s))
  | peek lo cnt n => exact finish_commandEnd _ (h.peekV _ _ s)
  | peekv lo cnt => exact finish_commandEnd _ (h.peekV _ _ s)
  | discard lo cnt n => exact finish_commandEnd _ (h.discardV _ _ s)
  | discardv lo cnt => exact finish_commandEnd _ (h.discardV _ _ s)
  | discardacc lo cnt => exact finish_commandEnd _ (h.discardAcc _ s)
  | fsebuild t n => exact finish_commandEnd _ (hres _ (h.fseBuild t n.toNat s))
  | fsepredef t =>
    cases t with
    | hw => exact finish_commandEnd _ (h.warn _ s)
    | ll => exact finish_commandEnd _ (hres _ (h.fsePredef .ll s))
    | ml => exact finish_commandEnd _ (hres _ (h.fsePredef .ml s))
    | off => exact finish_commandEnd _ (hres _ (h.fsePredef .off s))
  | fseinit t lo cnt => exact finish_commandEnd _ (h.fseInit t _ s)
  | fsedec t lo cnt => exact finish_commandEnd _ (h.fseDec t _ s)
  | fsedecnp t lo cnt => exact finish_commandEnd _ (h.fseDecNP t _ s)
  | hufwex => exact finish_commandEnd _ (hres _ (h.hufWeightsExplicit s))
  | hufwfse aux => exact finish_commandEnd _ (hres _ (h.hufWeightsFse (Nat.le_of_lt_succ aux.isLt) s))
  | hufexpand => exact finish_commandEnd _ (hres _ (h.hufExpand s))
  | hufdec lo cnt => exact finish_commandEnd _ (h.hufDec _ s)
  | litcfg mode => exact finish_commandEnd _ (h.litCfg mode _ s)
  | setrle => exact finish_commandEnd _ (h.setRle _ s)
  | littarget => exact finish_commandEnd _ (hres _ (h.litTarget _ s))
  | matchcopy => exact finish_commandEnd _ (h.matchCopy _ _ s)
  | seqexec =>
    obtain ⟨w, hw, -⟩ := h.seqExec s
    exact finish_commandEnd _ (hres _ hw)
  | cblock =>
    obtain ⟨w, hw, -⟩ := h.cBlock s.arg0 s
    exact finish_commandEnd _ (hres _ hw)
  | rleblock => exact finish_commandEnd _ (hres _ (h.rleBlock _ s))
  | rawblock => exact finish_commandEnd _ (hres _ (h.rawBlock _ s))
  | block =>
    obtain ⟨w, hw⟩ := h.block s
    exact finish_commandEnd _ (hres _ hw)
  | run =>
    obtain ⟨a, b, hab⟩ := h.runBlocks s.doReset.maxBlocks s.doReset
    exact finish_commandEnd _ (hres _ hab)

end

theorem hostKept_tracked : Tracked fun _ _ => HostKept :=
  hostKept_closed.tracked fun _ _ => ⟨rfl, rfl, rfl, rfl, rfl, rfl, rfl, rfl, rfl⟩

theorem commandBase_hostKept (i : Instr) (s : State) : HostKept s (commandBase i s) := by
  rcases commandBase_cases i s with hbase | hbase <;> rw [hbase]
  · exact .refl s
  · exact s.doReset_kept

/-- A command answers a next state, and keeps what the host set up (R450, R46, R53, R102). -/
theorem exec_hostKept (i : Instr) (s : State) : ∃ t, exec i s = .next t ∧ HostKept s t := by
  obtain ⟨t, hexec, hend⟩ := hostKept_tracked.exec i s
  refine ⟨t, hexec, (commandBase_hostKept i s).trans ?_⟩
  rcases hend with ⟨_, _, hkept⟩ | ⟨-, w, rfl⟩
  · exact hkept
  · exact State.unsanitized_kept w _

theorem exec_next_hostKept {i : Instr} {s t : State} (h : exec i s = .next t) : HostKept s t := by
  obtain ⟨u, hu, hkept⟩ := exec_hostKept i s
  rw [h] at hu
  cases hu
  exact hkept

/-- What the updates of a command keep, and a reset and the free values of an unsanitized build too, every command keeps. -/
theorem exec_keeps {P : State → Prop} (hT : Tracked fun _ _ s t => P s → P t) (hreset : ∀ s : State, P s.doReset) {i : Instr}
    {s t : State} (hfree : s.sanitize = false → ∀ w, P ((commandBase i s).unsanitized w)) (hs : P s)
    (h : exec i s = .next t) : P t := by
  have hbase : P (commandBase i s) := by
    rcases commandBase_cases i s with hbase | hbase <;> rw [hbase]
    · exact hs
    · exact hreset s
  obtain ⟨u, hu, hend⟩ := hT.exec i s
  rw [h] at hu
  cases hu
  rcases hend with ⟨_, _, hkeep⟩ | ⟨hsan, w, rfl⟩
  · exact hkeep hbase
  · exact hfree ((commandBase_hostKept i s).sanitize.symm.trans hsan) w

/-! ### What a step can do -/

/-- `t` differs from `s` at most in what belongs to the host: the set-up registers, the buffers and the host's own side. -/
def HostChange (s t : State) : Prop :=
  t = { s with
    arg0 := t.arg0, arg1 := t.arg1, nv := t.nv, inSize := t.inSize, outCap := t.outCap, inBuf := t.inBuf
    outBuf := t.outBuf, hostOps := t.hostOps, hostData := t.hostData }

theorem HostChange.trans {s t u : State} (h : HostChange s t) (k : HostChange t u) : HostChange s u := by
  unfold HostChange at *
  rw [k, h]

theorem HostChange.sanitize {s t : State} (h : HostChange s t) : t.sanitize = s.sanitize := by rw [h]

theorem State.hostWrite_hostChange (offset : Nat) (v : Word) (s : State) : HostChange s (s.hostWrite offset v) := by
  unfold State.hostWrite
  split
  iterate 4 rfl
  split <;> rfl

/-- A word written to `CMD` executes some command: an illegal one does what `FSEPREDEF HW` would (R146). -/
theorem issue_eq_exec (c : Word) (s : State) : ∃ i, issue c s = exec i s := by
  unfold issue
  split
  · rename_i i _
    exact ⟨i, rfl⟩
  · exact ⟨.fsepredef .hw, rfl⟩

/-- A step is a change on the host's side, and a command between two such changes where it executes one; a power-on reset is
a `RESET` followed by one (R55, R501). -/
theorem step_cases {s t : State} (h : step s = .next t) :
    HostChange s t ∨ ∃ s' i u, HostChange s s' ∧ exec i s' = .next u ∧ HostChange u t := by
  cases hops : s.hostOps with
  | nil =>
    simp only [step, hops, Host.Outcome.next.injEq] at h
    exact .inl (h ▸ rfl)
  | cons op rest =>
    rw [step_of_hostOps hops] at h
    have htaken : HostChange s { s with hostOps := rest } := rfl
    generalize { s with hostOps := rest } = s' at h htaken
    cases op with
    | write bytes offset v =>
      simp only [hostStep] at h
      split at h
      · split at h
        · split at h
          · obtain ⟨i, hi⟩ := issue_eq_exec v s'
            exact .inr ⟨s', i, t, htaken, hi ▸ h, rfl⟩
          · simp only [Host.Outcome.next.injEq] at h
            exact .inl (h ▸ htaken.trans (State.hostWrite_hostChange offset v s'))
        · exact absurd h nofun
      · exact absurd h nofun
    | read bytes offset =>
      simp only [hostStep] at h
      split at h
      · split at h
        · simp only [Host.Outcome.next.injEq] at h
          exact .inl (h ▸ htaken.trans rfl)
        · exact absurd h nofun
      · exact absurd h nofun
    | placeIn a b =>
      simp only [hostStep] at h
      split at h
      · simp only [Host.Outcome.next.injEq] at h
        exact .inl (h ▸ htaken.trans rfl)
      · exact absurd h nofun
    | placeOut a b =>
      simp only [hostStep] at h
      split at h
      · simp only [Host.Outcome.next.injEq] at h
        exact .inl (h ▸ htaken.trans rfl)
      · exact absurd h nofun
    | powerOn =>
      simp only [hostStep, Host.Outcome.next.injEq] at h
      exact .inr ⟨s', .reset, s'.doReset, htaken, rfl, h ▸ rfl⟩

/-- What every command keeps, and no change on the host's side touches, every step keeps. -/
theorem step_keeps {P : State → Prop} (hhost : ∀ {s t}, HostChange s t → P s → P t)
    (hexec : ∀ {i s t}, P s → exec i s = .next t → P t) {s t : State} (hs : P s) (h : step s = .next t) : P t := by
  rcases step_cases h with hchange | ⟨s', i, u, hbefore, hcmd, hafter⟩
  · exact hhost hchange hs
  · exact hhost hafter (hexec (hhost hbefore hs) hcmd)

/-- In a sanitized build it is enough that the updates of a command and a reset keep it; the build is kept too. -/
theorem step_keeps_sanitized {P : State → Prop} (hT : Tracked fun _ _ s t => P s → P t) (hreset : ∀ s : State, P s.doReset)
    (hhost : ∀ {s t}, HostChange s t → P s → P t) {s t : State} (hsan : s.sanitize = true) (hs : P s)
    (h : step s = .next t) : P t ∧ t.sanitize = true := by
  refine step_keeps (P := fun s => P s ∧ s.sanitize = true) (fun hc hu => ⟨hhost hc hu.1, hc.sanitize.trans hu.2⟩) ?_
    ⟨hs, hsan⟩ h
  intro i s t hs hexec
  exact ⟨exec_keeps hT hreset (fun hfalse => absurd (hs.2.symm.trans hfalse) (by decide)) hs.1 hexec,
    (exec_next_hostKept hexec).sanitize.trans hs.2⟩

end Sys2Proof.Machine

namespace Sys2Proof.Claims

open Sys2Proof.Machine

/-- Settles O50: no update of a command touches what the host set up. -/
theorem everyCommandCompletes : Obligations.EveryCommandCompletes := exec_hostKept

/-- Settles O57: every update of a command keeps the lane buffers in range. -/
theorem stepKeepsLaneBuffers : Obligations.StepKeepsLaneBuffers := fun _ _ hsan hs h =>
  step_keeps_sanitized (lanesOk_closed.tracked fun _ _ => id) (fun s => s.doReset_resetColumn.lanesOk)
    (fun hc hu => by rw [hc]; exact hu) hsan hs h

/-- Settles O58: every update of a command keeps the literal counters up to `MAXLIT`; in the other build the free values of
`WARN_STICKY` have its reserved bits 0 as well. -/
theorem stepKeepsLiteralCounters : Obligations.StepKeepsLiteralCounters := by
  refine ⟨fun s t hsan hs h => ?_, fun s t hs h => ?_⟩
  · exact step_keeps_sanitized litOk_tracked (fun s => s.doReset_resetColumn.litOk) (fun hc hu => by rw [hc]; exact hu)
      hsan hs h
  · exact step_keeps (P := State.stickyOk) (fun hc hu => by rw [hc]; exact hu)
      (fun hs hexec => exec_keeps (stickyOk_closed.tracked fun _ _ => id) (fun s => s.doReset_resetColumn.stickyOk)
        (fun _ w => State.unsanitized_stickyOk w _) hs hexec) hs h

/-- Settles O59: every update of a command keeps the tables and the live states in range. -/
theorem stepKeepsTables : Obligations.StepKeepsTables := fun _ _ hsan hs h =>
  step_keeps_sanitized tablesOk_tracked (fun s => s.doReset_resetColumn.tablesOk) (fun hc hu => by rw [hc]; exact hu) hsan
    hs h

end Sys2Proof.Claims
end

section
/-! The shared operations neither read nor write the registers that only a command as a whole uses: its operands, `RES`, the build,
and the host's side. So they commute with any change of these. A command made of shared operations is thereby the same whether
an earlier command left a value in `RES` or not. -/

namespace Sys2Proof.Machine

/-- `s` with the operand registers, `RES`, the build and the host's side of `o`. -/
def State.outer (s o : State) : State :=
  { s with
    arg0 := o.arg0, arg1 := o.arg1, nv := o.nv, sanitize := o.sanitize, res := o.res, hostOps := o.hostOps
    hostData := o.hostData }

variable (o s : State)

/-! ### What the shared operations read

These are rewritten by their proofs, `(rfl)`, and not by definition, so that the decision of a case distinction is rewritten with
the condition. -/

@[simp] theorem outer_lane (l : LaneId) : (s.outer o).lane l = s.lane l := (rfl)
@[simp] theorem outer_syms (l : LaneId) : (s.outer o).syms l = s.syms l := (rfl)
@[simp] theorem outer_fss (l : LaneId) (t : Tbl) : (s.outer o).fss l t = s.fss l t := (rfl)
@[simp] theorem outer_fsd (l : LaneId) (t : Tbl) : (s.outer o).fsd l t = s.fsd l t := (rfl)
@[simp] theorem outer_windowBits (k n : LaneId → Nat) (l : LaneId) :
    (s.outer o).windowBits k n l = s.windowBits k n l := (rfl)
@[simp] theorem outer_rcn : (s.outer o).rcn = s.rcn := (rfl)
@[simp] theorem outer_writePos : (s.outer o).writePos = s.writePos := (rfl)
@[simp] theorem outer_maxLit : (s.outer o).maxLit = s.maxLit := (rfl)
@[simp] theorem outer_litEmitted : (s.outer o).litEmitted = s.litEmitted := (rfl)
@[simp] theorem outer_litTotal : (s.outer o).litTotal = s.litTotal := (rfl)
@[simp] theorem outer_tacc : (s.outer o).tacc = s.tacc := (rfl)
@[simp] theorem outer_built (t : Tbl) : (s.outer o).built t = s.built t := (rfl)
@[simp] theorem outer_cell (t : Tbl) (x : Nat) : (s.outer o).cell t x = s.cell t x := (rfl)
@[simp] theorem outer_weights : (s.outer o).weights = s.weights := (rfl)
@[simp] theorem outer_hufEntryAt (i : Nat) : (s.outer o).hufEntryAt i = s.hufEntryAt i := (rfl)

/-! ### The elementary updates -/

@[simp] theorem outer_warn (c : Warn) : (s.outer o).warn c = (s.warn c).outer o := rfl
@[simp] theorem outer_inWord_word : (s.outer o).inWord.1 = s.inWord.1 := rfl
@[simp] theorem outer_inWord : (s.outer o).inWord.2 = s.inWord.2.outer o := rfl
@[simp] theorem outer_emit (b : Byte) : (s.outer o).emit b = (s.emit b).outer o := rfl
@[simp] theorem outer_modLane (l : LaneId) (f : Lane → Lane) : (s.outer o).modLane l f = (s.modLane l f).outer o := rfl
@[simp] theorem outer_setSym (l : LaneId) (v : Nat) : (s.outer o).setSym l v = (s.setSym l v).outer o := rfl
@[simp] theorem outer_setFse (l : LaneId) (t : Tbl) (b : BitVec 16) (n : BitVec 4) :
    (s.outer o).setFse l t b n = (s.setFse l t b n).outer o := rfl
@[simp] theorem outer_takeCell (l : LaneId) (t : Tbl) (c : FseCell) :
    (s.outer o).takeCell l t c = (s.takeCell l t c).outer o := rfl
@[simp] theorem outer_fillCache (w : Word) : (s.outer o).fillCache w = (s.fillCache w).outer o := rfl
@[simp] theorem outer_takeCached : (s.outer o).takeCached.2 = s.takeCached.2.outer o := rfl
@[simp] theorem outer_setFseCell (i : Nat) (c : FseCell) :
    (s.outer o).setFseCell i c = (s.setFseCell i c).outer o := rfl
@[simp] theorem outer_setBuilt (t : Tbl) (a : Nat) : (s.outer o).setBuilt t a = (s.setBuilt t a).outer o := rfl
@[simp] theorem outer_clearWeights : (s.outer o).clearWeights = s.clearWeights.outer o := rfl
@[simp] theorem outer_setHufWeight (k w : Nat) : (s.outer o).setHufWeight k w = (s.setHufWeight k w).outer o := rfl
@[simp] theorem outer_setHufn (n : Nat) : (s.outer o).setHufn n = (s.setHufn n).outer o := rfl
@[simp] theorem outer_setHufEntry (i : Nat) (e : HufEntry) :
    (s.outer o).setHufEntry i e = (s.setHufEntry i e).outer o := rfl
@[simp] theorem outer_setHufBuilt (wb : Nat) : (s.outer o).setHufBuilt wb = (s.setHufBuilt wb).outer o := rfl
@[simp] theorem outer_setRle (b : Byte) : (s.outer o).setRle b = (s.setRle b).outer o := rfl
@[simp] theorem outer_emitLit (b : Byte) : (s.outer o).emitLit b = (s.emitLit b).outer o := rfl
@[simp] theorem outer_setRep (a b c : Word) : (s.outer o).setRep a b c = (s.setRep a b c).outer o := rfl
@[simp] theorem outer_setLitTotal (n : Nat) : (s.outer o).setLitTotal n = (s.setLitTotal n).outer o := rfl
@[simp] theorem outer_setNumSeq (n : Nat) : (s.outer o).setNumSeq n = (s.setNumSeq n).outer o := rfl
@[simp] theorem outer_setRunState (r : RunState) : (s.outer o).setRunState r = (s.setRunState r).outer o := rfl

/-! ### The shared operations -/

/-- An operation commutes with a change of the registers it does not use. -/
def Commutes (f : State → State) : Prop := ∀ o s, f (s.outer o) = (f s).outer o

variable {o s}

/-- A case distinction on what is the same in both states. -/
theorem outer_ite {p : Prop} [Decidable p] {t u t' u' : State} (ht : t' = t.outer o) (hu : u' = u.outer o) :
    (if p then t' else u') = (if p then t else u).outer o := by
  split <;> assumption

variable (o s)

@[simp] theorem ite_outer {p : Prop} [Decidable p] (t u : State) :
    (if p then t.outer o else u.outer o) = (if p then t else u).outer o := outer_ite rfl rfl

theorem Commutes.forLanes {f : LaneId → State → State} (hf : ∀ l, Commutes (f l)) (ls : List LaneId) :
    Commutes (forLanes ls f) := by
  intro o s
  induction ls generalizing s with
  | nil => rfl
  | cons l ls ih => rw [forLanes_cons, hf l, ih, forLanes_cons]

theorem Commutes.times {f : State → State} (hf : Commutes f) (n : Nat) : Commutes (times n f) := by
  intro o s
  induction n generalizing s with
  | zero => rfl
  | succ n ih => rw [times_succ, hf, ih, times_succ]

/-! The bitstream reader. -/

@[simp] theorem outer_refill (l : LaneId) (n : Nat) : (s.outer o).refill l n = (s.refill l n).outer o :=
  outer_ite rfl rfl

@[simp] theorem outer_drop (l : LaneId) (n : Nat) : (s.outer o).drop l n = (s.drop l n).outer o := outer_ite rfl rfl

@[simp] theorem outer_peekLane (l : LaneId) (w : Nat) : (s.outer o).peekLane l w = (s.peekLane l w).outer o := by
  simp [State.peekLane]

@[simp] theorem outer_peekV (ls : List LaneId) (w : LaneId → Nat) : (s.outer o).peekV ls w = (s.peekV ls w).outer o :=
  Commutes.forLanes (fun l o s => outer_peekLane o s l (w l)) ls o s

@[simp] theorem outer_peek (ls : List LaneId) (n : Nat) : (s.outer o).peek ls n = (s.peek ls n).outer o :=
  outer_peekV o s ls fun _ => n

@[simp] theorem outer_discardV (ls : List LaneId) (w : LaneId → Nat) :
    (s.outer o).discardV ls w = (s.discardV ls w).outer o :=
  Commutes.forLanes (fun l o s => outer_drop o s l (w l)) ls o s

@[simp] theorem outer_discardAcc (ls : List LaneId) : (s.outer o).discardAcc ls = (s.discardAcc ls).outer o :=
  Commutes.forLanes (fun l o s => by simp [State.dropAcc]) ls o s

@[simp] theorem outer_readByte : (s.outer o).readByte = (s.readByte.1, s.readByte.2.outer o) := by
  unfold State.readByte
  rw [outer_rcn]
  split <;> rfl

@[simp] theorem outer_sync : (s.outer o).sync = s.sync.outer o :=
  Commutes.forLanes (fun _ _ _ => rfl) allLanes o { s with rcn := 0, rcb := Vector.replicate 4 0 }

/-! The FSE engine. -/

theorem outer_writeSlots (t : Tbl) (A j : Nat) (cs : List FseCell) :
    writeSlots t A j cs (s.outer o) = (writeSlots t A j cs s).outer o := by
  induction cs generalizing j s with
  | nil => rfl
  | cons c cs ih => exact ih (s.setFseCell _ c) (j + 1)

@[simp] theorem outer_buildTable (t : Tbl) (A : Nat) (prob : List Nat) :
    (s.outer o).buildTable t A prob = (s.buildTable t A prob).outer o := by
  simp [State.buildTable, outer_writeSlots]

/-- A distribution read so far, its machine changed so. -/
def DistProgress.outer (d : DistProgress) (o : State) : DistProgress := { d with mach := d.mach.outer o }

@[simp] theorem DistProgress.outer_cum (d : DistProgress) : (d.outer o).cum = d.cum := (rfl)
@[simp] theorem DistProgress.outer_mach (d : DistProgress) : (d.outer o).mach = d.mach.outer o := (rfl)

theorem DistProgress.outer_ite {p : Prop} [Decidable p] {d e d' e' : DistProgress} (hd : d' = d.outer o)
    (he : e' = e.outer o) : (if p then d' else e') = (if p then d else e).outer o := by
  split <;> assumption

theorem outer_takeCode (t : Tbl) (A : Nat) (d : DistProgress) (l : LaneId) :
    takeCode t A (d.outer o) l = (takeCode t A d l).outer o := by
  unfold takeCode
  refine DistProgress.outer_ite o ?_ rfl
  simp only [DistProgress.outer_cum, DistProgress.outer_mach, outer_lane, outer_warn, ite_outer, outer_drop]
  exact DistProgress.outer_ite o rfl rfl

theorem outer_distRound (t : Tbl) (A : Nat) (d : DistProgress) :
    distRound t A (d.outer o) = (distRound t A d).outer o := by
  have hcodes : ∀ (ls : List LaneId) (d : DistProgress),
      ls.foldl (takeCode t A) (d.outer o) = (ls.foldl (takeCode t A) d).outer o := by
    intro ls
    induction ls with
    | nil => exact fun _ => rfl
    | cons l ls ih => exact fun d => by rw [List.foldl_cons, outer_takeCode, ih, List.foldl_cons]
  unfold distRound
  rw [← hcodes]
  simp [DistProgress.outer]

theorem outer_distLoop (t : Tbl) (A fuel : Nat) (d : DistProgress) :
    distLoop t A fuel (d.outer o) = (distLoop t A fuel d).outer o := by
  induction fuel generalizing d with
  | zero => rfl
  | succ n ih =>
    unfold distLoop
    exact DistProgress.outer_ite o (by rw [outer_distRound, ih]) rfl

theorem outer_distComplete (A : Nat) (d : DistProgress) :
    distComplete A (d.outer o) = ((distComplete A d).1, (distComplete A d).2.outer o) := by
  unfold distComplete
  rw [DistProgress.outer_cum]
  split <;> rfl

@[simp] theorem outer_readDistribution (t : Tbl) (A : Nat) :
    (s.outer o).readDistribution t A = ((s.readDistribution t A).1, (s.readDistribution t A).2.outer o) := by
  unfold State.readDistribution
  rw [show distStart t (s.outer o) = (distStart t s).outer o from rfl, outer_distLoop,
    outer_distComplete]

@[simp] theorem outer_clampAcc (t : Tbl) (a : Nat) :
    (s.outer o).clampAcc t a = ((s.clampAcc t a).1, (s.clampAcc t a).2.outer o) := by
  unfold State.clampAcc
  split
  · rfl
  · split <;> rfl

@[simp] theorem outer_fseBuild (t : Tbl) (a : Nat) :
    (s.outer o).fseBuild t a = ((s.fseBuild t a).1, (s.fseBuild t a).2.outer o) := by
  simp [State.fseBuild]

@[simp] theorem outer_fsePredef (t : Tbl) :
    (s.outer o).fsePredef t = ((s.fsePredef t).1, (s.fsePredef t).2.outer o) := by
  unfold State.fsePredef
  split
  · simp
  · rfl

@[simp] theorem outer_fseInit (t : Tbl) (ls : List LaneId) : (s.outer o).fseInit t ls = (s.fseInit t ls).outer o := by
  unfold State.fseInit
  simp only [outer_built, outer_tacc, outer_warn, ite_outer]
  refine Commutes.forLanes (fun l => ?_) ls o _
  exact fun _ _ => rfl

@[simp] theorem outer_decodeUnbuilt (ls : List LaneId) : (s.outer o).decodeUnbuilt ls = (s.decodeUnbuilt ls).outer o :=
  Commutes.forLanes (f := fun l => State.setSym l 0) (fun _ _ _ => rfl) ls o (s.warn .tableNotBuilt)

theorem outer_fseDecLane (t : Tbl) (l : LaneId) : (s.outer o).fseDecLane t l = (s.fseDecLane t l).outer o := by
  simp [State.fseDecLane]

@[simp] theorem outer_fseDec (t : Tbl) (ls : List LaneId) : (s.outer o).fseDec t ls = (s.fseDec t ls).outer o := by
  unfold State.fseDec
  refine outer_ite ?_ (outer_decodeUnbuilt o s ls)
  simp only [outer_fsd, outer_peekV]
  exact Commutes.forLanes (fun l o s => outer_fseDecLane o s t l) ls o _

theorem outer_fseDecNPLane (t : Tbl) (l : LaneId) : (s.outer o).fseDecNPLane t l = (s.fseDecNPLane t l).outer o := by
  unfold State.fseDecNPLane
  simp only [outer_lane, outer_fsd, outer_fss, outer_cell, outer_warn, ite_outer, outer_modLane, outer_takeCell]

@[simp] theorem outer_fseDecNP (t : Tbl) (ls : List LaneId) : (s.outer o).fseDecNP t ls = (s.fseDecNP t ls).outer o :=
  outer_ite (Commutes.forLanes (fun l o s => outer_fseDecNPLane o s t l) ls o s) (outer_decodeUnbuilt o s ls)

/-! The Huffman engine. -/

@[simp] theorem outer_storeWeight (N k w : Nat) : (s.outer o).storeWeight N k w = (s.storeWeight N k w).outer o :=
  outer_ite (outer_ite rfl rfl) rfl

@[simp] theorem outer_readWeightBytes (N left i : Nat) :
    readWeightBytes N left i (s.outer o) = (readWeightBytes N left i s).outer o := by
  induction left generalizing i s with
  | zero => rfl
  | succ n ih => simp [readWeightBytes, ih]

@[simp] theorem outer_hufWeightsExplicit :
    (s.outer o).hufWeightsExplicit = (s.hufWeightsExplicit.1, s.hufWeightsExplicit.2.outer o) := by
  simp [State.hufWeightsExplicit]

@[simp] theorem outer_storeSymbols (k : Nat) (ls : List LaneId) :
    storeSymbols k ls (s.outer o) = (storeSymbols k ls s).outer o :=
  Commutes.forLanes (fun _ _ _ => rfl) ls o s

@[simp] theorem outer_fseWeightBatches (Nw fuel k : Nat) :
    fseWeightBatches Nw fuel k (s.outer o) = (fseWeightBatches Nw fuel k s).outer o := by
  induction fuel generalizing k s with
  | zero => rfl
  | succ n ih =>
    unfold fseWeightBatches
    exact outer_ite (by simp [ih]) rfl

@[simp] theorem outer_hufWeightsFse (aux : Nat) :
    (s.outer o).hufWeightsFse aux = ((s.hufWeightsFse aux).1, (s.hufWeightsFse aux).2.outer o) := by
  simp [State.hufWeightsFse]

@[simp] theorem outer_fillRange (wb : Nat) (e : HufEntry) (n v : Nat) :
    fillRange wb e n v (s.outer o) = (fillRange wb e n v s).outer o := by
  induction n generalizing v s with
  | zero => rfl
  | succ n ih => exact ih (s.setHufEntry _ e) (v + 1)

@[simp] theorem outer_gapFill (e : HufEntry) (n i : Nat) : gapFill e n i (s.outer o) = (gapFill e n i s).outer o := by
  induction n generalizing i s with
  | zero => rfl
  | succ n ih => exact ih (s.setHufEntry i e) (i + 1)

@[simp] theorem outer_placeSymbols (wb : Nat) (ws : List Nat) (sym : Nat) (next : List Nat) :
    placeSymbols wb ws sym next (s.outer o) = (placeSymbols wb ws sym next s).outer o := by
  induction ws generalizing sym next s with
  | nil => rfl
  | cons w ws ih =>
    unfold placeSymbols
    exact outer_ite (ih _ _ _) (by simp [ih])

@[simp] theorem outer_hufExpand : (s.outer o).hufExpand = (s.hufExpand.1, s.hufExpand.2.outer o) := by
  unfold State.hufExpand
  rw [outer_weights]
  simp only
  split
  · simp
  · unfold State.expandWeights
    simp only [outer_warn, ite_outer, outer_gapFill, outer_placeSymbols, outer_setHufBuilt]

@[simp] theorem outer_hufDec (ls : List LaneId) : (s.outer o).hufDec ls = (s.hufDec ls).outer o := by
  refine outer_ite ?_ (outer_decodeUnbuilt o s ls)
  rw [outer_peek]
  exact Commutes.forLanes (fun l o s => by simp [State.hufDecLane]) ls o _

/-! The sequence and literal engine. -/

@[simp] theorem outer_readPackedSize :
    (s.outer o).readPackedSize = (s.readPackedSize.1, s.readPackedSize.2.outer o) := by
  unfold State.readPackedSize
  simp only [outer_readByte]
  split
  · rfl
  · split <;> rfl

@[simp] theorem outer_litCfg (mode : BitVec 2) (n : Word) : (s.outer o).litCfg mode n = (s.litCfg mode n).outer o := by
  unfold State.litCfg
  simp only [outer_warn, ite_outer]
  rfl

theorem outer_emitRawLit : (s.outer o).emitRawLit = s.emitRawLit.outer o := by simp [State.emitRawLit]

@[simp] theorem outer_emitLaneLits (ls : List LaneId) : (s.outer o).emitLaneLits ls = (s.emitLaneLits ls).outer o :=
  Commutes.forLanes (fun _ _ _ => rfl) ls o s

@[simp] theorem outer_hufLits (target fuel : Nat) : hufLits target fuel (s.outer o) = (hufLits target fuel s).outer o := by
  induction fuel generalizing s with
  | zero => rfl
  | succ n ih =>
    unfold hufLits
    exact outer_ite (by simp [ih]) rfl

@[simp] theorem outer_emitLits (target : Nat) : (s.outer o).emitLits target = (s.emitLits target).outer o :=
  outer_ite (outer_ite (Commutes.times (fun _ _ => rfl) _ o (s.warn .tableNotBuilt)) (outer_hufLits o s _ _))
    (outer_ite (Commutes.times (f := fun u => u.emitLit u.rleByte) (fun _ _ => rfl) _ o s)
      (Commutes.times outer_emitRawLit _ o s))

@[simp] theorem outer_litTarget (target : Nat) : (s.outer o).litTarget target = (s.litTarget target).outer o :=
  outer_ite (outer_emitLits o (s.warn .litOverrun) _) (outer_emitLits o s _)

@[simp] theorem outer_matchCopy (off len : Nat) : (s.outer o).matchCopy off len = (s.matchCopy off len).outer o := by
  unfold State.matchCopy
  refine outer_ite (Commutes.times (f := State.emit 0) (fun _ _ => rfl) len o (s.warn .offsetZero)) ?_
  simp only [outer_writePos, outer_warn, ite_outer]
  exact Commutes.times (f := State.copyByte off) (fun _ _ => rfl) len o _

@[simp] theorem outer_resolveOffset (ov llv : Nat) :
    (s.outer o).resolveOffset ov llv = ((s.resolveOffset ov llv).1, (s.resolveOffset ov llv).2.outer o) := by
  unfold State.resolveOffset
  split
  · rfl
  · split <;> rfl

@[simp] theorem outer_clampTotal (llv : Nat) :
    (s.outer o).clampTotal llv = ((s.clampTotal llv).1, (s.clampTotal llv).2.outer o) := by
  unfold State.clampTotal
  simp only [outer_litTotal, outer_maxLit]
  split <;> rfl

theorem outer_execSeq (q : SeqVals) : (s.outer o).execSeq q = (s.execSeq q).outer o := by simp [State.execSeq]

@[simp] theorem outer_readBatch (G : List LaneId) :
    (s.outer o).readBatch G = ((s.readBatch G).1, (s.readBatch G).2.outer o) := by
  simp [State.readBatch]

@[simp] theorem outer_seqBatch (G : List LaneId) : (s.outer o).seqBatch G = (s.seqBatch G).outer o := by
  unfold State.seqBatch
  simp only [outer_readBatch]
  exact Commutes.forLanes (fun l o s => outer_execSeq o s _) G o _

@[simp] theorem outer_seqBatches (fuel left : Nat) :
    seqBatches fuel left (s.outer o) = (seqBatches fuel left s).outer o := by
  induction fuel generalizing left s with
  | zero => rfl
  | succ n ih =>
    unfold seqBatches
    exact outer_ite (by simp [ih]) rfl

@[simp] theorem outer_seqExec : (s.outer o).seqExec = s.seqExec.outer o := by
  unfold State.seqExec
  simp only [outer_readPackedSize, outer_setNumSeq, outer_built]
  exact outer_ite (by simp) (by simp)

/-! The block driver. -/

@[simp] theorem outer_checkReserved (r : Nat) : (s.outer o).checkReserved r = (s.checkReserved r).outer o :=
  outer_ite rfl rfl

@[simp] theorem outer_litSection (aux : Nat) : (s.outer o).litSection aux = (s.litSection aux).outer o := by
  unfold State.litSection
  simp only [outer_readByte, outer_checkReserved, outer_readPackedSize, outer_litCfg]
  refine outer_ite rfl (outer_ite ?_ rfl)
  simp only [outer_hufWeightsFse, outer_hufWeightsExplicit, ite_outer, outer_hufExpand]

@[simp] theorem outer_seqTable (d : Byte) (t : Tbl) : (s.outer o).seqTable d t = (s.seqTable d t).outer o :=
  outer_ite (by simp) (by simp)

@[simp] theorem outer_seqTables : (s.outer o).seqTables = s.seqTables.outer o := by simp [State.seqTables]

theorem outer_cBlock (cw : Word) : ((s.outer o).cBlock cw).2 = (s.cBlock cw).2.outer o := by
  unfold State.cBlock
  simp only [outer_litSection, outer_seqTables, outer_seqExec, outer_writePos]
  exact outer_ite rfl rfl

theorem outer_rleBlock (cw : Word) : ((s.outer o).rleBlock cw).2 = (s.rleBlock cw).2.outer o := by
  unfold State.rleBlock
  rw [outer_readByte]
  exact Commutes.times (fun _ _ => rfl) _ o _

theorem outer_rawBlock (cw : Word) : ((s.outer o).rawBlock cw).2 = (s.rawBlock cw).2.outer o :=
  Commutes.times (fun o s => by simp [State.emitRaw]) _ o s

@[simp] theorem outer_blockBody (cw : Word) : (s.outer o).blockBody cw = (s.blockBody cw).outer o := by
  unfold State.blockBody
  split
  · exact outer_cBlock o (s.setRunState .decodingCompressedBlock) cw
  · exact outer_rleBlock o (s.setRunState .decodingRLEBlock) cw
  · exact outer_rawBlock o (s.setRunState .decodingRawBlock) cw
  · rfl

/-- `BLOCK` is the same whatever the registers are that it does not use (R406). -/
theorem outer_block : (s.outer o).block = (s.block.1, s.block.2.outer o) := by
  simp [State.block]

theorem outer_runBlocks (fuel : Nat) : runBlocks fuel (s.outer o) = (runBlocks fuel s).outer o := by
  induction fuel generalizing s with
  | zero => rfl
  | succ n ih =>
    unfold runBlocks
    exact outer_ite rfl (by rw [outer_block, ih])

end Sys2Proof.Machine
end

section
/-! What a block loads and produces, and the run of a whole stream: the blocks of `RUN` are the commands `BLOCK`, each of them moves
`READPOS` on, and past the end of the input the control word is 0, which ends the stream (45_block_driver.md R407, R408). -/

namespace Sys2Proof.Machine

open Sys2Proof.Claims

/-! ### Words loaded and bytes produced -/

/-- Between `s` and `t` at most `a` input words were loaded and, literals apart, at most `b` bytes produced. What is produced
stands in the output as `Stored` says; the literals among it are those that `LITEMITTED` counted. -/
def Produced (a b : Nat) (s t : State) : Prop :=
  (∃ k, k ≤ a ∧ t.readPos = s.readPos + BitVec.ofNat 64 k) ∧ t.outCap = s.outCap ∧
    ∃ bs, Stored s t bs ∧ bs.length + s.litEmitted.toNat ≤ b + t.litEmitted.toNat

/-- An update of other registers loads and produces nothing. -/
theorem Produced.of_kept {s t : State} (hr : t.readPos = s.readPos) (hp : t.writePos = s.writePos)
    (ho : t.outBuf = s.outBuf) (hv : t.written = s.written) (hc : t.outCap = s.outCap) (hl : t.litEmitted = s.litEmitted) :
    Produced 0 0 s t :=
  ⟨⟨0, le_refl _, by simp [hr]⟩, hc, [], (Stored.refl s).congr hp ho hv, by simp [hl]⟩

theorem Produced.trans {a b c d : Nat} {s t u : State} (h : Produced a b s t) (k : Produced c d t u) :
    Produced (a + c) (b + d) s u := by
  obtain ⟨⟨i, hi, hr⟩, hcap, bs, hbs, hlen⟩ := h
  obtain ⟨⟨j, hj, kr⟩, kcap, cs, hcs, klen⟩ := k
  refine ⟨⟨i + j, by omega, ?_⟩, kcap.trans hcap, bs ++ cs, hbs.trans hcs hcap, ?_⟩
  · rw [kr, hr, BitVec.ofNat_add, BitVec.add_assoc]
  · rw [List.length_append]
    omega

theorem Produced.mono {a b c d : Nat} {s t : State} (hac : a ≤ c) (hbd : b ≤ d) (h : Produced a b s t) :
    Produced c d s t := by
  obtain ⟨⟨i, hi, hr⟩, hcap, bs, hbs, hlen⟩ := h
  exact ⟨⟨i, by omega, hr⟩, hcap, bs, hbs, by omega⟩

/-- Every update loads and produces what the sharper induction counts. -/
theorem produced_tracked : Tracked Produced where
  refl _ := .of_kept rfl rfl rfl rfl rfl rfl
  trans := .trans
  mono := .mono
  warn _ _ := .of_kept rfl rfl rfl rfl rfl rfl
  inWord s := ⟨⟨1, le_refl _, rfl⟩, rfl, [], (Stored.refl s).congr rfl rfl rfl, by simp⟩
  emit b s := ⟨⟨0, le_refl _, by simp⟩, rfl, [b], s.emit_stored b, by simp⟩
  refill l n s _ := by
    unfold State.refill
    split
    · exact ⟨⟨1, le_refl _, rfl⟩, rfl, [], (Stored.refl s).congr rfl rfl rfl, by simp⟩
    · exact .mono (Nat.zero_le _) (le_refl _) (.of_kept rfl rfl rfl rfl rfl rfl)
  window _ _ _ _ := .of_kept rfl rfl rfl rfl rfl rfl
  drop l n s := by
    unfold State.drop
    split <;> exact .of_kept rfl rfl rfl rfl rfl rfl
  setDacc _ _ _ := .of_kept rfl rfl rfl rfl rfl rfl
  emptyLane _ _ := .of_kept rfl rfl rfl rfl rfl rfl
  clearCache _ := .of_kept rfl rfl rfl rfl rfl rfl
  fillCache _ _ := .of_kept rfl rfl rfl rfl rfl rfl
  takeCached _ := .of_kept rfl rfl rfl rfl rfl rfl
  setSym _ _ _ := .of_kept rfl rfl rfl rfl rfl rfl
  setFse _ _ _ _ _ _ := .of_kept rfl rfl rfl rfl rfl rfl
  buildTable t A prob s _ := by
    rw [State.buildTable_frame]
    exact .of_kept rfl rfl rfl rfl rfl rfl
  clearWeights _ := .of_kept rfl rfl rfl rfl rfl rfl
  setHufWeight _ _ _ := .of_kept rfl rfl rfl rfl rfl rfl
  setHufn _ _ := .of_kept rfl rfl rfl rfl rfl rfl
  hufExpand s := by
    rw [State.hufExpand_frame]
    exact .of_kept rfl rfl rfl rfl rfl rfl
  openLits m n s := by
    have hlit := s.litEmitted.isLt
    exact ⟨⟨0, le_refl _, by simp⟩, rfl, [], (Stored.refl s).congr rfl rfl rfl, by simp; omega⟩
  setRle _ _ := .of_kept rfl rfl rfl rfl rfl rfl
  emitLit b s hroom := by
    refine ⟨⟨0, le_refl _, ?_⟩, rfl, [b], (s.emit_stored b).congr rfl rfl rfl, ?_⟩
    · exact (BitVec.add_zero _).symm
    · rw [State.emitLit_litEmitted b hroom]
      simp
      omega
  setRep _ _ _ _ := .of_kept rfl rfl rfl rfl rfl rfl
  setLitTotal _ _ _ := .of_kept rfl rfl rfl rfl rfl rfl
  setNumSeq _ _ := .of_kept rfl rfl rfl rfl rfl rfl
  setRunState _ _ := .of_kept rfl rfl rfl rfl rfl rfl
  setRes _ _ := .of_kept rfl rfl rfl rfl rfl rfl

/-! ### One block (R406) -/

/-- `SYNC` does not move the input cursor (R201). -/
theorem State.sync_readPos (s : State) : s.sync.readPos = s.readPos := by
  obtain ⟨⟨k, hk, hr⟩, -⟩ := produced_tracked.sync s
  obtain rfl := Nat.le_zero.1 hk
  simpa using hr

/-- Beyond the input every word is 0 (R101, R103). -/
theorem State.inWordAt_of_ge {s : State} {i : Nat} (h : s.inSize.toNat ≤ 4 * i) : s.inWordAt i = 0 := by
  have hbyte : ∀ k, s.inByte (4 * i + k) = 0 := fun k => if_neg (by omega)
  simp only [State.inWordAt, hbyte, show s.inByte (4 * i) = 0 from hbyte 0]
  rfl

/-- What the command `BLOCK` computes: the block, and its control word in `RES` (R406). -/
def blockNext (s : State) : State := s.block.2.setRes s.block.1.toNat

theorem exec_block {s : State} (h : s.sanitize = true) : exec .block s = .next (blockNext s) := finish_of_sanitize h

theorem blockNext_hostKept (s : State) : HostKept s (blockNext s) :=
  (hostKept_closed.block s).trans ⟨rfl, rfl, rfl, rfl, rfl, rfl, rfl, rfl, rfl⟩

theorem blockNext_tablesOk {s : State} (h : s.tablesOk) : (blockNext s).tablesOk := by
  obtain ⟨-, hkeep⟩ := tablesOk_tracked.block s
  exact hkeep h

/-- A block takes its control word and fewer than 2^63 words after it. -/
theorem blockNext_readPos (s : State) :
    ∃ k, 1 ≤ k ∧ k < 2 ^ 63 ∧ (blockNext s).readPos = s.readPos + BitVec.ofNat 64 k := by
  obtain ⟨-, ⟨⟨k, hk, hr⟩, -⟩, -⟩ := produced_tracked.blockBody s.sync.inWord.1 s.sync.inWord.2
  refine ⟨1 + k, by omega, by omega, ?_⟩
  have hcw : s.sync.inWord.2.readPos = s.readPos + BitVec.ofNat 64 1 := by
    rw [State.inWord_readPos, s.sync_readPos]
    rfl
  calc (blockNext s).readPos = s.sync.inWord.2.readPos + BitVec.ofNat 64 k := hr
    _ = s.readPos + BitVec.ofNat 64 (1 + k) := by rw [hcw, BitVec.ofNat_add, BitVec.add_assoc]

/-- A block whose control word lies beyond the input ends the stream: the word is 0, which has `CONT` = 0 (R408). -/
theorem blockNext_done {s : State} (h : (s.inSize.toNat + 3) / 4 ≤ s.readPos.toNat) : (blockNext s).runState = .done := by
  have hword : s.block.1 = 0 := by
    show s.sync.inWordAt s.sync.readPos.toNat = 0
    rw [s.sync_readPos]
    exact State.inWordAt_of_ge (by rw [(hostKept_closed.sync s).inSize]; omega)
  show nextRunState s.block.1 = .done
  rw [hword]
  rfl

/-- A block through tables in range produces at most 2^43 bytes: 2^42 by its matches, and its literals (R403). -/
theorem blockNext_stored {s : State} (h : s.tablesOk) :
    ∃ bs, Stored s (blockNext s) bs ∧ bs.length ≤ 2 ^ 43 := by
  have hstart : Produced 1 0 s s.sync.inWord.2 := produced_tracked.free_left (produced_tracked.sync s) (produced_tracked.inWord _)
  have hok : s.sync.inWord.2.tablesOk :=
    tablesOk_tracked.inWord _ (tablesOk_tracked.sync s h)
  obtain ⟨w, hbody, hw⟩ := produced_tracked.blockBody s.sync.inWord.1 s.sync.inWord.2
  obtain ⟨-, -, bs, hbs, hlen⟩ := hstart.trans hbody
  have hlit := (s.sync.inWord.2.blockBody s.sync.inWord.1).litEmitted.isLt
  have hw' := hw hok
  exact ⟨bs, hbs.congr rfl rfl rfl, by omega⟩

/-! ### The blocks of a run (R407) -/

theorem HostKept.symm {s t : State} (h : HostKept s t) : HostKept t s :=
  ⟨h.arg0.symm, h.arg1.symm, h.nv.symm, h.inSize.symm, h.outCap.symm, h.sanitize.symm, h.inBuf.symm, h.hostOps.symm,
    h.hostData.symm⟩

theorem blocks_hostKept (s : State) (n : Nat) : HostKept s (blockNext^[n] s) := by
  induction n with
  | zero => exact .refl s
  | succ n ih =>
    rw [Function.iterate_succ_apply']
    exact ih.trans (blockNext_hostKept _)

theorem blocks_tablesOk {s : State} (h : s.tablesOk) (n : Nat) : (blockNext^[n] s).tablesOk := by
  induction n with
  | zero => exact h
  | succ n ih =>
    rw [Function.iterate_succ_apply']
    exact blockNext_tablesOk ih

/-- While the stream goes on, every block moves `READPOS` on by a word at least; the cursor does not wrap, since it is still
within the input. -/
theorem blocks_readPos (s : State) (n : Nat) (h : ∀ j ≤ n, (blockNext^[j] s).runState ≠ .done) :
    n ≤ (blockNext^[n] s).readPos.toNat := by
  induction n with
  | zero => exact Nat.zero_le _
  | succ n ih =>
    have hn := ih fun j hj => h j (by omega)
    have hgoing := h (n + 1) (le_refl _)
    rw [Function.iterate_succ_apply'] at hgoing ⊢
    generalize blockNext^[n] s = u at hn hgoing ⊢
    have hwithin : u.readPos.toNat < (u.inSize.toNat + 3) / 4 := by
      by_contra hend
      exact hgoing (blockNext_done (Nat.not_lt.1 hend))
    have hsize := u.inSize.isLt
    obtain ⟨k, hk1, hk2, hr⟩ := blockNext_readPos u
    rw [hr, BitVec.toNat_add, BitVec.toNat_ofNat]
    omega

/-- The number of blocks that R408 allows is enough. -/
theorem blocks_done (s : State) {n : Nat} (hn : n = s.maxBlocks) (h : ∀ j < n, (blockNext^[j] s).runState ≠ .done) :
    (blockNext^[n] s).runState = .done := by
  obtain ⟨m, rfl⟩ : ∃ m, n = m + 1 := ⟨(s.inSize.toNat + 3) / 4, hn⟩
  have hm := blocks_readPos s m fun j hj => h j (by omega)
  rw [Function.iterate_succ_apply']
  refine blockNext_done (le_trans ?_ hm)
  rw [(blocks_hostKept s m).inSize]
  simp only [State.maxBlocks] at hn
  omega

/-- The loop of `RUN` is the command `BLOCK` again and again, up to what `BLOCK` leaves in `RES`. -/
theorem runBlocks_eq_blocks (fuel : Nat) (s : State) :
    ∃ n ≤ fuel, (∀ j < n, (blockNext^[j] s).runState ≠ .done) ∧
      (n < fuel → (blockNext^[n] s).runState = .done) ∧
      ∀ o, (runBlocks fuel s).outer o = (blockNext^[n] s).outer o := by
  induction fuel generalizing s with
  | zero => exact ⟨0, le_refl _, by simp, by simp, fun _ => rfl⟩
  | succ fuel ih =>
    unfold runBlocks
    split
    · rename_i hdone
      exact ⟨0, Nat.zero_le _, by simp, fun _ => hdone, fun _ => rfl⟩
    · rename_i hgoing
      obtain ⟨n, hle, hbefore, hend, heq⟩ := ih (blockNext s)
      refine ⟨n + 1, by omega, fun j hj => ?_, fun hlt => hend (by omega), fun o => ?_⟩
      · cases j with
        | zero => exact hgoing
        | succ j => exact hbefore j (by omega)
      · have hres : runBlocks fuel (blockNext s) = (runBlocks fuel s.block.2).outer (blockNext s) :=
          outer_runBlocks (blockNext s) s.block.2 fuel
        rw [Function.iterate_succ_apply, ← heq o, hres]
        rfl

/-- Two states that differ only in the registers no shared operation uses, and of these only in `RES`. -/
theorem setRes_congr {x y : State} (h : ∀ o, x.outer o = y.outer o) (hk : HostKept x y) (v : Dword) :
    ({ x with res := v } : State) = { y with res := v } := by
  have hx := h { y with res := v }
  simp only [State.outer, hk.arg0, hk.arg1, hk.nv, hk.sanitize, hk.hostOps, hk.hostData] at hx
  simpa only [State.mk.injEq, hk.arg0, hk.arg1, hk.nv, hk.sanitize, hk.hostOps, hk.hostData] using hx

/-- `RUN` from a sanitized build ends where its blocks end (R407). -/
theorem exec_run {s : State} (hsan : s.sanitize = true) :
    ∃ n ≤ s.maxBlocks, (∀ j < n, (blockNext^[j] s.doReset).runState ≠ .done) ∧
      (blockNext^[n] s.doReset).runState = .done ∧
      exec .run s = .next { blockNext^[n] s.doReset with res := (blockNext^[n] s.doReset).writePos } := by
  obtain ⟨n, hle, hbefore, hend, heq⟩ := runBlocks_eq_blocks s.doReset.maxBlocks s.doReset
  have hdone : (blockNext^[n] s.doReset).runState = .done := by
    rcases Nat.lt_or_eq_of_le hle with hlt | hmax
    · exact hend hlt
    · exact blocks_done s.doReset hmax hbefore
  have hpos : (runBlocks s.doReset.maxBlocks s.doReset).writePos = (blockNext^[n] s.doReset).writePos := by
    have houter := congrArg State.writePos (heq s)
    exact houter
  have hrun : exec .run s = .next { runBlocks s.doReset.maxBlocks s.doReset with
      res := (runBlocks s.doReset.maxBlocks s.doReset).writePos } := finish_of_sanitize (base := s.doReset) hsan
  have hkept : HostKept (runBlocks s.doReset.maxBlocks s.doReset) (blockNext^[n] s.doReset) :=
    (hostKept_closed.runBlocks _ _).symm.trans (blocks_hostKept _ n)
  refine ⟨n, hle, hbefore, hdone, ?_⟩
  rw [hrun, hpos, setRes_congr heq hkept]

/-- What the blocks produce, one after the other: as many bytes as each moves `WRITEPOS` on by. -/
theorem blocks_stored {s : State} (h : s.tablesOk) (n : Nat) :
    ∃ bs, Stored s (blockNext^[n] s) bs ∧ bs.length ≤ n * 2 ^ 43 ∧
      bs.length = ((List.range n).map fun j =>
        ((blockNext^[j + 1] s).writePos - (blockNext^[j] s).writePos).toNat).sum := by
  induction n with
  | zero => exact ⟨[], Stored.refl s, le_refl _, rfl⟩
  | succ n ih =>
    obtain ⟨bs, hbs, hlen, hsum⟩ := ih
    obtain ⟨cs, hcs, hclen⟩ := blockNext_stored (blocks_tablesOk h n)
    rw [List.range_succ, List.map_append, List.sum_append, List.map_singleton, List.sum_singleton, ← hsum,
      Function.iterate_succ_apply']
    have hadvance : ((blockNext (blockNext^[n] s)).writePos - (blockNext^[n] s).writePos).toNat = cs.length := by
      rw [hcs.1, add_sub_cancel_left, BitVec.toNat_ofNat]
      exact Nat.mod_eq_of_lt (by omega)
    refine ⟨bs ++ cs, hbs.trans hcs (blocks_hostKept s n).outCap, ?_, ?_⟩
    · rw [List.length_append]
      omega
    · rw [List.length_append, hadvance]

end Sys2Proof.Machine

namespace Sys2Proof.Claims

open Sys2Proof.Machine

/-- Settles O49: `RUN` is the blocks of `exec_run`, and what they produce is the output. -/
theorem runEndsDone : Obligations.RunEndsDone := by
  refine ⟨by decide, fun s hsan => ?_⟩
  obtain ⟨n, hle, hbefore, hdone, hrun⟩ := exec_run hsan
  obtain ⟨bs, hbs, hlen, hsum⟩ := blocks_stored s.doReset_resetColumn.tablesOk n
  have hsanj : ∀ j, (blockNext^[j] s.doReset).sanitize = true := fun j =>
    (blocks_hostKept s.doReset j).sanitize.trans hsan
  refine ⟨_, bs, n, fun j => blockNext^[j] s.doReset, hrun, hdone, rfl, rfl, hle, fun j hj => ⟨hbefore j hj, ?_⟩, hdone,
    rfl, hsum, fun hin => ?_, ?_, exec_next_hostKept hrun⟩
  · show exec .block (blockNext^[j] s.doReset) = .next (blockNext^[j + 1] s.doReset)
    rw [Function.iterate_succ_apply']
    exact exec_block (hsanj j)
  · have hpos : (blockNext^[n] s.doReset).writePos = BitVec.ofNat 64 bs.length := hbs.1.trans (BitVec.zero_add _)
    simp only [State.maxBlocks] at hle
    show bs.length = (blockNext^[n] s.doReset).writePos.toNat
    rw [hpos, BitVec.toNat_ofNat]
    omega
  · exact (hbs.congr_left rfl rfl rfl rfl).congr rfl rfl rfl

end Sys2Proof.Claims
end

section
/-! The two buffers (20_memory.md R100, R105): every step keeps their canonical form, and what the host places in them is what
is read there. -/

namespace Sys2Proof.Machine

open Sys2Proof.Claims

/-! ### The canonical form -/

theorem State.memOk_iff {s : State} : s.memOk = true ↔ s.inBuf.wf = true ∧ s.outBuf.wf = true := by simp [State.memOk]

/-- `Emit` (R105) keeps the output buffer canonical. -/
theorem State.emit_outBuf_wf (b : Byte) {s : State} (h : s.outBuf.wf = true) : (s.emit b).outBuf.wf = true := by
  unfold State.emit
  simp only
  split
  · exact Memory.write_wf _ _ h
  · exact h

/-- What is read after `Emit` (R105). -/
theorem State.emit_outBuf_read (b : Byte) {s : State} (h : s.outBuf.wf = true) (a : Nat) :
    (s.emit b).outBuf.read a = if a = s.writePos.toNat ∧ a < s.outCap.toNat then b else s.outBuf.read a := by
  simp only [State.emit]
  split
  · rename_i hroom
    rw [Memory.read_write _ _ _ h]
    exact if_congr ⟨fun ha => ⟨ha, ha ▸ hroom⟩, And.left⟩ rfl rfl
  · rw [if_neg (by omega)]

/-- Every elementary update keeps the output buffer canonical: only `Emit` writes it. -/
theorem outBuf_wf_closed : Closed fun s t => s.outBuf.wf = true → t.outBuf.wf = true where
  refl _ := id
  trans h k := k ∘ h
  warn _ _ := id
  inWord _ := id
  emit b _ := State.emit_outBuf_wf b
  refill l n s _ hs := by
    unfold State.refill
    split <;> exact hs
  window _ _ _ _ := id
  drop l n s hs := by
    unfold State.drop
    split <;> exact hs
  setDacc _ _ _ := id
  emptyLane _ _ := id
  clearCache _ := id
  fillCache _ _ := id
  takeCached _ := id
  setSym _ _ _ := id
  setFse _ _ _ _ _ := id
  setFseCell _ _ _ := id
  setBuilt _ _ _ := id
  clearWeights _ := id
  setHufWeight _ _ _ := id
  setHufn _ _ := id
  setHufEntry _ _ _ := id
  setHufBuilt _ _ := id
  openLits _ _ _ := id
  setRle _ _ := id
  countLit _ := id
  setRep _ _ _ _ := id
  setLitTotal _ _ := id
  setNumSeq _ _ := id
  setRunState _ _ := id

/-- Arbitrary bytes written under any condition keep a buffer canonical. -/
theorem foldl_write_wf (keep : Nat × Byte → Prop) [DecidablePred keep] (cs : List (Nat × Byte)) {m : Memory}
    (h : m.wf = true) : (cs.foldl (fun m c => if keep c then m.write c.1 c.2 else m) m).wf = true := by
  induction cs generalizing m with
  | nil => exact h
  | cons c cs ih =>
    refine ih ?_
    show (if keep c then m.write c.1 c.2 else m).wf = true
    split
    · exact Memory.write_wf _ _ h
    · exact h

/-- The free output bytes of an unsanitized build (R455) stand in a canonical buffer. -/
theorem State.freeOut_wf {s : State} (h : s.outBuf.wf = true) : s.freeOut.wf = true := foldl_write_wf _ _ h

/-- Every command keeps the output buffer canonical, in either build. -/
theorem exec_outBuf_wf {i : Instr} {s t : State} (hs : s.outBuf.wf = true) (h : exec i s = .next t) : t.outBuf.wf = true := by
  have hbase : (commandBase i s).outBuf.wf = true := by
    rcases commandBase_cases i s with hbase | hbase <;> rw [hbase] <;> exact hs
  obtain ⟨u, hu, hend⟩ := (outBuf_wf_closed.tracked fun _ _ => id).exec i s
  rw [h] at hu
  cases hu
  rcases hend with ⟨_, _, hkeep⟩ | ⟨-, w, rfl⟩
  · exact hkeep hbase
  · exact State.freeOut_wf hbase

theorem exec_memOk {i : Instr} {s t : State} (hs : s.memOk = true) (h : exec i s = .next t) : t.memOk = true := by
  obtain ⟨hin, hout⟩ := State.memOk_iff.1 hs
  exact State.memOk_iff.2 ⟨(exec_next_hostKept h).inBuf ▸ hin, exec_outBuf_wf hout h⟩

/-! ### The host's operations -/

/-- A register write reaches no buffer (R44, R113). -/
theorem State.hostWrite_memOk (offset : Nat) (v : Word) (s : State) : (s.hostWrite offset v).memOk = s.memOk := by
  unfold State.hostWrite
  split
  iterate 4 rfl
  split <;> rfl

/-- Every operation of the host keeps both buffers canonical. -/
theorem hostStep_memOk {op : HostOp} {s t : State} (hs : s.memOk = true) (h : hostStep op s = .next t) :
    t.memOk = true := by
  obtain ⟨hin, hout⟩ := State.memOk_iff.1 hs
  cases op with
  | write bytes offset v =>
    simp only [hostStep] at h
    split at h
    · split at h
      · split at h
        · obtain ⟨i, hi⟩ := issue_eq_exec v s
          exact exec_memOk hs (hi ▸ h)
        · cases h
          rwa [State.hostWrite_memOk]
      · cases h
    · cases h
  | read bytes offset =>
    simp only [hostStep] at h
    split at h
    · split at h <;> cases h
      exact hs
    · cases h
  | placeIn a b =>
    simp only [hostStep] at h
    split at h <;> cases h
    exact State.memOk_iff.2 ⟨Memory.write_wf a b hin, hout⟩
  | placeOut a b =>
    simp only [hostStep] at h
    split at h <;> cases h
    exact State.memOk_iff.2 ⟨hin, Memory.write_wf a b hout⟩
  | powerOn =>
    cases h
    exact hs

end Sys2Proof.Machine

namespace Sys2Proof.Claims

open Sys2Proof.Machine

/-- Settles O56: with no operation pending nothing changes, and every operation of the host keeps the form. -/
theorem stepKeepsMemoryCanonical : Obligations.StepKeepsMemoryCanonical := by
  intro s t hs h
  cases hops : s.hostOps with
  | nil =>
    simp only [step, hops] at h
    cases h
    exact hs
  | cons op rest =>
    rw [step_of_hostOps hops] at h
    exact hostStep_memOk (s := { s with hostOps := rest }) hs h

/-- Settles O10: the two operations are writes of the buffers, below the limit of R110. -/
theorem hostPlacesBufferBytes : Obligations.HostPlacesBufferBytes := by
  intro s rest a b hs
  obtain ⟨hin, hout⟩ := State.memOk_iff.1 hs
  refine ⟨fun ha => ⟨⟨_, if_pos ha, fun k => ?_, rfl⟩, _, if_pos ha, fun k => ?_, rfl⟩, fun ha => ⟨?_, ?_⟩⟩
  · exact Memory.read_write a k b hin
  · exact Memory.read_write a k b hout
  · exact if_neg (Nat.not_lt.2 ha)
  · exact if_neg (Nat.not_lt.2 ha)

end Sys2Proof.Claims
end

section
/-! The match copy (44_sequences.md R357): what a copy of bytes produces, one at a time, is the bytes before it, repeated. -/

namespace Sys2Proof.Machine

open Sys2Proof.Claims

/-- Where `WRITEPOS` does not wrap, it stands just past what was produced. -/
theorem writePos_toNat_of_stored {s t : State} {bs : List Byte} (h : Stored s t bs)
    (hwrap : s.writePos.toNat + bs.length < 2 ^ 64) : t.writePos.toNat = s.writePos.toNat + bs.length := by
  rw [h.1, BitVec.toNat_add, BitVec.toNat_ofNat]
  omega

/-- The bytes produced may be named otherwise where they were dropped (R105), where `WRITEPOS` wrapped, and where the buffer
they went to was not canonical: `Stored` says nothing of them there. -/
theorem stored_of_bytes {s t : State} {bs cs : List Byte} (h : Stored s t bs) (hlen : cs.length = bs.length)
    (hbytes : s.writePos.toNat + bs.length < 2 ^ 64 → s.outBuf.wf = true → ∀ k, k < bs.length →
      s.writePos.toNat + k < s.outCap.toNat → cs.getD k 0 = bs.getD k 0) : Stored s t cs := by
  obtain ⟨hpos, hmem⟩ := h
  refine ⟨hlen ▸ hpos, fun hwrap => ?_⟩
  rw [hlen] at hwrap ⊢
  obtain ⟨hwrote, hread⟩ := hmem hwrap
  refine ⟨hwrote, fun hwf => ⟨(hread hwf).1, fun a => ?_⟩⟩
  rw [(hread hwf).2 a]
  split
  · rename_i ha
    exact (hbytes hwrap hwf _ (by omega) (by omega)).symm
  · rfl

/-! ### One source byte -/

/-- The `k`-th byte of a match of offset `off` (R357): one of the `off` bytes before the match, where there is one that the
engine wrote and did not drop. -/
def matchByte (s : State) (off k : Nat) : Byte :=
  if s.writePos.toNat + k % off < off ∨ s.outCap.toNat ≤ s.writePos.toNat + k % off - off ∨
      s.wrote (s.writePos.toNat + k % off - off) = false then 0
  else s.outBuf.read (s.writePos.toNat + k % off - off)

/-- The bytes of a match repeat with the period of its offset. -/
theorem matchByte_sub {off k : Nat} (h : off ≤ k) (s : State) : matchByte s off (k - off) = matchByte s off k := by
  unfold matchByte
  rw [Nat.mod_eq_sub_mod h]

/-- A byte read `off` before `WRITEPOS` (R106). -/
theorem State.outByte_sub {off : Nat} (hoff : 0 < off) (s : State) :
    s.outByte ((s.writePos.toNat : Int) - off) =
      if s.writePos.toNat < off ∨ s.outCap.toNat ≤ s.writePos.toNat - off ∨ s.wrote (s.writePos.toNat - off) = false then 0
      else s.outBuf.read (s.writePos.toNat - off) := by
  unfold State.outByte
  by_cases hstart : s.writePos.toNat < off
  · rw [if_pos (.inl (by omega)), if_pos (.inl hstart)]
  · have haddr : ((s.writePos.toNat : Int) - off).toNat = s.writePos.toNat - off := by omega
    rw [haddr]
    by_cases hcap : s.outCap.toNat ≤ s.writePos.toNat - off
    · rw [if_pos (.inr (.inr (by omega))), if_pos (.inr (.inl hcap))]
    · rw [if_neg (by omega)]
      cases s.wrote (s.writePos.toNat - off) <;> simp [hstart, hcap]

/-- After `n` bytes of a match, the next source is the byte of the match that `matchByte` names: one from before the match
for the first `off` bytes, and from then on one that the match itself wrote. -/
theorem outByte_of_stored {s t : State} {off n : Nat} (hoff : 0 < off)
    (h : Stored s t ((List.range n).map (matchByte s off))) (hcap : t.outCap = s.outCap)
    (hwrap : s.writePos.toNat + n < 2 ^ 64) (hwf : s.outBuf.wf = true) (hroom : s.writePos.toNat + n < s.outCap.toNat) :
    t.outByte ((t.writePos.toNat : Int) - off) = matchByte s off n := by
  have hlen : ((List.range n).map (matchByte s off)).length = n := by simp
  have hpos := writePos_toNat_of_stored h (by rwa [hlen])
  obtain ⟨hwrote, hread⟩ := h.2 (by rwa [hlen])
  obtain ⟨-, hread⟩ := hread hwf
  rw [hlen] at hpos hwrote hread
  rw [State.outByte_sub hoff, hpos, hcap]
  rcases Nat.lt_or_ge n off with hfirst | hlater
  · unfold matchByte
    rw [Nat.mod_eq_of_lt hfirst]
    by_cases hstart : s.writePos.toNat + n < off
    · rw [if_pos (.inl hstart), if_pos (.inl hstart)]
    · have hold : t.wrote (s.writePos.toNat + n - off) = s.wrote (s.writePos.toNat + n - off) := by
        rw [hwrote, decide_eq_false (p := s.writePos.toNat ≤ _) (by omega), Bool.false_and, Bool.false_and, Bool.or_false]
      have hbyte : t.outBuf.read (s.writePos.toNat + n - off) = s.outBuf.read (s.writePos.toNat + n - off) := by
        rw [hread, if_neg (by omega)]
      rw [hold, hbyte]
  · have hnew : t.wrote (s.writePos.toNat + n - off) = true := by
      rw [hwrote]
      simp only [Bool.or_eq_true, Bool.and_eq_true, decide_eq_true_eq]
      exact .inr (by omega)
    rw [if_neg (by rw [hnew]; simp; omega), hread, if_pos (by omega),
      show s.writePos.toNat + n - off - s.writePos.toNat = n - off by omega, ← matchByte_sub hlater]
    simp [List.getD_eq_getElem?_getD, show n - off < n by omega]

/-! ### The whole copy -/

/-- A copy changes the output alone. -/
theorem times_copyByte_frame (off n : Nat) (s : State) :
    times n (State.copyByte off) s = { s with
      writePos := (times n (State.copyByte off) s).writePos
      outBuf := (times n (State.copyByte off) s).outBuf
      written := (times n (State.copyByte off) s).written } := by
  induction n generalizing s with
  | zero => rfl
  | succ n ih => exact ih (s.copyByte off)

/-- `n` bytes copied one after the other (R357). -/
theorem times_copyByte_stored {off : Nat} (hoff : 0 < off) (n : Nat) (s : State) :
    Stored s (times n (State.copyByte off) s) ((List.range n).map (matchByte s off)) := by
  induction n with
  | zero => exact Stored.refl s
  | succ n ih =>
    have hcap : (times n (State.copyByte off) s).outCap = s.outCap := by rw [times_copyByte_frame]
    rw [times_succ_last]
    generalize times n (State.copyByte off) s = t at ih hcap ⊢
    refine stored_of_bytes (ih.trans (t.emit_stored _) hcap) (by simp) fun hwrap hwf k hk hroom => ?_
    rw [List.length_append, List.length_map, List.length_range, List.length_singleton] at hwrap hk
    rw [List.range_succ, List.map_append]
    rcases Nat.lt_succ_iff_lt_or_eq.1 hk with hbefore | rfl
    · rw [List.getD_append _ _ _ _ (by simpa using hbefore), List.getD_append _ _ _ _ (by simpa using hbefore)]
    · rw [outByte_of_stored hoff ih hcap (by omega) hwf hroom]
      rfl

/-- An offset of 0 warns and produces zeros (R357). -/
theorem State.matchCopy_zero (len : Nat) (s : State) :
    Stored s (s.matchCopy 0 len) (List.replicate len 0) ∧ WarnedHere s (s.matchCopy 0 len) [.offsetZero] ∧
      s.matchCopy 0 len = { warningsOf s (s.matchCopy 0 len) with
        writePos := (s.matchCopy 0 len).writePos
        outBuf := (s.matchCopy 0 len).outBuf
        written := (s.matchCopy 0 len).written } := by
  have hcopy : s.matchCopy 0 len = times len (State.emit 0) (s.warn .offsetZero) := if_pos rfl
  obtain ⟨hstored, hframe⟩ := times_emit_stored len 0 (s.warn .offsetZero)
  rw [← hcopy] at hstored hframe
  generalize s.matchCopy 0 len = t at hstored hframe ⊢
  rw [hframe] at hstored ⊢
  exact ⟨hstored.congr_left rfl rfl rfl rfl, s.warn_warnedHere .offsetZero, rfl⟩

/-- Any other offset copies, and warns where the first source lies before index 0 (R357). -/
theorem State.matchCopy_of_pos {off : Nat} (hoff : 0 < off) (len : Nat) (s : State) :
    Stored s (s.matchCopy off len) ((List.range len).map (matchByte s off)) ∧
      WarnedHere s (s.matchCopy off len) (if s.writePos.toNat < off then [.matchBeforeStart] else []) ∧
      s.matchCopy off len = { warningsOf s (s.matchCopy off len) with
        writePos := (s.matchCopy off len).writePos
        outBuf := (s.matchCopy off len).outBuf
        written := (s.matchCopy off len).written } := by
  have hcopy : s.matchCopy off len = times len (State.copyByte off)
      (if s.writePos.toNat < off then s.warn .matchBeforeStart else s) := if_neg (by omega)
  rw [hcopy]
  split
  · have hframe := times_copyByte_frame off len (s.warn .matchBeforeStart)
    have hstored := times_copyByte_stored hoff len (s.warn .matchBeforeStart)
    generalize times len (State.copyByte off) (s.warn .matchBeforeStart) = t at hstored hframe ⊢
    rw [hframe] at hstored ⊢
    exact ⟨hstored, s.warn_warnedHere .matchBeforeStart, rfl⟩
  · have hframe := times_copyByte_frame off len s
    have hstored := times_copyByte_stored hoff len s
    generalize times len (State.copyByte off) s = t at hstored hframe ⊢
    rw [hframe] at hstored ⊢
    exact ⟨hstored, .refl s, rfl⟩

end Sys2Proof.Machine

namespace Sys2Proof.Claims

open Sys2Proof.Machine

/-- Settles O40: an offset of 0 emits zeros, any other copies. -/
theorem matchCopies : Obligations.MatchCopies := by
  refine ⟨by decide, fun s hsan => ⟨s.matchCopy s.arg0.toNat s.arg1.toNat, finish_of_sanitize hsan, ?_⟩⟩
  rcases Nat.eq_zero_or_pos s.arg0.toNat with hzero | hoff
  · obtain ⟨hstored, hwarned, hframe⟩ := s.matchCopy_zero s.arg1.toNat
    rw [← hzero] at hstored hwarned hframe
    exact ⟨fun _ => ⟨hstored, hwarned⟩, fun hoff => absurd hzero (Nat.ne_of_gt hoff), hframe⟩
  · obtain ⟨hstored, hwarned, hframe⟩ := s.matchCopy_of_pos hoff s.arg1.toNat
    exact ⟨fun hzero => absurd hzero (Nat.ne_of_gt hoff), fun _ => ⟨hstored, hwarned⟩, hframe⟩

end Sys2Proof.Claims
end

section
/-! What the commands produce (20_memory.md R105, R107): bytes appended at `WRITEPOS`, far fewer than would make it wrap. -/

namespace Sys2Proof.Machine

open Sys2Proof.Claims

/-- A part that produces at most 2^43 bytes and its literals ends a sanitized command, with all of them stored. -/
theorem finish_stored {w : Writes} {a b : Nat} {s t : State} (hsan : s.sanitize = true) (h : Produced a b s t)
    (hb : b ≤ 2 ^ 43) : ∃ u bs, finish w s t = .next u ∧ Stored s u bs ∧ bs.length ≤ 2 ^ 44 := by
  obtain ⟨-, -, bs, hbs, hlen⟩ := h
  have hlit := t.litEmitted.isLt
  exact ⟨t, bs, finish_of_sanitize hsan, hbs, by omega⟩

/-- A part that produces literals at most. -/
theorem finish_stored_lits {w : Writes} {a : Nat} {s t : State} (hsan : s.sanitize = true) (h : Produced a 0 s t) :
    ∃ u bs, finish w s t = .next u ∧ Stored s u bs ∧ bs.length ≤ 2 ^ 44 := finish_stored hsan h (Nat.zero_le _)

/-- Through tables in range every command but the resets produces at most 2^44 bytes: matches are bounded by R359, and
literals by `MAXLIT`. -/
theorem exec_stored {i : Instr} {s : State} (hsan : s.sanitize = true) (hok : s.tablesOk) (hreset : i ≠ .reset)
    (hrun : i ≠ .run) : ∃ t bs, exec i s = .next t ∧ Stored s t bs ∧ bs.length ≤ 2 ^ 44 := by
  have h := produced_tracked
  have hres : ∀ {a b : Nat} {t u : State} (v : Dword), Produced a b t u → Produced a b t { u with res := v } :=
    fun v hR => h.free hR (h.setRes v _)
  cases i with
  | reset => exact absurd rfl hreset
  | sync => exact finish_stored_lits hsan (h.sync s)
  | rdword => exact finish_stored_lits hsan (hres _ (h.inWord s))
  | rdbyte => exact finish_stored_lits hsan (hres _ (h.readByte s))
  | rdpsize => exact finish_stored_lits hsan (hres _ (h.readPackedSize s))
  | peek lo cnt n => exact finish_stored_lits hsan (h.peekV _ _ s)
  | peekv lo cnt => exact finish_stored_lits hsan (h.peekV _ _ s)
  | discard lo cnt n => exact finish_stored_lits hsan (h.discardV _ _ s)
  | discardv lo cnt => exact finish_stored_lits hsan (h.discardV _ _ s)
  | discardacc lo cnt => exact finish_stored_lits hsan (h.discardAcc _ s)
  | fsebuild t n => exact finish_stored_lits hsan (hres _ (h.fseBuild t n.toNat s))
  | fsepredef t =>
    cases t with
    | hw => exact finish_stored_lits hsan (h.warn _ s)
    | ll => exact finish_stored_lits hsan (hres _ (h.fsePredef .ll s))
    | ml => exact finish_stored_lits hsan (hres _ (h.fsePredef .ml s))
    | off => exact finish_stored_lits hsan (hres _ (h.fsePredef .off s))
  | fseinit t lo cnt => exact finish_stored_lits hsan (h.fseInit t _ s)
  | fsedec t lo cnt => exact finish_stored_lits hsan (h.fseDec t _ s)
  | fsedecnp t lo cnt => exact finish_stored_lits hsan (h.fseDecNP t _ s)
  | hufwex => exact finish_stored_lits hsan (hres _ (h.hufWeightsExplicit s))
  | hufwfse aux => exact finish_stored_lits hsan (hres _ (h.hufWeightsFse (Nat.le_of_lt_succ aux.isLt) s))
  | hufexpand => exact finish_stored_lits hsan (hres _ (h.hufExpand s))
  | hufdec lo cnt => exact finish_stored_lits hsan (h.hufDec _ s)
  | litcfg mode => exact finish_stored hsan (h.litCfg mode _ s) (by decide)
  | setrle => exact finish_stored_lits hsan (h.setRle _ s)
  | littarget => exact finish_stored_lits hsan (hres _ (h.litTarget _ s))
  | matchcopy => exact finish_stored hsan (h.matchCopy _ _ s) (s.arg1.isLt.le.trans (by decide))
  | seqexec =>
    obtain ⟨w, hw, hle⟩ := h.seqExec s
    exact finish_stored hsan (hres _ hw) ((hle hok).trans (by decide))
  | cblock =>
    obtain ⟨w, hw, hle⟩ := h.cBlock s.arg0 s
    exact finish_stored hsan (hres _ hw) ((hle hok).trans (by decide))
  | rleblock => exact finish_stored hsan (hres _ (h.rleBlock _ s)) ((cwSize_lt _).le.trans (by decide))
  | rawblock => exact finish_stored hsan (hres _ (h.rawBlock _ s)) ((cwSize_lt _).le.trans (by decide))
  | block =>
    obtain ⟨bs, hbs, hlen⟩ := blockNext_stored hok
    exact ⟨_, bs, exec_block hsan, hbs, hlen.trans (by decide)⟩
  | run => exact absurd rfl hrun

end Sys2Proof.Machine

namespace Sys2Proof.Claims

open Sys2Proof.Machine

/-- Settles O51: so few bytes are produced that their number is the advance of `WRITEPOS`, not only its remainder. -/
theorem outputIsAppended : Obligations.OutputIsAppended := by
  intro i s hsan hok hreset hrun
  obtain ⟨t, bs, hexec, hbs, hlen⟩ := exec_stored hsan hok hreset hrun
  refine ⟨t, bs, hexec, ?_, hbs⟩
  rw [hbs.1, add_sub_cancel_left, BitVec.toNat_ofNat]
  exact (Nat.mod_eq_of_lt (by omega)).symm

end Sys2Proof.Claims
end

section
/-! Two runs side by side (20_memory.md R106, 70 R510): the bytes of `OUT` that the engine did not write are read by no operation
of a command. `Emit` writes the same byte in both runs, a match reads only bytes both runs wrote, and no other operation knows
of the output buffer at all. -/

namespace Sys2Proof.Claims

open Sys2Proof.Machine

/-- Two answers that are the same value, with states that differ only in unwritten bytes of `OUT`. -/
def SameAnswer {α : Type} (r r' : α × State) : Prop := r'.1 = r.1 ∧ SameButUnwrittenOut r.2 r'.2

/-- The same, of two distributions read so far. -/
structure SameProgress (d d' : DistProgress) : Prop where
  prob : d'.prob = d.prob
  cum : d'.cum = d.cum
  sym : d'.sym = d.sym
  mach : SameButUnwrittenOut d.mach d'.mach

/-- `s` with the output buffer `m`. -/
def withOut (m : Memory) (s : State) : State := { s with outBuf := m }

section
variable {s s' t t' : State}

/-- All but the output buffer is the same in both. -/
theorem SameButUnwrittenOut.exists_withOut (h : SameButUnwrittenOut s s') : ∃ m, s' = withOut m s := ⟨_, h.1⟩

/-- An update that neither reads nor writes the output, nor the record of what was written, is the same in both. -/
theorem SameButUnwrittenOut.update (h : SameButUnwrittenOut s s') (f : State → State)
    (hf : ∀ m u, f (withOut m u) = withOut m (f u)) (hw : ∀ u : State, (f u).written = u.written) :
    SameButUnwrittenOut (f s) (f s') := by
  obtain ⟨m, rfl⟩ := h.exists_withOut
  obtain ⟨-, hwf, hwf', hread⟩ := h
  have hsame : f s = withOut s.outBuf (f s) := hf s.outBuf s
  have hout : (f s).outBuf = s.outBuf := (congrArg State.outBuf hsame).trans rfl
  rw [hf]
  refine ⟨rfl, hout.symm ▸ hwf, hwf', fun a ha => ?_⟩
  rw [State.wrote_congr (hw s)] at ha
  rw [hout]
  exact hread a ha

/-! ### The elementary updates -/

theorem SameButUnwrittenOut.warn (c : Warn) (h : SameButUnwrittenOut s s') :
    SameButUnwrittenOut (s.warn c) (s'.warn c) :=
  h.update _ (fun _ _ => rfl) fun _ => rfl

theorem SameButUnwrittenOut.modLane (l : LaneId) (f : Lane → Lane) (h : SameButUnwrittenOut s s') :
    SameButUnwrittenOut (s.modLane l f) (s'.modLane l f) :=
  h.update _ (fun _ _ => rfl) fun _ => rfl

theorem SameButUnwrittenOut.setSym (l : LaneId) (v : Nat) (h : SameButUnwrittenOut s s') :
    SameButUnwrittenOut (s.setSym l v) (s'.setSym l v) :=
  h.update _ (fun _ _ => rfl) fun _ => rfl

theorem SameButUnwrittenOut.setFse (l : LaneId) (k : Tbl) (base : BitVec 16) (nb : BitVec 4)
    (h : SameButUnwrittenOut s s') :
    SameButUnwrittenOut (s.setFse l k base nb) (s'.setFse l k base nb) :=
  h.update _ (fun _ _ => rfl) fun _ => rfl

theorem SameButUnwrittenOut.takeCell (l : LaneId) (k : Tbl) (c : FseCell) (h : SameButUnwrittenOut s s') :
    SameButUnwrittenOut (s.takeCell l k c) (s'.takeCell l k c) :=
  h.update _ (fun _ _ => rfl) fun _ => rfl

theorem SameButUnwrittenOut.fillCache (w : Word) (h : SameButUnwrittenOut s s') :
    SameButUnwrittenOut (s.fillCache w) (s'.fillCache w) :=
  h.update _ (fun _ _ => rfl) fun _ => rfl

theorem SameButUnwrittenOut.takeCached (h : SameButUnwrittenOut s s') :
    SameButUnwrittenOut s.takeCached.2 s'.takeCached.2 :=
  h.update (fun u => u.takeCached.2) (fun _ _ => rfl) fun _ => rfl

theorem SameButUnwrittenOut.setFseCell (i : Nat) (c : FseCell) (h : SameButUnwrittenOut s s') :
    SameButUnwrittenOut (s.setFseCell i c) (s'.setFseCell i c) :=
  h.update _ (fun _ _ => rfl) fun _ => rfl

theorem SameButUnwrittenOut.setBuilt (k : Tbl) (A : Nat) (h : SameButUnwrittenOut s s') :
    SameButUnwrittenOut (s.setBuilt k A) (s'.setBuilt k A) :=
  h.update _ (fun _ _ => rfl) fun _ => rfl

theorem SameButUnwrittenOut.clearWeights (h : SameButUnwrittenOut s s') :
    SameButUnwrittenOut s.clearWeights s'.clearWeights :=
  h.update _ (fun _ _ => rfl) fun _ => rfl

theorem SameButUnwrittenOut.setHufWeight (k w : Nat) (h : SameButUnwrittenOut s s') :
    SameButUnwrittenOut (s.setHufWeight k w) (s'.setHufWeight k w) :=
  h.update _ (fun _ _ => rfl) fun _ => rfl

theorem SameButUnwrittenOut.setHufn (n : Nat) (h : SameButUnwrittenOut s s') :
    SameButUnwrittenOut (s.setHufn n) (s'.setHufn n) :=
  h.update _ (fun _ _ => rfl) fun _ => rfl

theorem SameButUnwrittenOut.setHufEntry (i : Nat) (e : HufEntry) (h : SameButUnwrittenOut s s') :
    SameButUnwrittenOut (s.setHufEntry i e) (s'.setHufEntry i e) :=
  h.update _ (fun _ _ => rfl) fun _ => rfl

theorem SameButUnwrittenOut.setHufBuilt (wb : Nat) (h : SameButUnwrittenOut s s') :
    SameButUnwrittenOut (s.setHufBuilt wb) (s'.setHufBuilt wb) :=
  h.update _ (fun _ _ => rfl) fun _ => rfl

theorem SameButUnwrittenOut.setRle (b : Byte) (h : SameButUnwrittenOut s s') :
    SameButUnwrittenOut (s.setRle b) (s'.setRle b) :=
  h.update _ (fun _ _ => rfl) fun _ => rfl

theorem SameButUnwrittenOut.setRep (a b c : Word) (h : SameButUnwrittenOut s s') :
    SameButUnwrittenOut (s.setRep a b c) (s'.setRep a b c) :=
  h.update _ (fun _ _ => rfl) fun _ => rfl

theorem SameButUnwrittenOut.setLitTotal (n : Nat) (h : SameButUnwrittenOut s s') :
    SameButUnwrittenOut (s.setLitTotal n) (s'.setLitTotal n) :=
  h.update _ (fun _ _ => rfl) fun _ => rfl

theorem SameButUnwrittenOut.setNumSeq (n : Nat) (h : SameButUnwrittenOut s s') :
    SameButUnwrittenOut (s.setNumSeq n) (s'.setNumSeq n) :=
  h.update _ (fun _ _ => rfl) fun _ => rfl

theorem SameButUnwrittenOut.setRunState (r : RunState) (h : SameButUnwrittenOut s s') :
    SameButUnwrittenOut (s.setRunState r) (s'.setRunState r) :=
  h.update _ (fun _ _ => rfl) fun _ => rfl

theorem SameButUnwrittenOut.inWord (h : SameButUnwrittenOut s s') : SameAnswer s.inWord s'.inWord := by
  obtain ⟨m, rfl⟩ := h.exists_withOut
  exact ⟨rfl, h.update (fun u => u.inWord.2) (fun _ _ => rfl) fun _ => rfl⟩

/-! ### What reads alike -/

theorem SameButUnwrittenOut.writePos (h : SameButUnwrittenOut s s') : s'.writePos = s.writePos := by rw [h.1]

theorem SameButUnwrittenOut.litEmitted (h : SameButUnwrittenOut s s') : s'.litEmitted = s.litEmitted := by rw [h.1]

theorem SameButUnwrittenOut.maxLit (h : SameButUnwrittenOut s s') : s'.maxLit = s.maxLit := by rw [h.1]

theorem SameButUnwrittenOut.runState (h : SameButUnwrittenOut s s') : s'.runState = s.runState := by rw [h.1]

theorem SameButUnwrittenOut.numSeq (h : SameButUnwrittenOut s s') : s'.numSeq = s.numSeq := by rw [h.1]

theorem SameButUnwrittenOut.sanitize (h : SameButUnwrittenOut s s') : s'.sanitize = s.sanitize := by rw [h.1]

theorem SameButUnwrittenOut.syms (h : SameButUnwrittenOut s s') : s'.syms = s.syms := by
  obtain ⟨m, rfl⟩ := h.exists_withOut
  rfl

theorem SameButUnwrittenOut.windowBits (h : SameButUnwrittenOut s s') : s'.windowBits = s.windowBits := by
  obtain ⟨m, rfl⟩ := h.exists_withOut
  rfl

theorem SameButUnwrittenOut.fsd (h : SameButUnwrittenOut s s') : s'.fsd = s.fsd := by
  obtain ⟨m, rfl⟩ := h.exists_withOut
  rfl

theorem SameButUnwrittenOut.built (h : SameButUnwrittenOut s s') : s'.built = s.built := by
  obtain ⟨m, rfl⟩ := h.exists_withOut
  rfl

theorem SameButUnwrittenOut.weights (h : SameButUnwrittenOut s s') : s'.weights = s.weights := by
  obtain ⟨m, rfl⟩ := h.exists_withOut
  rfl

/-! ### The output -/

/-- `Emit` (R105) stores the same byte in both. -/
theorem SameButUnwrittenOut.emit (b : Byte) (h : SameButUnwrittenOut s s') : SameButUnwrittenOut (s.emit b) (s'.emit b) := by
  obtain ⟨m, rfl⟩ := h.exists_withOut
  obtain ⟨-, hwf, hwf', hread⟩ := h
  refine ⟨rfl, State.emit_outBuf_wf b hwf, State.emit_outBuf_wf b hwf', fun a ha => ?_⟩
  rw [State.emit_outBuf_read b hwf, State.emit_outBuf_read b hwf']
  by_cases hnew : a = s.writePos.toNat ∧ a < s.outCap.toNat
  · exact (if_pos hnew).trans (if_pos hnew).symm
  · rw [State.wrote_emit] at ha
    refine (if_neg hnew).trans (Eq.trans ?_ (if_neg hnew).symm)
    simp only [Bool.or_eq_true, Bool.and_eq_true, decide_eq_true_eq, hnew, or_false] at ha
    exact hread a ha

/-- A match read (R106) gives a byte that the engine wrote, the same in both, or 0. -/
theorem SameButUnwrittenOut.outByte (h : SameButUnwrittenOut s s') (a : Int) : s'.outByte a = s.outByte a := by
  obtain ⟨m, rfl⟩ := h.exists_withOut
  obtain ⟨-, -, -, hread⟩ := h
  unfold State.outByte
  refine if_congr Iff.rfl rfl ?_
  by_cases hw : s.wrote a.toNat = true
  · exact (if_pos hw).trans ((hread _ hw).trans (if_pos hw).symm)
  · exact (if_neg hw).trans (if_neg hw).symm

/-! ### Case distinctions, lanes, repetitions -/

/-- A case distinction on what is the same in both. -/
theorem SameButUnwrittenOut.ite {p : Prop} [Decidable p] {u u' : State} (ht : SameButUnwrittenOut t t')
    (hu : SameButUnwrittenOut u u') : SameButUnwrittenOut (if p then t else u) (if p then t' else u') := by
  split <;> assumption

theorem SameAnswer.ite {α : Type} {p : Prop} [Decidable p] {r r' q q' : α × State} (hr : SameAnswer r r')
    (hq : SameAnswer q q') : SameAnswer (if p then r else q) (if p then r' else q') := by
  split <;> assumption

theorem SameProgress.ite {p : Prop} [Decidable p] {d d' e e' : DistProgress} (hd : SameProgress d d')
    (he : SameProgress e e') : SameProgress (if p then d else e) (if p then d' else e') := by
  split <;> assumption

/-- An operation that keeps two runs together. -/
def Together (f : State → State) : Prop := ∀ {s s'}, SameButUnwrittenOut s s' → SameButUnwrittenOut (f s) (f s')

theorem SameButUnwrittenOut.forLanes {f : LaneId → State → State} (hf : ∀ l, Together (f l)) (ls : List LaneId)
    (h : SameButUnwrittenOut s s') : SameButUnwrittenOut (Machine.forLanes ls f s) (Machine.forLanes ls f s') := by
  induction ls generalizing s s' with
  | nil => exact h
  | cons l ls ih => exact ih (hf l h)

theorem SameButUnwrittenOut.times {f : State → State} (hf : Together f) (n : Nat) (h : SameButUnwrittenOut s s') :
    SameButUnwrittenOut (Machine.times n f s) (Machine.times n f s') := by
  induction n generalizing s s' with
  | zero => exact h
  | succ n ih => exact ih (hf h)

/-! ### The bitstream reader -/

theorem SameButUnwrittenOut.refill (l : LaneId) (n : Nat) (h : SameButUnwrittenOut s s') :
    SameButUnwrittenOut (s.refill l n) (s'.refill l n) := by
  obtain ⟨m, rfl⟩ := h.exists_withOut
  exact .ite (h.inWord.2.modLane l fun x => x.load s.inWord.1) h

theorem SameButUnwrittenOut.drop (l : LaneId) (n : Nat) (h : SameButUnwrittenOut s s') :
    SameButUnwrittenOut (s.drop l n) (s'.drop l n) := by
  obtain ⟨m, rfl⟩ := h.exists_withOut
  exact .ite ((h.warn .discardUnderflow).modLane l fun x => { x with buf := 0, avail := 0 })
    (h.modLane l fun x => x.consume n)

theorem SameButUnwrittenOut.peekLane (l : LaneId) (w : Nat) (h : SameButUnwrittenOut s s') :
    SameButUnwrittenOut (s.peekLane l w) (s'.peekLane l w) :=
  ((SameButUnwrittenOut.ite (h.warn .peekWidth) h).refill l _).modLane l fun x => x.window _

theorem SameButUnwrittenOut.peekV (ls : List LaneId) (w : LaneId → Nat) (h : SameButUnwrittenOut s s') :
    SameButUnwrittenOut (s.peekV ls w) (s'.peekV ls w) := h.forLanes (fun l _ _ hu => hu.peekLane l (w l)) ls

theorem SameButUnwrittenOut.discardV (ls : List LaneId) (w : LaneId → Nat) (h : SameButUnwrittenOut s s') :
    SameButUnwrittenOut (s.discardV ls w) (s'.discardV ls w) := h.forLanes (fun l _ _ hu => hu.drop l (w l)) ls

theorem SameButUnwrittenOut.dropAcc (l : LaneId) (h : SameButUnwrittenOut s s') :
    SameButUnwrittenOut (s.dropAcc l) (s'.dropAcc l) := by
  obtain ⟨m, rfl⟩ := h.exists_withOut
  exact (h.drop l _).modLane l fun x => { x with dacc := 0 }

theorem SameButUnwrittenOut.discardAcc (ls : List LaneId) (h : SameButUnwrittenOut s s') :
    SameButUnwrittenOut (s.discardAcc ls) (s'.discardAcc ls) := h.forLanes (fun l _ _ hu => hu.dropAcc l) ls

theorem SameButUnwrittenOut.readByte (h : SameButUnwrittenOut s s') : SameAnswer s.readByte s'.readByte := by
  obtain ⟨m, rfl⟩ := h.exists_withOut
  exact .ite ⟨rfl, (h.inWord.2.fillCache s.inWord.1).takeCached⟩
    ⟨rfl, h.takeCached⟩

theorem SameButUnwrittenOut.sync (h : SameButUnwrittenOut s s') : SameButUnwrittenOut s.sync s'.sync :=
  (h.update (fun u => { u with rcn := 0, rcb := Vector.replicate 4 0 }) (fun _ _ => rfl) fun _ => rfl).forLanes
    (fun l _ _ hu => hu.modLane l fun x => { x with buf := 0, avail := 0, dacc := 0 }) allLanes

/-! ### The FSE engine -/

theorem SameButUnwrittenOut.writeSlots (k : Tbl) (A j : Nat) (cs : List FseCell) (h : SameButUnwrittenOut s s') :
    SameButUnwrittenOut (Machine.writeSlots k A j cs s) (Machine.writeSlots k A j cs s') := by
  induction cs generalizing j s s' with
  | nil => exact h
  | cons c cs ih => exact ih (j + 1) (h.setFseCell _ c)

theorem SameButUnwrittenOut.buildTable (k : Tbl) (A : Nat) (prob : List Nat) (h : SameButUnwrittenOut s s') :
    SameButUnwrittenOut (s.buildTable k A prob) (s'.buildTable k A prob) :=
  (h.writeSlots k A 0 _).setBuilt k A

/-- All but the output buffer is the same in both. -/
theorem SameProgress.exists_withOut {d d' : DistProgress} (h : SameProgress d d') :
    ∃ m, d' = { d with mach := withOut m d.mach } := by
  obtain ⟨hprob, hcum, hsym, hmach⟩ := h
  obtain ⟨m, hm⟩ := hmach.exists_withOut
  exact ⟨m, by rw [← hm, ← hprob, ← hcum, ← hsym]⟩

theorem SameProgress.takeCode (k : Tbl) (A : Nat) (l : LaneId) {d d' : DistProgress} (h : SameProgress d d') :
    SameProgress (Machine.takeCode k A d l) (Machine.takeCode k A d' l) := by
  obtain ⟨m, rfl⟩ := h.exists_withOut
  have hwarn := h.mach.warn .fseProbOverflow
  exact .ite (.ite ⟨rfl, rfl, rfl, (SameButUnwrittenOut.ite hwarn h.mach).drop l _⟩
    ⟨rfl, rfl, rfl, (SameButUnwrittenOut.ite hwarn h.mach).drop l _⟩) h

theorem SameProgress.distRound (k : Tbl) (A : Nat) {d d' : DistProgress} (h : SameProgress d d') :
    SameProgress (Machine.distRound k A d) (Machine.distRound k A d') := by
  have hcodes : ∀ (ls : List LaneId) {e e' : DistProgress}, SameProgress e e' →
      SameProgress (ls.foldl (Machine.takeCode k A) e) (ls.foldl (Machine.takeCode k A) e') := by
    intro ls
    induction ls with
    | nil => exact id
    | cons l ls ih => exact fun he => ih (he.takeCode k A l)
  exact hcodes allLanes ⟨h.prob, h.cum, h.sym, h.mach.peekV allLanes fun _ => maxAcc k + 1 + zprb⟩

theorem SameProgress.distLoop (k : Tbl) (A fuel : Nat) {d d' : DistProgress} (h : SameProgress d d') :
    SameProgress (Machine.distLoop k A fuel d) (Machine.distLoop k A fuel d') := by
  induction fuel generalizing d d' with
  | zero => exact h
  | succ n ih =>
    have hmore : d'.more k A = d.more k A := by rw [DistProgress.more, DistProgress.more, h.cum, h.sym]
    unfold Machine.distLoop
    rw [hmore]
    exact .ite (ih (h.distRound k A)) h

theorem SameProgress.distComplete (A : Nat) {d d' : DistProgress} (h : SameProgress d d') :
    SameAnswer (Machine.distComplete A d) (Machine.distComplete A d') := by
  unfold Machine.distComplete
  rw [h.cum, h.prob]
  exact .ite ⟨rfl, h.mach.warn .fseProbSum⟩ ⟨rfl, h.mach⟩

theorem SameButUnwrittenOut.readDistribution (k : Tbl) (A : Nat) (h : SameButUnwrittenOut s s') :
    SameAnswer (s.readDistribution k A) (s'.readDistribution k A) :=
  have hstart : SameProgress (distStart k s) (distStart k s') := ⟨rfl, rfl, rfl, h⟩
  (hstart.distLoop k A _).distComplete A

theorem SameButUnwrittenOut.clampAcc (k : Tbl) (a : Nat) (h : SameButUnwrittenOut s s') :
    SameAnswer (s.clampAcc k a) (s'.clampAcc k a) :=
  .ite ⟨rfl, h.warn .fseAcclogRange⟩ (.ite ⟨rfl, h.warn .fseAcclogMin⟩ ⟨rfl, h⟩)

theorem SameButUnwrittenOut.fseBuild (k : Tbl) (a : Nat) (h : SameButUnwrittenOut s s') :
    SameAnswer (s.fseBuild k a) (s'.fseBuild k a) := by
  obtain ⟨hacc, hclamp⟩ := h.clampAcc k a
  obtain ⟨hprob, hread⟩ := hclamp.readDistribution k (s.clampAcc k a).1
  unfold State.fseBuild
  simp only [hacc, hprob]
  exact ⟨rfl, hread.buildTable k _ _⟩

theorem SameButUnwrittenOut.fsePredef (k : Tbl) (h : SameButUnwrittenOut s s') :
    SameAnswer (s.fsePredef k) (s'.fsePredef k) := by
  unfold State.fsePredef
  split
  · exact ⟨rfl, h.buildTable k _ _⟩
  · exact ⟨rfl, h⟩

theorem SameButUnwrittenOut.fseInit (k : Tbl) (ls : List LaneId) (h : SameButUnwrittenOut s s') :
    SameButUnwrittenOut (s.fseInit k ls) (s'.fseInit k ls) := by
  obtain ⟨m, rfl⟩ := h.exists_withOut
  exact (SameButUnwrittenOut.ite h (h.warn .tableNotBuilt)).forLanes
    (fun l _ _ hu => hu.setFse l k 0 (if s.built k then s.tacc[tblIdx k] else 0)) ls

theorem SameButUnwrittenOut.decodeUnbuilt (ls : List LaneId) (h : SameButUnwrittenOut s s') :
    SameButUnwrittenOut (s.decodeUnbuilt ls) (s'.decodeUnbuilt ls) :=
  (h.warn .tableNotBuilt).forLanes (fun l _ _ hu => hu.setSym l 0) ls

theorem SameButUnwrittenOut.fseDecLane (k : Tbl) (l : LaneId) (h : SameButUnwrittenOut s s') :
    SameButUnwrittenOut (s.fseDecLane k l) (s'.fseDecLane k l) := by
  obtain ⟨m, rfl⟩ := h.exists_withOut
  exact (h.drop l (s.fsd l k)).takeCell l k (s.cell k (s.fss l k + (s.lane l).pv.toNat))

theorem SameButUnwrittenOut.fseDec (k : Tbl) (ls : List LaneId) (h : SameButUnwrittenOut s s') :
    SameButUnwrittenOut (s.fseDec k ls) (s'.fseDec k ls) := by
  obtain ⟨m, rfl⟩ := h.exists_withOut
  exact .ite ((h.peekV ls fun l => s.fsd l k).forLanes (fun l _ _ hu => hu.fseDecLane k l) ls) (h.decodeUnbuilt ls)

theorem SameButUnwrittenOut.fseDecNPLane (k : Tbl) (l : LaneId) (h : SameButUnwrittenOut s s') :
    SameButUnwrittenOut (s.fseDecNPLane k l) (s'.fseDecNPLane k l) := by
  obtain ⟨m, rfl⟩ := h.exists_withOut
  exact ((SameButUnwrittenOut.ite (h.warn .windowOverrun) h).modLane l fun y =>
    { y with dacc := BitVec.ofNat 8 (min ((s.lane l).dacc.toNat + s.fsd l k) 255) }).takeCell l k (s.cell k
      (s.fss l k + lowBits (s.fsd l k) ((s.lane l).pv.toNat / 2 ^ (s.lane l).dacc.toNat)))

theorem SameButUnwrittenOut.fseDecNP (k : Tbl) (ls : List LaneId) (h : SameButUnwrittenOut s s') :
    SameButUnwrittenOut (s.fseDecNP k ls) (s'.fseDecNP k ls) := by
  obtain ⟨m, rfl⟩ := h.exists_withOut
  exact .ite (h.forLanes (fun l _ _ hu => hu.fseDecNPLane k l) ls) (h.decodeUnbuilt ls)

/-! ### The Huffman engine -/

theorem SameButUnwrittenOut.storeWeight (N k w : Nat) (h : SameButUnwrittenOut s s') :
    SameButUnwrittenOut (s.storeWeight N k w) (s'.storeWeight N k w) :=
  .ite (.ite ((h.warn .hufWeightRange).setHufWeight k 0) (h.setHufWeight k w)) h

theorem SameButUnwrittenOut.readWeightBytes (N left i : Nat) (h : SameButUnwrittenOut s s') :
    SameButUnwrittenOut (Machine.readWeightBytes N left i s) (Machine.readWeightBytes N left i s') := by
  induction left generalizing i s s' with
  | zero => exact h
  | succ n ih =>
    obtain ⟨hbyte, hread⟩ := h.readByte
    simp only [Machine.readWeightBytes, hbyte]
    exact ih (i + 1) ((hread.storeWeight N _ _).storeWeight N _ _)

theorem SameButUnwrittenOut.hufWeightsExplicit (h : SameButUnwrittenOut s s') :
    SameAnswer s.hufWeightsExplicit s'.hufWeightsExplicit := by
  obtain ⟨hbyte, hread⟩ := h.readByte
  simp only [State.hufWeightsExplicit, hbyte]
  exact ⟨rfl, ((hread.clearWeights).readWeightBytes _ _ _).setHufn _⟩

theorem SameButUnwrittenOut.storeSymbols (k : Nat) (ls : List LaneId) (h : SameButUnwrittenOut s s') :
    SameButUnwrittenOut (Machine.storeSymbols k ls s) (Machine.storeSymbols k ls s') :=
  h.forLanes (fun l _ _ hu => hu.update (fun u => u.setHufWeight (k + l.val) (u.lane l).sym.toNat) (fun _ _ => rfl)
    fun _ => rfl) ls

theorem SameButUnwrittenOut.fseWeightBatches (Nw fuel k : Nat) (h : SameButUnwrittenOut s s') :
    SameButUnwrittenOut (Machine.fseWeightBatches Nw fuel k s) (Machine.fseWeightBatches Nw fuel k s') := by
  induction fuel generalizing k s s' with
  | zero => exact h
  | succ n ih => exact .ite (ih _ ((h.fseDec .hw _).storeSymbols k _)) h

theorem SameButUnwrittenOut.hufWeightsFse (aux : Nat) (h : SameButUnwrittenOut s s') :
    SameAnswer (s.hufWeightsFse aux) (s'.hufWeightsFse aux) := by
  obtain ⟨hbyte, hread⟩ := h.readByte
  obtain ⟨hprob, hdist⟩ := hread.readDistribution .hw (5 + aux)
  have hinit := (hdist.buildTable .hw (5 + aux) (s.readByte.2.readDistribution .hw (5 + aux)).1).fseInit .hw allLanes
  simp only [State.hufWeightsFse, hbyte, hprob]
  exact ⟨rfl, ((hinit.clearWeights).fseWeightBatches _ _ 0).setHufn _⟩

theorem SameButUnwrittenOut.fillRange (wb : Nat) (e : HufEntry) (n v : Nat) (h : SameButUnwrittenOut s s') :
    SameButUnwrittenOut (Machine.fillRange wb e n v s) (Machine.fillRange wb e n v s') := by
  induction n generalizing v s s' with
  | zero => exact h
  | succ n ih => exact ih (v + 1) (h.setHufEntry _ e)

theorem SameButUnwrittenOut.gapFill (e : HufEntry) (n i : Nat) (h : SameButUnwrittenOut s s') :
    SameButUnwrittenOut (Machine.gapFill e n i s) (Machine.gapFill e n i s') := by
  induction n generalizing i s s' with
  | zero => exact h
  | succ n ih => exact ih (i + 1) (h.setHufEntry i e)

theorem SameButUnwrittenOut.placeSymbols (wb : Nat) (ws : List Nat) (sym : Nat) (next : List Nat)
    (h : SameButUnwrittenOut s s') :
    SameButUnwrittenOut (Machine.placeSymbols wb ws sym next s) (Machine.placeSymbols wb ws sym next s') := by
  induction ws generalizing sym next s s' with
  | nil => exact h
  | cons w ws ih => exact .ite (ih _ _ h) (ih _ _ (h.fillRange wb _ _ _))

theorem SameButUnwrittenOut.hufExpand (h : SameButUnwrittenOut s s') : SameAnswer s.hufExpand s'.hufExpand := by
  unfold State.hufExpand State.expandWeights
  rw [h.weights]
  have hsum := SameButUnwrittenOut.ite (p := isPow2 (weightRest s.weights) = true) h (h.warn .hufIncomplete)
  exact .ite
    ⟨rfl, ((h.warn .hufTablelogRange).gapFill _ _ _).setHufBuilt _⟩
    ⟨rfl, ((hsum.gapFill _ _ _).placeSymbols _ _ _ _).setHufBuilt _⟩

theorem SameButUnwrittenOut.hufDecLane (l : LaneId) (h : SameButUnwrittenOut s s') :
    SameButUnwrittenOut (s.hufDecLane l) (s'.hufDecLane l) := by
  obtain ⟨m, rfl⟩ := h.exists_withOut
  exact (h.setSym l (s.hufEntryAt (s.lane l).pv.toNat).sym.toNat).drop l _

theorem SameButUnwrittenOut.hufDec (ls : List LaneId) (h : SameButUnwrittenOut s s') :
    SameButUnwrittenOut (s.hufDec ls) (s'.hufDec ls) := by
  obtain ⟨m, rfl⟩ := h.exists_withOut
  exact .ite ((h.peekV ls _).forLanes (fun l _ _ hu => hu.hufDecLane l) ls) (h.decodeUnbuilt ls)

/-! ### The sequence and literal engine -/

theorem SameButUnwrittenOut.readPackedSize (h : SameButUnwrittenOut s s') :
    SameAnswer s.readPackedSize s'.readPackedSize := by
  obtain ⟨hb0, h0⟩ := h.readByte
  obtain ⟨hb1, h1⟩ := h0.readByte
  obtain ⟨hb2, h2⟩ := h1.readByte
  unfold State.readPackedSize
  simp only [hb0, hb1, hb2]
  exact .ite ⟨rfl, h0⟩ (.ite ⟨rfl, h1⟩ ⟨rfl, h2⟩)

theorem SameButUnwrittenOut.litCfg (mode : BitVec 2) (n : Word) (h : SameButUnwrittenOut s s') :
    SameButUnwrittenOut (s.litCfg mode n) (s'.litCfg mode n) :=
  (SameButUnwrittenOut.ite (p := mode = 3) (h.warn .litModeReserved) h).update
    (fun u => { u with litMode := mode, maxLit := n, litEmitted := 0, litTotal := 0 }) (fun _ _ => rfl) fun _ => rfl

theorem SameButUnwrittenOut.emitLit (b : Byte) (h : SameButUnwrittenOut s s') :
    SameButUnwrittenOut (s.emitLit b) (s'.emitLit b) :=
  (h.emit b).update (fun u => { u with litEmitted := u.litEmitted + 1 }) (fun _ _ => rfl) fun _ => rfl

theorem SameButUnwrittenOut.emitRawLit (h : SameButUnwrittenOut s s') :
    SameButUnwrittenOut s.emitRawLit s'.emitRawLit := by
  obtain ⟨hbyte, hread⟩ := h.readByte
  simp only [State.emitRawLit, hbyte]
  exact hread.emitLit _

theorem SameButUnwrittenOut.emitLaneLits (ls : List LaneId) (h : SameButUnwrittenOut s s') :
    SameButUnwrittenOut (s.emitLaneLits ls) (s'.emitLaneLits ls) := by
  refine h.forLanes (fun l u u' hu => ?_) ls
  obtain ⟨m, rfl⟩ := hu.exists_withOut
  exact hu.emitLit _

theorem SameButUnwrittenOut.hufLits (target fuel : Nat) (h : SameButUnwrittenOut s s') :
    SameButUnwrittenOut (Machine.hufLits target fuel s) (Machine.hufLits target fuel s') := by
  induction fuel generalizing s s' with
  | zero => exact h
  | succ n ih =>
    obtain ⟨m, rfl⟩ := h.exists_withOut
    exact .ite (ih ((h.hufDec _).emitLaneLits _)) h

theorem SameButUnwrittenOut.emitLits (target : Nat) (h : SameButUnwrittenOut s s') :
    SameButUnwrittenOut (s.emitLits target) (s'.emitLits target) := by
  have hrle : Together fun u => u.emitLit u.rleByte := by
    intro u u' hu
    obtain ⟨m, rfl⟩ := hu.exists_withOut
    exact hu.emitLit _
  obtain ⟨m, rfl⟩ := h.exists_withOut
  exact .ite (.ite ((h.warn .tableNotBuilt).times (fun hu => hu.emitLit 0) _) (h.hufLits target _))
    (.ite (h.times hrle _) (h.times (fun hu => hu.emitRawLit) _))

theorem SameButUnwrittenOut.litTarget (target : Nat) (h : SameButUnwrittenOut s s') :
    SameButUnwrittenOut (s.litTarget target) (s'.litTarget target) := by
  obtain ⟨m, rfl⟩ := h.exists_withOut
  exact .ite ((h.warn .litOverrun).emitLits _) (h.emitLits target)

/-- A byte of a match is the one place where a command reads the output. -/
theorem SameButUnwrittenOut.copyByte (off : Nat) (h : SameButUnwrittenOut s s') :
    SameButUnwrittenOut (s.copyByte off) (s'.copyByte off) := by
  unfold State.copyByte
  rw [h.writePos, h.outByte]
  exact h.emit _

theorem SameButUnwrittenOut.matchCopy (off len : Nat) (h : SameButUnwrittenOut s s') :
    SameButUnwrittenOut (s.matchCopy off len) (s'.matchCopy off len) := by
  obtain ⟨m, rfl⟩ := h.exists_withOut
  exact .ite ((h.warn .offsetZero).times (fun hu => hu.emit 0) len)
    ((SameButUnwrittenOut.ite (h.warn .matchBeforeStart) h).times (fun hu => hu.copyByte off) len)

theorem SameButUnwrittenOut.resolveOffset (ov llv : Nat) (h : SameButUnwrittenOut s s') :
    SameAnswer (s.resolveOffset ov llv) (s'.resolveOffset ov llv) := by
  obtain ⟨m, rfl⟩ := h.exists_withOut
  unfold State.resolveOffset
  refine .ite ⟨rfl, h.setRep _ s.rep0 s.rep1⟩ ?_
  split
  · exact ⟨rfl, h⟩
  · exact ⟨rfl, h.setRep s.rep1 s.rep0 s.rep2⟩
  · exact ⟨rfl, h.setRep s.rep2 s.rep0 s.rep1⟩
  · exact ⟨rfl, h.setRep (s.rep0 - 1) s.rep0 s.rep1⟩

theorem SameButUnwrittenOut.clampTotal (llv : Nat) (h : SameButUnwrittenOut s s') :
    SameAnswer (s.clampTotal llv) (s'.clampTotal llv) := by
  obtain ⟨m, rfl⟩ := h.exists_withOut
  exact .ite ⟨rfl, h.warn .litOverrun⟩ ⟨rfl, h⟩

theorem SameButUnwrittenOut.execSeq (q : SeqVals) (h : SameButUnwrittenOut s s') :
    SameButUnwrittenOut (s.execSeq q) (s'.execSeq q) := by
  obtain ⟨hoff, hres⟩ := h.resolveOffset q.ov q.llv
  obtain ⟨htot, hclamp⟩ := hres.clampTotal q.llv
  unfold State.execSeq
  simp only [hoff, htot]
  exact ((hclamp.setLitTotal _).litTarget _).matchCopy _ _

theorem SameButUnwrittenOut.readBatch (G : List LaneId) (h : SameButUnwrittenOut s s') :
    SameAnswer (s.readBatch G) (s'.readBatch G) := by
  have hL := (h.peekV G fun l => s.fsd l .ll + s.fsd l .ml + s.fsd l .off).fseDecNP .ll G
  have hM := hL.fseDecNP .ml G
  have hO := hM.fseDecNP .off G
  have h2 := fun v => (hO.discardAcc G).peekV G v
  have h3 := fun v w => ((h2 v).discardV G v).peekV G w
  unfold State.readBatch
  simp only [h.fsd, hL.syms, hM.syms, hO.syms, fun v => (h2 v).windowBits, fun v w => (h3 v w).windowBits]
  exact ⟨rfl, (h3 _ _).discardV G _⟩

theorem SameButUnwrittenOut.seqBatch (G : List LaneId) (h : SameButUnwrittenOut s s') :
    SameButUnwrittenOut (s.seqBatch G) (s'.seqBatch G) := by
  have hbatch := h.readBatch G
  unfold State.seqBatch
  generalize s.readBatch G = r at hbatch ⊢
  generalize s'.readBatch G = r' at hbatch ⊢
  obtain ⟨hvals, hread⟩ := hbatch
  simp only [hvals]
  exact hread.forLanes (fun l _ _ hu => hu.execSeq (r.1 l)) G

theorem SameButUnwrittenOut.seqBatches (fuel left : Nat) (h : SameButUnwrittenOut s s') :
    SameButUnwrittenOut (Machine.seqBatches fuel left s) (Machine.seqBatches fuel left s') := by
  induction fuel generalizing left s s' with
  | zero => exact h
  | succ n ih => exact .ite (ih _ (h.seqBatch _)) h

/-- The literals that are left when the sequences are done (R362). -/
theorem SameButUnwrittenOut.litRest (h : SameButUnwrittenOut s s') :
    SameButUnwrittenOut (s.litTarget s.maxLit.toNat) (s'.litTarget s'.maxLit.toNat) := by
  rw [h.maxLit]
  exact h.litTarget _

theorem SameButUnwrittenOut.seqExec (h : SameButUnwrittenOut s s') : SameButUnwrittenOut s.seqExec s'.seqExec := by
  obtain ⟨hnum, hread⟩ := h.readPackedSize
  have hset := hread.setNumSeq s.readPackedSize.1
  unfold State.seqExec
  simp only [hnum, hset.built]
  exact .ite (((((hset.fseInit .ll _).fseInit .ml _).fseInit .off _).seqBatches _ _).litRest)
    (hset.warn .tableNotBuilt).litRest

/-! ### The block driver -/

theorem SameButUnwrittenOut.checkReserved (r : Nat) (h : SameButUnwrittenOut s s') :
    SameButUnwrittenOut (s.checkReserved r) (s'.checkReserved r) := .ite h (h.warn .reservedNonzero)

theorem SameButUnwrittenOut.litSection (aux : Nat) (h : SameButUnwrittenOut s s') :
    SameButUnwrittenOut (s.litSection aux) (s'.litSection aux) := by
  obtain ⟨hdesc, hread⟩ := h.readByte
  obtain ⟨hsize, hpacked⟩ := (hread.checkReserved (descReserved s.readByte.1)).readPackedSize
  have hcfg := hpacked.litCfg (descLitMode s.readByte.1) (BitVec.ofNat 32
    (s.readByte.2.checkReserved (descReserved s.readByte.1)).readPackedSize.1)
  obtain ⟨hbyte, hrle⟩ := hcfg.readByte
  have hweights := SameButUnwrittenOut.ite (p := descWeightMode s.readByte.1 = true) (hcfg.hufWeightsFse aux).2
    hcfg.hufWeightsExplicit.2
  unfold State.litSection
  simp only [hdesc, hsize, hbyte]
  exact .ite (hrle.setRle _) (.ite hweights.hufExpand.2 hcfg)

theorem SameButUnwrittenOut.seqTable (d : Byte) (k : Tbl) (h : SameButUnwrittenOut s s') :
    SameButUnwrittenOut (s.seqTable d k) (s'.seqTable d k) := by
  obtain ⟨hacc, hread⟩ := h.readByte
  unfold State.seqTable
  simp only [hacc]
  exact .ite (h.fsePredef k).2 ((hread.checkReserved _).fseBuild k _).2

theorem SameButUnwrittenOut.seqTables (h : SameButUnwrittenOut s s') : SameButUnwrittenOut s.seqTables s'.seqTables := by
  obtain ⟨hdesc, hread⟩ := h.readByte
  unfold State.seqTables
  simp only [hdesc]
  exact (((hread.checkReserved _).seqTable _ .ll).seqTable _ .ml).seqTable _ .off

theorem SameButUnwrittenOut.cBlock (cw : Word) (h : SameButUnwrittenOut s s') : SameAnswer (s.cBlock cw) (s'.cBlock cw) := by
  have hbody := ((h.litSection (cwAux cw)).seqTables).seqExec
  unfold State.cBlock
  simp only [h.writePos, hbody.writePos]
  exact ⟨rfl, .ite hbody (hbody.warn .blockSizeMismatch)⟩

theorem SameButUnwrittenOut.rleBlock (cw : Word) (h : SameButUnwrittenOut s s') :
    SameAnswer (s.rleBlock cw) (s'.rleBlock cw) := by
  obtain ⟨hbyte, hread⟩ := h.readByte
  unfold State.rleBlock
  simp only [hbyte]
  exact ⟨rfl, hread.times (fun hu => hu.emit _) _⟩

theorem SameButUnwrittenOut.emitRaw (h : SameButUnwrittenOut s s') : SameButUnwrittenOut s.emitRaw s'.emitRaw := by
  obtain ⟨hbyte, hread⟩ := h.readByte
  simp only [State.emitRaw, hbyte]
  exact hread.emit _

theorem SameButUnwrittenOut.rawBlock (cw : Word) (h : SameButUnwrittenOut s s') :
    SameAnswer (s.rawBlock cw) (s'.rawBlock cw) := ⟨rfl, h.times (fun hu => hu.emitRaw) _⟩

theorem SameButUnwrittenOut.blockBody (cw : Word) (h : SameButUnwrittenOut s s') :
    SameButUnwrittenOut (s.blockBody cw) (s'.blockBody cw) := by
  unfold State.blockBody
  split
  · exact ((h.setRunState .decodingCompressedBlock).cBlock cw).2
  · exact ((h.setRunState .decodingRLEBlock).rleBlock cw).2
  · exact ((h.setRunState .decodingRawBlock).rawBlock cw).2
  · exact h.warn .blockTypeReserved

theorem SameButUnwrittenOut.block (h : SameButUnwrittenOut s s') : SameAnswer s.block s'.block := by
  obtain ⟨hcw, hread⟩ := h.sync.inWord
  unfold State.block
  simp only [hcw]
  exact ⟨rfl, (hread.blockBody _).setRunState _⟩

theorem SameButUnwrittenOut.runBlocks (fuel : Nat) (h : SameButUnwrittenOut s s') :
    SameButUnwrittenOut (Machine.runBlocks fuel s) (Machine.runBlocks fuel s') := by
  induction fuel generalizing s s' with
  | zero => exact h
  | succ n ih =>
    unfold Machine.runBlocks
    rw [h.runState]
    exact .ite h (ih h.block.2)

/-! ### Commands -/

/-- After a reset nothing is written, so nothing is left to agree on but the form of the buffers. -/
theorem SameButUnwrittenOut.doReset (h : SameButUnwrittenOut s s') : SameButUnwrittenOut s.doReset s'.doReset := by
  obtain ⟨m, rfl⟩ := h.exists_withOut
  obtain ⟨-, hwf, hwf', -⟩ := h
  exact ⟨rfl, hwf, hwf', fun _ ha => absurd ha Bool.false_ne_true⟩

/-- A sanitized command ends in what it computed, in both runs. -/
theorem finish_same {w : Writes} {b b' : State} (hsan : b.sanitize = true) (hb : SameButUnwrittenOut b b')
    (h : SameButUnwrittenOut t t') :
    ∃ u u', finish w b t = .next u ∧ finish w b' t' = .next u' ∧ SameButUnwrittenOut u u' :=
  ⟨t, t', finish_of_sanitize hsan, finish_of_sanitize (hb.sanitize.trans hsan), h⟩

/-- A sanitized command that leaves a value in `RES` (R47). -/
theorem finish_same_res {w : Writes} {b b' : State} {v v' : Dword} (hsan : b.sanitize = true)
    (hb : SameButUnwrittenOut b b') (h : SameButUnwrittenOut t t') (hv : v' = v) :
    ∃ u u', finish w b { t with res := v } = .next u ∧ finish w b' { t' with res := v' } = .next u' ∧
      SameButUnwrittenOut u u' :=
  finish_same hsan hb (hv ▸ h.update (fun u => { u with res := v }) (fun _ _ => rfl) fun _ => rfl)

/-- The answer of an operation in `RES`. -/
theorem finish_same_answer {w : Writes} {r r' : Nat × State} (hsan : s.sanitize = true) (hs : SameButUnwrittenOut s s')
    (h : SameAnswer r r') :
    ∃ u u', finish w s (r.2.setRes r.1) = .next u ∧ finish w s' (r'.2.setRes r'.1) = .next u' ∧ SameButUnwrittenOut u u' :=
  finish_same_res hsan hs h.2 (congrArg (BitVec.ofNat 64) h.1)

/-- A sanitized command keeps two runs together. -/
theorem exec_same (i : Instr) (hsan : s.sanitize = true) (h : SameButUnwrittenOut s s') :
    ∃ t t', exec i s = .next t ∧ exec i s' = .next t' ∧ SameButUnwrittenOut t t' := by
  obtain ⟨m, rfl⟩ := h.exists_withOut
  cases i with
  | reset => exact ⟨_, _, rfl, rfl, h.doReset⟩
  | sync => exact finish_same hsan h h.sync
  | rdword => exact finish_same_res hsan h h.inWord.2 rfl
  | rdbyte =>
    obtain ⟨hbyte, hread⟩ := h.readByte
    exact finish_same_res hsan h hread (congrArg (fun b : Byte => BitVec.ofNat 64 b.toNat) hbyte)
  | rdpsize => exact finish_same_answer hsan h h.readPackedSize
  | peek lo cnt n => exact finish_same hsan h (h.peekV _ _)
  | peekv lo cnt => exact finish_same hsan h (h.peekV _ _)
  | discard lo cnt n => exact finish_same hsan h (h.discardV _ _)
  | discardv lo cnt => exact finish_same hsan h (h.discardV _ _)
  | discardacc lo cnt => exact finish_same hsan h (h.discardAcc _)
  | fsebuild k n => exact finish_same_answer hsan h (h.fseBuild k n.toNat)
  | fsepredef k =>
    cases k with
    | hw => exact finish_same hsan h (h.warn .illegalCommand)
    | ll => exact finish_same_answer hsan h (h.fsePredef .ll)
    | ml => exact finish_same_answer hsan h (h.fsePredef .ml)
    | off => exact finish_same_answer hsan h (h.fsePredef .off)
  | fseinit k lo cnt => exact finish_same hsan h (h.fseInit k _)
  | fsedec k lo cnt => exact finish_same hsan h (h.fseDec k _)
  | fsedecnp k lo cnt => exact finish_same hsan h (h.fseDecNP k _)
  | hufwex => exact finish_same_answer hsan h h.hufWeightsExplicit
  | hufwfse aux => exact finish_same_answer hsan h (h.hufWeightsFse aux.toNat)
  | hufexpand => exact finish_same_answer hsan h h.hufExpand
  | hufdec lo cnt => exact finish_same hsan h (h.hufDec _)
  | litcfg mode => exact finish_same hsan h (h.litCfg mode s.arg0)
  | setrle => exact finish_same hsan h (h.setRle (s.arg0.extractLsb' 0 8))
  | littarget =>
    have hlit := h.litTarget s.arg0.toNat
    exact finish_same_res hsan h hlit (congrArg (fun v : Word => BitVec.ofNat 64 v.toNat) hlit.litEmitted)
  | matchcopy => exact finish_same hsan h (h.matchCopy _ _)
  | seqexec =>
    exact finish_same_res hsan h h.seqExec (congrArg (fun v : Word => BitVec.ofNat 64 v.toNat) h.seqExec.numSeq)
  | cblock => exact finish_same_res hsan h (h.cBlock s.arg0).2 (h.cBlock s.arg0).1
  | rleblock => exact finish_same_answer hsan h (h.rleBlock s.arg0)
  | rawblock => exact finish_same_answer hsan h (h.rawBlock s.arg0)
  | block =>
    obtain ⟨hcw, hblock⟩ := h.block
    exact finish_same_res hsan h hblock (congrArg (fun v : Word => BitVec.ofNat 64 v.toNat) hcw)
  | run =>
    have hblocks := h.doReset.runBlocks s.doReset.maxBlocks
    exact finish_same_res (b := s.doReset) hsan h.doReset hblocks hblocks.writePos

end

/-- Settles O53: every sanitized command keeps two such runs together. -/
theorem unwrittenOutputNeverRead : Obligations.UnwrittenOutputNeverRead := fun i _ _ hsan h => exec_same i hsan h

end Sys2Proof.Claims
end

section
/-! The command word (30_encoding.md R141 to R148): a command's fields name it again, fields that name a command are that command's
fields, and the fields that name none are those of the seven items of R145. -/

namespace Sys2Proof

/-! ### From a command to its word and back -/

/-- The reserved bits of a command's word are 0 (R141). -/
theorem Instr.fields_rsv (i : Instr) : i.fields.rsv = 0 := by cases i <;> rfl

/-- Decoding an encoded command is looking its own fields up. -/
theorem decode_encode_eq (i : Instr) : decode (encode i) = decodeByOpcode i.fields := by
  simp only [decode, encode, CmdFields.ofWord_toWord]
  exact if_pos i.fields_rsv

/-- A range command whose other fields are 0 is read where its range is legal (R145). -/
theorem decodeRange_of_rangeOk {f : CmdFields} {ok : Bool} {i : Instr} (hok : ok = true)
    (h : rangeOk f.lo f.cnt = true) : decodeRange f ok i = .ok i :=
  (decodeRange_ok_iff f ok i i).2 ⟨hok, h, rfl⟩

/-- The two table codes that are not `HW`'s are not 3 (R145 item 5). -/
theorem tblCode_ne_three {t : Tbl} (h : t ≠ .hw) : tblCode t ≠ 3 := by
  cases t with
  | hw => exact absurd rfl h
  | ll => decide
  | ml => decide
  | off => decide

/-- The fields of a well-formed command name it (R143). -/
theorem decodeByOpcode_fields {i : Instr} (h : i.wf = true) : decodeByOpcode i.fields = .ok i := by
  cases i with
  | peek lo cnt n => exact decodeRange_of_rangeOk rfl h
  | peekv lo cnt => exact decodeRange_of_rangeOk rfl h
  | discard lo cnt n => exact decodeRange_of_rangeOk rfl h
  | discardv lo cnt => exact decodeRange_of_rangeOk rfl h
  | discardacc lo cnt => exact decodeRange_of_rangeOk rfl h
  | hufdec lo cnt => exact decodeRange_of_rangeOk rfl h
  | fseinit t lo cnt =>
    show decodeRange _ _ (.fseinit (tblOf (tblCode t)) lo cnt) = _
    rw [tblOf_tblCode]
    exact decodeRange_of_rangeOk rfl h
  | fsedec t lo cnt =>
    show decodeRange _ _ (.fsedec (tblOf (tblCode t)) lo cnt) = _
    rw [tblOf_tblCode]
    exact decodeRange_of_rangeOk rfl h
  | fsedecnp t lo cnt =>
    show decodeRange _ _ (.fsedecnp (tblOf (tblCode t)) lo cnt) = _
    rw [tblOf_tblCode]
    exact decodeRange_of_rangeOk rfl h
  | fsebuild t n =>
    exact congrArg (fun k => Except.ok (Instr.fsebuild k n)) (tblOf_tblCode t)
  | fsepredef t =>
    have ht : t ≠ .hw := by simpa [Instr.wf] using h
    show (if tblCode t = 3 then Except.error Reject.predefOfHW else .ok (Instr.fsepredef (tblOf (tblCode t)))) = _
    rw [if_neg (tblCode_ne_three ht), tblOf_tblCode]
  | hufwfse aux => revert aux; decide
  | litcfg mode => revert mode; decide
  | _ => rfl

/-! ### From a word to its command and back -/

/-- `f` names `i`: `f` are the fields of `i`, and `i` is well-formed. -/
def CmdFields.Names (f : CmdFields) (i : Instr) : Prop := i.fields = f ∧ i.wf = true

section
variable {f : CmdFields} {i j : Instr}

/-- Fields with a command's opcode and reserved bits 0. -/
theorem CmdFields.eq_of_op {op : BitVec 8} (hrsv : f.rsv = 0) (hop : f.op.toNat = op.toNat) :
    f = ⟨op, f.lo, f.cnt, f.n, f.t, 0⟩ := by
  rw [← BitVec.eq_of_toNat_eq hop, ← hrsv]

theorem CmdFields.names_of_decodePlain (hrsv : f.rsv = 0) (h : decodePlain f j = .ok i)
    (hop : f.op.toNat = j.fields.op.toNat) (hj : j.fields = plainFields j.fields.op) (hwf : j.wf = true) :
    f.Names i := by
  obtain ⟨⟨hlo, hcnt, hn, ht⟩, rfl⟩ := (decodePlain_ok_iff f j i).1 h
  refine ⟨?_, hwf⟩
  rw [CmdFields.eq_of_op hrsv hop, hlo, hcnt, hn, ht]
  exact hj

theorem CmdFields.names_of_decodeRange {ok : Bool} (hrsv : f.rsv = 0) (h : decodeRange f ok j = .ok i)
    (hop : f.op.toNat = j.fields.op.toNat) (hwf : j.wf = rangeOk f.lo f.cnt)
    (hj : ok = true → j.fields = ⟨j.fields.op, f.lo, f.cnt, f.n, f.t, 0⟩) : f.Names i := by
  obtain ⟨hok, hrange, rfl⟩ := (decodeRange_ok_iff f ok j i).1 h
  exact ⟨(hj hok).trans (CmdFields.eq_of_op hrsv hop).symm, hwf.trans hrange⟩

/-- What an answer says that hangs on a check. -/
theorem ok_of_ite {p : Prop} [Decidable p] {x : Except Reject Instr} {e : Reject}
    (h : (if p then x else .error e) = .ok i) : p ∧ x = .ok i := by
  split at h
  · exact ⟨‹_›, h⟩
  · cases h

theorem ok_of_ite_not {p : Prop} [Decidable p] {x : Except Reject Instr} {e : Reject}
    (h : (if p then .error e else x) = .ok i) : ¬ p ∧ x = .ok i := by
  split at h
  · cases h
  · exact ⟨‹_›, h⟩

end

/-- A value that fits a narrower field is kept by that field. -/
theorem setWidth_setWidth_of_lt {m n : Nat} {x : BitVec n} (h : x.toNat < 2 ^ m) : (x.setWidth m).setWidth n = x := by
  apply BitVec.eq_of_toNat_eq
  rw [BitVec.toNat_setWidth, BitVec.toNat_setWidth, Nat.mod_eq_of_lt h, Nat.mod_eq_of_lt x.isLt]

/-- Fields with reserved bits 0 that name a command are its fields, and it is well-formed (R143, R145). -/
theorem names_of_decodeByOpcode {f : CmdFields} {i : Instr} (hrsv : f.rsv = 0) (h : decodeByOpcode f = .ok i) :
    f.Names i := by
  unfold decodeByOpcode at h
  split at h
  iterate 5 next hop => exact CmdFields.names_of_decodePlain hrsv h hop rfl rfl
  iterate 5 next hop =>
    exact CmdFields.names_of_decodeRange hrsv h hop rfl fun hok => by simp_all [Instr.fields]
  next hop =>
    obtain ⟨⟨hlo, hcnt⟩, ⟨⟩⟩ := ok_of_ite h
    refine ⟨?_, rfl⟩
    rw [CmdFields.eq_of_op (op := 0x10) hrsv hop]
    simp [Instr.fields, hlo, hcnt]
  next hop =>
    obtain ⟨⟨hlo, hcnt, hn⟩, h⟩ := ok_of_ite h
    obtain ⟨ht, ⟨⟩⟩ := ok_of_ite_not h
    refine ⟨?_, ?_⟩
    · rw [CmdFields.eq_of_op (op := 0x11) hrsv hop]
      simp [Instr.fields, hlo, hcnt, hn]
    · generalize f.t = t at ht
      revert t
      decide
  iterate 3 next hop =>
    exact CmdFields.names_of_decodeRange hrsv h hop rfl fun hok => by simp_all [Instr.fields]
  next hop => exact CmdFields.names_of_decodePlain hrsv h hop rfl rfl
  next hop =>
    obtain ⟨⟨hlo, hcnt, ht⟩, h⟩ := ok_of_ite h
    obtain ⟨hn, ⟨⟩⟩ := ok_of_ite h
    refine ⟨?_, rfl⟩
    rw [CmdFields.eq_of_op (op := 0x21) hrsv hop]
    simp [Instr.fields, hlo, hcnt, ht, setWidth_setWidth_of_lt (m := 1) (x := f.n) (by omega)]
  next hop => exact CmdFields.names_of_decodePlain hrsv h hop rfl rfl
  next hop =>
    exact CmdFields.names_of_decodeRange hrsv h hop rfl fun hok => by simp_all [Instr.fields]
  next hop =>
    obtain ⟨⟨hlo, hcnt, ht⟩, h⟩ := ok_of_ite h
    obtain ⟨hn, ⟨⟩⟩ := ok_of_ite h
    refine ⟨?_, rfl⟩
    rw [CmdFields.eq_of_op (op := 0x30) hrsv hop]
    simp [Instr.fields, hlo, hcnt, ht, setWidth_setWidth_of_lt (m := 2) (x := f.n) (by omega)]
  iterate 9 next hop => exact CmdFields.names_of_decodePlain hrsv h hop rfl rfl
  · cases h

/-- A word that decodes has reserved bits 0, and its fields name the command. -/
theorem decode_ok_iff {w : Word} {i : Instr} :
    decode w = .ok i ↔ (CmdFields.ofWord w).rsv = 0 ∧ decodeByOpcode (CmdFields.ofWord w) = .ok i :=
  ⟨ok_of_ite, fun h => (if_pos h.1).trans h.2⟩

end Sys2Proof

namespace Sys2Proof.Claims

/-- Settles O1: an encoded command's fields are looked up again. -/
theorem encodeThenDecode : Obligations.EncodeThenDecode := fun i h => (decode_encode_eq i).trans (decodeByOpcode_fields h)

/-- Settles O2: the fields of a word are those of the command they name, and a word is the word of its fields. -/
theorem decodeThenEncode : Obligations.DecodeThenEncode := by
  intro w i h
  obtain ⟨hrsv, hop⟩ := decode_ok_iff.1 h
  obtain ⟨hfields, hwf⟩ := names_of_decodeByOpcode hrsv hop
  refine ⟨?_, hwf⟩
  rw [encode, hfields, CmdFields.toWord_ofWord]

/-- Settles O4: each word decoded. -/
theorem specExampleWords : Obligations.SpecExampleWords := by
  unfold Obligations.SpecExampleWords
  decide

end Sys2Proof.Claims
end

section
/-! The words that name no command (30_encoding.md R145): exactly those of which one of the seven items holds. -/

namespace Sys2Proof

open Sys2Proof.Claims

theorem exists_decodePlain_ok (f : CmdFields) (j : Instr) :
    (∃ i, decodePlain f j = .ok i) ↔ f.lo = 0 ∧ f.cnt = 0 ∧ f.n = 0 ∧ f.t = 0 := by
  simp [decodePlain_ok_iff]

theorem exists_decodeRange_ok (f : CmdFields) (ok : Bool) (j : Instr) :
    (∃ i, decodeRange f ok j = .ok i) ↔ ok = true ∧ rangeOk f.lo f.cnt = true := by
  simp [decodeRange_ok_iff]

theorem exists_ite_ok {p : Prop} [Decidable p] {x : Except Reject Instr} {e : Reject} :
    (∃ i, (if p then x else .error e) = .ok i) ↔ p ∧ ∃ i, x = .ok i := by
  split <;> simp [*]

theorem exists_ite_not_ok {p : Prop} [Decidable p] {x : Except Reject Instr} {e : Reject} :
    (∃ i, (if p then .error e else x) = .ok i) ↔ ¬ p ∧ ∃ i, x = .ok i := by
  split <;> simp [*]

/-- None of the items of R145 but that on the reserved bits holds of the fields. -/
def CmdFields.Legal (f : CmdFields) : Prop :=
  f.op.toNat ∈ assignedOps ∧
    ((f.op.toNat ∉ rangeOps → f.lo = 0 ∧ f.cnt = 0) ∧ (f.op.toNat ∉ nOps → f.n = 0) ∧
      (f.op.toNat ∉ tOps → f.t = 0)) ∧
    (f.op.toNat ∈ rangeOps → rangeOk f.lo f.cnt = true) ∧ (f.op.toNat = 0x11 → f.t ≠ 3) ∧
    (f.op.toNat = 0x21 → f.n.toNat ≤ 1) ∧ (f.op.toNat = 0x30 → f.n.toNat ≤ 3)

/-- The decoder answers a command exactly where none of the items holds (R145). -/
theorem exists_decodeByOpcode_ok (f : CmdFields) : (∃ i, decodeByOpcode f = .ok i) ↔ f.Legal := by
  unfold decodeByOpcode CmdFields.Legal
  split
  case h_30 =>
    have hunassigned : f.op.toNat ∉ assignedOps := by simp_all [assignedOps]
    simp [hunassigned]
  all_goals
    rename_i hop
    simp [hop, assignedOps, rangeOps, nOps, tOps, exists_decodePlain_ok, exists_decodeRange_ok, exists_ite_ok,
      exists_ite_not_ok, and_assoc, and_comm, and_left_comm]

/-- The fields of a word, as numbers (R141). -/
theorem CmdFields.ofWord_toNat (w : Word) :
    (ofWord w).op.toNat = opField w.toNat ∧ (ofWord w).lo.toNat = loField w.toNat ∧
      (ofWord w).cnt.toNat = cntField w.toNat ∧ (ofWord w).n.toNat = nField w.toNat ∧
      (ofWord w).t.toNat = tField w.toNat ∧ (ofWord w).rsv.toNat = w.toNat / 2 ^ 27 := by
  have hw := w.isLt
  simp only [ofWord, opField, loField, cntField, nField, tField, BitVec.extractLsb'_toNat, Nat.shiftRight_eq_div_pow,
    Nat.pow_zero, Nat.div_one, true_and]
  omega

/-- A field is 0 where its number is. -/
theorem eq_zero_iff_toNat {n : Nat} (x : BitVec n) : x = 0 ↔ x.toNat = 0 := by
  rw [← BitVec.toNat_inj]
  simp

/-- A word is illegal by R145 exactly where its reserved bits are not 0 or its fields are not legal. -/
theorem illegalWord_iff (w : Word) :
    IllegalWord w.toNat ↔ ¬ ((CmdFields.ofWord w).rsv = 0 ∧ (CmdFields.ofWord w).Legal) := by
  obtain ⟨hop, hlo, hcnt, hn, ht, hrsv⟩ := CmdFields.ofWord_toNat w
  have ht3 : (CmdFields.ofWord w).t = 3 ↔ tField w.toNat = 3 := by
    rw [← ht, ← BitVec.toNat_inj]
    rfl
  simp only [IllegalWord, CmdFields.Legal, rangeOk, decide_eq_true_eq, eq_zero_iff_toNat, hop, hlo, hcnt, hn, ht, hrsv,
    ne_eq, ht3, not_and_or, Classical.not_imp, not_not, not_le]
  exact or_left_comm

/-- A word that is not illegal by R145 is a command's, and an illegal one is not. -/
theorem exists_decode_ok (w : Word) : (∃ i, decode w = .ok i) ↔ ¬ IllegalWord w.toNat := by
  simp only [illegalWord_iff, not_not, decode_ok_iff, exists_and_left, exists_decodeByOpcode_ok]

end Sys2Proof

namespace Sys2Proof.Claims

open Sys2Proof.Machine

/-- Settles O3: the decoder's own checks are the seven items. -/
theorem illegalWordsAreThoseListed : Obligations.IllegalWordsAreThoseListed := fun w => by
  rw [← not_exists, exists_decode_ok, not_not]

end Sys2Proof.Claims
end

section
/-! What an illegal word and the commands of the lane readers and decoders leave alone, in either build (30_encoding.md R146,
60_exceptions.md R455). -/

namespace Sys2Proof.Machine

open Sys2Proof.Claims

/-! ### An illegal word -/

/-- A word illegal by R145 has only the effect of R146. -/
theorem issue_of_illegalWord {w : Word} (h : IllegalWord w.toNat) (s : State) : issue w s = illegalCommand s := by
  unfold issue
  split
  · rename_i i hok
    exact absurd h ((exists_decode_ok w).1 ⟨i, hok⟩)
  · rfl

theorem step_of_illegalWord {s : State} {rest : List HostOp} {w : Word} (hops : s.hostOps = .write 4 0x008 w :: rest)
    (h : IllegalWord w.toNat) : step s = illegalCommand { s with hostOps := rest } := by
  rw [step_of_hostOps hops, hostStep_command, issue_of_illegalWord h]

/-! ### Output bytes that are not free -/

/-- The output bytes that no free value can reach (R455, R105). -/
def OutKept (s t : State) : Prop :=
  s.outBuf.wf = true → ∀ a, a < s.writePos.toNat ∨ s.outCap.toNat ≤ a → t.outBuf.read a = s.outBuf.read a

theorem OutKept.of_outBuf_eq {s t : State} (h : t.outBuf = s.outBuf) : OutKept s t := fun _ _ _ => by rw [h]

/-- Bytes written only where `keep` holds leave every index alone that it excludes. -/
theorem foldl_write_read (keep : Nat × Byte → Prop) [DecidablePred keep] {a : Nat} (ha : ∀ b, ¬ keep (a, b))
    (cs : List (Nat × Byte)) {m : Memory} (h : m.wf = true) :
    (cs.foldl (fun m c => if keep c then m.write c.1 c.2 else m) m).read a = m.read a := by
  induction cs generalizing m with
  | nil => rfl
  | cons c cs ih =>
    rw [List.foldl_cons]
    split
    · rename_i hc
      have hne : a ≠ c.1 := fun e => ha c.2 (e ▸ hc)
      rw [ih (Memory.write_wf _ _ h), Memory.read_write_other _ h hne]
    · exact ih h

/-- An unsanitized build leaves arbitrary bytes only from `WRITEPOS` on and below `OUT_CAP` (R455). -/
theorem State.unsanitized_outKept (w : Writes) (s : State) : OutKept s (s.unsanitized w) := by
  intro hwf a ha
  exact foldl_write_read (fun c => s.writePos.toNat ≤ c.1 ∧ c.1 < s.outCap.toNat)
    (fun _ hc => by simp only at hc; omega) _ hwf

/-! ### Commands that write lane registers -/

theorem LaneFrame.discardV (ls : List LaneId) (w : LaneId → Nat) (s : State) : LaneFrame s (s.discardV ls w) :=
  .forLanes (fun l s => .drop l (w l) s) ls s

theorem LaneFrame.discardAcc (ls : List LaneId) (s : State) : LaneFrame s (s.discardAcc ls) :=
  .forLanes (fun l s => (LaneFrame.drop l _ s).trans (.modLane l _ _)) ls s

theorem LaneFrame.fseInit (t : Tbl) (ls : List LaneId) (s : State) : LaneFrame s (s.fseInit t ls) :=
  (LaneFrame.ite (.refl s) (.warn _ s)).trans (.forLanes (fun l s => .modLane l _ s) ls _)

theorem LaneFrame.fseDec (t : Tbl) (ls : List LaneId) (s : State) : LaneFrame s (s.fseDec t ls) :=
  .ite ((LaneFrame.peekV ls _ s).trans (.forLanes (LaneFrame.fseDecLane t) ls _)) (.decodeUnbuilt ls s)

/-- `t` differs from `s` at most in what a lane command writes in either build. -/
def LaneCommandFrame (s t : State) : Prop :=
  OutKept s t ∧ t = { warningsOf s t with
    readPos := t.readPos, lanes := t.lanes, outBuf := t.outBuf, draws := t.draws }

/-- A command that writes lane registers, and `READPOS` at most besides, ends within its frame in either build. -/
theorem finish_laneCommandFrame {w : Writes} {s t : State} (hw : w = { lanes := true, readPos := w.readPos })
    (h : LaneFrame s t) : ∃ u, finish w s t = .next u ∧ LaneCommandFrame s u := by
  rcases finish_cases w s t with hfin | ⟨-, hfin⟩
  · exact ⟨t, hfin, .of_outBuf_eq (by rw [h]; rfl), by rw [h]; rfl⟩
  · refine ⟨_, hfin, s.unsanitized_outKept w, ?_⟩
    rw [hw]
    rfl

end Sys2Proof.Machine

namespace Sys2Proof.Claims

open Sys2Proof.Machine

/-- Settles O6: the illegal word is issued, and a sanitized build only warns. -/
theorem illegalWordOnlyWarns : Obligations.IllegalWordOnlyWarns := by
  intro s rest w hops hill hsan
  refine ⟨_, (step_of_illegalWord hops hill).trans (finish_of_sanitize hsan), ?_, rfl⟩
  exact State.warn_warnedHere .illegalCommand { s with hostOps := rest }

/-- Settles O55: what a lane command computes stays within the frame of the lane readers, and so does what it leaves free; an
illegal word leaves nothing free but the warnings and the output. -/
theorem eitherBuildKeepsTheRest : Obligations.EitherBuildKeepsTheRest := by
  refine ⟨fun s k lo cnt n i hi => ?_, fun s rest w hops hill => ?_⟩
  · simp only [List.mem_cons, List.not_mem_nil, or_false] at hi
    rcases hi with rfl | rfl | rfl | rfl | rfl | rfl | rfl | rfl | rfl
    · exact finish_laneCommandFrame rfl (.peekV _ _ s)
    · exact finish_laneCommandFrame rfl (.peekV _ _ s)
    · exact finish_laneCommandFrame rfl (.discardV _ _ s)
    · exact finish_laneCommandFrame rfl (.discardV _ _ s)
    · exact finish_laneCommandFrame rfl (.discardAcc _ s)
    · exact finish_laneCommandFrame rfl (.fseInit k _ s)
    · exact finish_laneCommandFrame rfl (.fseDec k _ s)
    · exact finish_laneCommandFrame rfl (.fseDecNP k _ s)
    · exact finish_laneCommandFrame rfl (.hufDec _ s)
  · rw [step_of_illegalWord hops hill]
    rcases finish_cases {} { s with hostOps := rest } (State.warn .illegalCommand { s with hostOps := rest })
      with hfin | ⟨-, hfin⟩
    · exact ⟨_, hfin, OutKept.of_outBuf_eq (s := s) rfl, rfl⟩
    · exact ⟨_, hfin, State.unsanitized_outKept {} { s with hostOps := rest }, rfl⟩

end Sys2Proof.Claims
end

section
/-! What a visit of lanes does, lane by lane (00_scope.md R9): an update of each lane by itself with a warning where its lane asks
for one, and the peek, whose lanes take their input words one after the other (41_bitstream.md R204 to R208). -/

namespace Sys2Proof.Machine

open Sys2Proof.Claims

/-! ### Lists of lanes -/

@[simp] theorem cmdLanes_eq (lo : BitVec 5) (cnt : BitVec 6) : cmdLanes lo cnt = laneRange lo.toNat cnt.toNat := rfl

theorem laneRange_all : laneRange 0 32 = allLanes := by decide

theorem laneRange_eq_filter (lo cnt : Nat) : laneRange lo cnt = (List.finRange 32).filter (inRange lo cnt) := by
  unfold laneRange allLanes
  exact List.filter_congr fun l _ => Bool.decide_and _ _

theorem mem_laneRange_iff_inRange {lo cnt : Nat} {l : LaneId} : l ∈ laneRange lo cnt ↔ inRange lo cnt l = true := by
  simp [mem_laneRange, inRange]

/-- The lanes below lane number `n` are the first `n`. -/
theorem filter_lt_finRange {n : Nat} (hn : n ≤ 32) :
    ((List.finRange 32).filter fun l => decide (l.val < n)) = (List.finRange 32).take n := by
  have htable : ∀ n < 33, ((List.finRange 32).filter fun l => decide (l.val < n)) = (List.finRange 32).take n := by decide
  exact htable n (by omega)

theorem take_succ_finRange {n : Nat} (hn : n < 32) :
    (List.finRange 32).take (n + 1) = (List.finRange 32).take n ++ [⟨n, hn⟩] := by
  rw [List.take_succ_eq_append_getElem (by simpa using hn)]
  simp

theorem take_all_finRange : (List.finRange 32).take 32 = List.finRange 32 := List.take_of_length_le (by simp)

/-- Visiting the lanes that `p` selects is visiting all, and passing over the others. -/
theorem forLanes_filter (p : LaneId → Bool) (ls : List LaneId) (f : LaneId → State → State) (s : State) :
    forLanes (ls.filter p) f s = forLanes ls (fun l u => if p l then f l u else u) s := by
  induction ls generalizing s with
  | nil => rfl
  | cons l ls ih =>
    rw [List.filter_cons]
    split
    · rename_i hp
      rw [forLanes_cons, forLanes_cons, if_pos hp, ih]
    · rename_i hp
      rw [forLanes_cons, if_neg hp, ih]

/-! ### A lane by itself -/

theorem State.modLane_modLane (l : LaneId) (f g : Lane → Lane) (s : State) :
    (s.modLane l f).modLane l g = s.modLane l fun x => g (f x) := by
  unfold State.modLane
  rw [State.setLane_lane_self]
  simp [State.setLane]

theorem State.modLane_congr {l : LaneId} {f g : Lane → Lane} {s : State} (h : f (s.lane l) = g (s.lane l)) :
    s.modLane l f = s.modLane l g := congrArg (fun x => s.setLane l x) h

/-- A warning where a condition holds. -/
def State.warnIf (b : Bool) (c : Warn) (s : State) : State := if b then s.warn c else s

theorem State.warnIf_lane (b : Bool) (c : Warn) (s : State) (l : LaneId) : (s.warnIf b c).lane l = s.lane l := by
  unfold State.warnIf
  split <;> rfl

theorem LaneFrame.warnIf (b : Bool) (c : Warn) (s : State) : LaneFrame s (s.warnIf b c) := .ite (.warn c s) (.refl s)

theorem State.warnIf_warnedHere (b : Bool) (c : Warn) (s : State) :
    WarnedHere s (s.warnIf b c) (List.replicate (if b then 1 else 0) c) := by
  cases b with
  | true => exact s.warn_warnedHere c
  | false => exact .refl s

/-- Nothing but the warnings and the lane registers differs: the cursors stay. -/
def LanesOnly (s t : State) : Prop := t = { warningsOf s t with lanes := t.lanes }

theorem LanesOnly.refl (s : State) : LanesOnly s s := rfl

theorem LanesOnly.trans {s t u : State} (h : LanesOnly s t) (k : LanesOnly t u) : LanesOnly s u := by
  unfold LanesOnly at *
  rw [k, h]
  rfl

theorem LanesOnly.warnIf (b : Bool) (c : Warn) (s : State) : LanesOnly s (s.warnIf b c) := by
  unfold State.warnIf
  split <;> rfl

theorem LanesOnly.modLane (l : LaneId) (f : Lane → Lane) (s : State) : LanesOnly s (s.modLane l f) := rfl

/-- Lanes visited one after the other, each changed by itself, with a warning where its registers ask for one: `c` says which
lanes warn, and `g` what becomes of a lane. -/
theorem forLanes_warnIf_modLane {ls : List LaneId} (hd : ls.Nodup) (c : LaneId → Lane → Bool) (w : Warn)
    (g : LaneId → Lane → Lane) {f : LaneId → State → State} {s : State}
    (hf : ∀ l u, LanesOnly s u → f l u = (u.warnIf (c l (u.lane l)) w).modLane l (g l)) :
    (∀ l, (forLanes ls f s).lane l = if l ∈ ls then g l (s.lane l) else s.lane l) ∧
      WarnedHere s (forLanes ls f s) (List.replicate (ls.countP fun l => c l (s.lane l)) w) ∧
      LanesOnly s (forLanes ls f s) := by
  induction ls generalizing s with
  | nil => exact ⟨fun l => by simp, .refl s, .refl s⟩
  | cons k ls ih =>
    obtain ⟨hk, hls⟩ := List.nodup_cons.1 hd
    have hfirst : f k s = (s.warnIf (c k (s.lane k)) w).modLane k (g k) := hf k s (.refl s)
    have honly : LanesOnly s (f k s) := hfirst ▸ (LanesOnly.warnIf _ w s).trans (.modLane k _ _)
    have hlane : ∀ l, (f k s).lane l = if l = k then g k (s.lane k) else s.lane l := fun l => by
      rw [hfirst, State.lane_modLane, State.warnIf_lane, State.warnIf_lane]
    obtain ⟨hlanes, hwarned, hframe⟩ := ih hls fun l u hu => hf l u (honly.trans hu)
    refine ⟨fun l => ?_, ?_, honly.trans hframe⟩
    · rw [forLanes_cons, hlanes, hlane]
      by_cases hlk : l = k
      · subst hlk
        simp [hk]
      · simp [hlk]
    · have hcount : (ls.countP fun l => c l ((f k s).lane l)) = ls.countP fun l => c l (s.lane l) := by
        refine List.countP_congr fun l hl => ?_
        have hne : l ≠ k := fun e => hk (e ▸ hl)
        rw [hlane, if_neg hne]
      rw [hcount] at hwarned
      have hone : WarnedHere s (f k s) (List.replicate (if c k (s.lane k) then 1 else 0) w) :=
        hfirst ▸ s.warnIf_warnedHere _ w
      have hboth := hone.trans hwarned (by rw [honly]; rfl) (by rw [honly]; rfl)
      rwa [List.replicate_append_replicate, Nat.add_comm, ← List.countP_cons] at hboth

/-! ### Discards (R207 to R210) -/

theorem State.drop_eq_warnIf (l : LaneId) (n : Nat) (s : State) :
    s.drop l n = (s.warnIf (decide ((s.lane l).avail.toNat < n)) .discardUnderflow).modLane l fun x => dropped x n := by
  rw [State.drop_eq, State.modLane, State.warnIf_lane, State.warnIf]
  by_cases h : (s.lane l).avail.toNat < n <;> simp [h]

/-- The lanes of a range that a condition holds of, counted as the statements count them. -/
theorem countP_laneRange (lo cnt : Nat) (p : LaneId → Bool) :
    (laneRange lo cnt).countP p = (List.finRange 32).countP fun l => inRange lo cnt l && p l := by
  rw [laneRange_eq_filter, List.countP_filter]
  exact List.countP_congr fun l _ => by rw [Bool.and_comm]

/-- What a discard over a range of lanes does (R208). -/
theorem State.discardV_dropEffect (lo cnt : Nat) (count : LaneId → Nat) (s : State) :
    DropEffect s (s.discardV (laneRange lo cnt) count) lo cnt count id := by
  obtain ⟨hlanes, hwarned, hframe⟩ := forLanes_warnIf_modLane (laneRange_nodup lo cnt)
    (fun l x => decide (x.avail.toNat < count l)) .discardUnderflow (fun l x => dropped x (count l))
    (f := fun l => State.drop l (count l)) (s := s) fun l u _ => u.drop_eq_warnIf l (count l)
  refine ⟨fun l => ?_, countP_laneRange lo cnt _ ▸ hwarned, hframe⟩
  simp only [← mem_laneRange_iff_inRange]
  exact hlanes l

end Sys2Proof.Machine
end

section
/-! The peek over a range of lanes (41_bitstream.md R204 to R206): the lanes that need a word take the words from `READPOS` on, one
after the other in lane order. -/

namespace Sys2Proof.Machine

open Sys2Proof.Claims

theorem LaneFrame.inWordAt {s t : State} (h : LaneFrame s t) (i : Nat) : t.inWordAt i = s.inWordAt i := by rw [h]; rfl

theorem LaneFrame.writePos {s t : State} (h : LaneFrame s t) : t.writePos = s.writePos := by rw [h]; rfl

theorem LaneFrame.sanitize {s t : State} (h : LaneFrame s t) : t.sanitize = s.sanitize := by rw [h]; rfl

theorem LanesOnly.laneFrame {s t : State} (h : LanesOnly s t) : LaneFrame s t := by
  unfold LaneFrame
  rw [h]
  rfl

/-- A lane that loads the next word where it holds fewer than `n` bits (R204). -/
def State.refilledLane (s : State) (l : LaneId) (n : Nat) : Lane :=
  if (s.lane l).avail.toNat < n then (s.lane l).load (s.inWordAt s.readPos.toNat) else s.lane l

/-- `Refill` (R204): the lane, and `READPOS`. -/
theorem State.refill_spec (l : LaneId) (n : Nat) (s : State) :
    (∀ k, (s.refill l n).lane k = if k = l then s.refilledLane l n else s.lane k) ∧
      (s.refill l n).readPos = s.readPos + BitVec.ofNat 64 (if (s.lane l).avail.toNat < n then 1 else 0) ∧
      s.refill l n = { s with readPos := (s.refill l n).readPos, lanes := (s.refill l n).lanes } := by
  unfold State.refill State.refilledLane
  split
  · exact ⟨fun k => State.lane_modLane l k _ s.inWord.2, rfl, rfl⟩
  · refine ⟨fun k => ?_, by simp, rfl⟩
    split
    · rename_i h
      rw [h]
    · rfl

/-- One lane of a peek (R206). -/
theorem State.peekLane_spec (l : LaneId) (width : Nat) (s : State) :
    (∀ k, (s.peekLane l width).lane k =
        if k = l then windowed (s.refilledLane l (min width 32)) (min width 32) else s.lane k) ∧
      (s.peekLane l width).readPos =
        s.readPos + BitVec.ofNat 64 (if (s.lane l).avail.toNat < min width 32 then 1 else 0) ∧
      WarnedHere s (s.peekLane l width) (List.replicate (if 32 < width then 1 else 0) .peekWidth) := by
  have hpeek : s.peekLane l width =
      ((s.warnIf (decide (32 < width)) .peekWidth).refill l (min width 32)).modLane l fun x => x.window (min width 32) := by
    simp [State.peekLane, State.warnIf]
  have hframe := LaneFrame.warnIf (decide (32 < width)) .peekWidth s
  have hwarned := s.warnIf_warnedHere (decide (32 < width)) .peekWidth
  have hread : (s.warnIf (decide (32 < width)) .peekWidth).readPos = s.readPos := by
    rw [LanesOnly.warnIf]
    rfl
  have hlane := s.warnIf_lane (decide (32 < width)) .peekWidth
  generalize s.warnIf (decide (32 < width)) .peekWidth = u at hpeek hframe hwarned hread hlane
  obtain ⟨hlanes, hpos, hrefill⟩ := u.refill_spec l (min width 32)
  have hfilled : u.refilledLane l (min width 32) = s.refilledLane l (min width 32) := by
    simp only [State.refilledLane, hlane, hframe.inWordAt, hread]
  rw [hpeek]
  refine ⟨fun k => ?_, ?_, ?_⟩
  · rw [State.lane_modLane, hlanes, hlanes, if_pos rfl, hfilled, hlane]
    split <;> rfl
  · rw [State.modLane_readPos, hpos, hread, hlane]
  · simp only [decide_eq_true_eq] at hwarned
    exact hwarned.congr (by rw [hrefill]; rfl) (by rw [hrefill]; rfl) (by rw [hrefill]; rfl) (by rw [hrefill]; rfl)

/-- The words of the lanes below lane number `n`, counted over those lanes. -/
theorem wordsBefore_eq_countP (s : State) (lo cnt : Nat) (width : LaneId → Nat) {n : Nat} (hn : n ≤ 32) :
    wordsBefore s lo cnt width n = ((List.finRange 32).take n).countP (needsWord s lo cnt width) := by
  rw [← filter_lt_finRange hn, List.countP_filter]
  exact List.countP_congr fun l _ => by rw [Bool.and_comm]

/-- One lane more. -/
theorem wordsBefore_succ (s : State) (lo cnt : Nat) (width : LaneId → Nat) {n : Nat} (hn : n < 32) :
    wordsBefore s lo cnt width (n + 1) =
      wordsBefore s lo cnt width n + if needsWord s lo cnt width ⟨n, hn⟩ then 1 else 0 := by
  rw [wordsBefore_eq_countP s lo cnt width hn, wordsBefore_eq_countP s lo cnt width hn.le, take_succ_finRange hn,
    List.countP_append, List.countP_singleton]

/-- The warning of a peek on lane `l`, in a state whose lanes below have loaded their words (R206). -/
def peekWarning (s : State) (lo cnt : Nat) (w : LaneId → Nat) (l : LaneId) : WarnEntry :=
  ⟨.peekWidth, s.readPos + BitVec.ofNat 64 (wordsBefore s lo cnt w l.val), s.writePos⟩

/-- How far a peek of the widths `width` over a range of lanes has come when the lanes below lane number `n` are done. -/
structure PeekedBelow (s u : State) (lo cnt : Nat) (width : LaneId → Nat) (n : Nat) : Prop where
  readPos : u.readPos = s.readPos + BitVec.ofNat 64 (wordsBefore s lo cnt (fun l => min (width l) 32) n)
  lane : ∀ l, u.lane l = if inRange lo cnt l = true ∧ l.val < n then
    windowed (filledLane s lo cnt (fun l => min (width l) 32) l) (min (width l) 32) else s.lane l
  warned : WarnedAt s u ((((List.finRange 32).take n).filter fun l => inRange lo cnt l && decide (32 < width l)).map
    (peekWarning s lo cnt fun l => min (width l) 32))
  frame : LaneFrame s u

section
variable {s u : State} {lo cnt : Nat} {width : LaneId → Nat}

/-- A lane out of the range is passed over. -/
theorem PeekedBelow.succ_of_not_inRange {n : Nat} (hn : n < 32) (h : PeekedBelow s u lo cnt width n)
    (hout : inRange lo cnt ⟨n, hn⟩ = false) : PeekedBelow s u lo cnt width (n + 1) where
  readPos := by rw [h.readPos, wordsBefore_succ _ _ _ _ hn, needsWord, hout]; rfl
  lane l := by
    rw [h.lane]
    refine if_congr ⟨fun hl => ⟨hl.1, by omega⟩, fun hl => ⟨hl.1, ?_⟩⟩ rfl rfl
    have hne : l ≠ ⟨n, hn⟩ := fun e => absurd hl.1 (by simp [e, hout])
    have := Fin.val_ne_of_ne hne
    simp only at this
    omega
  warned := by
    rw [take_succ_finRange hn, List.filter_append, List.filter_singleton, hout]
    simpa using h.warned
  frame := h.frame

/-- A lane of the range takes its word, if it needs one, after the words of the lanes below. -/
theorem PeekedBelow.succ_of_inRange {n : Nat} (hn : n < 32) (h : PeekedBelow s u lo cnt width n)
    (hin : inRange lo cnt ⟨n, hn⟩ = true) :
    PeekedBelow s (u.peekLane ⟨n, hn⟩ (width ⟨n, hn⟩)) lo cnt width (n + 1) := by
  obtain ⟨hlanes, hpos, hwarned⟩ := u.peekLane_spec ⟨n, hn⟩ (width ⟨n, hn⟩)
  have hsame : u.lane ⟨n, hn⟩ = s.lane ⟨n, hn⟩ := by
    rw [h.lane, if_neg]
    simp
  have hneeds : needsWord s lo cnt (fun l => min (width l) 32) ⟨n, hn⟩ =
      decide ((s.lane ⟨n, hn⟩).avail.toNat < min (width ⟨n, hn⟩) 32) := by
    rw [needsWord, hin, Bool.true_and]
  have hfilled : u.refilledLane ⟨n, hn⟩ (min (width ⟨n, hn⟩) 32) =
      filledLane s lo cnt (fun l => min (width l) 32) ⟨n, hn⟩ := by
    simp only [State.refilledLane, filledLane, hneeds, hsame, h.frame.inWordAt, h.readPos, decide_eq_true_eq]
    rfl
  refine ⟨?_, fun l => ?_, ?_, h.frame.trans (.peekLane _ _ u)⟩
  · rw [hpos, h.readPos, wordsBefore_succ _ _ _ _ hn, hneeds, hsame, BitVec.ofNat_add, BitVec.add_assoc]
    simp only [decide_eq_true_eq]
  · rw [hlanes]
    by_cases hl : l = ⟨n, hn⟩
    · subst hl
      rw [if_pos rfl, hfilled, if_pos ⟨hin, by simp⟩]
    · have hval := Fin.val_ne_of_ne hl
      simp only at hval
      rw [if_neg hl, h.lane]
      exact if_congr (and_congr_right fun _ => by omega) rfl rfl
  · have hboth := h.warned.trans hwarned
    rw [take_succ_finRange hn, List.filter_append, List.map_append, List.filter_singleton, hin, Bool.true_and]
    by_cases hwide : 32 < width ⟨n, hn⟩
    · simpa [hwide, h.readPos, h.frame.writePos, peekWarning] using hboth
    · simpa [hwide] using hboth

end

/-- What a peek over a range of lanes does (R205, R206). -/
theorem State.peekV_peekEffect (lo cnt : Nat) (width : LaneId → Nat) (s : State) :
    PeekEffect s (s.peekV (laneRange lo cnt) width) lo cnt width := by
  have hbelow : ∀ n ≤ 32, PeekedBelow s (forLanes ((List.finRange 32).take n)
      (fun l u => if inRange lo cnt l then u.peekLane l (width l) else u) s) lo cnt width n := by
    intro n
    induction n with
    | zero => exact fun _ => ⟨by simp [wordsBefore], fun l => by simp, .refl s, .refl s⟩
    | succ n ih =>
      intro hn
      rw [take_succ_finRange hn, forLanes_append, forLanes_cons, forLanes_nil]
      cases hin : inRange lo cnt ⟨n, hn⟩ with
      | false => exact (ih (by omega)).succ_of_not_inRange hn hin
      | true => exact (ih (by omega)).succ_of_inRange hn hin
  have h := hbelow 32 (le_refl _)
  rw [take_all_finRange, ← forLanes_filter, ← laneRange_eq_filter] at h
  obtain ⟨hread, hlane, hwarned, hframe⟩ := h
  rw [take_all_finRange] at hwarned
  refine ⟨hread, fun l => ?_, hwarned, hframe⟩
  have hl := hlane l
  simp only [l.isLt, and_true] at hl
  exact hl

end Sys2Proof.Machine
end

section
/-! The table that `BuildTable` spreads a distribution into (42_fse.md R253): slot `j` stands at its cell, and nothing else of the
arena changes. -/

namespace Sys2Proof.Machine

open Sys2Proof.Claims

theorem tableRange_fst (t : Tbl) : (tableRange t).1 = tableStart t := by cases t <;> rfl

theorem floorlog2_eq_log2 {x : Nat} (h : 0 < x) : floorlog2 x = Nat.log2 x := by
  rw [floorlog2_eq h, Nat.log2_eq_log_two]

/-! ### The slots of a distribution -/

theorem getElem?_tabFrom {α : Type} (f : Nat → α) {n k : Nat} (hk : k < n) (i : Nat) :
    (tabFrom f n i)[k]? = some (f (i + k)) := by
  induction n generalizing k i with
  | zero => omega
  | succ n ih =>
    cases k with
    | zero => rfl
    | succ k =>
      have := ih (k := k) (by omega) (i + 1)
      rw [tabFrom, List.getElem?_cons_succ, this]
      congr 2
      omega

/-- The slots of a symbol come after those of the lower symbols, in rank order (R253). -/
theorem getElem?_slotCells (A sym₀ : Nat) {prob : List Nat} {sym k : Nat} (hsym : sym < prob.length)
    (hk : k < prob.getD sym 0) :
    (slotCells A sym₀ prob)[(prob.take sym).sum + k]? = some (slotCell A (sym₀ + sym) (prob.getD sym 0) k) := by
  induction prob generalizing sym₀ sym with
  | nil => simp at hsym
  | cons p ps ih =>
    unfold slotCells
    cases sym with
    | zero =>
      replace hk : k < p := hk
      rw [List.take_zero, List.sum_nil, Nat.zero_add, List.getElem?_append_left (by rwa [tabFrom_length]),
        getElem?_tabFrom _ hk]
      simp
    | succ sym =>
      replace hk : k < ps.getD sym 0 := hk
      rw [List.take_succ_cons, List.sum_cons, List.getElem?_append_right (by rw [tabFrom_length]; omega), tabFrom_length,
        show p + (ps.take sym).sum + k - p = (ps.take sym).sum + k by omega,
        ih (sym₀ + 1) (by simpa using hsym) hk]
      simp [Nat.add_assoc, Nat.add_comm 1 sym]

/-- The step between slots is odd, so no two slots share a cell (R253). -/
theorem slotPos_injective {A a b : Nat} (hA : 4 ≤ A) (ha : a < 2 ^ A) (hb : b < 2 ^ A) (h : slotPos A a = slotPos A b) :
    a = b := by
  have hodd : Nat.Coprime (2 ^ A) (5 * 2 ^ (A - 3) + 3) := by
    refine Nat.Coprime.pow_left _ (Nat.coprime_two_left.2 ?_)
    obtain ⟨e, rfl⟩ : ∃ e, A = e + 4 := ⟨A - 4, by omega⟩
    rw [show e + 4 - 3 = e + 1 by omega, Nat.pow_succ]
    exact ⟨5 * 2 ^ e + 1, by ring⟩
  have hmod : a ≡ b [MOD 2 ^ A] := Nat.ModEq.cancel_right_of_coprime hodd h
  rwa [Nat.ModEq, Nat.mod_eq_of_lt ha, Nat.mod_eq_of_lt hb] at hmod

section
variable {t : Tbl} {A : Nat} (hA : A ≤ maxAcc t)
include hA

/-- A cell none of the slots from `j` on stands at keeps its content. -/
theorem writeSlots_fseCellAt_of_ne {k : Nat} (j : Nat) (cs : List FseCell)
    (hk : ∀ m, m < cs.length → k ≠ tableStart t + slotPos A (j + m)) (s : State) :
    (writeSlots t A j cs s).fseCellAt k = s.fseCellAt k := by
  induction cs generalizing j s with
  | nil => rfl
  | cons c cs ih =>
    have hrest : ∀ m, m < cs.length → k ≠ tableStart t + slotPos A (j + 1 + m) := fun m hm => by
      have := hk (m + 1) (by simpa using hm)
      rwa [Nat.add_right_comm, Nat.add_assoc]
    show (writeSlots t A (j + 1) cs _).fseCellAt k = _
    have hfirst : k ≠ tableStart t + slotPos A j := hk 0 (by simp)
    rw [ih (j + 1) hrest, writeSlots_cons_fseCellAt hA, if_neg hfirst]

/-- Slot `j + m` stands at its cell. -/
theorem writeSlots_fseCellAt (h4 : 4 ≤ A) {cs : List FseCell} {m : Nat} {c : FseCell} (hc : cs[m]? = some c) (j : Nat)
    (hj : j + cs.length ≤ 2 ^ A) (s : State) :
    (writeSlots t A j cs s).fseCellAt (tableStart t + slotPos A (j + m)) = c := by
  induction cs generalizing j m s with
  | nil => simp at hc
  | cons d cs ih =>
    rw [List.length_cons] at hj
    show (writeSlots t A (j + 1) cs _).fseCellAt _ = _
    cases m with
    | zero =>
      obtain rfl : d = c := by simpa using hc
      rw [writeSlots_fseCellAt_of_ne hA, writeSlots_cons_fseCellAt hA, Nat.add_zero, if_pos rfl]
      intro m hm heq
      have := slotPos_injective h4 (by omega) (by omega) (Nat.add_left_cancel heq)
      omega
    | succ m =>
      have := ih (m := m) (by simpa using hc) (j + 1) (by omega) (s.setFseCell (tableStart t + slotPos A j) d)
      rwa [Nat.add_right_comm, Nat.add_assoc] at this

/-- Nothing of the arena but the first 2^A cells of the table is written, and no other table is marked (R251, R253). -/
theorem State.buildTable_otherTablesKept (prob : List Nat) (s : State) :
    OtherTablesKept s (s.buildTable t A prob) t A := by
  refine ⟨fun k hk => s.buildTable_other hk A prob, fun i hi => ?_⟩
  rw [tableRange_fst] at hi
  refine writeSlots_fseCellAt_other hA (fun m => ?_) 0 (slotCells A 0 prob) s
  have : slotPos A m < 2 ^ A := Nat.mod_lt _ (Nat.two_pow_pos A)
  omega

end

/-- `BuildTable` (R253) leaves every slot of a legal distribution at its cell. -/
theorem State.buildTable_spreadOf {t : Tbl} {A : Nat} {prob : List Nat} (h : TableSpec t A prob) (s : State) :
    SpreadOf (s.buildTable t A prob) t A prob := by
  refine ⟨?_, State.buildTable_accLog h.le_max prob s, fun sym k hsym hk => ?_⟩
  · rw [State.buildTable_frame]
    simp [State.built]
  · have hslot := getElem?_slotCells A 0 hsym hk
    have hcell := writeSlots_fseCellAt h.le_max ((by decide : 4 ≤ minAccuracyLog).trans h.min_le) hslot 0
      (by rw [slotCells_length, h.sum]; omega) s
    rw [Nat.zero_add, Nat.zero_add] at hcell
    simp only [tableRange_fst, ← floorlog2_eq_log2 (show 0 < prob.getD sym 0 + k by omega)]
    exact hcell

theorem OtherTablesKept.trans {s t u : State} {k : Tbl} {A : Nat} (h : OtherTablesKept s t k A)
    (h' : OtherTablesKept t u k A) : OtherTablesKept s u k A :=
  ⟨fun j hj => ⟨((h'.1 j hj).1).trans (h.1 j hj).1, ((h'.1 j hj).2).trans (h.1 j hj).2⟩,
    fun i hi => (h'.2 i hi).trans (h.2 i hi)⟩

theorem LaneFrame.otherTablesKept {s t : State} (h : LaneFrame s t) (k : Tbl) (A : Nat) : OtherTablesKept s t k A := by
  rw [h]
  exact ⟨fun _ _ => ⟨rfl, rfl⟩, fun _ _ => rfl⟩

/-- The table is the same where the arena, `TACC` and `TVALID` are. -/
theorem SpreadOf.congr {s u : State} {t : Tbl} {A : Nat} {prob : List Nat} (h : SpreadOf s t A prob)
    (hcell : u.fseCell = s.fseCell) (hacc : u.tacc = s.tacc) (hvalid : u.tvalid = s.tvalid) : SpreadOf u t A prob := by
  simpa only [SpreadOf, State.built, State.accLog, State.fseCellAt, hcell, hacc, hvalid] using h

theorem OtherTablesKept.congr {s u v : State} {t : Tbl} {A : Nat} (h : OtherTablesKept s u t A)
    (hcell : v.fseCell = u.fseCell) (hacc : v.tacc = u.tacc) (hvalid : v.tvalid = u.tvalid) :
    OtherTablesKept s v t A := by
  simpa only [OtherTablesKept, State.built, State.accLog, State.fseCellAt, hcell, hacc, hvalid] using h

end Sys2Proof.Machine
end

section
/-! Reading a distribution (42_fse.md R254), round by round: what the codes of one round's windows make of the distribution so far,
and what each lane drops; then `FSEBUILD` (R256). -/

namespace Sys2Proof.Machine

open Sys2Proof.Claims

/-! ### One code -/

theorem highbit1_eq_size (x : Nat) : highbit1 x = Nat.size x := by
  rcases Nat.eq_zero_or_pos x with rfl | hx
  · rfl
  · rw [highbit1_of_pos hx]
    exact Nat.le_antisymm (Nat.lt_size.2 (Nat.pow_log_le_self 2 (by omega)))
      (Nat.size_le.2 (Nat.lt_pow_succ_log_self (by decide) x))

/-- What is read of a distribution, the machine apart. -/
def DistProgress.soFar (d : DistProgress) : DistSoFar := ⟨d.prob, d.cum, d.sym⟩

theorem DistProgress.more_eq_going (t : Tbl) (A : Nat) (d : DistProgress) : d.more t A = d.soFar.going t A :=
  Bool.decide_and _ _

theorem DistSoFar.going_iff {d : DistSoFar} {t : Tbl} {A : Nat} :
    d.going t A = true ↔ d.cum < 2 ^ A ∧ d.sym ≤ maxSym t := by
  simp [DistSoFar.going]

theorem State.warnIf_decide (p : Prop) [Decidable p] (c : Warn) (s : State) :
    s.warnIf (decide p) c = if p then s.warn c else s := by
  simp [State.warnIf]

theorem State.drop_zero (l : LaneId) (s : State) : s.drop l 0 = s := by
  rw [State.drop_of_le (Nat.zero_le _)]
  have hlane : (s.lane l).consume 0 = s.lane l := by simp [Lane.consume]
  rw [State.modLane, hlane]
  simp [State.setLane, State.lane]

/-- A lane's code where the distribution is not complete (R254). -/
theorem takeCode_of_going {t : Tbl} {A : Nat} {d : DistProgress} (h : d.soFar.going t A = true) (l : LaneId) :
    takeCode t A d l =
      if min (d.soFar.value A (d.mach.lane l).pv.toNat) (2 ^ A - d.cum) = 0 then
        { d with
          sym := d.sym + 1 + (d.mach.lane l).pv.toNat / 2 ^ d.soFar.width A % 2 ^ 6
          mach := (d.mach.warnIf (d.soFar.over t A (d.mach.lane l).pv.toNat) .fseProbOverflow).drop l
            (d.soFar.width A + 6) }
      else
        { prob := d.prob.set d.sym (min (d.soFar.value A (d.mach.lane l).pv.toNat) (2 ^ A - d.cum))
          cum := d.cum + min (d.soFar.value A (d.mach.lane l).pv.toNat) (2 ^ A - d.cum)
          sym := d.sym + 1
          mach := (d.mach.warnIf (d.soFar.over t A (d.mach.lane l).pv.toNat) .fseProbOverflow).drop l
            (d.soFar.width A) } := by
  have hwidth : highbit1 (2 ^ A - d.cum) = d.soFar.width A := highbit1_eq_size _
  unfold takeCode
  rw [if_pos ((d.more_eq_going t A).trans h), DistSoFar.over, h, Bool.true_and, State.warnIf_decide]
  simp only [hwidth]
  rfl

theorem takeCode_of_not_going {t : Tbl} {A : Nat} {d : DistProgress} (h : d.soFar.going t A = false) (l : LaneId) :
    takeCode t A d l = d :=
  if_neg (by rw [DistProgress.more_eq_going, h]; exact Bool.false_ne_true)

/-- What is read after a lane's code (R254). -/
theorem takeCode_soFar (t : Tbl) (A : Nat) (d : DistProgress) (l : LaneId) :
    (takeCode t A d l).soFar = d.soFar.next t A (d.mach.lane l).pv.toNat := by
  unfold DistSoFar.next
  cases hgoing : d.soFar.going t A with
  | false => exact congrArg _ (takeCode_of_not_going hgoing l)
  | true =>
    rw [takeCode_of_going hgoing, apply_ite DistProgress.soFar]
    rfl

/-- A lane's code warns where it is above what is left, and the lane drops its bits (R254). -/
theorem takeCode_mach (t : Tbl) (A : Nat) (d : DistProgress) (l : LaneId) :
    (takeCode t A d l).mach =
      (d.mach.warnIf (d.soFar.over t A (d.mach.lane l).pv.toNat) .fseProbOverflow).drop l
        (d.soFar.bits t A (d.mach.lane l).pv.toNat) := by
  cases hgoing : d.soFar.going t A with
  | false =>
    rw [takeCode_of_not_going hgoing, DistSoFar.over, DistSoFar.bits, hgoing]
    exact (State.drop_zero l d.mach).symm
  | true =>
    have hleft : 0 < 2 ^ A - d.cum := Nat.sub_pos_of_lt (DistSoFar.going_iff.1 hgoing).1
    rw [takeCode_of_going hgoing, DistSoFar.bits, if_pos hgoing]
    by_cases hcode : d.soFar.value A (d.mach.lane l).pv.toNat = 0
    · rw [if_pos hcode, if_pos (by omega)]
    · rw [if_neg hcode, if_neg (by omega)]

/-- A code takes no more bits than a round peeks (R254). -/
theorem DistSoFar.bits_le {t : Tbl} {A : Nat} (hA : A ≤ maxAcc t) (d : DistSoFar) (pv : Nat) :
    d.bits t A pv ≤ maxAcc t + 7 := by
  have hwidth : d.width A ≤ A + 1 := by
    rw [DistSoFar.width, ← Nat.size_pow]
    exact Nat.size_le_size (Nat.sub_le _ _)
  unfold DistSoFar.bits
  split
  · split <;> omega
  · omega

/-- Every code passes its symbol (R254). -/
theorem DistSoFar.sym_le_next (t : Tbl) (A : Nat) (d : DistSoFar) (pv : Nat) : d.sym ≤ (d.next t A pv).sym := by
  unfold DistSoFar.next
  split
  · simp only
    split <;> simp only <;> omega
  · exact le_refl _

theorem DistSoFar.sym_lt_next {t : Tbl} {A : Nat} {d : DistSoFar} (h : d.going t A = true) (pv : Nat) :
    d.sym < (d.next t A pv).sym := by
  unfold DistSoFar.next
  rw [if_pos h]
  simp only
  split <;> simp only <;> omega

/-! ### The codes of one round -/

theorem DistSoFar.afterLanes_succ (t : Tbl) (A : Nat) (d : DistSoFar) (w : LaneId → Nat) {n : Nat} (hn : n < 32) :
    d.afterLanes t A w (n + 1) = (d.afterLanes t A w n).next t A (w ⟨n, hn⟩) := by
  unfold DistSoFar.afterLanes
  rw [take_succ_finRange hn, List.foldl_append]
  rfl

/-- A round of a distribution that is not complete passes a symbol. -/
theorem DistSoFar.sym_lt_afterLanes {t : Tbl} {A : Nat} {d : DistSoFar} (h : d.going t A = true) (w : LaneId → Nat) {n : Nat}
    (hn : n < 32) : d.sym < (d.afterLanes t A w (n + 1)).sym := by
  induction n with
  | zero =>
    rw [DistSoFar.afterLanes_succ t A d w hn]
    exact DistSoFar.sym_lt_next (d := d) h _
  | succ n ih =>
    rw [DistSoFar.afterLanes_succ t A d w hn]
    exact (ih (by omega)).trans_le (DistSoFar.sym_le_next t A _ _)

/-- How far the codes of a round have come when the lanes below lane number `n` gave theirs. -/
structure CodesBelow (t : Tbl) (A : Nat) (d₀ d : DistProgress) (n : Nat) : Prop where
  soFar : d.soFar = d₀.soFar.afterLanes t A (fun l => (d₀.mach.lane l).pv.toNat) n
  lane : ∀ l, d.mach.lane l = if l.val < n then
    dropped (d₀.mach.lane l) ((d₀.soFar.afterLanes t A (fun l => (d₀.mach.lane l).pv.toNat) l.val).bits t A
      (d₀.mach.lane l).pv.toNat) else d₀.mach.lane l
  warned : WarnedHere d₀.mach d.mach (List.replicate (((List.finRange 32).take n).countP fun l =>
    (d₀.soFar.afterLanes t A (fun l => (d₀.mach.lane l).pv.toNat) l.val).over t A (d₀.mach.lane l).pv.toNat)
      .fseProbOverflow)
  frame : LanesOnly d₀.mach d.mach

/-- The next lane gives its code. -/
theorem CodesBelow.succ {t : Tbl} {A : Nat} {d₀ d : DistProgress} (hA : A ≤ maxAcc t)
    (hroom : ∀ l, maxAcc t + 7 ≤ (d₀.mach.lane l).avail.toNat) {n : Nat} (hn : n < 32) (h : CodesBelow t A d₀ d n) :
    CodesBelow t A d₀ (takeCode t A d ⟨n, hn⟩) (n + 1) := by
  have hlane : d.mach.lane ⟨n, hn⟩ = d₀.mach.lane ⟨n, hn⟩ := by
    rw [h.lane, if_neg (by simp)]
  have hmach := takeCode_mach t A d ⟨n, hn⟩
  have hsoFar := takeCode_soFar t A d ⟨n, hn⟩
  rw [h.soFar, hlane] at hmach hsoFar
  generalize hover : (d₀.soFar.afterLanes t A (fun l => (d₀.mach.lane l).pv.toNat) n).over t A
    (d₀.mach.lane ⟨n, hn⟩).pv.toNat = isOver at hmach
  generalize hbits : (d₀.soFar.afterLanes t A (fun l => (d₀.mach.lane l).pv.toNat) n).bits t A
    (d₀.mach.lane ⟨n, hn⟩).pv.toNat = bits at hmach
  have hle : bits ≤ (d₀.mach.lane ⟨n, hn⟩).avail.toNat := hbits ▸ (DistSoFar.bits_le hA _ _).trans (hroom _)
  rw [State.drop_eq_warnIf, State.warnIf_lane, hlane, decide_eq_false (Nat.not_lt.2 hle)] at hmach
  change (takeCode t A d ⟨n, hn⟩).mach =
    (d.mach.warnIf isOver .fseProbOverflow).modLane ⟨n, hn⟩ fun x => dropped x bits at hmach
  refine ⟨?_, fun l => ?_, ?_, ?_⟩
  · rw [hsoFar, DistSoFar.afterLanes_succ t A _ _ hn]
  · rw [hmach, State.lane_modLane, State.warnIf_lane, State.warnIf_lane]
    by_cases hl : l = ⟨n, hn⟩
    · subst hl
      rw [if_pos rfl, if_pos (Nat.lt_succ_self n), hlane, hbits]
    · have hval := Fin.val_ne_of_ne hl
      simp only at hval
      rw [if_neg hl, h.lane]
      exact if_congr (by omega) rfl rfl
  · have hone := d.mach.warnIf_warnedHere isOver .fseProbOverflow
    have hboth := h.warned.trans hone (by rw [h.frame]; rfl) (by rw [h.frame]; rfl)
    rw [List.replicate_append_replicate] at hboth
    rw [take_succ_finRange hn, List.countP_append, List.countP_singleton, hmach, hover]
    exact hboth
  · rw [hmach]
    exact h.frame.trans ((LanesOnly.warnIf isOver _ _).trans (.modLane _ _ _))

/-- After a peek of legal widths each lane of the range holds as many bits (R204). -/
theorem le_filledLane_avail {s : State} {lo cnt : Nat} {width : LaneId → Nat} {l : LaneId}
    (hin : inRange lo cnt l = true) (hw : width l ≤ 32) : width l ≤ (filledLane s lo cnt width l).avail.toNat := by
  unfold filledLane needsWord
  rw [hin, Bool.true_and]
  simp only [decide_eq_true_eq]
  split
  · simp only [BitVec.toNat_add, show (32 : BitVec 7).toNat = 32 from rfl]
    omega
  · omega

/-- The peek of a round (R254). -/
def roundPeek (t : Tbl) (s : State) : State := s.peek allLanes (maxAcc t + 1 + zprb)

theorem roundWidth_le (t : Tbl) : maxAcc t + 1 + zprb ≤ 32 := by
  have := maxAcc_le t
  unfold zprb
  omega

theorem inRange_all (l : LaneId) : inRange 0 32 l = true := by simp [inRange]

theorem roundPeek_peekEffect (t : Tbl) (s : State) :
    PeekEffect s (roundPeek t s) 0 32 fun _ => maxAcc t + 1 + zprb := by
  have h := s.peekV_peekEffect 0 32 fun _ => maxAcc t + 1 + zprb
  rwa [laneRange_all] at h

/-- Every lane after the peek of a round: its window, and the bits it holds. -/
theorem roundPeek_lane (t : Tbl) (s : State) (l : LaneId) :
    (roundPeek t s).lane l =
      windowed (filledLane s 0 32 (fun _ => maxAcc t + 1 + zprb) l) (maxAcc t + 1 + zprb) := by
  obtain ⟨-, hlane, -⟩ := roundPeek_peekEffect t s
  have h := hlane l
  rw [if_pos (inRange_all l)] at h
  simpa only [Nat.min_eq_left (roundWidth_le t)] using h

theorem roundPeek_avail (t : Tbl) (s : State) (l : LaneId) : maxAcc t + 7 ≤ ((roundPeek t s).lane l).avail.toNat := by
  rw [roundPeek_lane]
  exact le_filledLane_avail (width := fun _ => maxAcc t + 1 + zprb) (inRange_all l) (roundWidth_le t)

/-- One round (R254): the peek, then the codes of its windows. -/
theorem distRound_spec {t : Tbl} {A : Nat} (hA : A ≤ maxAcc t) (d : DistProgress) :
    DistRound t A d.soFar (roundPeek t d.mach) (distRound t A d).mach ∧
      (distRound t A d).soFar =
        d.soFar.afterLanes t A (fun l => ((roundPeek t d.mach).lane l).pv.toNat) 32 := by
  have hbelow : ∀ n ≤ 32, CodesBelow t A { d with mach := roundPeek t d.mach }
      (((List.finRange 32).take n).foldl (takeCode t A) { d with mach := roundPeek t d.mach }) n := by
    intro n
    induction n with
    | zero =>
      intro _
      rw [List.take_zero, List.foldl_nil]
      exact ⟨by simp [DistSoFar.afterLanes], fun l => by simp, by simpa using WarnedHere.refl _, .refl _⟩
    | succ n ih =>
      intro hn
      rw [take_succ_finRange hn, List.foldl_append]
      exact CodesBelow.succ (d₀ := { d with mach := roundPeek t d.mach }) hA (roundPeek_avail t d.mach) hn (ih (by omega))
  have h := hbelow 32 (le_refl _)
  rw [take_all_finRange] at h
  obtain ⟨hsoFar, hlane, hwarned, hframe⟩ := h
  rw [take_all_finRange] at hwarned
  refine ⟨⟨fun l => ?_, hwarned, hframe⟩, hsoFar⟩
  have hl := hlane l
  rwa [if_pos l.isLt] at hl

/-! ### The rounds -/

/-- The rounds are read until the distribution is complete or the bound is reached. -/
theorem distLoop_eq_rounds (t : Tbl) (A fuel : Nat) (d : DistProgress) :
    ∃ R ≤ fuel, (∀ j < R, ((distRound t A)^[j] d).more t A = true) ∧
      (R < fuel → ((distRound t A)^[R] d).more t A = false) ∧ distLoop t A fuel d = (distRound t A)^[R] d := by
  induction fuel generalizing d with
  | zero => exact ⟨0, le_refl _, by simp, by simp, rfl⟩
  | succ fuel ih =>
    unfold distLoop
    cases hmore : d.more t A with
    | false => exact ⟨0, Nat.zero_le _, by simp, fun _ => hmore, rfl⟩
    | true =>
      obtain ⟨R, hR, hgoing, hend, heq⟩ := ih (distRound t A d)
      refine ⟨R + 1, by omega, fun j hj => ?_, fun hlt => hend (by omega), heq⟩
      cases j with
      | zero => exact hmore
      | succ j => exact hgoing j (by omega)

/-- A symbol a round at least. -/
theorem rounds_sym {t : Tbl} {A : Nat} (hA : A ≤ maxAcc t) (d : DistProgress) {R : Nat}
    (h : ∀ j < R, ((distRound t A)^[j] d).more t A = true) : R ≤ ((distRound t A)^[R] d).sym := by
  induction R with
  | zero => exact Nat.zero_le _
  | succ R ih =>
    have hbefore := ih fun j hj => h j (by omega)
    have hgoing := h R (by omega)
    rw [Function.iterate_succ_apply']
    generalize (distRound t A)^[R] d = e at hbefore hgoing
    have hnext : (distRound t A e).sym = _ := congrArg DistSoFar.sym (distRound_spec hA e).2
    rw [DistProgress.more_eq_going] at hgoing
    have := DistSoFar.sym_lt_afterLanes (n := 31) hgoing (fun l => ((roundPeek t e.mach).lane l).pv.toNat) (by decide)
    rw [hnext]
    exact hbefore.trans_lt this

/-- As many rounds as there are symbols are enough (R408). -/
theorem distLoop_rounds {t : Tbl} {A : Nat} (hA : A ≤ maxAcc t) (s : State) :
    ∃ R, 0 < R ∧ (∀ j < R, ((distRound t A)^[j] (distStart t s)).more t A = true) ∧
      ((distRound t A)^[R] (distStart t s)).more t A = false ∧
      distLoop t A (maxSym t + 1) (distStart t s) = (distRound t A)^[R] (distStart t s) := by
  obtain ⟨R, hR, hgoing, hend, heq⟩ := distLoop_eq_rounds t A (maxSym t + 1) (distStart t s)
  have hstop : ((distRound t A)^[R] (distStart t s)).more t A = false := by
    rcases Nat.lt_or_eq_of_le hR with hlt | hmax
    · exact hend hlt
    · have hsym := rounds_sym hA _ hgoing
      have hpast : ¬ ((distRound t A)^[R] (distStart t s)).sym ≤ maxSym t := by omega
      simp [DistProgress.more, hpast]
  refine ⟨R, Nat.pos_of_ne_zero fun h0 => ?_, hgoing, hstop, heq⟩
  subst h0
  simp [DistProgress.more, distStart] at hstop

end Sys2Proof.Machine
end

section
/-! `FSEBUILD` (42_fse.md R256): the clamps, the rounds, the completion and the table. -/

namespace Sys2Proof.Machine

open Sys2Proof.Claims

/-! ### The clamps (R256) -/

/-- The warning of a clamp. -/
def clampWarnings (t : Tbl) (a : Nat) : List Warn :=
  if maxAcc t < a then [.fseAcclogRange] else if a < 5 then [.fseAcclogMin] else []

theorem State.clampAcc_spec (t : Tbl) (a : Nat) (s : State) :
    (s.clampAcc t a).1 = max 5 (min a (maxAcc t)) ∧ WarnedHere s (s.clampAcc t a).2 (clampWarnings t a) ∧
      (s.clampAcc t a).2 = warningsOf s (s.clampAcc t a).2 := by
  have hmin : 5 ≤ maxAcc t := minAccuracyLog_le_maxAcc t
  unfold State.clampAcc clampWarnings
  by_cases hhigh : maxAcc t < a
  · rw [if_pos hhigh, if_pos hhigh]
    exact ⟨by simp only; omega, s.warn_warnedHere _, rfl⟩
  · rw [if_neg hhigh, if_neg hhigh]
    by_cases hlow : a < 5
    · rw [if_pos (show a < minAccuracyLog from hlow), if_pos hlow]
      exact ⟨by simp only [minAccuracyLog]; omega, s.warn_warnedHere _, rfl⟩
    · rw [if_neg (show ¬ a < minAccuracyLog from hlow), if_neg hlow]
      exact ⟨by simp only; omega, .refl s, rfl⟩

/-! ### The completion (R254) -/

theorem lastNonzero_concat (ps : List Nat) (p k best : Nat) :
    lastNonzero (ps ++ [p]) k best = if 0 < p then k + ps.length else lastNonzero ps k best := by
  induction ps generalizing k best with
  | nil => rfl
  | cons q ps ih =>
    rw [List.cons_append, lastNonzero, ih, lastNonzero, List.length_cons, Nat.add_right_comm, Nat.add_assoc]

theorem lastSymbol_concat (ps : List Nat) (p : Nat) :
    lastSymbol (ps ++ [p]) = if 0 < p then ps.length else lastSymbol ps := by
  have hbelow : (List.range ps.length).filter (fun k => decide (0 < (ps ++ [p]).getD k 0)) =
      (List.range ps.length).filter fun k => decide (0 < ps.getD k 0) := by
    refine List.filter_congr fun k hk => ?_
    rw [List.getD_append _ _ _ _ (List.mem_range.1 hk)]
  have hlast : (ps ++ [p]).getD ps.length 0 = p := by simp
  unfold lastSymbol
  rw [List.length_append, List.length_singleton, List.range_succ, List.filter_append, hbelow, List.filter_singleton, hlast]
  by_cases hp : 0 < p <;> simp [hp]

/-- Both name the last symbol with a nonzero probability. -/
theorem lastNonzero_eq_lastSymbol (ps : List Nat) : lastNonzero ps 0 0 = lastSymbol ps := by
  induction ps using List.reverseRecOn with
  | nil => rfl
  | append_singleton ps p ih => rw [lastNonzero_concat, lastSymbol_concat, ih, Nat.zero_add]

/-- What is missing goes to the last symbol, with a warning (R254). -/
theorem distComplete_eq (A : Nat) (d : DistProgress) :
    distComplete A d = (d.soFar.completed A, d.mach.warnIf (decide (d.cum < 2 ^ A)) .fseProbSum) := by
  unfold distComplete DistSoFar.completed
  rw [State.warnIf_decide]
  split
  · rw [lastNonzero_eq_lastSymbol]
    rfl
  · have hfull : 2 ^ A - d.soFar.cum = 0 := Nat.sub_eq_zero_of_le (by simpa [DistProgress.soFar] using ‹¬ d.cum < 2 ^ A›)
    have hset : d.soFar.prob.set (lastSymbol d.soFar.prob) (d.soFar.prob.getD (lastSymbol d.soFar.prob) 0) =
        d.soFar.prob := by
      refine List.ext_getElem (by simp) fun i hi _ => ?_
      rw [List.getElem_set]
      split
      · rename_i hi'
        subst hi'
        rw [List.length_set] at hi
        simp [hi]
      · rfl
    rw [hfull, Nat.add_zero, hset]
    rfl

/-! ### What the rounds leave alone -/

/-- Nothing but the bit buffers and the peek windows of the lanes differs. -/
def BitsOnly (s t : State) : Prop :=
  ∀ l, t.lane l = { s.lane l with
    buf := (t.lane l).buf, avail := (t.lane l).avail, pv := (t.lane l).pv, pw := (t.lane l).pw }

theorem BitsOnly.refl (s : State) : BitsOnly s s := fun _ => rfl

theorem BitsOnly.trans {s t u : State} (h : BitsOnly s t) (k : BitsOnly t u) : BitsOnly s u := fun l => by
  rw [k l, h l]

theorem windowed_filledLane_bits (s : State) (lo cnt : Nat) (w : LaneId → Nat) (l : LaneId) (n : Nat) :
    windowed (filledLane s lo cnt w l) n = { s.lane l with
      buf := (windowed (filledLane s lo cnt w l) n).buf, avail := (windowed (filledLane s lo cnt w l) n).avail
      pv := (windowed (filledLane s lo cnt w l) n).pv, pw := (windowed (filledLane s lo cnt w l) n).pw } := by
  unfold filledLane
  simp only
  split <;> rfl

theorem dropped_bits (x : Lane) (n : Nat) :
    dropped x n = { x with
      buf := (dropped x n).buf, avail := (dropped x n).avail, pv := (dropped x n).pv, pw := (dropped x n).pw } := by
  unfold dropped
  split <;> rfl

theorem dropped_pw (x : Lane) (n : Nat) : (dropped x n).pw = x.pw := by
  unfold dropped
  split <;> rfl

theorem roundPeek_bitsOnly (t : Tbl) (s : State) : BitsOnly s (roundPeek t s) := fun l => by
  rw [roundPeek_lane]
  exact windowed_filledLane_bits ..

theorem DistRound.bitsOnly {t : Tbl} {A : Nat} {d : DistSoFar} {q u : State} (h : DistRound t A d q u) : BitsOnly q u :=
  fun l => by
    obtain ⟨hlane, -⟩ := h
    rw [hlane l]
    exact dropped_bits ..

/-- What a number of rounds leaves: the machine differs in bit buffers, windows, `READPOS` and overflow warnings. -/
structure RoundsFrame (s t : State) : Prop where
  bits : BitsOnly s t
  frame : LaneFrame s t
  warned : ∃ n, Warned s t (List.replicate n .fseProbOverflow)

theorem RoundsFrame.refl (s : State) : RoundsFrame s s := ⟨.refl s, .refl s, 0, .refl s⟩

theorem RoundsFrame.trans {s t u : State} (h : RoundsFrame s t) (k : RoundsFrame t u) : RoundsFrame s u := by
  obtain ⟨n, hn⟩ := h.warned
  obtain ⟨m, hm⟩ := k.warned
  exact ⟨h.bits.trans k.bits, h.frame.trans k.frame, n + m, List.replicate_append_replicate ▸ hn.trans hm⟩

theorem roundPeek_roundsFrame (t : Tbl) (s : State) : RoundsFrame s (roundPeek t s) := by
  obtain ⟨-, -, hwarned, -⟩ := roundPeek_peekEffect t s
  have hnone : ((List.finRange 32).filter fun l => inRange 0 32 l && decide (32 < maxAcc t + 1 + zprb)) = [] :=
    List.filter_eq_nil_iff.2 fun l _ => by simp [roundWidth_le t]
  rw [hnone] at hwarned
  exact ⟨roundPeek_bitsOnly t s, .peekV _ _ s, 0, hwarned.warned⟩

theorem distRound_roundsFrame {t : Tbl} {A : Nat} (hA : A ≤ maxAcc t) (d : DistProgress) :
    RoundsFrame d.mach (distRound t A d).mach := by
  obtain ⟨hround, -⟩ := distRound_spec hA d
  refine (roundPeek_roundsFrame t d.mach).trans ⟨DistRound.bitsOnly hround, ?_, _, hround.2.1.warned⟩
  exact LanesOnly.laneFrame hround.2.2

theorem rounds_roundsFrame {t : Tbl} {A : Nat} (hA : A ≤ maxAcc t) (d : DistProgress) (R : Nat) :
    RoundsFrame d.mach ((distRound t A)^[R] d).mach := by
  induction R with
  | zero => exact .refl _
  | succ R ih =>
    rw [Function.iterate_succ_apply']
    exact ih.trans (distRound_roundsFrame hA _)

/-- After a round each window has the width of the round's peek. -/
theorem distRound_pw {t : Tbl} {A : Nat} (hA : A ≤ maxAcc t) (d : DistProgress) (l : LaneId) :
    ((distRound t A d).mach.lane l).pw.toNat = maxAcc t + 7 := by
  obtain ⟨⟨hlane, -⟩, -⟩ := distRound_spec hA d
  have hmax := maxAcc_le t
  rw [hlane l, dropped_pw, roundPeek_lane]
  simp only [windowed, zprb, BitVec.toNat_ofNat]
  omega

theorem rounds_wf {t : Tbl} {A : Nat} (s : State) (R : Nat) : ((distRound t A)^[R] (distStart t s)).Wf t A := by
  induction R with
  | zero => exact distStart_wf t A s
  | succ R ih =>
    rw [Function.iterate_succ_apply']
    exact distRound_wf ih

/-! ### The command -/

/-- A peek of all lanes as a command. -/
theorem exec_roundPeek (t : Tbl) {s : State} (h : s.sanitize = true) :
    exec (.peek 0 32 (BitVec.ofNat 6 (maxAcc t + 1 + 6))) s = .next (roundPeek t s) := by
  have hwidth : (BitVec.ofNat 6 (maxAcc t + 1 + 6)).toNat = maxAcc t + 1 + zprb := by
    have := maxAcc_le t
    simp only [BitVec.toNat_ofNat, zprb]
    omega
  have hpeek : s.peek (laneRange 0 32) (BitVec.ofNat 6 (maxAcc t + 1 + 6)).toNat = roundPeek t s := by
    rw [hwidth, laneRange_all]
    rfl
  exact hpeek ▸ finish_of_sanitize h

/-- The distribution so far, and the machine, after `j` rounds (R254). -/
def roundsOf (t : Tbl) (A : Nat) (s : State) (j : Nat) : DistProgress := (distRound t A)^[j] (distStart t s)

theorem roundsOf_succ (t : Tbl) (A : Nat) (s : State) (j : Nat) :
    roundsOf t A s (j + 1) = distRound t A (roundsOf t A s j) := Function.iterate_succ_apply' ..

/-- A warning where a condition holds changes the warning registers only. -/
theorem State.warnIf_only (b : Bool) (c : Warn) (s : State) : s.warnIf b c = warningsOf s (s.warnIf b c) := by
  unfold State.warnIf
  split <;> rfl

theorem replicate_ite_decide {α : Type} (p : Prop) [Decidable p] (x : α) :
    List.replicate (if decide p then 1 else 0) x = if p then [x] else [] := by
  by_cases h : p <;> simp [h]

/-- The table of a legal distribution built, and its accuracy log in `RES`: nothing else of the machine changes (R253, R256). -/
theorem State.buildTable_setRes {t : Tbl} {A : Nat} {prob : List Nat} (h : TableSpec t A prob) {v u : State}
    (hu : u = (v.buildTable t A prob).setRes A) :
    SpreadOf u t A prob ∧ OtherTablesKept v u t A ∧ u.res.toNat = A ∧
      u = { v with res := u.res, fseCell := u.fseCell, tacc := u.tacc, tvalid := u.tvalid } := by
  subst hu
  have hA := h.le_max.trans (maxAcc_le t)
  refine ⟨SpreadOf.congr (v.buildTable_spreadOf h) rfl rfl rfl,
    OtherTablesKept.congr (State.buildTable_otherTablesKept h.le_max prob v) rfl rfl rfl,
    ?_, by rw [State.buildTable_frame]; rfl⟩
  rw [State.setRes_res, BitVec.toNat_ofNat]
  exact Nat.mod_eq_of_lt (by omega)

/-- `FSEBUILD` is its rounds, the completion and the table (R256). -/
theorem exec_fsebuild {t : Tbl} {n : BitVec 6} {s s₁ : State} {A R : Nat} (h : s.sanitize = true)
    (hclamp : s.clampAcc t n.toNat = (A, s₁))
    (hR : distLoop t A (maxSym t + 1) (distStart t s₁) = roundsOf t A s₁ R) :
    exec (.fsebuild t n) s = .next (((distComplete A (roundsOf t A s₁ R)).2.buildTable t A
      (distComplete A (roundsOf t A s₁ R)).1).setRes A) := by
  have hexec : exec (.fsebuild t n) s = .next ((s.fseBuild t n.toNat).2.setRes (s.fseBuild t n.toNat).1) :=
    finish_of_sanitize h
  rw [hexec, State.fseBuild, hclamp, State.readDistribution, hR]

theorem tblCode_toNat (t : Tbl) : (tblCode t).toNat = (tblIdx t).val := by cases t <;> rfl

/-- The word of given fields, as a number (30_encoding.md R141). -/
theorem CmdFields.toWord_toNat (f : CmdFields) :
    f.toWord.toNat = wordOf f.op.toNat f.lo.toNat f.cnt.toNat f.n.toNat f.t.toNat + f.rsv.toNat * 2 ^ 27 := by
  simp only [CmdFields.toWord, append_toNat, wordOf]
  omega

theorem encode_toNat (i : Instr) :
    (encode i).toNat =
      wordOf i.fields.op.toNat i.fields.lo.toNat i.fields.cnt.toNat i.fields.n.toNat i.fields.t.toNat := by
  simp [encode, CmdFields.toWord_toNat, i.fields_rsv]

end Sys2Proof.Machine

namespace Sys2Proof.Claims

open Sys2Proof.Machine

/-- Settles O25: the rounds are the iterates of `distRound`, each of which is a peek and the codes of its windows. -/
theorem fsebuildBuilds : Obligations.FsebuildBuilds := by
  refine ⟨fun t n => by simp [encode_toNat, Instr.fields, tblCode_toNat], fun s t n hsan => ?_⟩
  obtain ⟨hA, hclamp, hclampOnly⟩ := s.clampAcc_spec t n.toNat
  obtain ⟨hmin, hmax⟩ := s.clampAcc_mem t n.toNat
  obtain ⟨⟨B, s₁⟩, hpair⟩ : ∃ p, s.clampAcc t n.toNat = p := ⟨_, rfl⟩
  simp only [hpair] at hA hclamp hclampOnly hmin hmax
  intro A clamp
  obtain rfl : B = A := hA
  clear_value A
  obtain ⟨R, hR, hgoing, hstop, hloop⟩ := distLoop_rounds hmax s₁
  have hfin := exec_fsebuild (n := n) hsan hpair hloop
  have hframe : ∀ j, RoundsFrame s₁ (roundsOf t A s₁ j).mach := rounds_roundsFrame hmax (distStart t s₁)
  have hsanj : ∀ j, (roundsOf t A s₁ j).mach.sanitize = true := fun j => by
    rw [(hframe j).frame.sanitize, hclampOnly]
    exact hsan
  have hwf : (roundsOf t A s₁ R).Wf t A := rounds_wf s₁ R
  have hpw : ∀ l, ((roundsOf t A s₁ R).mach.lane l).pw.toNat = maxAcc t + 7 := by
    obtain ⟨R', rfl⟩ : ∃ R', R = R' + 1 := ⟨R - 1, by omega⟩
    rw [roundsOf_succ]
    exact distRound_pw hmax _
  obtain ⟨hlen, hsum⟩ := distComplete_sum hwf
  rw [distComplete_eq] at hlen hsum hfin
  have hlast := (roundsOf t A s₁ R).mach.warnIf_warnedHere (decide ((roundsOf t A s₁ R).cum < 2 ^ A)) .fseProbSum
  have hlastOnly := (roundsOf t A s₁ R).mach.warnIf_only (decide ((roundsOf t A s₁ R).cum < 2 ^ A)) .fseProbSum
  simp only at hlen hsum hfin
  generalize (roundsOf t A s₁ R).mach.warnIf (decide ((roundsOf t A s₁ R).cum < 2 ^ A)) .fseProbSum = v
    at hfin hlast hlastOnly
  obtain ⟨u, hu⟩ : ∃ u, u = (v.buildTable t A ((roundsOf t A s₁ R).soFar.completed A)).setRes A := ⟨_, rfl⟩
  obtain ⟨hspread, hother, hres, huOnly⟩ := State.buildTable_setRes ⟨hmin, hmax, hlen, hsum⟩ hu
  rw [← hu] at hfin
  have hlastU : WarnedHere (roundsOf t A s₁ R).mach u
      (List.replicate (if decide ((roundsOf t A s₁ R).cum < 2 ^ A) then 1 else 0) .fseProbSum) := by
    rw [huOnly]
    exact hlast
  have huR : u = { warningsOf (roundsOf t A s₁ R).mach u with
      res := u.res, fseCell := u.fseCell, tacc := u.tacc, tvalid := u.tvalid } := by
    rw [huOnly, hlastOnly]
    rfl
  have hlanes : ∀ l, u.lane l = (roundsOf t A s₁ R).mach.lane l := fun l => by
    rw [huR]
    rfl
  have hlaneFrame : LaneFrame s v := by
    have h₁ : LaneFrame s s₁ := by
      rw [hclampOnly]
      rfl
    have h₂ : LaneFrame (roundsOf t A s₁ R).mach v := by
      rw [hlastOnly]
      rfl
    exact (h₁.trans (hframe R).frame).trans h₂
  refine ⟨u, R, fun j => (roundsOf t A s₁ j).mach, fun j => roundPeek t (roundsOf t A s₁ j).mach,
    fun j => (roundsOf t A s₁ j).soFar, hfin, hclamp, hclampOnly, rfl, hR, fun j hj => ?_, ?_, ?_, huR, hlen, hsum, hspread,
    hres, OtherTablesKept.trans (hlaneFrame.otherTablesKept t A) hother, ?_, fun l => ?_, ?_⟩
  · obtain ⟨hround, hnext⟩ := distRound_spec hmax (roundsOf t A s₁ j)
    rw [← roundsOf_succ] at hround hnext
    exact ⟨DistProgress.more_eq_going .. ▸ hgoing j hj, exec_roundPeek t (hsanj j), hround, hnext⟩
  · exact DistProgress.more_eq_going .. ▸ hstop
  · rw [replicate_ite_decide] at hlastU
    exact hlastU
  · obtain ⟨m, hm⟩ := (hframe R).warned
    refine ⟨_, fun c hc => ?_, hclamp.warned.trans (hm.trans hlastU.warned)⟩
    rcases List.mem_append.1 hc with hc | hc
    · exact .inl (List.eq_of_mem_replicate hc)
    · exact .inr (List.eq_of_mem_replicate hc)
  · rw [hlanes]
    refine ⟨hpw l, ?_⟩
    have hs : s₁.lane l = s.lane l := by
      rw [hclampOnly]
      rfl
    rw [← hs]
    exact (hframe R).bits l
  · rw [huOnly, hlaneFrame]
    rfl

end Sys2Proof.Claims
end

section
/-! Packed sizes (30_encoding.md R154, 44_sequences.md R351): what the reader takes off the raw byte stream, and the one encoding
of each value. -/

namespace Sys2Proof.Machine

open Sys2Proof.Claims

/-! ### The reader -/

/-- Two byte reads, one after the other. -/
theorem rawReader_trans {s t u : State}
    (h : t = { s with readPos := t.readPos, rcb := t.rcb, rcn := t.rcn })
    (k : u = { t with readPos := u.readPos, rcb := u.rcb, rcn := u.rcn }) :
    u = { s with readPos := u.readPos, rcb := u.rcb, rcn := u.rcn } := by
  rw [k, h]

/-- The packed size that stands first in the raw byte stream. -/
theorem packedSizeAt_zero (s : State) :
    packedSizeAt s 0 =
      if (rawByteAt s 0).toNat % 2 = 0 then ((rawByteAt s 0).toNat / 2, 1)
      else if (rawByteAt s 0).toNat % 4 = 1 then (packed2 (rawByteAt s 0) (rawByteAt s 1), 2)
      else (packed3 (rawByteAt s 0) (rawByteAt s 1) (rawByteAt s 2), 3) := by
  have htwo : ((rawByteAt s 0).toNat + 256 * (rawByteAt s 1).toNat) / 4 + 128 =
      packed2 (rawByteAt s 0) (rawByteAt s 1) := by
    unfold packed2
    omega
  have hthree : ((rawByteAt s 0).toNat + 256 * (rawByteAt s 1).toNat + 65536 * (rawByteAt s 2).toNat) / 4 + 16512 =
      packed3 (rawByteAt s 0) (rawByteAt s 1) (rawByteAt s 2) := by
    unfold packed3
    omega
  simp only [packedSizeAt, Nat.zero_add, htwo, hthree]

/-- `ReadPackedSize` (R351) takes the packed size that stands next in the raw byte stream. -/
theorem State.readPackedSize_taken (s : State) :
    s.readPackedSize.1 = (packedSizeAt s 0).1 ∧ RawTaken s s.readPackedSize.2 (packedSizeAt s 0).2 ∧
      s.readPackedSize.2 = { s with
        readPos := s.readPackedSize.2.readPos, rcb := s.readPackedSize.2.rcb, rcn := s.readPackedSize.2.rcn } := by
  obtain ⟨hbyte0, htaken0, hframe0⟩ := s.readByte_taken
  obtain ⟨hbyte1, htaken1, hframe1⟩ := s.readByte.2.readByte_taken
  obtain ⟨hbyte2, htaken2, hframe2⟩ := s.readByte.2.readByte.2.readByte_taken
  have hsecond : s.readByte.2.readByte.1 = rawByteAt s 1 := hbyte1.trans (htaken0.2.2 0)
  have htwo : RawTaken s s.readByte.2.readByte.2 2 := htaken0.trans htaken1
  have hthird : s.readByte.2.readByte.2.readByte.1 = rawByteAt s 2 := hbyte2.trans (htwo.2.2 0)
  have hframeTwo := rawReader_trans hframe0 hframe1
  rw [packedSizeAt_zero]
  unfold State.readPackedSize
  simp only [hbyte0, hsecond, hthird]
  split
  · exact ⟨rfl, htaken0, hframe0⟩
  · split
    · exact ⟨rfl, htwo, hframeTwo⟩
    · exact ⟨rfl, htwo.trans htaken2, rawReader_trans hframeTwo hframe2⟩

theorem exec_rdpsize (s : State) : exec .rdpsize s = .next (s.readPackedSize.2.setRes s.readPackedSize.1) :=
  finish_of_warnLog (by rw [State.setRes_warnLog, s.readPackedSize_taken.2.2])

/-- `RES` after `RDPSIZE` is the packed size. -/
theorem exec_rdpsize_res (s : State) :
    ∃ t, exec .rdpsize s = .next t ∧ t.res.toNat = (packedSizeAt s 0).1 ∧ t.res.toNat ≤ 4210815 := by
  have hle := s.readPackedSize_le
  have hres : (s.readPackedSize.2.setRes s.readPackedSize.1).res.toNat = s.readPackedSize.1 := by
    rw [State.setRes_res, BitVec.toNat_ofNat]
    omega
  exact ⟨_, exec_rdpsize s, hres.trans s.readPackedSize_taken.1, hres.le.trans hle⟩

/-! ### The encodings -/

/-- The `n` low bytes of a number, the lowest first. -/
def lowBytes (x : Nat) : Nat → List Byte
  | 0 => []
  | n + 1 => BitVec.ofNat 8 x :: lowBytes (x / 256) n

/-- The encoding of a packed size: one byte below 128, two up to 16511, else three (R154). -/
def packedBytes (V : Nat) : List Byte :=
  if V < 128 then lowBytes (2 * V) 1
  else if V < 16512 then lowBytes (4 * (V - 128) + 1) 2
  else lowBytes (4 * (V - 16512) + 3) 3

/-- The first `n` bytes of the stream are the low bytes of a number, byte by byte. -/
theorem rawBytes_eq_lowBytes (s : State) :
    (∀ x, rawBytes s 1 = lowBytes x 1 ↔ (rawByteAt s 0).toNat = x % 256) ∧
      (∀ x, rawBytes s 2 = lowBytes x 2 ↔ (rawByteAt s 0).toNat = x % 256 ∧ (rawByteAt s 1).toNat = x / 256 % 256) ∧
      ∀ x, rawBytes s 3 = lowBytes x 3 ↔ (rawByteAt s 0).toNat = x % 256 ∧ (rawByteAt s 1).toNat = x / 256 % 256 ∧
        (rawByteAt s 2).toNat = x / 256 / 256 % 256 := by
  have hbyte : ∀ (b : Byte) (x : Nat), b = BitVec.ofNat 8 x ↔ b.toNat = x % 256 := fun b x => by
    rw [← BitVec.toNat_inj, BitVec.toNat_ofNat]
  simp [rawBytes, lowBytes, List.range_succ, hbyte]

/-- The raw byte stream begins with the encoding of a value exactly where that value stands there. -/
theorem rawBytes_eq_packedBytes (s : State) {V : Nat} (hV : V ≤ 4210815) :
    rawBytes s (packedBytes V).length = packedBytes V ↔ (packedSizeAt s 0).1 = V := by
  obtain ⟨hone, htwo, hthree⟩ := rawBytes_eq_lowBytes s
  have h0 := (rawByteAt s 0).isLt
  have h1 := (rawByteAt s 1).isLt
  have h2 := (rawByteAt s 2).isLt
  have hfst : (packedSizeAt s 0).1 =
      if (rawByteAt s 0).toNat % 2 = 0 then (rawByteAt s 0).toNat / 2
      else if (rawByteAt s 0).toNat % 4 = 1 then packed2 (rawByteAt s 0) (rawByteAt s 1)
      else packed3 (rawByteAt s 0) (rawByteAt s 1) (rawByteAt s 2) := by
    rw [packedSizeAt_zero, apply_ite Prod.fst, apply_ite Prod.fst]
  rw [hfst, packed2, packed3]
  unfold packedBytes
  split
  · refine (hone _).trans ?_
    split_ifs <;> omega
  · split
    · refine (htwo _).trans ?_
      split_ifs <;> omega
    · refine (hthree _).trans ?_
      split_ifs <;> omega

end Sys2Proof.Machine

namespace Sys2Proof.Claims

open Sys2Proof.Machine

/-- Settles O35: the string is `packedBytes`. -/
theorem packedSizesAreUnique : Obligations.PackedSizesAreUnique := by
  refine ⟨fun s t ht => ?_, fun V hV => ⟨packedBytes V, fun s => ?_⟩⟩
  · obtain ⟨u, hu, -, hle⟩ := exec_rdpsize_res s
    cases hu.symm.trans ht
    exact hle
  · obtain ⟨u, hu, hres, -⟩ := exec_rdpsize_res s
    rw [rawBytes_eq_packedBytes s hV, ← hres]
    refine ⟨fun h => ⟨u, hu, h⟩, fun ⟨t, ht, h⟩ => ?_⟩
    cases hu.symm.trans ht
    exact h

end Sys2Proof.Claims
end

section
/-! Huffman literals (44_sequences.md R355): runs of lanes, each a Huffman decode and its symbols emitted in lane order. -/

namespace Sys2Proof.Machine

open Sys2Proof.Claims

/-! ### Lane ranges as lists -/

/-- The lanes of a range, one after the other. -/
theorem laneRange_eq_map {lo cnt : Nat} (h : lo + cnt ≤ 32) :
    laneRange lo cnt = (List.range cnt).map fun k => Fin.ofNat 32 (lo + k) := by
  have hval : ∀ k < cnt, (Fin.ofNat 32 (lo + k)).val = lo + k := fun k hk => Nat.mod_eq_of_lt (by omega)
  refine List.Perm.eq_of_pairwise' (r := (· < ·)) ((List.pairwise_lt_finRange 32).filter _) ?_ ?_
  · refine (List.pairwise_map.2 (List.pairwise_lt_range.imp_of_mem fun ha hb hab => ?_))
    rw [Fin.lt_def, hval _ (List.mem_range.1 ha), hval _ (List.mem_range.1 hb)]
    omega
  · refine (List.perm_ext_iff_of_nodup (laneRange_nodup lo cnt) ?_).2 fun l => ?_
    · refine (List.nodup_map_iff_inj_on List.nodup_range).2 fun a ha b hb hab => ?_
      have := congrArg Fin.val hab
      rw [hval _ (List.mem_range.1 ha), hval _ (List.mem_range.1 hb)] at this
      omega
    · rw [mem_laneRange, List.mem_map]
      refine ⟨fun ⟨hlo, hhi⟩ => ⟨l.val - lo, List.mem_range.2 (by omega), Fin.ext ?_⟩, ?_⟩
      · rw [hval _ (by omega)]
        omega
      · rintro ⟨k, hk, rfl⟩
        have hk := List.mem_range.1 hk
        rw [hval _ hk]
        omega

theorem length_laneRange {lo cnt : Nat} (h : lo + cnt ≤ 32) : (laneRange lo cnt).length = cnt := by
  rw [laneRange_eq_map h, List.length_map, List.length_range]

/-! ### The symbols of lanes, emitted -/

/-- One literal emitted (R355): its byte, and the count. -/
theorem State.emitLit_stored (b : Byte) (s : State) : Stored s (s.emitLit b) [b] :=
  (s.emit_stored b).congr rfl rfl rfl

/-- The literal count and the output, nothing else. -/
def LitFrame (s t : State) : Prop :=
  t = { s with litEmitted := t.litEmitted, writePos := t.writePos, outBuf := t.outBuf, written := t.written }

theorem LitFrame.refl (s : State) : LitFrame s s := rfl

theorem LitFrame.trans {s t u : State} (h : LitFrame s t) (k : LitFrame t u) : LitFrame s u := by
  unfold LitFrame at *
  rw [k, h]

theorem LitFrame.emitLit (b : Byte) (s : State) : LitFrame s (s.emitLit b) := rfl

theorem LitFrame.lane {s t : State} (h : LitFrame s t) (l : LaneId) : t.lane l = s.lane l := by rw [h]; rfl

theorem LitFrame.maxLit {s t : State} (h : LitFrame s t) : t.maxLit = s.maxLit := by rw [h]

theorem LitFrame.sanitize {s t : State} (h : LitFrame s t) : t.sanitize = s.sanitize := by rw [h]

theorem State.emitLaneLits_frame (ls : List LaneId) (s : State) : LitFrame s (s.emitLaneLits ls) :=
  forLanes_keeps (P := LitFrame s) ls (fun _ _ _ hu => hu.trans (.emitLit _ _)) (.refl s)

/-- The symbols of the lanes visited, in their order. -/
theorem State.emitLaneLits_stored (ls : List LaneId) (s : State) :
    Stored s (s.emitLaneLits ls) (ls.map fun l => (s.lane l).sym.setWidth 8) := by
  induction ls generalizing s with
  | nil => exact Stored.refl s
  | cons l ls ih =>
    have hbyte : (s.lane l).sym.extractLsb' 0 8 = (s.lane l).sym.setWidth 8 := by
      simp [BitVec.extractLsb', BitVec.ofNat_toNat]
    have hfirst : Stored s (s.emitLit ((s.lane l).sym.extractLsb' 0 8)) [(s.lane l).sym.setWidth 8] :=
      hbyte ▸ s.emitLit_stored _
    exact hfirst.trans (ih _) rfl

/-- As long as there is room, every symbol is counted. -/
theorem State.emitLaneLits_litEmitted (ls : List LaneId) (s : State)
    (h : s.litEmitted.toNat + ls.length ≤ s.maxLit.toNat) :
    (s.emitLaneLits ls).litEmitted.toNat = s.litEmitted.toNat + ls.length := by
  induction ls generalizing s with
  | nil => rfl
  | cons l ls ih =>
    rw [List.length_cons] at h ⊢
    have hone := State.emitLit_litEmitted ((s.lane l).sym.extractLsb' 0 8) (s := s) (by omega)
    have hrest := ih (s.emitLit ((s.lane l).sym.extractLsb' 0 8)) (by rw [hone, State.emitLit_maxLit]; omega)
    exact hrest.trans (by omega)

/-! ### Runs (R355) -/

/-- How many literals the next run has: up to lane 31 or to the target. -/
def State.runLength (target : Nat) (s : State) : Nat :=
  min (32 - s.litEmitted.toNat % 32) (target - s.litEmitted.toNat)

/-- The lanes of the next run: literal `k` is on lane `k mod 32`. -/
def State.runLanes (target : Nat) (s : State) : List LaneId := laneRange (s.litEmitted.toNat % 32) (s.runLength target)

theorem State.runLength_fits (target : Nat) (s : State) : s.litEmitted.toNat % 32 + s.runLength target ≤ 32 := by
  unfold State.runLength
  omega

/-- The decode of the next run. -/
def State.decodeRun (target : Nat) (s : State) : State := s.hufDec (s.runLanes target)

/-- The next run. -/
def State.litRun (target : Nat) (s : State) : State := (s.decodeRun target).emitLaneLits (s.runLanes target)

theorem exec_hufdec {s : State} (h : s.sanitize = true) (lo : BitVec 5) (cnt : BitVec 6) :
    exec (.hufdec lo cnt) s = .next (s.hufDec (laneRange lo.toNat cnt.toNat)) :=
  finish_of_sanitize h

theorem exec_decodeRun {s : State} (h : s.sanitize = true) (target : Nat) :
    exec (.hufdec (BitVec.ofNat 5 (s.litEmitted.toNat % 32)) (BitVec.ofNat 6 (s.runLength target))) s =
      .next (s.decodeRun target) := by
  have hfits := s.runLength_fits target
  have hlo : (BitVec.ofNat 5 (s.litEmitted.toNat % 32)).toNat = s.litEmitted.toNat % 32 := Nat.mod_eq_of_lt (by omega)
  have hcnt : (BitVec.ofNat 6 (s.runLength target)).toNat = s.runLength target := Nat.mod_eq_of_lt (by omega)
  rw [exec_hufdec h, hlo, hcnt]
  rfl

/-- What a run produces. -/
theorem State.litRun_stored (target : Nat) (s : State) :
    Stored (s.decodeRun target) (s.litRun target) ((List.range (s.runLength target)).map fun k =>
      ((s.decodeRun target).lane (Fin.ofNat 32 (s.litEmitted.toNat % 32 + k))).sym.setWidth 8) := by
  have h := (s.decodeRun target).emitLaneLits_stored (s.runLanes target)
  rw [State.runLanes, laneRange_eq_map (s.runLength_fits target), List.map_map] at h
  rw [← laneRange_eq_map (s.runLength_fits target)] at h
  exact h

theorem State.litRun_frame (target : Nat) (s : State) : LitFrame (s.decodeRun target) (s.litRun target) :=
  State.emitLaneLits_frame _ _

theorem State.litRun_maxLit (target : Nat) (s : State) : (s.litRun target).maxLit = s.maxLit :=
  (s.litRun_frame target).maxLit.trans (LaneFrame.hufDec _ s).maxLit

theorem State.litRun_sanitize (target : Nat) (s : State) : (s.litRun target).sanitize = s.sanitize :=
  (s.litRun_frame target).sanitize.trans (LaneFrame.hufDec _ s).sanitize

/-- A run counts its literals. -/
theorem State.litRun_litEmitted {target : Nat} {s : State} (h : target ≤ s.maxLit.toNat)
    (hlt : s.litEmitted.toNat < target) :
    (s.litRun target).litEmitted.toNat = s.litEmitted.toNat + s.runLength target := by
  have hlen : (s.runLanes target).length = s.runLength target := length_laneRange (s.runLength_fits target)
  have hdec := LaneFrame.hufDec (s.runLanes target) s
  have hle : s.runLength target ≤ target - s.litEmitted.toNat := Nat.min_le_right _ _
  have hcount := (s.decodeRun target).emitLaneLits_litEmitted (s.runLanes target) (by
    rw [hlen, State.decodeRun, hdec.litEmitted, hdec.maxLit]
    omega)
  rw [hlen, State.decodeRun, hdec.litEmitted] at hcount
  exact hcount

theorem State.litRun_iterate_maxLit (target : Nat) (s : State) (j : Nat) :
    ((State.litRun target)^[j] s).maxLit = s.maxLit := by
  induction j with
  | zero => rfl
  | succ j ih => rw [Function.iterate_succ_apply', State.litRun_maxLit, ih]

theorem State.litRun_iterate_sanitize (target : Nat) (s : State) (j : Nat) :
    ((State.litRun target)^[j] s).sanitize = s.sanitize := by
  induction j with
  | zero => rfl
  | succ j ih => rw [Function.iterate_succ_apply', State.litRun_sanitize, ih]

/-- The literals up to a target within `MAXLIT` are runs, until the target is reached. -/
theorem hufLits_eq_runs {target fuel : Nat} {s : State} (h : target ≤ s.maxLit.toNat)
    (hfuel : target - s.litEmitted.toNat ≤ fuel) :
    ∃ R, (∀ j < R, ((State.litRun target)^[j] s).litEmitted.toNat < target) ∧
      target ≤ ((State.litRun target)^[R] s).litEmitted.toNat ∧ hufLits target fuel s = (State.litRun target)^[R] s := by
  induction fuel generalizing s with
  | zero => exact ⟨0, by simp, by simp only [Function.iterate_zero, id]; omega, rfl⟩
  | succ fuel ih =>
    unfold hufLits
    simp only
    by_cases hlt : s.litEmitted.toNat < target
    · rw [if_pos hlt]
      have hcount := State.litRun_litEmitted h hlt
      have hone : 1 ≤ s.runLength target := by
        unfold State.runLength
        omega
      obtain ⟨R, hbelow, hreached, heq⟩ := ih (s := s.litRun target) (by rwa [State.litRun_maxLit]) (by omega)
      refine ⟨R + 1, fun j hj => ?_, hreached, heq⟩
      cases j with
      | zero => exact hlt
      | succ j => exact hbelow j (by omega)
    · rw [if_neg hlt]
      exact ⟨0, by simp, by simpa using hlt, rfl⟩

/-- With no literal left there is nothing to do. -/
theorem hufLits_of_reached {target : Nat} {s : State} (h : target ≤ s.litEmitted.toNat) (fuel : Nat) :
    hufLits target fuel s = s := by
  cases fuel with
  | zero => rfl
  | succ fuel =>
    unfold hufLits
    exact if_neg (by omega)

/-- Literals that end at lane 31 at most are one decode of their lanes. -/
theorem hufLits_within_lanes {n : Nat} {s : State} (hvalid : s.hufvalid = true)
    (hmax : s.litEmitted.toNat + n ≤ s.maxLit.toNat) (hfits : s.litEmitted.toNat % 32 + n ≤ 32) :
    hufLits (s.litEmitted.toNat + n) n s =
      (s.hufDec (laneRange (s.litEmitted.toNat % 32) n)).emitLaneLits (laneRange (s.litEmitted.toNat % 32) n) := by
  cases n with
  | zero =>
    have hnone : laneRange (s.litEmitted.toNat % 32) 0 = [] := List.eq_nil_of_length_eq_zero (length_laneRange hfits)
    rw [hnone, State.hufDec, if_pos hvalid]
    rfl
  | succ n =>
    have hlt : s.litEmitted.toNat < s.litEmitted.toNat + (n + 1) := by omega
    have hlen : s.runLength (s.litEmitted.toNat + (n + 1)) = n + 1 := by
      unfold State.runLength
      omega
    have hcount := State.litRun_litEmitted hmax hlt
    have hone : hufLits (s.litEmitted.toNat + (n + 1)) (n + 1) s = s.litRun (s.litEmitted.toNat + (n + 1)) := by
      rw [hufLits]
      exact (if_pos hlt).trans (hufLits_of_reached (hcount.trans (by rw [hlen])).ge n)
    rw [hone, State.litRun, State.decodeRun, State.runLanes, hlen]

/-- `LitTarget` with a Huffman table: the clamp of the target, then the literals (R355). -/
theorem State.litTarget_huffman {s : State} (hmode : s.litMode = 0) (hvalid : s.hufvalid = true) (target : Nat) :
    s.litTarget target = hufLits (min target s.maxLit.toNat) (min target s.maxLit.toNat - s.litEmitted.toNat)
      (s.warnIf (decide (s.maxLit.toNat < target)) .litOverrun) := by
  unfold State.litTarget State.warnIf
  by_cases hhigh : s.maxLit.toNat < target
  · rw [if_pos hhigh, Nat.min_eq_right (by omega)]
    simp [State.emitLits, hmode, hvalid, hhigh]
  · rw [if_neg hhigh, Nat.min_eq_left (by omega)]
    simp [State.emitLits, hmode, hvalid, hhigh]

theorem exec_littarget {s : State} (h : s.sanitize = true) :
    exec .littarget s =
      .next { s.litTarget s.arg0.toNat with res := (s.litTarget s.arg0.toNat).litEmitted.setWidth 64 } := by
  have hres : ∀ t : State, t.setRes t.litEmitted.toNat = { t with res := t.litEmitted.setWidth 64 } := fun t => by
    rw [State.setRes, BitVec.ofNat_toNat]
  rw [← hres]
  exact finish_of_sanitize h

end Sys2Proof.Machine

namespace Sys2Proof.Claims

open Sys2Proof.Machine

/-- Settles O39: the runs are the iterates of `litRun`; literals within one range of lanes are one run, or none. -/
theorem littargetHuffmanDecodes : Obligations.LittargetHuffmanDecodes := by
  refine ⟨fun s hsan hmode hvalid => ?_, fun s lo cnt hsan hmode hvalid hmax hlo hrange hcnt => ?_⟩
  · intro T
    have hexec := exec_littarget hsan
    rw [State.litTarget_huffman hmode hvalid] at hexec
    have hwarned := s.warnIf_warnedHere (decide (s.maxLit.toNat < s.arg0.toNat)) .litOverrun
    have hwarnOnly := s.warnIf_only (decide (s.maxLit.toNat < s.arg0.toNat)) .litOverrun
    rw [replicate_ite_decide] at hwarned
    generalize s.warnIf (decide (s.maxLit.toNat < s.arg0.toNat)) .litOverrun = s₀ at hexec hwarned hwarnOnly
    have hT : T ≤ s₀.maxLit.toNat := by
      rw [hwarnOnly]
      exact Nat.min_le_right _ _
    have hlit : s₀.litEmitted = s.litEmitted := by rw [hwarnOnly]; rfl
    have hsan₀ : s₀.sanitize = true := by rw [hwarnOnly]; exact hsan
    obtain ⟨R, hbelow, hreached, heq⟩ := hufLits_eq_runs (fuel := T - s.litEmitted.toNat) hT (by rw [hlit])
    rw [heq] at hexec
    refine ⟨_, R, fun j => (State.litRun T)^[j] s₀, fun j => ((State.litRun T)^[j] s₀).decodeRun T, hexec, hwarned,
      hwarnOnly, fun j hj => ?_, hreached, rfl⟩
    simp only [Function.iterate_succ_apply']
    refine ⟨hbelow j hj, exec_decodeRun (by rw [State.litRun_iterate_sanitize, hsan₀]) T, State.litRun_stored T _,
      State.litRun_litEmitted (by rw [State.litRun_iterate_maxLit]; exact hT) (hbelow j hj), State.litRun_frame T _⟩
  · have hexec := exec_littarget hsan
    have hfits : lo.toNat + cnt.toNat ≤ 32 := by simpa [rangeOk] using hrange
    rw [State.litTarget_huffman hmode hvalid, Nat.min_eq_left hmax, State.warnIf, if_neg (by simpa using hmax), hcnt,
      Nat.add_sub_cancel_left, hufLits_within_lanes hvalid (hcnt ▸ hmax) (hlo ▸ hfits), ← hlo] at hexec
    have hdec := LaneFrame.hufDec (laneRange lo.toNat cnt.toNat) s
    have hstored := (s.hufDec (laneRange lo.toNat cnt.toNat)).emitLaneLits_stored (laneRange lo.toNat cnt.toNat)
    have hframe := (s.hufDec (laneRange lo.toNat cnt.toNat)).emitLaneLits_frame (laneRange lo.toNat cnt.toNat)
    have hcount := (s.hufDec (laneRange lo.toNat cnt.toNat)).emitLaneLits_litEmitted (laneRange lo.toNat cnt.toNat)
      (by rw [length_laneRange hfits, hdec.litEmitted, hdec.maxLit, ← hcnt]; exact hmax)
    rw [length_laneRange hfits, hdec.litEmitted, ← hcnt] at hcount
    rw [laneRange_eq_map hfits, List.map_map, ← laneRange_eq_map hfits] at hstored
    have hstart := hstored.congr_left (r := s) (by rw [hdec]; rfl) (by rw [hdec]; rfl) (by rw [hdec]; rfl) (by rw [hdec]; rfl)
    refine ⟨_, _, hexec, exec_hufdec hsan lo cnt, Stored.congr hstart rfl rfl rfl, ?_⟩
    have hlit := BitVec.eq_of_toNat_eq hcount
    rw [hlit]
    unfold LitFrame at hframe
    rw [hlit] at hframe
    rw [hframe]

end Sys2Proof.Claims
end

section
/-! Canonical Huffman codes (43_huffman.md R304 to R306): the numeric ranges of the symbols, the places they are written to, and
the codes read off those places. -/

namespace Sys2Proof.Machine

open Sys2Proof.Claims

/-! ### Bit reversal (00_scope.md R10) -/

theorem bitrev_lt (n v : Nat) : bitrev n v < 2 ^ n := by
  induction n generalizing v with
  | zero => exact Nat.one_pos
  | succ n ih =>
    have hlow := ih (v / 2)
    have hbit : v % 2 * 2 ^ n ≤ 1 * 2 ^ n := Nat.mul_le_mul_right _ (by omega)
    rw [bitrev, Nat.pow_succ]
    omega

theorem testBit_bitrev (n v i : Nat) : (bitrev n v).testBit i = (decide (i < n) && v.testBit (n - 1 - i)) := by
  induction n generalizing v i with
  | zero => simp [bitrev]
  | succ n ih =>
    rw [bitrev, Nat.mul_comm, Nat.testBit_two_pow_mul_add _ (bitrev_lt n _)]
    split
    · rename_i hi
      rw [ih, Nat.testBit_div_two, show n - 1 - i + 1 = n + 1 - 1 - i by omega]
      simp [hi, Nat.lt_succ_of_lt hi]
    · rename_i hi
      by_cases heq : i = n
      · subst heq
        simp [Nat.testBit_zero]
      · have hpos : i - n ≠ 0 := by omega
        have hge : ¬ i < n + 1 := by omega
        have hsmall : v % 2 < 2 ^ (i - n) :=
          (Nat.mod_lt v two_pos).trans_le (Nat.le_self_pow hpos 2)
        rw [Nat.testBit_lt_two_pow hsmall]
        simp [hge]

theorem bitrev_bitrev {n v : Nat} (h : v < 2 ^ n) : bitrev n (bitrev n v) = v := by
  refine Nat.eq_of_testBit_eq fun i => ?_
  rw [testBit_bitrev, testBit_bitrev]
  by_cases hi : i < n
  · rw [show n - 1 - (n - 1 - i) = i by omega]
    simp [hi, show n - 1 - i < n by omega]
  · have hbig : v < 2 ^ i := h.trans_le (Nat.pow_le_pow_right two_pos (by omega))
    simp [hi, Nat.testBit_lt_two_pow hbig]

theorem bitrev_injective {n v w : Nat} (hv : v < 2 ^ n) (hw : w < 2 ^ n) (h : bitrev n v = bitrev n w) : v = w := by
  rw [← bitrev_bitrev hv, h, bitrev_bitrev hw]

/-- The low bits of a reversed number are its high bits reversed. -/
theorem bitrev_mod {n len : Nat} (h : len ≤ n) (v : Nat) : bitrev n v % 2 ^ len = bitrev len (v / 2 ^ (n - len)) := by
  refine Nat.eq_of_testBit_eq fun i => ?_
  rw [Nat.testBit_mod_two_pow, testBit_bitrev, testBit_bitrev, Nat.testBit_div_two_pow]
  by_cases hi : i < len
  · simp [hi, show i < n by omega, show n - 1 - i = len - 1 - i + (n - len) by omega]
  · simp [hi]

theorem reversed_eq_bitrev (n v : Nat) : reversed n v = bitrev n v := by
  induction n generalizing v with
  | zero => rfl
  | succ n ih =>
    rw [bitrev, ← ih, reversed, reversed, List.range_succ, List.map_append, List.sum_append, Nat.add_comm]
    congr 1
    · simp
    · refine congrArg List.sum (List.map_congr_left fun i hi => ?_)
      have hi := List.mem_range.1 hi
      rw [Nat.div_div_eq_div_mul, ← Nat.pow_succ', show (n - 1 - i).succ = n + 1 - 1 - i by omega]

/-! ### The weight arithmetic (R304, R305) -/

theorem weightsOf_eq (s : State) : weightsOf s = s.weights := by
  have hn : s.hufn.toNat < 256 := s.hufn.isLt
  refine List.ext_getElem? fun k => ?_
  by_cases hk : k < s.hufn.toNat
  · have hk256 : k < 256 := by omega
    rw [State.weights, getElem?_tabFrom _ hk]
    simp [weightsOf, hk, hk256, State.hufWeight]
  · have hlen : (weightsOf s).length ≤ k := by
      simp only [weightsOf, List.length_map, List.length_take]
      omega
    rw [List.getElem?_eq_none hlen, List.getElem?_eq_none (by rw [State.weights, tabFrom_length]; omega)]

theorem totalWeight_eq (ws : List Nat) : totalWeight ws = weightTotal ws := by
  unfold totalWeight weightTotal
  induction ws with
  | nil => rfl
  | cons w ws ih =>
    by_cases hw : w = 0
    · simp [hw, weightSpan, ih]
    · simp [hw, weightSpan, Nat.pos_of_ne_zero hw, ih]

theorem bitLength_totalWeight (ws : List Nat) : bitLength (totalWeight ws) = weightBits ws := by
  rw [bitLength, totalWeight_eq, weightBits, highbit1_eq_size]

theorem restWeight_eq (ws : List Nat) : restWeight ws = weightRest ws := by
  rw [restWeight, bitLength_totalWeight, totalWeight_eq, weightRest]

theorem impliedOf_eq (ws : List Nat) : impliedOf ws = impliedWeight ws := by
  rw [impliedOf, bitLength, restWeight_eq, impliedWeight, highbit1_eq_size]

theorem startOf_succ_eq (ws : List Nat) (w : Nat) : startOf ws (w + 1) = rangeStart ws w := by
  induction w with
  | zero => simp [startOf, rangeStart]
  | succ w ih =>
    have hlast : startOf ws (w + 1 + 1) = startOf ws (w + 1) + weightCount ws (w + 1) * weightSpan (w + 1) := by
      simp only [startOf]
      rw [List.range_succ, List.map_append, List.sum_append]
      simp [weightCount, weightSpan, impliedOf_eq]
    rw [hlast, ih, rangeStart]

theorem rangeStart_mono (ws : List Nat) {a b : Nat} (h : a ≤ b) : rangeStart ws a ≤ rangeStart ws b :=
  monotone_nat_of_le_succ (fun _ => Nat.le_add_right _ _) h

/-- What the weights up to `n` take, the implied symbol not counted. -/
def spansUpTo (ws : List Nat) (n : Nat) : Nat := (ws.map fun w => if w ≤ n then weightSpan w else 0).sum

theorem spansUpTo_succ (ws : List Nat) (n : Nat) :
    spansUpTo ws (n + 1) = spansUpTo ws n + ws.count (n + 1) * weightSpan (n + 1) := by
  unfold spansUpTo
  induction ws with
  | nil => simp
  | cons w ws ih =>
    rw [List.map_cons, List.sum_cons, List.map_cons, List.sum_cons, ih, List.count_cons]
    by_cases hw : w = n + 1
    · subst hw
      simp [Nat.add_mul]
      omega
    · have hle : (w ≤ n + 1) = (w ≤ n) := by
        rw [eq_iff_iff]
        omega
      simp [hw, hle, Nat.add_assoc]

theorem spansUpTo_zero (ws : List Nat) : spansUpTo ws 0 = 0 := by
  refine List.sum_eq_zero fun x hx => ?_
  obtain ⟨w, -, rfl⟩ := List.mem_map.1 hx
  split
  · rename_i hw
    rw [Nat.le_zero.1 hw]
    rfl
  · rfl

/-- The starts are sums of spans (R305). -/
theorem rangeStart_eq (ws : List Nat) (n : Nat) :
    rangeStart ws n = spansUpTo ws n + if impliedWeight ws ≤ n then weightSpan (impliedWeight ws) else 0 := by
  induction n with
  | zero => simp [rangeStart, spansUpTo_zero, impliedWeight_ne_zero]
  | succ n ih =>
    rw [rangeStart, ih, spansUpTo_succ, weightCount, Nat.add_mul]
    rcases Nat.lt_trichotomy (impliedWeight ws) (n + 1) with h | h | h
    · simp [Nat.ne_of_gt h, Nat.le_of_lt_succ h, Nat.le_of_lt h]
      omega
    · simp [h]
      omega
    · simp [Nat.ne_of_lt h, Nat.not_le.2 h, Nat.not_le.2 (Nat.lt_of_succ_lt h)]

theorem weightTotal_lt (ws : List Nat) : weightTotal ws < 2 ^ weightBits ws := lt_two_pow_highbit1 _

/-- No weight is above the table log (R304). -/
theorem weight_le_weightBits {ws : List Nat} {w : Nat} (h : w ∈ ws) : w ≤ weightBits ws := by
  cases w with
  | zero => exact Nat.zero_le _
  | succ w =>
    have hspan : weightSpan (w + 1) ≤ weightTotal ws := List.le_sum_of_mem (List.mem_map_of_mem h)
    have hlt : 2 ^ w < 2 ^ weightBits ws := hspan.trans_lt (weightTotal_lt ws)
    exact (Nat.pow_lt_pow_iff_right (by decide)).1 hlt

/-- With a weight above 0 the implied weight is at most the table log. -/
theorem impliedWeight_le_weightBits {ws : List Nat} (h : 0 < weightTotal ws) : impliedWeight ws ≤ weightBits ws := by
  have hrest : weightRest ws < 2 ^ weightBits ws := by
    unfold weightRest
    have := Nat.two_pow_pos (weightBits ws)
    omega
  rw [impliedWeight, highbit1_eq_size]
  exact Nat.size_le.2 hrest

/-- Without a gap the implied symbol takes what the others leave. -/
theorem weightSpan_impliedWeight {ws : List Nat} (h : ∃ k, weightRest ws = 2 ^ k) :
    weightSpan (impliedWeight ws) = weightRest ws := by
  obtain ⟨k, hk⟩ := h
  rw [impliedWeight, highbit1_eq_size, hk, Nat.size_pow]
  rfl

/-- Without a gap the ranges fill the table (R306). -/
theorem rangeStart_weightBits {ws : List Nat} (htotal : 0 < weightTotal ws) (h : ∃ k, weightRest ws = 2 ^ k) :
    rangeStart ws (weightBits ws) = 2 ^ weightBits ws := by
  have hall : spansUpTo ws (weightBits ws) = weightTotal ws :=
    congrArg List.sum (List.map_congr_left fun w hw => if_pos (weight_le_weightBits hw))
  have hlt := weightTotal_lt ws
  rw [rangeStart_eq, hall, if_pos (impliedWeight_le_weightBits htotal), weightSpan_impliedWeight h, weightRest]
  omega

/-- Without a gap every range starts at a multiple of its span (R306). -/
theorem two_pow_dvd_rangeStart {ws : List Nat} (htotal : 0 < weightTotal ws) (h : ∃ k, weightRest ws = 2 ^ k) {n : Nat}
    (hn : n ≤ weightBits ws) : 2 ^ n ∣ rangeStart ws n := by
  induction hn using Nat.decreasingInduction with
  | self => rw [rangeStart_weightBits htotal h]
  | of_succ n hn ih =>
    have hnext : 2 ^ n ∣ rangeStart ws (n + 1) := (Nat.pow_dvd_pow 2 (Nat.le_succ n)).trans ih
    rw [rangeStart] at hnext
    exact (Nat.dvd_add_left (Nat.dvd_mul_left _ _)).1 hnext

/-! ### The ranges of the symbols (R305) -/

/-- The numeric value at which the symbol at place `j` starts, where the ranges of the weights start at `next`. -/
def symbolStart (next ws : List Nat) (j : Nat) : Nat :=
  next.getD (ws.getD j 0) 0 + (ws.take j).count (ws.getD j 0) * weightSpan (ws.getD j 0)

/-- The numeric value `v` is one of the symbol at place `j`. -/
def Owns (next ws : List Nat) (j v : Nat) : Prop :=
  0 < ws.getD j 0 ∧ symbolStart next ws j ≤ v ∧ v < symbolStart next ws j + weightSpan (ws.getD j 0)

/-- After the first symbol was placed, the others own what they did. -/
theorem owns_cons {w : Nat} {next ws : List Nat} (hw : w < next.length) (j v : Nat) :
    Owns next (w :: ws) (j + 1) v ↔ Owns (if w = 0 then next else next.set w (next.getD w 0 + weightSpan w)) ws j v := by
  have hstart : 0 < ws.getD j 0 → symbolStart next (w :: ws) (j + 1) =
      symbolStart (if w = 0 then next else next.set w (next.getD w 0 + weightSpan w)) ws j := fun hpos => by
    unfold symbolStart
    rw [List.getD_cons_succ, List.take_succ_cons, List.count_cons]
    generalize ws.getD j 0 = x at hpos ⊢
    by_cases hx : w = x
    · subst hx
      simp [Nat.ne_of_gt hpos, hw, Nat.add_mul]
      omega
    · by_cases h0 : w = 0
      · simp [h0, Nat.ne_of_lt hpos]
      · simp [hx, h0, List.getD_eq_getElem?_getD]
  unfold Owns
  rw [List.getD_cons_succ]
  by_cases hpos : 0 < ws.getD j 0
  · rw [hstart hpos]
  · exact ⟨fun h => absurd h.1 hpos, fun h => absurd h.1 hpos⟩

theorem owns_cons_zero {w : Nat} (hw : w ≠ 0) (next ws : List Nat) (v : Nat) :
    Owns next (w :: ws) 0 v ↔ next.getD w 0 ≤ v ∧ v < next.getD w 0 + weightSpan w := by
  simp [Owns, symbolStart, Nat.pos_of_ne_zero hw]

/-! ### Placing -/

theorem State.setHufEntry_other {i k : Nat} (h : i ≠ k) (e : HufEntry) (s : State) :
    (s.setHufEntry i e).hufEntryAt k = s.hufEntryAt k := by
  unfold State.hufEntryAt State.setHufEntry
  simp only
  split
  · split
    · exact Vector.getElem_set_ne _ _ h
    · rfl
  · rfl

theorem fillRange_other {wb : Nat} {n v i : Nat} (e : HufEntry) (s : State)
    (h : ∀ x, v ≤ x → x < v + n → bitrev wb x ≠ i) : (fillRange wb e n v s).hufEntryAt i = s.hufEntryAt i := by
  induction n generalizing v s with
  | zero => rfl
  | succ n ih =>
    rw [fillRange, ih _ fun x hx hx' => h x (by omega) (by omega)]
    exact State.setHufEntry_other (h v (le_refl _) (by omega)) e s

theorem fillRange_at {wb : Nat} {n v x : Nat} (e : HufEntry) (s : State) (hx : v ≤ x) (hx' : x < v + n)
    (hi : bitrev wb x < 2048) : (fillRange wb e n v s).hufEntryAt (bitrev wb x) = e := by
  induction n generalizing v s with
  | zero => omega
  | succ n ih =>
    rw [fillRange]
    rcases Nat.eq_or_lt_of_le hx with rfl | hlt
    · exact fillRange_keeps (P := (· = e)) rfl wb n _ (State.setHufEntry_same hi e s)
    · exact ih _ hlt (by omega)

/-- The places of no symbol keep their entries. -/
theorem placeSymbols_other {wb i : Nat} {ws next : List Nat} (sym : Nat) (s : State)
    (hlen : ∀ w ∈ ws, w < next.length) (h : ∀ j v, Owns next ws j v → bitrev wb v ≠ i) :
    (placeSymbols wb ws sym next s).hufEntryAt i = s.hufEntryAt i := by
  induction ws generalizing sym next s with
  | nil => rfl
  | cons w ws ih =>
    have hw : w < next.length := hlen w List.mem_cons_self
    have hlater : ∀ j v, Owns (if w = 0 then next else next.set w (next.getD w 0 + weightSpan w)) ws j v →
        bitrev wb v ≠ i := fun j v hown => h (j + 1) v ((owns_cons hw j v).2 hown)
    unfold placeSymbols
    by_cases h0 : w = 0
    · rw [if_pos h0] at hlater ⊢
      exact ih _ _ (fun x hx => hlen x (List.mem_cons_of_mem _ hx)) hlater
    · rw [if_neg h0] at hlater ⊢
      rw [ih _ _ (fun x hx => by rw [List.length_set]; exact hlen x (List.mem_cons_of_mem _ hx)) hlater]
      exact fillRange_other _ s fun x hx hx' => h 0 x ((owns_cons_zero h0 next ws x).2 ⟨hx, hx'⟩)

/-- A place that one symbol owns has that symbol's entry. -/
theorem placeSymbols_at {wb j v : Nat} {ws next : List Nat} (sym : Nat) (s : State)
    (hlen : ∀ w ∈ ws, w < next.length) (hown : Owns next ws j v) (hi : bitrev wb v < 2048)
    (h : ∀ k x, j < k → Owns next ws k x → bitrev wb x ≠ bitrev wb v) :
    (placeSymbols wb ws sym next s).hufEntryAt (bitrev wb v) =
      ⟨BitVec.ofNat 8 (sym + j), BitVec.ofNat 4 (wb + 1 - ws.getD j 0)⟩ := by
  induction ws generalizing sym next s j with
  | nil => exact absurd hown.1 (by simp)
  | cons w ws ih =>
    have hw : w < next.length := hlen w List.mem_cons_self
    have hlenLater : ∀ x ∈ ws, x < (if w = 0 then next else next.set w (next.getD w 0 + weightSpan w)).length := by
      intro x hx
      have := hlen x (List.mem_cons_of_mem _ hx)
      split
      · exact this
      · rwa [List.length_set]
    have hlater : ∀ k x, Owns (if w = 0 then next else next.set w (next.getD w 0 + weightSpan w)) ws k x →
        j < k + 1 → bitrev wb x ≠ bitrev wb v := fun k x hown hk => h (k + 1) x hk ((owns_cons hw k x).2 hown)
    cases j with
    | zero =>
      have h0 : w ≠ 0 := by
        have := hown.1
        simp at this
        omega
      obtain ⟨hlo, hhi⟩ := (owns_cons_zero h0 next ws v).1 hown
      unfold placeSymbols
      rw [if_neg h0] at hlater hlenLater ⊢
      rw [placeSymbols_other _ _ hlenLater fun k x hown => hlater k x hown (by omega)]
      exact fillRange_at _ s hlo hhi hi
    | succ j =>
      have hown' := (owns_cons hw j v).1 hown
      unfold placeSymbols
      rw [List.getD_cons_succ, show sym + (j + 1) = sym + 1 + j by omega]
      by_cases h0 : w = 0
      · rw [if_pos h0] at hlater hlenLater hown' ⊢
        exact ih _ _ hlenLater hown' fun k x hk hown => hlater k x hown (by omega)
      · rw [if_neg h0] at hlater hlenLater hown' ⊢
        exact ih _ _ hlenLater hown' fun k x hk hown => hlater k x hown (by omega)

/-! ### The ranges do not meet (R305) -/

/-- `start[w]` for the weights 0 to 11, as `HufExpand` counts them. -/
def startList (ws : List Nat) : List Nat := tabFrom (fun w => rangeStart ws (w - 1)) 12 0

theorem startList_getD {w : Nat} (ws : List Nat) (hw : w < 12) : (startList ws).getD w 0 = rangeStart ws (w - 1) := by
  rw [startList, List.getD_eq_getElem?_getD, getElem?_tabFrom _ hw, Nat.zero_add, Option.getD_some]

theorem count_take_lt {ws : List Nat} {j : Nat} (h : j < ws.length) :
    (ws.take j).count (ws.getD j 0) + 1 = (ws.take (j + 1)).count (ws.getD j 0) := by
  rw [List.take_succ_eq_append_getElem h, List.count_append, List.getD_eq_getElem _ _ h]
  simp

theorem Owns.lt_length {next ws : List Nat} {j v : Nat} (h : Owns next ws j v) : j < ws.length := by
  by_contra hge
  have hpos := h.1
  rw [List.getD_eq_default _ _ (by omega)] at hpos
  exact absurd hpos (by decide)

section
variable {ws : List Nat} (hbits : weightBits ws ≤ 11)
include hbits

/-- A weight of a table that fits is below 12. -/
theorem getD_lt_of_weightBits {j : Nat} (h : j < ws.length) : ws.getD j 0 < 12 := by
  rw [List.getD_eq_getElem _ _ h]
  exact Nat.lt_succ_of_le ((weight_le_weightBits (List.getElem_mem h)).trans hbits)

theorem symbolStart_startList {j : Nat} (h : j < ws.length) (hpos : 0 < ws.getD j 0) :
    symbolStart (startList ws) ws j = firstValue ws j := by
  obtain ⟨w, hw⟩ : ∃ w, ws.getD j 0 = w + 1 := ⟨ws.getD j 0 - 1, by omega⟩
  have hlt := getD_lt_of_weightBits hbits h
  rw [symbolStart, firstValue, startList_getD ws hlt, hw, startOf_succ_eq, weightSpan, if_neg (by omega)]
  rfl

/-- A symbol's values lie in the range of its weight. -/
theorem Owns.in_weight_range {j v : Nat} (h : Owns (startList ws) ws j v) :
    rangeStart ws (ws.getD j 0 - 1) ≤ v ∧ v < rangeStart ws (ws.getD j 0) := by
  obtain ⟨hpos, hlo, hhi⟩ := h
  have hj := Owns.lt_length ⟨hpos, hlo, hhi⟩
  rw [symbolStart, startList_getD ws (getD_lt_of_weightBits hbits hj)] at hlo hhi
  refine ⟨(Nat.le_add_right _ _).trans hlo, hhi.trans_le ?_⟩
  have hcount : (ws.take j).count (ws.getD j 0) + 1 ≤ weightCount ws (ws.getD j 0) := by
    rw [count_take_lt hj, weightCount]
    exact ((ws.take_sublist (j + 1)).count_le _).trans (Nat.le_add_right _ _)
  obtain ⟨w, hw⟩ : ∃ w, ws.getD j 0 = w + 1 := ⟨ws.getD j 0 - 1, by omega⟩
  rw [hw] at hcount ⊢
  have hspan := Nat.mul_le_mul_right (weightSpan (w + 1)) hcount
  rw [Nat.add_mul, Nat.one_mul] at hspan
  rw [Nat.add_sub_cancel, rangeStart]
  omega

/-- No value belongs to two symbols. -/
theorem Owns.unique {j k v : Nat} (h : Owns (startList ws) ws j v) (h' : Owns (startList ws) ws k v) : ¬ j < k := by
  intro hjk
  obtain ⟨hlo, hhi⟩ := h.in_weight_range hbits
  obtain ⟨hlo', hhi'⟩ := h'.in_weight_range hbits
  have hweight : ws.getD k 0 = ws.getD j 0 := by
    by_contra hne
    rcases Nat.lt_or_gt_of_ne hne with hlt | hlt
    · have := rangeStart_mono ws (show ws.getD k 0 ≤ ws.getD j 0 - 1 by omega)
      omega
    · have := rangeStart_mono ws (show ws.getD j 0 ≤ ws.getD k 0 - 1 by omega)
      omega
  have hcount : (ws.take j).count (ws.getD j 0) + 1 ≤ (ws.take k).count (ws.getD j 0) := by
    rw [count_take_lt h.lt_length]
    exact (List.take_sublist_take_left hjk).count_le _
  have hspan := Nat.mul_le_mul_right (weightSpan (ws.getD j 0)) hcount
  rw [Nat.add_mul, Nat.one_mul] at hspan
  have hend := h.2.2
  have hstart := h'.2.1
  rw [symbolStart] at hend hstart
  rw [hweight] at hstart
  omega

end

/-- Without a gap every value owned is below the size of the table. -/
theorem Owns.lt_two_pow {ws : List Nat} (hbits : weightBits ws ≤ 11) (hgap : ∃ k, weightRest ws = 2 ^ k) {j v : Nat}
    (h : Owns (startList ws) ws j v) : v < 2 ^ weightBits ws := by
  have hmem : ws.getD j 0 ∈ ws := List.getD_eq_getElem _ _ h.lt_length ▸ List.getElem_mem h.lt_length
  have htotal : 0 < weightTotal ws := by
    have hle : weightSpan (ws.getD j 0) ≤ weightTotal ws := List.le_sum_of_mem (List.mem_map_of_mem hmem)
    have hspan : 0 < weightSpan (ws.getD j 0) := by
      have := h.2.1
      have := h.2.2
      omega
    omega
  rw [← rangeStart_weightBits htotal hgap]
  exact (h.in_weight_range hbits).2.trans_le (rangeStart_mono ws (weight_le_weightBits hmem))

theorem weightSpan_pos {w : Nat} (h : 0 < w) : 0 < weightSpan w := by
  rw [weightSpan, if_neg (by omega)]
  exact Nat.two_pow_pos _

/-- An index whose low bits are the code of a symbol is the place of a value of that symbol (R306). -/
theorem owns_of_code {ws : List Nat} (hbits : weightBits ws ≤ 11) (hgap : ∃ k, weightRest ws = 2 ^ k) {j pv : Nat}
    (hj : j < ws.length) (hpos : 0 < ws.getD j 0) (hpv : pv < 2 ^ weightBits ws)
    (hcode : pv % 2 ^ (weightBits ws + 1 - ws.getD j 0) =
      bitrev (weightBits ws + 1 - ws.getD j 0) (firstValue ws j / 2 ^ (ws.getD j 0 - 1))) :
    Owns (startList ws) ws j (bitrev (weightBits ws) pv) := by
  have hmem : ws.getD j 0 ∈ ws := List.getD_eq_getElem _ _ hj ▸ List.getElem_mem hj
  have hle := weight_le_weightBits hmem
  have hstart := symbolStart_startList hbits hj hpos
  have hdvd : 2 ^ (ws.getD j 0 - 1) ∣ firstValue ws j := by
    have hspan : weightSpan (ws.getD j 0) ≤ weightTotal ws := List.le_sum_of_mem (List.mem_map_of_mem hmem)
    have htotal : 0 < weightTotal ws := (weightSpan_pos hpos).trans_le hspan
    have hstartOf : startOf ws (ws.getD j 0) = rangeStart ws (ws.getD j 0 - 1) := by
      rw [← startOf_succ_eq, Nat.sub_add_cancel hpos]
    rw [firstValue, hstartOf]
    exact (two_pow_dvd_rangeStart htotal hgap (by omega)).add (Nat.dvd_mul_left _ _)
  have hfirst : Owns (startList ws) ws j (firstValue ws j) := by
    refine ⟨hpos, hstart.le, ?_⟩
    rw [hstart, weightSpan, if_neg (by omega)]
    exact Nat.lt_add_of_pos_right (Nat.two_pow_pos _)
  have hsize : 2 ^ weightBits ws = 2 ^ (weightBits ws + 1 - ws.getD j 0) * 2 ^ (ws.getD j 0 - 1) := by
    rw [← Nat.pow_add]
    congr 1
    omega
  have hhigh : ∀ x, x < 2 ^ weightBits ws → x / 2 ^ (ws.getD j 0 - 1) < 2 ^ (weightBits ws + 1 - ws.getD j 0) :=
    fun x hx => Nat.div_lt_of_lt_mul (by rwa [Nat.mul_comm, ← hsize])
  rw [← bitrev_bitrev hpv, bitrev_mod (by omega),
    show weightBits ws - (weightBits ws + 1 - ws.getD j 0) = ws.getD j 0 - 1 by omega] at hcode
  have hquot := bitrev_injective (hhigh _ (bitrev_lt _ pv)) (hhigh _ (hfirst.lt_two_pow hbits hgap)) hcode
  refine ⟨hpos, ?_⟩
  rw [hstart, weightSpan, if_neg (by omega), ← Nat.div_mul_cancel hdvd, ← hquot]
  exact ⟨Nat.div_mul_le_self _ _, Nat.lt_div_mul_add (Nat.two_pow_pos _)⟩

/-! ### `HUFEXPAND` -/

theorem exec_hufexpand {s : State} (h : s.sanitize = true) :
    exec .hufexpand s = .next (s.hufExpand.2.setRes s.hufExpand.1) :=
  finish_of_sanitize h

/-- The entry at the place of a value is that of the symbol that owns the value (R305, R306). -/
theorem State.hufExpand_owned {s : State} (hbits : weightBits s.weights ≤ 11) (hgap : ∃ k, weightRest s.weights = 2 ^ k)
    {j v : Nat} (h : Owns (startList s.weights) s.weights j v) :
    s.hufExpand.2.hufEntryAt (bitrev (weightBits s.weights) v) =
      ⟨BitVec.ofNat 8 j, BitVec.ofNat 4 (weightBits s.weights + 1 - s.weights.getD j 0)⟩ := by
  have hsize : 2 ^ weightBits s.weights ≤ 2 ^ 11 := Nat.pow_le_pow_right (by decide) hbits
  have hlen : ∀ w ∈ s.weights, w < (startList s.weights).length := fun w hw => by
    have hle := weight_le_weightBits hw
    rw [startList, tabFrom_length]
    omega
  have hplace : bitrev (weightBits s.weights) v < 2048 := (bitrev_lt _ v).trans_le hsize
  have hother : ∀ k x, j < k → Owns (startList s.weights) s.weights k x →
      bitrev (weightBits s.weights) x ≠ bitrev (weightBits s.weights) v := fun k x hjk hown heq => by
    rw [bitrev_injective (hown.lt_two_pow hbits hgap) (h.lt_two_pow hbits hgap) heq] at hown
    exact h.unique hbits hown hjk
  unfold State.hufExpand
  rw [if_neg (by simpa [maxHufBits] using hbits)]
  exact (placeSymbols_at 0 _ hlen h hplace hother).trans (by rw [Nat.zero_add])

end Sys2Proof.Machine

namespace Sys2Proof.Claims

open Sys2Proof.Machine

/-- Settles O32: the value of the index, its bits reversed, is one that the symbol owns. -/
theorem canonicalCodesDecode : Obligations.CanonicalCodesDecode := by
  intro s sym hsan
  simp only [weightsOf_eq, bitLength_totalWeight, restWeight_eq, reversed_eq_bitrev]
  intro hwb hsym hw hgap
  refine ⟨_, exec_hufexpand hsan, fun pv hpv hcode => ?_⟩
  have hentry := State.hufExpand_owned hwb hgap (owns_of_code hwb hgap hsym hw hpv hcode)
  rw [bitrev_bitrev hpv] at hentry
  exact hentry

end Sys2Proof.Claims
end

section
/-! `HUFWFSE` (43_huffman.md R303): the weights are the symbols that `FSEDEC` leaves on the lanes, batch by batch. -/

namespace Sys2Proof.Machine

open Sys2Proof.Claims

/-! ### The weights apart

The lane readers and the FSE engine neither read nor write the weights. -/

/-- `s` with the weights `w`. -/
def State.withWeights (s : State) (w : Vector (BitVec 4) 256) : State := { s with hufw := w }

variable (s : State) (w : Vector (BitVec 4) 256)

theorem withWeights_ite {p : Prop} [Decidable p] {t u t' u' : State} {w : Vector (BitVec 4) 256}
    (ht : t' = t.withWeights w) (hu : u' = u.withWeights w) :
    (if p then t' else u') = (if p then t else u).withWeights w := by
  split <;> assumption

theorem withWeights_forLanes {f : LaneId → State → State}
    (hf : ∀ l (u : State), f l (u.withWeights w) = (f l u).withWeights w) (ls : List LaneId) :
    forLanes ls f (s.withWeights w) = (forLanes ls f s).withWeights w := by
  induction ls generalizing s with
  | nil => rfl
  | cons l ls ih => rw [forLanes_cons, hf, ih, forLanes_cons]

theorem withWeights_refill (l : LaneId) (n : Nat) : (s.withWeights w).refill l n = (s.refill l n).withWeights w :=
  withWeights_ite rfl rfl

theorem withWeights_drop (l : LaneId) (n : Nat) : (s.withWeights w).drop l n = (s.drop l n).withWeights w :=
  withWeights_ite rfl rfl

theorem withWeights_peekLane (l : LaneId) (n : Nat) : (s.withWeights w).peekLane l n = (s.peekLane l n).withWeights w := by
  have hwarn : (if 32 < n then (s.withWeights w).warn .peekWidth else s.withWeights w) =
      (if 32 < n then s.warn .peekWidth else s).withWeights w := withWeights_ite rfl rfl
  unfold State.peekLane
  simp only [hwarn, withWeights_refill]
  rfl

theorem withWeights_peekV (ls : List LaneId) (n : LaneId → Nat) :
    (s.withWeights w).peekV ls n = (s.peekV ls n).withWeights w :=
  withWeights_forLanes s w (fun l u => withWeights_peekLane u w l (n l)) ls

theorem withWeights_fsd (l : LaneId) (t : Tbl) : (s.withWeights w).fsd l t = s.fsd l t := (rfl)

theorem withWeights_fss (l : LaneId) (t : Tbl) : (s.withWeights w).fss l t = s.fss l t := (rfl)

theorem withWeights_lane (l : LaneId) : (s.withWeights w).lane l = s.lane l := (rfl)

theorem withWeights_cell (t : Tbl) (x : Nat) : (s.withWeights w).cell t x = s.cell t x := (rfl)

theorem withWeights_takeCell (l : LaneId) (t : Tbl) (c : FseCell) :
    (s.withWeights w).takeCell l t c = (s.takeCell l t c).withWeights w := rfl

theorem withWeights_fseDecLane (t : Tbl) (l : LaneId) :
    (s.withWeights w).fseDecLane t l = (s.fseDecLane t l).withWeights w := by
  unfold State.fseDecLane
  simp only [withWeights_fsd, withWeights_fss, withWeights_lane, withWeights_cell, withWeights_drop, withWeights_takeCell]

/-- A decode is the same whatever the weights are. -/
theorem withWeights_fseDec (t : Tbl) (ls : List LaneId) : (s.withWeights w).fseDec t ls = (s.fseDec t ls).withWeights w := by
  unfold State.fseDec
  refine withWeights_ite ?_ (withWeights_forLanes (s.warn .tableNotBuilt) w (fun _ _ => rfl) ls)
  simp only [withWeights_fsd, withWeights_peekV]
  exact withWeights_forLanes _ w (fun l u => withWeights_fseDecLane u w t l) ls

/-! ### The weights of a batch -/

theorem State.setHufWeight_hufWeight {i : Nat} (hi : i < 256) (v j : Nat) (s : State) :
    (s.setHufWeight i v).hufWeight j = if j = i then v % 16 else s.hufWeight j := by
  unfold State.hufWeight State.setHufWeight
  simp only [dif_pos hi]
  by_cases hj : j < 256
  · rw [dif_pos hj, dif_pos hj, Vector.getElem_set]
    by_cases hij : j = i
    · simp [hij]
    · rw [if_neg (fun e => hij e.symm), if_neg hij]
  · rw [dif_neg hj, dif_neg hj, if_neg (by omega)]

/-- Storing the symbols of a batch writes the weights only. -/
theorem storeSymbols_only (k : Nat) (ls : List LaneId) (s : State) :
    storeSymbols k ls s = s.withWeights (storeSymbols k ls s).hufw :=
  forLanes_keeps (P := fun u => u = s.withWeights u.hufw) ls (fun l _ u hu => by
    rw [hu]
    rfl) rfl

theorem storeSymbols_cons (k : Nat) (l : LaneId) (ls : List LaneId) (s : State) :
    storeSymbols k (l :: ls) s = storeSymbols k ls (s.setHufWeight (k + l.val) (s.lane l).sym.toNat) := rfl

theorem storeSymbols_other {k i : Nat} {ls : List LaneId} (h : ∀ l ∈ ls, k + l.val < 256 ∧ k + l.val ≠ i) (s : State) :
    (storeSymbols k ls s).hufWeight i = s.hufWeight i := by
  induction ls generalizing s with
  | nil => rfl
  | cons l ls ih =>
    obtain ⟨hl, hne⟩ := h l List.mem_cons_self
    rw [storeSymbols_cons, ih fun x hx => h x (List.mem_cons_of_mem _ hx), State.setHufWeight_hufWeight hl,
      if_neg (fun e => hne e.symm)]

theorem storeSymbols_at {k : Nat} {l : LaneId} {ls : List LaneId} (hl : l ∈ ls) (h : ∀ x ∈ ls, k + x.val < 256)
    (s : State) : (storeSymbols k ls s).hufWeight (k + l.val) = (s.lane l).sym.toNat % 16 := by
  induction ls generalizing s with
  | nil => exact absurd hl List.not_mem_nil
  | cons x ls ih =>
    have hlater : ∀ y ∈ ls, k + y.val < 256 := fun y hy => h y (List.mem_cons_of_mem _ hy)
    rw [storeSymbols_cons]
    by_cases hmem : l ∈ ls
    · exact ih hmem hlater _
    · obtain rfl : l = x := (List.mem_cons.1 hl).resolve_right hmem
      have hother : ∀ y ∈ ls, k + y.val < 256 ∧ k + y.val ≠ k + l.val := fun y hy =>
        ⟨hlater y hy, fun e => hmem (by rwa [← Fin.ext (Nat.add_left_cancel e)])⟩
      rw [storeSymbols_other hother, State.setHufWeight_hufWeight (h l List.mem_cons_self), if_pos rfl]

/-! ### The batches -/

/-- The lanes of batch `j` of `N` weights (R303). -/
def weightLanes (N j : Nat) : List LaneId := laneRange 0 (min 32 (N - 32 * j))

/-- The machine after `j` batches of `N` weights, the weights not stored (R303). -/
def weightBatch (N : Nat) (s : State) : Nat → State
  | 0 => s
  | j + 1 => (weightBatch N s j).fseDec .hw (weightLanes N j)

theorem weightBatch_laneFrame (N : Nat) (s : State) (j : Nat) : LaneFrame s (weightBatch N s j) := by
  induction j with
  | zero => exact .refl s
  | succ j ih => exact ih.trans (.fseDec .hw _ _)

/-- The symbol that is weight `k`: that of lane `k mod 32` after batch `k / 32` (R303). -/
def weightSymbol (N : Nat) (s : State) (k : Nat) : Nat := ((weightBatch N s (k / 32 + 1)).lane (Fin.ofNat 32 (k % 32))).sym.toNat

/-- The symbols of one batch stored, as weights. -/
theorem storeSymbols_weightBatch {N j : Nat} (hN : N < 256) (s : State) (w : Vector (BitVec 4) 256) (k : Nat) :
    (storeSymbols (32 * j) (weightLanes N j) ((weightBatch N s (j + 1)).withWeights w)).hufWeight k =
      if k / 32 = j ∧ k < N then weightSymbol N s k % 16 else (s.withWeights w).hufWeight k := by
  have hbound : ∀ l ∈ weightLanes N j, 32 * j + l.val < N := fun l hl => by
    have := (mem_laneRange.1 hl).2
    omega
  by_cases hk : k / 32 = j ∧ k < N
  · obtain ⟨rfl, hlt⟩ := hk
    have hmod : (Fin.ofNat 32 (k % 32)).val = k % 32 := Nat.mod_mod _ _
    have hmem : Fin.ofNat 32 (k % 32) ∈ weightLanes N (k / 32) := mem_laneRange.2 (by rw [hmod]; omega)
    have hat := storeSymbols_at hmem (fun l hl => (hbound l hl).trans hN) ((weightBatch N s (k / 32 + 1)).withWeights w)
    rw [hmod, Nat.div_add_mod] at hat
    rw [hat, if_pos ⟨rfl, hlt⟩]
    rfl
  · rw [if_neg hk, storeSymbols_other fun l hl => ⟨(hbound l hl).trans hN, fun e => hk ?_⟩]
    · rfl
    · have := hbound l hl
      have := l.isLt
      omega

/-- The batches from `j` on: the machine is that of `weightBatch`, and the weights from `32 j` on are its symbols. -/
theorem fseWeightBatches_spec {N : Nat} (hN : N < 256) (s : State) {fuel j k : Nat} (hfuel : fuel + j = (N + 31) / 32)
    (hk : 0 < fuel → k = 32 * j) (w : Vector (BitVec 4) 256) :
    ∃ v, fseWeightBatches N fuel k ((weightBatch N s j).withWeights w) = (weightBatch N s ((N + 31) / 32)).withWeights v ∧
      ∀ i, (s.withWeights v).hufWeight i =
        if 32 * j ≤ i ∧ i < N then weightSymbol N s i % 16 else (s.withWeights w).hufWeight i := by
  induction fuel generalizing j k w with
  | zero =>
    obtain rfl : j = (N + 31) / 32 := by omega
    exact ⟨w, rfl, fun i => by rw [if_neg (by omega)]⟩
  | succ fuel ih =>
    obtain rfl : k = 32 * j := hk (Nat.succ_pos _)
    have hlt : 32 * j < N := by omega
    have hstored : storeSymbols (32 * j) (weightLanes N j) ((weightBatch N s (j + 1)).withWeights w) =
        (weightBatch N s (j + 1)).withWeights _ := storeSymbols_only ..
    have hweight := storeSymbols_weightBatch (j := j) hN s w
    rw [hstored] at hweight
    generalize (storeSymbols (32 * j) (weightLanes N j) ((weightBatch N s (j + 1)).withWeights w)).hufw = w' at hstored hweight
    obtain ⟨v, heq, hv⟩ := ih (j := j + 1) (k := 32 * j + min 32 (N - 32 * j)) (by omega) (by omega) w'
    refine ⟨v, ?_, fun i => ?_⟩
    · rw [fseWeightBatches, if_pos hlt]
      simp only [withWeights_fseDec]
      exact (congrArg _ hstored).trans heq
    · have hi : (s.withWeights w').hufWeight i = _ := hweight i
      rw [hv, hi]
      by_cases hfirst : i / 32 = j ∧ i < N
      · rw [if_neg (by omega), if_pos hfirst, if_pos (by omega)]
      · rw [if_neg hfirst]
        by_cases hlater : 32 * (j + 1) ≤ i ∧ i < N
        · rw [if_pos hlater, if_pos (by omega)]
        · rw [if_neg hlater, if_neg (by omega)]

/-! ### The symbols are weights (42_fse.md R253, R259) -/

theorem State.drop_syms (l k : LaneId) (n : Nat) (s : State) : (s.drop l n).syms k = s.syms k := by
  unfold State.drop
  split
  · exact State.modLane_syms (f := fun x => { x with buf := 0, avail := 0 }) (fun _ => rfl) k (s.warn .discardUnderflow)
  · exact State.modLane_syms (f := fun x => x.consume n) (fun _ => rfl) k s

/-- One lane of `FseDec` leaves the symbol of a cell of the table. -/
theorem State.fseDecLane_syms (t : Tbl) (l k : LaneId) (s : State) :
    ∃ x, (s.fseDecLane t l).syms k = if k = l then (s.cell t x).sym.toNat else s.syms k := by
  refine ⟨s.fss l t + (s.lane l).pv.toNat, ?_⟩
  unfold State.fseDecLane
  rw [State.takeCell_syms, State.drop_syms]

/-- `FseDec` through a table in range leaves on each lane a symbol of the alphabet (R259). -/
theorem State.fseDec_syms_le {t : Tbl} {s : State} (hok : s.fseTableOk t) (hb : s.built t = true) {ls : List LaneId}
    {l : LaneId} (hl : l ∈ ls) : (s.fseDec t ls).syms l ≤ maxSym t := by
  have hframe := LaneFrame.peekV ls (fun l => s.fsd l t) s
  unfold State.fseDec
  rw [if_pos hb]
  refine forLanes_each (I := fun u => u.fseTableOk t ∧ u.built t = true) (P := fun k u => u.syms k ≤ maxSym t)
    (fun l u hu => ?_) (fun l u hu => ?_) (fun l k u hu hk => ?_) ls ?_ hl
  · rw [LaneFrame.fseDecLane t l u]
    exact hu
  · obtain ⟨x, hx⟩ := u.fseDecLane_syms t l l
    rw [hx, if_pos rfl]
    exact (FseCell.ok_iff.1 (State.cell_ok hu.1 hu.2 x)).1
  · obtain ⟨x, hx⟩ := u.fseDecLane_syms t l k
    rw [hx]
    split
    · exact (FseCell.ok_iff.1 (State.cell_ok hu.1 hu.2 x)).1
    · exact hk
  · rw [hframe]
    exact ⟨hok, hb⟩

/-- The table that `BuildTable` builds is in range, whatever the others are (R253). -/
theorem State.buildTable_fseTableOk {t : Tbl} {A : Nat} {prob : List Nat} (h : TableSpec t A prob) (s : State) :
    (s.buildTable t A prob).fseTableOk t := by
  intro _
  rw [State.buildTable_accLog h.le_max]
  refine ⟨h.min_le, h.le_max, fun i hi => ?_⟩
  obtain ⟨m, hm, rfl⟩ := slotPos_surjective (A := A) ((by decide : 4 ≤ minAccuracyLog).trans h.min_le) hi
  have hcell := writeSlots_at h.le_max (P := fun c => c.ok t A = true) (fun c => h.slotCells_ok)
    (m := m) (by rw [slotCells_length, h.sum]; exact hm) 0 s
  rwa [Nat.zero_add] at hcell

theorem weightSymbol_le {N : Nat} {s : State} (hok : s.fseTableOk .hw) (hb : s.built .hw = true) {k : Nat} (hk : k < N) :
    weightSymbol N s k ≤ 11 := by
  have hframe := weightBatch_laneFrame N s (k / 32)
  have hmem : Fin.ofNat 32 (k % 32) ∈ weightLanes N (k / 32) := mem_laneRange.2 (by
    rw [show (Fin.ofNat 32 (k % 32)).val = k % 32 from Nat.mod_mod _ _]
    omega)
  exact State.fseDec_syms_le (t := .hw) (by rw [hframe]; exact hok) (by rw [hframe]; exact hb) hmem

/-! ### The table and the lanes -/

theorem LaneFrame.fseTableOk {s t : State} (h : LaneFrame s t) {k : Tbl} (hs : s.fseTableOk k) : t.fseTableOk k := by
  rw [h]
  exact hs

/-- Reading a distribution is lane reads and warnings (R254). -/
theorem LaneFrame.readDistribution {t : Tbl} {A : Nat} (hA : A ≤ maxAcc t) (s : State) :
    LaneFrame s (s.readDistribution t A).2 := by
  obtain ⟨R, -, -, -, hloop⟩ := distLoop_rounds hA s
  rw [State.readDistribution, hloop, distComplete_eq]
  exact (rounds_roundsFrame hA (distStart t s) R).frame.trans (.warnIf _ _ _)

/-- With an accuracy log in range there is nothing to clamp (R256). -/
theorem State.fseBuild_of_inRange {t : Tbl} {A : Nat} (hmin : minAccuracyLog ≤ A) (hmax : A ≤ maxAcc t) (s : State) :
    s.fseBuild t A = (A, (s.readDistribution t A).2.buildTable t A (s.readDistribution t A).1) := by
  have hclamp : s.clampAcc t A = (A, s) := by
    rw [State.clampAcc, if_neg (by omega), if_neg (by omega)]
  rw [State.fseBuild, hclamp]

theorem exec_rdbyte {s : State} (h : s.sanitize = true) :
    exec .rdbyte s = .next (s.readByte.2.setRes s.readByte.1.toNat) :=
  finish_of_sanitize h

theorem exec_fseinit {s : State} (h : s.sanitize = true) (t : Tbl) (lo : BitVec 5) (cnt : BitVec 6) :
    exec (.fseinit t lo cnt) s = .next (s.fseInit t (laneRange lo.toNat cnt.toNat)) :=
  finish_of_sanitize h

theorem exec_fsedec {s : State} (h : s.sanitize = true) (t : Tbl) (lo : BitVec 5) (cnt : BitVec 6) :
    exec (.fsedec t lo cnt) s = .next (s.fseDec t (laneRange lo.toNat cnt.toNat)) :=
  finish_of_sanitize h

theorem exec_fsebuild_eq {s : State} (h : s.sanitize = true) (t : Tbl) (n : BitVec 6) :
    exec (.fsebuild t n) s = .next ((s.fseBuild t n.toNat).2.setRes (s.fseBuild t n.toNat).1) :=
  finish_of_sanitize h

theorem exec_hufwfse {s : State} (h : s.sanitize = true) (aux : BitVec 1) :
    exec (.hufwfse aux) s = .next ((s.hufWeightsFse aux.toNat).2.setRes (s.hufWeightsFse aux.toNat).1) :=
  finish_of_sanitize h

/-- A result in `RES` alone, as the registers of another state. -/
theorem State.setRes_eq_outer (n : Nat) (s : State) : s.setRes n = s.outer (s.setRes n) := rfl

/-- The machine on which `HUFWFSE` decodes its weights: the count byte read, table `HW` built, the lanes initialised (R303). -/
def State.weightStart (A : Nat) (s : State) : State :=
  (s.readByte.2.fseBuild .hw A).2.fseInit .hw allLanes

/-- What `HUFWFSE` computes. -/
theorem State.hufWeightsFse_eq {A aux : Nat} (hA : A = 5 + aux) (haux : aux ≤ 1) (s : State) :
    s.hufWeightsFse aux = (s.readByte.1.toNat,
      (fseWeightBatches s.readByte.1.toNat ((s.readByte.1.toNat + 31) / 32) 0 (s.weightStart A).clearWeights).setHufn
        s.readByte.1.toNat) := by
  subst hA
  have hbuild := s.readByte.2.fseBuild_of_inRange (t := .hw) (A := 5 + aux)
    (by simp only [minAccuracyLog]; omega) (by simp only [maxAcc]; omega)
  rw [State.weightStart, hbuild]
  rfl

/-- What `HUFWFSE` may change apart from the weights and `RES`. -/
def WeightFrame (s t : State) : Prop :=
  t = { warningsOf s t with
    readPos := t.readPos, rcb := t.rcb, rcn := t.rcn, lanes := t.lanes, fseCell := t.fseCell, tacc := t.tacc
    tvalid := t.tvalid }

theorem WeightFrame.laneFrame {s t u : State} (h : WeightFrame s t) (k : LaneFrame t u) : WeightFrame s u := by
  unfold WeightFrame LaneFrame at *
  rw [k, h]
  rfl

section
variable {s m : State} (h : WeightFrame s m) (w : Vector (BitVec 4) 256) (n v : Nat)
include h

/-- With the weights, their number and `RES` set, the rest is as in the machine they are set in. -/
theorem WeightFrame.stored_eq_outer (r : Nat) :
    ((m.withWeights w).setHufn n).setRes v = { m.outer (s.setRes r) with
      res := (((m.withWeights w).setHufn n).setRes v).res
      hufn := (((m.withWeights w).setHufn n).setRes v).hufn
      hufw := (((m.withWeights w).setHufn n).setRes v).hufw } := by
  unfold WeightFrame at h
  rw [h]
  rfl

theorem WeightFrame.stored_frame :
    ((m.withWeights w).setHufn n).setRes v = { warningsOf s (((m.withWeights w).setHufn n).setRes v) with
      res := (((m.withWeights w).setHufn n).setRes v).res
      hufn := (((m.withWeights w).setHufn n).setRes v).hufn
      hufw := (((m.withWeights w).setHufn n).setRes v).hufw
      readPos := (((m.withWeights w).setHufn n).setRes v).readPos
      rcb := (((m.withWeights w).setHufn n).setRes v).rcb
      rcn := (((m.withWeights w).setHufn n).setRes v).rcn
      lanes := (((m.withWeights w).setHufn n).setRes v).lanes
      fseCell := (((m.withWeights w).setHufn n).setRes v).fseCell
      tacc := (((m.withWeights w).setHufn n).setRes v).tacc
      tvalid := (((m.withWeights w).setHufn n).setRes v).tvalid } := by
  unfold WeightFrame at h
  rw [h]
  rfl

end

section
variable {A : Nat} (hmin : minAccuracyLog ≤ A) (hmax : A ≤ maxAcc .hw) (s : State)
include hmin hmax

theorem State.fseBuild_weightFrame : WeightFrame s (s.readByte.2.fseBuild .hw A).2 := by
  obtain ⟨-, -, hread⟩ := s.readByte_taken
  have hdist := LaneFrame.readDistribution hmax s.readByte.2
  rw [State.fseBuild_of_inRange hmin hmax]
  unfold WeightFrame LaneFrame at *
  rw [State.buildTable_frame, hdist, hread]
  rfl

theorem State.weightStart_frame : WeightFrame s (s.weightStart A) :=
  (State.fseBuild_weightFrame hmin hmax s).laneFrame (.fseInit .hw allLanes _)

/-- The commands by which `HUFWFSE` does its work up to the weights (R303). -/
theorem exec_weightStart (h : s.sanitize = true) :
    ∃ a b, exec .rdbyte s = .next a ∧ exec (.fsebuild .hw (BitVec.ofNat 6 A)) a = .next b ∧
      exec (.fseinit .hw 0 32) b = .next ((s.weightStart A).outer (s.setRes A)) := by
  obtain ⟨-, -, hread⟩ := s.readByte_taken
  have hA : (BitVec.ofNat 6 A).toNat = A := by
    simp only [maxAcc] at hmax
    exact Nat.mod_eq_of_lt (by omega)
  have houter : ∀ u : State, (u.outer (s.readByte.2.setRes s.readByte.1.toNat)).setRes A = u.outer (s.setRes A) :=
    fun u => by
      rw [hread]
      rfl
  have hsan : (s.readByte.2.setRes s.readByte.1.toNat).sanitize = true := by
    rw [hread]
    exact h
  have hbuild := exec_fsebuild_eq hsan .hw (BitVec.ofNat 6 A)
  have hone : (s.readByte.2.fseBuild .hw A).1 = A := by rw [State.fseBuild_of_inRange hmin hmax]
  rw [hA, State.setRes_eq_outer, outer_fseBuild, hone, houter] at hbuild
  have hinit := exec_fseinit (s := (s.readByte.2.fseBuild .hw A).2.outer (s.setRes A)) h .hw 0 32
  refine ⟨_, _, exec_rdbyte h, hbuild, hinit.trans ?_⟩
  rw [show laneRange (0 : BitVec 5).toNat (32 : BitVec 6).toNat = allLanes from laneRange_all, outer_fseInit]
  rfl

/-- The table on which `HUFWFSE` decodes its weights. -/
theorem State.weightStart_table :
    TableSpec .hw A (s.readByte.2.readDistribution .hw A).1 ∧
      SpreadOf (s.weightStart A) .hw A (s.readByte.2.readDistribution .hw A).1 ∧
      OtherTablesKept s (s.weightStart A) .hw A ∧ (s.weightStart A).fseTableOk .hw := by
  obtain ⟨-, -, hread⟩ := s.readByte_taken
  have hspec := s.readByte.2.readDistribution_spec hmin hmax
  have hdist := LaneFrame.readDistribution hmax s.readByte.2
  have hinit : LaneFrame (s.readByte.2.fseBuild .hw A).2 (s.weightStart A) := .fseInit .hw allLanes _
  rw [State.fseBuild_of_inRange hmin hmax] at hinit
  have hbyte : OtherTablesKept s s.readByte.2 .hw A :=
    OtherTablesKept.congr (LaneFrame.otherTablesKept (.refl s) .hw A) (by rw [hread]) (by rw [hread]) (by rw [hread])
  refine ⟨hspec, SpreadOf.congr (State.buildTable_spreadOf hspec _) (by rw [hinit]; rfl) (by rw [hinit]; rfl)
    (by rw [hinit]; rfl), ?_, ?_⟩
  · exact OtherTablesKept.trans (OtherTablesKept.trans hbyte (hdist.otherTablesKept .hw A))
      (OtherTablesKept.congr (State.buildTable_otherTablesKept hmax _ _) (by rw [hinit]; rfl) (by rw [hinit]; rfl)
        (by rw [hinit]; rfl))
  · exact hinit.fseTableOk (State.buildTable_fseTableOk hspec _)

end

end Sys2Proof.Machine

namespace Sys2Proof.Claims

open Sys2Proof.Machine

/-- Settles O30: the machine of `HUFWFSE` is that of the commands, the weights and `RES` apart. -/
theorem hufwfseReadsWeights : Obligations.HufwfseReadsWeights := by
  refine ⟨fun aux => ?_, fun s aux hsan => ?_⟩
  · have haux : aux.toNat % 64 = aux.toNat := Nat.mod_eq_of_lt (aux.isLt.trans (by decide))
    simp [encode_toNat, Instr.fields, haux]
  have haux : aux.toNat ≤ 1 := Nat.le_of_lt_succ aux.isLt
  have hbyte := s.readByte_taken.1
  have hexec := exec_hufwfse hsan aux
  rw [State.hufWeightsFse_eq rfl haux, hbyte] at hexec
  intro N A
  have hmin : minAccuracyLog ≤ A := Nat.le_add_right 5 _
  have hmax : A ≤ maxAcc .hw := Nat.add_le_add_left haux 5
  have hN : N < 256 := (rawByteAt s 0).isLt
  obtain ⟨a, b, hrd, hbuild, hinit⟩ := exec_weightStart hmin hmax s hsan
  obtain ⟨hspec, hspread, hother, hok⟩ := State.weightStart_table hmin hmax s
  have hframe := State.weightStart_frame hmin hmax s
  change exec (.hufwfse aux) s =
    .next (((fseWeightBatches N ((N + 31) / 32) 0 (s.weightStart A).clearWeights).setHufn N).setRes N) at hexec
  generalize s.weightStart A = M at hinit hspread hother hok hframe hexec
  have hbatch : ∀ j, WeightFrame s (weightBatch N M j) := fun j => hframe.laneFrame (weightBatch_laneFrame N M j)
  obtain ⟨w, heq, hw⟩ := fseWeightBatches_spec hN M (fuel := (N + 31) / 32) (j := 0) (k := 0) rfl (fun _ => rfl)
    (Vector.replicate 256 0)
  have hclear : ∀ k, (M.withWeights (Vector.replicate 256 0)).hufWeight k = 0 := fun k => by
    simp [State.hufWeight, State.withWeights]
  have hweight : ∀ k, (M.withWeights w).hufWeight k = if k < N then weightSymbol N M k else 0 := fun k => by
    rw [hw, hclear]
    by_cases hk : k < N
    · have := weightSymbol_le hok hspread.1 hk
      rw [if_pos ⟨by omega, hk⟩, if_pos hk, Nat.mod_eq_of_lt (by omega)]
    · rw [if_neg (by omega), if_neg hk]
  have hlast := hbatch ((N + 31) / 32)
  have hlastM := weightBatch_laneFrame N M ((N + 31) / 32)
  have heq' : fseWeightBatches N ((N + 31) / 32) 0 M.clearWeights = (weightBatch N M ((N + 31) / 32)).withWeights w := heq
  rw [heq'] at hexec
  have hN64 : N % 2 ^ 64 = N := Nat.mod_eq_of_lt (by omega)
  have hstored : ∀ k, ((((weightBatch N M ((N + 31) / 32)).withWeights w).setHufn N).setRes N).hufWeight k =
      if k < N then weightSymbol N M k else 0 := hweight
  refine ⟨_, a, b, fun j => (weightBatch N M j).outer (s.setRes A), _, hexec, hrd, hbuild, hinit, fun j hj => ?_,
    fun k hk => (hstored k).trans (if_pos hk), ?_, ?_, ?_, hspec.length, hspec.sum, ?_, ?_, fun k => ?_,
    fun k hk => (hstored k).trans (if_neg (Nat.not_lt.2 hk)), ?_⟩
  · have hcnt : (BitVec.ofNat 6 (min 32 (N - 32 * j))).toNat = min 32 (N - 32 * j) := Nat.mod_eq_of_lt (by omega)
    have hdec := exec_fsedec (s := (weightBatch N M j).outer (s.setRes A)) hsan .hw 0
      (BitVec.ofNat 6 (min 32 (N - 32 * j)))
    rw [hcnt, outer_fseDec] at hdec
    exact hdec
  · exact hlast.stored_eq_outer w N N A
  · exact Nat.mod_eq_of_lt hN
  · rw [State.setRes_res, BitVec.toNat_ofNat, hN64]
  · exact SpreadOf.congr hspread (by rw [hlastM]; rfl) (by rw [hlastM]; rfl) (by rw [hlastM]; rfl)
  · exact OtherTablesKept.congr hother (by rw [hlastM]; rfl) (by rw [hlastM]; rfl) (by rw [hlastM]; rfl)
  · rw [hstored]
    split
    · exact weightSymbol_le hok hspread.1 ‹_›
    · exact Nat.zero_le _
  · exact hlast.stored_frame w N N

end Sys2Proof.Claims
end

section
/-! Literals (44_sequences.md R355): what `LitTarget` emits in every mode, and what it leaves alone. -/

namespace Sys2Proof.Machine

open Sys2Proof.Claims

/-! ### What emitting literals leaves alone -/

/-- Nothing but the warnings, the raw reader, the lanes, the literal count and the output. -/
def LitsFrame (s t : State) : Prop :=
  t = { warningsOf s t with
    litEmitted := t.litEmitted, writePos := t.writePos, outBuf := t.outBuf, written := t.written
    readPos := t.readPos, rcb := t.rcb, rcn := t.rcn, lanes := t.lanes }

theorem LitsFrame.refl (s : State) : LitsFrame s s := rfl

theorem LitsFrame.trans {s t u : State} (h : LitsFrame s t) (k : LitsFrame t u) : LitsFrame s u := by
  unfold LitsFrame at *
  rw [k, h]
  rfl

theorem LitsFrame.warn (c : Warn) (s : State) : LitsFrame s (s.warn c) := rfl

theorem LitsFrame.emitLit (b : Byte) (s : State) : LitsFrame s (s.emitLit b) := rfl

theorem LitFrame.litsFrame {s t : State} (h : LitFrame s t) : LitsFrame s t := by
  rw [h]
  rfl

theorem LaneFrame.litsFrame {s t : State} (h : LaneFrame s t) : LitsFrame s t := by
  rw [h]
  rfl

theorem LitsFrame.maxLit {s t : State} (h : LitsFrame s t) : t.maxLit = s.maxLit := by
  rw [h]
  rfl

theorem LitsFrame.outCap {s t : State} (h : LitsFrame s t) : t.outCap = s.outCap := by
  rw [h]
  rfl

theorem LitsFrame.readByte (s : State) : LitsFrame s s.readByte.2 := by
  rw [s.readByte_taken.2.2]
  rfl

theorem LitsFrame.emitRawLit (s : State) : LitsFrame s s.emitRawLit :=
  (LitsFrame.readByte s).trans (.emitLit _ _)

theorem LitsFrame.times {f : State → State} (hf : ∀ u, LitsFrame u (f u)) (n : Nat) (s : State) :
    LitsFrame s (times n f s) :=
  times_keeps n (P := LitsFrame s) (fun u hu => hu.trans (hf u)) (.refl s)

theorem LitsFrame.litRun (target : Nat) (s : State) : LitsFrame s (s.litRun target) :=
  (LaneFrame.hufDec _ s).litsFrame.trans (s.litRun_frame target).litsFrame

theorem LitsFrame.hufLits (target fuel : Nat) (s : State) : LitsFrame s (Machine.hufLits target fuel s) := by
  induction fuel generalizing s with
  | zero => exact .refl s
  | succ fuel ih =>
    unfold Machine.hufLits
    simp only
    split
    · exact (LitsFrame.litRun target s).trans (ih _)
    · exact .refl s

theorem LitsFrame.emitLits (target : Nat) (s : State) : LitsFrame s (s.emitLits target) := by
  unfold State.emitLits
  simp only
  split
  · split
    · exact (LitsFrame.warn .tableNotBuilt s).trans (.times (.emitLit 0) _ _)
    · exact .hufLits _ _ s
  · split
    · exact .times (fun u => .emitLit u.rleByte u) _ s
    · exact .times .emitRawLit _ s

theorem LitsFrame.litTarget (target : Nat) (s : State) : LitsFrame s (s.litTarget target) := by
  unfold State.litTarget
  split
  · exact (LitsFrame.warn .litOverrun s).trans (.emitLits _ _)
  · exact .emitLits _ s

/-! ### How many literals are emitted -/

/-- Between `s` and `t` as many bytes as `n` were produced, all of them literals that `LITEMITTED` counts. -/
structure Emitted (n : Nat) (s t : State) : Prop where
  stored : ∃ bs, Stored s t bs ∧ bs.length = n
  counted : t.litEmitted.toNat = s.litEmitted.toNat + n
  frame : LitsFrame s t

theorem Emitted.refl (s : State) : Emitted 0 s s := ⟨⟨[], Stored.refl s, rfl⟩, rfl, .refl s⟩

theorem Emitted.trans {n m : Nat} {s t u : State} (h : Emitted n s t) (k : Emitted m t u) : Emitted (n + m) s u := by
  obtain ⟨⟨bs, hbs, rfl⟩, hcount, hframe⟩ := h
  obtain ⟨⟨cs, hcs, rfl⟩, kcount, kframe⟩ := k
  exact ⟨⟨bs ++ cs, hbs.trans hcs hframe.outCap, List.length_append⟩, by omega, hframe.trans kframe⟩

/-- What leaves the output and the literal count alone emits nothing. -/
theorem Emitted.of_kept {s t : State} (h : LitsFrame s t) (hp : t.writePos = s.writePos) (ho : t.outBuf = s.outBuf)
    (hv : t.written = s.written) (hl : t.litEmitted = s.litEmitted) : Emitted 0 s t :=
  ⟨⟨[], (Stored.refl s).congr hp ho hv, rfl⟩, by rw [hl]; rfl, h⟩

theorem LaneFrame.emitted {s t : State} (h : LaneFrame s t) : Emitted 0 s t := by
  refine .of_kept h.litsFrame ?_ ?_ ?_ ?_ <;>
  · rw [h]
    rfl

theorem Emitted.warn (c : Warn) (s : State) : Emitted 0 s (s.warn c) := LaneFrame.emitted (.warn c s)

theorem Emitted.emitLit (b : Byte) {s : State} (h : s.litEmitted.toNat < s.maxLit.toNat) : Emitted 1 s (s.emitLit b) :=
  ⟨⟨[b], s.emitLit_stored b, rfl⟩, State.emitLit_litEmitted b h, .emitLit b s⟩

theorem Emitted.emitRawLit {s : State} (h : s.litEmitted.toNat < s.maxLit.toNat) : Emitted 1 s s.emitRawLit := by
  have hread : Emitted 0 s s.readByte.2 := by
    refine .of_kept (.readByte s) ?_ ?_ ?_ s.readByte_litEmitted <;> rw [s.readByte_taken.2.2]
  have hroom : s.readByte.2.litEmitted.toNat < s.readByte.2.maxLit.toNat := by
    rwa [s.readByte_litEmitted, s.readByte_maxLit]
  exact hread.trans (.emitLit _ hroom)

/-- As many literals as there is room for, one after the other. -/
theorem Emitted.times {f : State → State} (hf : ∀ u : State, u.litEmitted.toNat < u.maxLit.toNat → Emitted 1 u (f u))
    {n : Nat} {s : State} (h : s.litEmitted.toNat + n ≤ s.maxLit.toNat) : Emitted n s (times n f s) := by
  induction n generalizing s with
  | zero => exact .refl s
  | succ n ih =>
    have hone := hf s (by omega)
    have hrest := hone.trans (ih (by rw [hone.counted, hone.frame.maxLit]; omega))
    rwa [Nat.add_comm 1 n] at hrest

theorem Emitted.litRun {target : Nat} {s : State} (h : target ≤ s.maxLit.toNat) (hlt : s.litEmitted.toNat < target) :
    Emitted (s.runLength target) s (s.litRun target) := by
  have hdec := LaneFrame.hufDec (s.runLanes target) s
  have hstored := (s.litRun_stored target).congr_left (r := s) (by rw [State.decodeRun, hdec]; rfl)
    (by rw [State.decodeRun, hdec]; rfl) (by rw [State.decodeRun, hdec]; rfl) (by rw [State.decodeRun, hdec]; rfl)
  exact ⟨⟨_, hstored, by rw [List.length_map, List.length_range]⟩, State.litRun_litEmitted h hlt, .litRun target s⟩

theorem Emitted.hufLits {target fuel : Nat} {s : State} (h : target ≤ s.maxLit.toNat) (hle : s.litEmitted.toNat ≤ target)
    (hfuel : target - s.litEmitted.toNat ≤ fuel) :
    Emitted (target - s.litEmitted.toNat) s (Machine.hufLits target fuel s) := by
  induction fuel generalizing s with
  | zero =>
    rw [Nat.le_zero.1 hfuel]
    exact .refl s
  | succ fuel ih =>
    rcases Nat.lt_or_eq_of_le hle with hlt | heq
    · have hrun := Emitted.litRun h hlt
      have hcount := hrun.counted
      have hlen : s.runLength target ≤ target - s.litEmitted.toNat := Nat.min_le_right _ _
      have hpos : 1 ≤ s.runLength target := by
        unfold State.runLength
        omega
      have hrest := hrun.trans (ih (s := s.litRun target) (by rwa [State.litRun_maxLit]) (by omega) (by omega))
      rw [show s.runLength target + (target - (s.litRun target).litEmitted.toNat) = target - s.litEmitted.toNat by omega]
        at hrest
      rw [Machine.hufLits]
      exact (if_pos hlt).symm ▸ hrest
    · rw [hufLits_of_reached heq.ge, heq, Nat.sub_self]
      exact .refl s

/-- `LitTarget` emits up to its target, whatever the mode (R355). -/
theorem Emitted.litTarget {target : Nat} {s : State} (h : target ≤ s.maxLit.toNat) (hle : s.litEmitted.toNat ≤ target) :
    Emitted (target - s.litEmitted.toNat) s (s.litTarget target) := by
  unfold State.litTarget
  rw [if_neg (by omega)]
  unfold State.emitLits
  simp only
  split
  · split
    · have hwarn := Emitted.warn .tableNotBuilt s
      have htimes := hwarn.trans (Emitted.times (f := State.emitLit 0) (fun _ => .emitLit 0)
        (n := target - s.litEmitted.toNat) (by rw [State.warn_litEmitted, State.warn_maxLit]; omega))
      rwa [Nat.zero_add] at htimes
    · exact .hufLits h hle (le_refl _)
  · split
    · exact .times (fun u => .emitLit u.rleByte) (by omega)
    · exact .times (fun _ => .emitRawLit) (by omega)

end Sys2Proof.Machine
end

section
/-! `SEQEXEC` (44_sequences.md R362): the reads of a batch, each sequence, the batches, and the literals that are left. -/

namespace Sys2Proof.Machine

open Sys2Proof.Claims

/-! ### What sequences leave alone -/

/-- Nothing but the warnings, the raw reader, the lanes, the literal counters, the output and the repeat offsets. -/
def SeqFrame (s t : State) : Prop :=
  t = { warningsOf s t with
    litEmitted := t.litEmitted, litTotal := t.litTotal, writePos := t.writePos, outBuf := t.outBuf
    written := t.written, readPos := t.readPos, rcb := t.rcb, rcn := t.rcn, lanes := t.lanes
    rep0 := t.rep0, rep1 := t.rep1, rep2 := t.rep2 }

theorem SeqFrame.refl (s : State) : SeqFrame s s := rfl

theorem SeqFrame.trans {s t u : State} (h : SeqFrame s t) (k : SeqFrame t u) : SeqFrame s u := by
  unfold SeqFrame at *
  rw [k, h]
  rfl

theorem LitsFrame.seqFrame {s t : State} (h : LitsFrame s t) : SeqFrame s t := by
  rw [h]
  rfl

theorem LaneFrame.seqFrame {s t : State} (h : LaneFrame s t) : SeqFrame s t := h.litsFrame.seqFrame

theorem SeqFrame.warn (c : Warn) (s : State) : SeqFrame s (s.warn c) := rfl

theorem SeqFrame.maxLit {s t : State} (h : SeqFrame s t) : t.maxLit = s.maxLit := by
  rw [h]
  rfl

theorem SeqFrame.sanitize {s t : State} (h : SeqFrame s t) : t.sanitize = s.sanitize := by
  rw [h]
  rfl

theorem SeqFrame.numSeq {s t : State} (h : SeqFrame s t) : t.numSeq = s.numSeq := by
  rw [h]
  rfl

theorem SeqFrame.resolveOffset (ov llv : Nat) (s : State) : SeqFrame s (s.resolveOffset ov llv).2 := by
  unfold State.resolveOffset
  split
  · rfl
  · split <;> rfl

theorem SeqFrame.clampTotal (llv : Nat) (s : State) : SeqFrame s (s.clampTotal llv).2 := by
  unfold State.clampTotal
  simp only
  split <;> rfl

theorem SeqFrame.matchCopy (off len : Nat) (s : State) : SeqFrame s (s.matchCopy off len) := by
  rcases Nat.eq_zero_or_pos off with rfl | hoff
  · obtain ⟨-, -, hframe⟩ := s.matchCopy_zero len
    rw [hframe]
    rfl
  · obtain ⟨-, -, hframe⟩ := State.matchCopy_of_pos hoff len s
    rw [hframe]
    rfl

theorem SeqFrame.setLitTotal (n : Nat) (s : State) : SeqFrame s (s.setLitTotal n) := rfl

theorem SeqFrame.execSeq (q : SeqVals) (s : State) : SeqFrame s (s.execSeq q) :=
  (((SeqFrame.resolveOffset q.ov q.llv s).trans (.clampTotal q.llv _)).trans (.setLitTotal _ _)).trans
    ((LitsFrame.litTarget _ _).seqFrame.trans (.matchCopy _ _ _))

theorem SeqFrame.forLanes {f : LaneId → State → State} (hf : ∀ l u, SeqFrame u (f l u)) (ls : List LaneId) (s : State) :
    SeqFrame s (Machine.forLanes ls f s) :=
  forLanes_keeps ls (P := SeqFrame s) (fun l _ u hu => hu.trans (hf l u)) (.refl s)

theorem LaneFrame.readBatch (G : List LaneId) (s : State) : LaneFrame s (s.readBatch G).2 := by
  unfold State.readBatch
  refine LaneFrame.trans ?_ (.discardV G _ _)
  refine LaneFrame.trans ?_ (.peekV G _ _)
  refine LaneFrame.trans ?_ (.discardV G _ _)
  refine LaneFrame.trans ?_ (.peekV G _ _)
  refine LaneFrame.trans ?_ (.discardAcc G _)
  refine LaneFrame.trans ?_ (.fseDecNP .off G _)
  refine LaneFrame.trans ?_ (.fseDecNP .ml G _)
  exact (LaneFrame.peekV G _ s).trans (.fseDecNP .ll G _)

theorem SeqFrame.seqBatch (G : List LaneId) (s : State) : SeqFrame s (s.seqBatch G) :=
  (LaneFrame.readBatch G s).seqFrame.trans (.forLanes (fun _ u => .execSeq _ u) G _)

/-! ### The reads of a batch (R362 steps 1 to 3) -/

theorem exec_fsedecnp {s : State} (h : s.sanitize = true) (t : Tbl) {cnt : Nat} (hcnt : cnt ≤ 32) :
    exec (.fsedecnp t 0 (BitVec.ofNat 6 cnt)) s = .next (s.fseDecNP t (laneRange 0 cnt)) := by
  have hlanes : cmdLanes 0 (BitVec.ofNat 6 cnt) = laneRange 0 cnt := by
    rw [cmdLanes_eq, BitVec.toNat_ofNat, Nat.mod_eq_of_lt (by omega)]
    rfl
  exact hlanes ▸ finish_of_sanitize h

theorem exec_discardacc {s : State} (h : s.sanitize = true) {cnt : Nat} (hcnt : cnt ≤ 32) :
    exec (.discardacc 0 (BitVec.ofNat 6 cnt)) s = .next (s.discardAcc (laneRange 0 cnt)) := by
  have hlanes : cmdLanes 0 (BitVec.ofNat 6 cnt) = laneRange 0 cnt := by
    rw [cmdLanes_eq, BitVec.toNat_ofNat, Nat.mod_eq_of_lt (by omega)]
    rfl
  exact hlanes ▸ finish_of_sanitize h

/-- The offset value of a code in range does not wrap (R360). -/
theorem offsetValue_of_le {c x : Nat} (hc : c ≤ 31) (hx : x < 2 ^ c) : offsetValue c x = 2 ^ c + x := by
  have hpow : 2 ^ c ≤ 2 ^ 31 := Nat.pow_le_pow_right (by decide) hc
  rw [offsetValue, if_pos hc, Nat.mod_eq_of_lt (by omega)]

/-- The batch read is its peeks, decodes and drops (R162, R358 to R360). -/
theorem State.readBatch_batchRead {s : State} (hsan : s.sanitize = true) (hok : s.fseTableOk .off) {cnt : Nat}
    (hcnt : cnt ≤ 32) : BatchRead s (s.readBatch (laneRange 0 cnt)).2 cnt (s.readBatch (laneRange 0 cnt)).1 := by
  have hx : LaneFrame s (s.peekV (laneRange 0 cnt) fun l => s.fsd l .ll + s.fsd l .ml + s.fsd l .off) := .peekV ..
  have hpeek := s.peekV_peekEffect 0 cnt fun l => s.fsd l .ll + s.fsd l .ml + s.fsd l .off
  unfold State.readBatch
  simp only
  generalize (s.peekV (laneRange 0 cnt) fun l => s.fsd l .ll + s.fsd l .ml + s.fsd l .off) = x at hx hpeek ⊢
  have hL := hx.trans (.fseDecNP .ll (laneRange 0 cnt) x)
  have hexecL := exec_fsedecnp (hx.sanitize.trans hsan) .ll hcnt
  generalize x.fseDecNP .ll (laneRange 0 cnt) = xL at hL hexecL ⊢
  have hM := hL.trans (.fseDecNP .ml (laneRange 0 cnt) xL)
  have hexecM := exec_fsedecnp (hL.sanitize.trans hsan) .ml hcnt
  generalize xL.fseDecNP .ml (laneRange 0 cnt) = xM at hM hexecM ⊢
  have hO := hM.trans (.fseDecNP .off (laneRange 0 cnt) xM)
  have hexecO := exec_fsedecnp (hM.sanitize.trans hsan) .off hcnt
  have hcode : ∀ l, inRange 0 cnt l = true → (xM.fseDecNP .off (laneRange 0 cnt)).syms l ≤ 31 := fun l hl =>
    State.fseDecNP_syms_le (t := .off) (hM.fseTableOk hok) (mem_laneRange_iff_inRange.2 hl)
  generalize xM.fseDecNP .off (laneRange 0 cnt) = xO at hO hexecO hcode ⊢
  refine ⟨x, xL, xM, xO, _, _, _, _, hpeek, hexecL, hexecM, hexecO, exec_discardacc (hO.sanitize.trans hsan) hcnt,
    State.peekV_peekEffect 0 cnt _ _, State.discardV_dropEffect 0 cnt _ _, State.peekV_peekEffect 0 cnt _ _,
    State.discardV_dropEffect 0 cnt _ _, fun l hl => ?_⟩
  have hwindow : ∀ (u : State) (n : LaneId → Nat),
      u.windowBits (fun _ => 0) n l = (u.lane l).pv.toNat % 2 ^ n l := fun u n => by
    simp [State.windowBits, lowBits]
  simp only [hwindow, offsetValue_of_le (hcode l hl) (Nat.mod_lt _ (Nat.two_pow_pos _))]
  rfl

/-! ### One sequence (R362 step 4) -/

theorem exec_matchcopy {s : State} (h : s.sanitize = true) :
    exec .matchcopy s = .next (s.matchCopy s.arg0.toNat s.arg1.toNat) :=
  finish_of_sanitize h

theorem State.resolveOffset_lt (ov llv : Nat) (s : State) : (s.resolveOffset ov llv).1 < 2 ^ 32 := by
  unfold State.resolveOffset
  split
  · exact BitVec.isLt _
  · split <;> exact BitVec.isLt _

/-- The clamp of the running total (R362 step 4). -/
theorem State.clampTotal_eq (llv : Nat) (s : State) :
    s.clampTotal llv = (min (s.litTotal.toNat + llv) s.maxLit.toNat,
      if s.maxLit.toNat < s.litTotal.toNat + llv then s.warn .litOverrun else s) := by
  unfold State.clampTotal
  simp only
  split
  · rw [Nat.min_eq_right (by omega)]
  · rw [Nat.min_eq_left (by omega)]

theorem State.resolveOffset_litTotal (ov llv : Nat) (s : State) : (s.resolveOffset ov llv).2.litTotal = s.litTotal := by
  unfold State.resolveOffset
  split
  · rfl
  · split <;> rfl

/-- `LITTARGET` as a command, its target in `ARG0`. -/
theorem exec_littarget_withArg0 {s : State} (h : s.sanitize = true) {T : Nat} (hT : T < 2 ^ 32) :
    exec .littarget (withArg0 s T) = .next ((s.litTarget T).outer
      { withArg0 s T with res := (s.litTarget T).litEmitted.setWidth 64 }) := by
  have hexec := exec_littarget (s := withArg0 s T) h
  have harg : (withArg0 s T).arg0.toNat = T := Nat.mod_eq_of_lt hT
  have houter : (withArg0 s T).litTarget T = (s.litTarget T).outer (withArg0 s T) :=
    outer_litTarget (withArg0 s T) s T
  rw [harg, houter] at hexec
  exact hexec

/-- A part of a command that leaves the operands and `RES` alone, done on a state with others: they are put back. -/
theorem SeqFrame.eq_restored {s t w : State} (h : SeqFrame s t) (hw : SeqFrame s w) (a b : Word) (r : Dword) :
    t = { t.outer { w with arg0 := a, arg1 := b, res := r } with arg0 := s.arg0, arg1 := s.arg1, res := s.res } := by
  unfold SeqFrame at h hw
  rw [hw, h]
  rfl

/-- A sequence is executed as `LITTARGET` and `MATCH` do it (R362 step 4). -/
theorem State.execSeq_sequenceDone {s : State} (hsan : s.sanitize = true) {q : SeqVals} (hmlv : q.mlv < 2 ^ 32) :
    SequenceDone q s (s.execSeq q) := by
  have hframe := SeqFrame.execSeq q s
  have hresolve := SeqFrame.resolveOffset q.ov q.llv s
  have hclampFrame := hresolve.trans (.clampTotal q.llv _)
  have hclamp := (s.resolveOffset q.ov q.llv).2.clampTotal_eq q.llv
  rw [hresolve.maxLit, s.resolveOffset_litTotal q.ov q.llv] at hclamp
  have hT : min (s.litTotal.toNat + q.llv) s.maxLit.toNat < 2 ^ 32 :=
    (Nat.min_le_right _ _).trans_lt s.maxLit.isLt
  have hoff := s.resolveOffset_lt q.ov q.llv
  unfold State.execSeq at hframe ⊢
  simp only [hclamp] at hframe hclampFrame ⊢
  unfold SequenceDone
  simp only
  generalize min (s.litTotal.toNat + q.llv) s.maxLit.toNat = T at hT hframe hclampFrame ⊢
  generalize hw : (if s.maxLit.toNat < s.litTotal.toNat + q.llv then (s.resolveOffset q.ov q.llv).2.warn .litOverrun
    else (s.resolveOffset q.ov q.llv).2) = w at hframe hclampFrame ⊢
  have htotal := hclampFrame.trans (.setLitTotal T w)
  have hlits := exec_littarget_withArg0 (htotal.sanitize.trans hsan) hT
  have hmatch := exec_matchcopy (s := ((w.setLitTotal T).litTarget T).outer { w.setLitTotal T with
    arg0 := BitVec.ofNat 32 (s.resolveOffset q.ov q.llv).1, arg1 := BitVec.ofNat 32 q.mlv
    res := ((w.setLitTotal T).litTarget T).litEmitted.setWidth 64 }) (htotal.sanitize.trans hsan)
  have harg0 : (BitVec.ofNat 32 (s.resolveOffset q.ov q.llv).1).toNat = (s.resolveOffset q.ov q.llv).1 :=
    Nat.mod_eq_of_lt hoff
  have harg1 : (BitVec.ofNat 32 q.mlv).toNat = q.mlv := Nat.mod_eq_of_lt hmlv
  rw [outer_matchCopy] at hmatch
  change exec _ _ = .next ((State.matchCopy (BitVec.ofNat 32 (s.resolveOffset q.ov q.llv).1).toNat
    (BitVec.ofNat 32 q.mlv).toNat _).outer _) at hmatch
  rw [harg0, harg1] at hmatch
  exact ⟨_, _, hlits, hmatch, hframe.eq_restored htotal _ _ _⟩

end Sys2Proof.Machine
end

section
/-! `SEQEXEC` as a command (44_sequences.md R362): the batches one after the other, and the literals that are left. -/

namespace Sys2Proof.Machine

open Sys2Proof.Claims

/-! ### A batch -/

theorem laneRange_succ {cnt : Nat} (h : cnt < 32) : laneRange 0 (cnt + 1) = laneRange 0 cnt ++ [Fin.ofNat 32 cnt] := by
  rw [laneRange_eq_map (by omega), laneRange_eq_map (by omega), List.range_succ, List.map_append]
  simp

/-- A batch is its reads, then its sequences in lane order (R362). -/
theorem State.seqBatch_batchDone {s : State} (hsan : s.sanitize = true) (hok : s.tablesOk) {cnt : Nat} (hcnt : cnt ≤ 32) :
    BatchDone s (s.seqBatch (laneRange 0 cnt)) cnt := by
  have hread := State.readBatch_batchRead hsan (hok.1 .off) hcnt
  have hframe := (LaneFrame.readBatch (laneRange 0 cnt) s).seqFrame
  refine ⟨_, _, fun k => forLanes (laneRange 0 k) (fun l => State.execSeq ((s.readBatch (laneRange 0 cnt)).1 l))
    (s.readBatch (laneRange 0 cnt)).2, hread, ?_, fun k hk => ?_, rfl⟩
  · have hnone : laneRange 0 0 = [] := List.eq_nil_of_length_eq_zero (length_laneRange (by omega))
    simp only [hnone, forLanes_nil]
  · have hbefore := hframe.trans (.forLanes (fun l u => .execSeq ((s.readBatch (laneRange 0 cnt)).1 l) u) (laneRange 0 k) _)
    have hmem : Fin.ofNat 32 k ∈ laneRange 0 cnt :=
      mem_laneRange.2 (by rw [show (Fin.ofNat 32 k).val = k from Nat.mod_eq_of_lt (by omega)]; omega)
    have hmlv := State.readBatch_mlv_le (hok.1 .ml) hmem
    have hone := State.execSeq_sequenceDone (hbefore.sanitize.trans hsan) (hmlv.trans_lt (by decide))
    simp only [laneRange_succ (show k < 32 by omega), forLanes_append, forLanes_cons, forLanes_nil]
    exact hone

/-! ### The batches -/

/-- The machine after `j` batches of `n` sequences (R362). -/
def batchesOf (n : Nat) (s : State) : Nat → State
  | 0 => s
  | j + 1 => (batchesOf n s j).seqBatch (laneRange 0 (min 32 (n - 32 * j)))

theorem batchesOf_frame (n : Nat) (s : State) (j : Nat) : SeqFrame s (batchesOf n s j) := by
  induction j with
  | zero => exact .refl s
  | succ j ih => exact ih.trans (.seqBatch _ _)

theorem batchesOf_tablesOk {n : Nat} {s : State} (h : s.tablesOk) (j : Nat) : (batchesOf n s j).tablesOk := by
  induction j with
  | zero => exact h
  | succ j ih =>
    obtain ⟨-, hkeep, -⟩ := tablesOk_tracked.seqBatch (laneRange_length_le_32 0 (min 32 (n - 32 * j))) (batchesOf n s j)
    exact hkeep ih

/-- The loop over the sequences is its batches. -/
theorem seqBatches_eq (n : Nat) (s : State) {fuel j : Nat} (h : fuel + j = (n + 31) / 32) :
    seqBatches fuel (n - 32 * j) (batchesOf n s j) = batchesOf n s ((n + 31) / 32) := by
  induction fuel generalizing j with
  | zero =>
    obtain rfl : j = (n + 31) / 32 := by omega
    rfl
  | succ fuel ih =>
    have hleft : n - 32 * j - min 32 (n - 32 * j) = n - 32 * (j + 1) := by omega
    rw [seqBatches, if_pos (by omega), hleft]
    exact ih (by omega)

/-! ### The command -/

/-- The packed size read into `NUMSEQ`. -/
def State.numSeqRead (s : State) : State := s.readPackedSize.2.setNumSeq s.readPackedSize.1

theorem State.numSeqRead_frame (s : State) :
    s.numSeqRead = { s with
      numSeq := s.numSeqRead.numSeq, readPos := s.numSeqRead.readPos, rcb := s.numSeqRead.rcb, rcn := s.numSeqRead.rcn } := by
  obtain ⟨-, -, hframe⟩ := s.readPackedSize_taken
  unfold State.numSeqRead
  rw [hframe]
  rfl

/-- As a command `RDPSIZE` leaves the size in `RES`; `SEQEXEC` leaves it in `NUMSEQ`. -/
theorem State.numSeqRead_eq (s : State) :
    s.numSeqRead = { s.readPackedSize.2.setRes s.readPackedSize.1 with
      numSeq := BitVec.ofNat 32 (packedSizeAt s 0).1, res := s.res } := by
  obtain ⟨hsize, -, hframe⟩ := s.readPackedSize_taken
  unfold State.numSeqRead
  rw [hsize, hframe]
  rfl

theorem State.numSeqRead_numSeq (s : State) : s.numSeqRead.numSeq.toNat = (packedSizeAt s 0).1 := by
  obtain ⟨hsize, -⟩ := s.readPackedSize_taken
  have hle := s.readPackedSize_le
  show (BitVec.ofNat 32 s.readPackedSize.1).toNat = _
  rw [hsize] at hle ⊢
  exact Nat.mod_eq_of_lt (by omega)

theorem State.numSeqRead_built (s : State) (k : Tbl) : s.numSeqRead.built k = s.built k := by
  rw [s.numSeqRead_frame]
  rfl

/-- The machine on which `SEQEXEC` executes its sequences: the number of them read, the live states set up (R362). -/
def State.sequenceStart (s : State) : State :=
  ((s.numSeqRead.fseInit .ll allLanes).fseInit .ml allLanes).fseInit .off allLanes

theorem State.sequenceStart_frame (s : State) : LaneFrame s.numSeqRead s.sequenceStart :=
  (LaneFrame.fseInit .ll allLanes _).trans ((LaneFrame.fseInit .ml allLanes _).trans (.fseInit .off allLanes _))

/-- All three tables of the sequences are built. -/
def State.sequenceTables (s : State) : Bool := s.built .ll && s.built .ml && s.built .off

/-- The machine before the last literals of `SEQEXEC`: after its batches, or, with a table unbuilt, after the warning. -/
def State.sequencesRead (s : State) : State :=
  if s.sequenceTables then batchesOf (packedSizeAt s 0).1 s.sequenceStart (((packedSizeAt s 0).1 + 31) / 32)
  else s.numSeqRead.warn .tableNotBuilt

theorem State.sequencesRead_frame (s : State) : SeqFrame s.numSeqRead s.sequencesRead := by
  unfold State.sequencesRead
  split
  · exact s.sequenceStart_frame.seqFrame.trans (batchesOf_frame _ _ _)
  · exact .warn _ _

/-- With no sequence to execute nothing but lanes and warnings changes before the last literals. -/
theorem State.sequencesRead_laneFrame {s : State} (h : (packedSizeAt s 0).1 = 0 ∨ s.sequenceTables = false) :
    LaneFrame s.numSeqRead s.sequencesRead := by
  unfold State.sequencesRead
  split
  · rename_i hbuilt
    have hzero : (packedSizeAt s 0).1 = 0 := h.resolve_right (by simp [hbuilt])
    rw [hzero]
    exact s.sequenceStart_frame
  · exact .warn _ _

theorem State.numSeqRead_maxLit (s : State) : s.numSeqRead.maxLit = s.maxLit := by rw [s.numSeqRead_frame]

/-- `SeqExec` ends with the literals that are left (R362 step 5). -/
theorem State.seqExec_eq (s : State) : s.seqExec = s.sequencesRead.litTarget s.maxLit.toNat := by
  obtain ⟨hsize, -, -⟩ := s.readPackedSize_taken
  have hmax : s.sequencesRead.maxLit = s.maxLit := s.sequencesRead_frame.maxLit.trans s.numSeqRead_maxLit
  rw [← hmax]
  have hbuilt : (s.numSeqRead.built .ll && s.numSeqRead.built .ml && s.numSeqRead.built .off) = s.sequenceTables := by
    rw [s.numSeqRead_built, s.numSeqRead_built, s.numSeqRead_built]
    rfl
  have hunfold : s.seqExec =
      if s.numSeqRead.built .ll && s.numSeqRead.built .ml && s.numSeqRead.built .off then
        (seqBatches ((s.readPackedSize.1 + 31) / 32) s.readPackedSize.1 s.sequenceStart).litTarget
          (seqBatches ((s.readPackedSize.1 + 31) / 32) s.readPackedSize.1 s.sequenceStart).maxLit.toNat
      else (s.numSeqRead.warn .tableNotBuilt).litTarget (s.numSeqRead.warn .tableNotBuilt).maxLit.toNat := rfl
  have hbatches := seqBatches_eq (packedSizeAt s 0).1 s.sequenceStart (j := 0) (fuel := ((packedSizeAt s 0).1 + 31) / 32) rfl
  rw [Nat.mul_zero, Nat.sub_zero] at hbatches
  rw [hunfold, hbuilt, hsize]
  unfold State.sequencesRead
  split
  · exact congrArg (fun u : State => u.litTarget u.maxLit.toNat) hbatches
  · rfl

theorem batchesOf_litOk {n : Nat} {s : State} (h : s.litOk) (j : Nat) : (batchesOf n s j).litOk := by
  induction j with
  | zero => exact h
  | succ j ih =>
    obtain ⟨-, hkeep, -⟩ := litOk_tracked.seqBatch (laneRange_length_le_32 0 (min 32 (n - 32 * j))) (batchesOf n s j)
    exact hkeep ih

theorem State.sequencesRead_litOk {s : State} (h : s.litOk) : s.sequencesRead.litOk := by
  have hread : s.numSeqRead.litOk := litOk_tracked.readNumSeq s h
  unfold State.sequencesRead
  split
  · exact batchesOf_litOk (litOk_tracked.initStates _ hread) _
  · exact litOk_tracked.warn _ _ hread

/-- `SEQEXEC` emits every literal that was left before its last step (R362). -/
theorem State.seqExec_emitted {s : State} (h : s.litOk) :
    Emitted (s.maxLit.toNat - s.sequencesRead.litEmitted.toNat) s.sequencesRead s.seqExec := by
  have hmax : s.sequencesRead.maxLit = s.maxLit := s.sequencesRead_frame.maxLit.trans s.numSeqRead_maxLit
  rw [s.seqExec_eq]
  exact .litTarget (by rw [hmax]) (hmax ▸ (State.sequencesRead_litOk h).1)

theorem State.seqExec_litEmitted {s : State} (h : s.litOk) : s.seqExec.litEmitted = s.maxLit := by
  have hmax : s.sequencesRead.maxLit = s.maxLit := s.sequencesRead_frame.maxLit.trans s.numSeqRead_maxLit
  have hle := (State.sequencesRead_litOk h).1
  rw [hmax] at hle
  refine BitVec.eq_of_toNat_eq ?_
  rw [(State.seqExec_emitted h).counted]
  omega

theorem State.seqExec_frame (s : State) : SeqFrame s.numSeqRead s.seqExec := by
  rw [s.seqExec_eq]
  exact s.sequencesRead_frame.trans (LitsFrame.litTarget _ _).seqFrame

theorem exec_seqexec {s : State} (h : s.sanitize = true) :
    exec .seqexec s = .next (s.seqExec.setRes s.seqExec.numSeq.toNat) :=
  finish_of_sanitize h

/-- The last literals as `LITTARGET` emits them, the operand and `RES` put back. -/
theorem exec_littarget_restored {s w : State} (hw : SeqFrame s w) (hsan : s.sanitize = true) (T : Word) :
    ∃ y, exec .littarget { w with arg0 := T } = .next y ∧
      ∀ v : Dword, { w.litTarget T.toNat with res := v } = { y with arg0 := s.arg0, res := v } := by
  have hexec := exec_littarget (s := { w with arg0 := T }) (hw.sanitize.trans hsan)
  have houter : State.litTarget T.toNat { w with arg0 := T } = (w.litTarget T.toNat).outer { w with arg0 := T } :=
    outer_litTarget { w with arg0 := T } w T.toNat
  rw [houter] at hexec
  refine ⟨_, hexec, fun v => ?_⟩
  have hframe := hw.trans (LitsFrame.litTarget T.toNat w).seqFrame
  generalize w.litTarget T.toNat = u at hframe
  unfold SeqFrame at hw hframe
  rw [hframe, hw]
  rfl

/-- Where fewer than 2^64 bytes are produced, `WRITEPOS` advances by as many. -/
theorem Stored.length_eq {s t : State} {bs : List Byte} (h : Stored s t bs) (hlt : bs.length < 2 ^ 64) :
    bs.length = (t.writePos - s.writePos).toNat := by
  rw [h.1, add_sub_cancel_left, BitVec.toNat_ofNat, Nat.mod_eq_of_lt hlt]

/-- The bytes of `SEQEXEC`: as many as `WRITEPOS` advances, and with no sequences the literals that were left. -/
theorem State.seqExec_stored {s : State} (h : s.litOk) :
    ∃ bs, Stored s s.seqExec bs ∧ (s.tablesOk → bs.length = (s.seqExec.writePos - s.writePos).toNat) ∧
      ((packedSizeAt s 0).1 = 0 ∨ s.sequenceTables = false → bs.length = s.maxLit.toNat - s.litEmitted.toNat) := by
  by_cases hnone : (packedSizeAt s 0).1 = 0 ∨ s.sequenceTables = false
  · have hlane := State.sequencesRead_laneFrame hnone
    obtain ⟨⟨bs, hbs, hlen⟩, -, -⟩ := State.seqExec_emitted h
    have hlit : s.sequencesRead.litEmitted = s.litEmitted := by rw [hlane.litEmitted, s.numSeqRead_frame]
    have hstart : Stored s s.seqExec bs := hbs.congr_left (by rw [hlane, s.numSeqRead_frame]; rfl)
      (by rw [hlane, s.numSeqRead_frame]; rfl) (by rw [hlane, s.numSeqRead_frame]; rfl)
      (by rw [hlane, s.numSeqRead_frame]; rfl)
    have hmax := s.maxLit.isLt
    rw [hlit] at hlen
    exact ⟨bs, hstart, fun _ => Stored.length_eq hstart (by omega), fun _ => hlen⟩
  · obtain ⟨w, ⟨-, -, bs, hbs, hlen⟩, hw⟩ := produced_tracked.seqExec s
    have hlit := s.seqExec.litEmitted.isLt
    refine ⟨bs, hbs, fun hok => Stored.length_eq hbs ?_, fun h => absurd h hnone⟩
    have := hw hok
    omega

/-- A sticky warning stays (R452). -/
theorem sticky_closed (k : Nat) : Closed fun s t => s.warnSticky.getLsbD k = true → t.warnSticky.getLsbD k = true where
  refl _ := id
  trans h k := k ∘ h
  warn c s hs := by simp [State.warn, hs]
  inWord _ := id
  emit _ _ := id
  refill l n s _ hs := by
    unfold State.refill
    split <;> exact hs
  window _ _ _ _ := id
  drop l n s hs := by
    unfold State.drop
    split
    · simp [State.modLane, State.warn, State.setLane, hs]
    · exact hs
  setDacc _ _ _ := id
  emptyLane _ _ := id
  clearCache _ := id
  fillCache _ _ := id
  takeCached _ := id
  setSym _ _ _ := id
  setFse _ _ _ _ _ := id
  setFseCell _ _ _ := id
  setBuilt _ _ _ := id
  clearWeights _ := id
  setHufWeight _ _ _ := id
  setHufn _ _ := id
  setHufEntry _ _ _ := id
  setHufBuilt _ _ := id
  openLits _ _ _ := id
  setRle _ _ := id
  countLit _ := id
  setRep _ _ _ _ := id
  setLitTotal _ _ := id
  setNumSeq _ _ := id
  setRunState _ _ := id

end Sys2Proof.Machine

namespace Sys2Proof.Claims

open Sys2Proof.Machine

/-- With the tables built the sequences are executed by their commands (R362). -/
theorem seqExec_sequencesDone {s : State} (hsan : s.sanitize = true) (hbuilt : s.sequenceTables = true)
    (hok : s.tablesOk) : SequencesDone s.numSeqRead (s.seqExec.setRes s.seqExec.numSeq.toNat) (packedSizeAt s 0).1 := by
  have hread : s.numSeqRead.tablesOk := tablesOk_tracked.readNumSeq s hok
  have hstart : s.sequenceStart.tablesOk := tablesOk_tracked.initStates _ hread
  have hsanRead : s.numSeqRead.sanitize = true := by
    rw [s.numSeqRead_frame]
    exact hsan
  have hL := LaneFrame.fseInit .ll allLanes s.numSeqRead
  have hM := hL.trans (.fseInit .ml allLanes _)
  have hinit : ∀ (t : Tbl) (u : State), u.sanitize = true → exec (.fseinit t 0 32) u = .next (u.fseInit t allLanes) :=
    fun t u hu => (exec_fseinit hu t 0 32).trans (by
      rw [show laneRange (0 : BitVec 5).toNat (32 : BitVec 6).toNat = allLanes from laneRange_all])
  have hframe : ∀ j, SeqFrame s.numSeqRead (batchesOf (packedSizeAt s 0).1 s.sequenceStart j) := fun j =>
    s.sequenceStart_frame.seqFrame.trans (batchesOf_frame _ _ j)
  obtain ⟨y, hy, hrestored⟩ := exec_littarget_restored (hframe (((packedSizeAt s 0).1 + 31) / 32)) hsanRead s.numSeqRead.maxLit
  refine ⟨_, _, y, batchesOf (packedSizeAt s 0).1 s.sequenceStart, hinit .ll _ hsanRead,
    hinit .ml _ (hL.sanitize.trans hsanRead), hinit .off _ (hM.sanitize.trans hsanRead), fun j hj => ?_, hy, ?_⟩
  · exact State.seqBatch_batchDone ((hframe j).sanitize.trans hsanRead) (batchesOf_tablesOk hstart j)
      (Nat.min_le_left _ _)
  · rw [← hrestored, s.seqExec_eq, State.sequencesRead, if_pos hbuilt, s.numSeqRead_maxLit]
    rfl

/-- With a table unbuilt the literals that are left are emitted as `LITTARGET` does it (R362). -/
theorem seqExec_unbuilt {s : State} (hsan : s.sanitize = true) (hbuilt : s.sequenceTables = false) :
    ∃ y, exec .littarget { s.numSeqRead.warn .tableNotBuilt with arg0 := s.maxLit } = .next y ∧
      s.seqExec.setRes s.seqExec.numSeq.toNat =
        { y with arg0 := s.arg0, res := (s.seqExec.setRes s.seqExec.numSeq.toNat).res } := by
  have hsanRead : s.numSeqRead.sanitize = true := by
    rw [s.numSeqRead_frame]
    exact hsan
  have harg : s.numSeqRead.arg0 = s.arg0 := by rw [s.numSeqRead_frame]
  obtain ⟨y, hy, hrestored⟩ := exec_littarget_restored (SeqFrame.warn .tableNotBuilt s.numSeqRead) hsanRead s.maxLit
  rw [harg] at hrestored
  refine ⟨y, hy, ?_⟩
  rw [← hrestored, s.seqExec_eq, State.sequencesRead, if_neg (by simp [hbuilt])]
  rfl

theorem seqExec_sticky {s : State} (hbuilt : s.sequenceTables = false) : s.seqExec.warnSticky.getLsbD 8 = true := by
  rw [s.seqExec_eq, State.sequencesRead, if_neg (by simp [hbuilt])]
  refine (sticky_closed 8).litTarget _ _ ?_
  have hcode : (BitVec.ofNat 32 (2 ^ Warn.tableNotBuilt.code)).getLsbD 8 = true := by decide
  simp only [State.warn, BitVec.getLsbD_or, hcode, Bool.or_true]

/-- With no sequences the repeat offsets and `LITTOTAL` are kept. -/
theorem seqExec_kept {s : State} (h : (packedSizeAt s 0).1 = 0 ∨ s.sequenceTables = false) :
    s.seqExec.rep0 = s.rep0 ∧ s.seqExec.rep1 = s.rep1 ∧ s.seqExec.rep2 = s.rep2 ∧ s.seqExec.litTotal = s.litTotal := by
  have hframe : LitsFrame s.numSeqRead s.seqExec := by
    rw [s.seqExec_eq]
    exact (State.sequencesRead_laneFrame h).litsFrame.trans (.litTarget _ _)
  rw [hframe, s.numSeqRead_frame]
  exact ⟨rfl, rfl, rfl, rfl⟩

/-- Settles O44: the number read, the batches or the warning, and the literals that are left. -/
theorem seqexecEmitsAllLiterals : Obligations.SeqexecEmitsAllLiterals := by
  refine ⟨by decide, fun s hsan hlit => ?_⟩
  have hnum : s.seqExec.numSeq.toNat = (packedSizeAt s 0).1 := by
    rw [s.seqExec_frame.numSeq, s.numSeqRead_numSeq]
  have hres : (s.seqExec.setRes s.seqExec.numSeq.toNat).res.toNat = s.seqExec.numSeq.toNat := by
    have := s.seqExec.numSeq.isLt
    rw [State.setRes_res, BitVec.toNat_ofNat]
    omega
  obtain ⟨w, hkeep, -⟩ := litOk_tracked.seqExec s
  obtain ⟨bs, hstored, hadvance, hnone⟩ := State.seqExec_stored hlit
  refine ⟨_, _, bs, exec_seqexec hsan, exec_rdpsize s, fun hbuilt hok => ?_, fun hbuilt => ?_, hnum, hres.trans hnum,
    State.seqExec_litEmitted hlit, hkeep hlit, Stored.congr hstored rfl rfl rfl, hadvance, fun h => ⟨hnone h, seqExec_kept h⟩,
    seqExec_sticky, ?_⟩
  · rw [← s.numSeqRead_eq]
    exact seqExec_sequencesDone hsan hbuilt hok
  · rw [← s.numSeqRead_eq]
    exact seqExec_unbuilt hsan hbuilt
  · have hframe := s.seqExec_frame
    have hread := s.numSeqRead_frame
    generalize s.seqExec = t at hframe
    generalize s.numSeqRead = u at hframe hread
    unfold SeqFrame at hframe
    rw [hframe, hread]
    rfl

end Sys2Proof.Claims
end

section
/-! The steps of `CBLOCK` as commands (45_block_driver.md R403): the operands and `RES` of a command stand apart from the machine
that the shared operations work on. -/

namespace Sys2Proof.Machine

open Sys2Proof.Claims

/-! ### A machine in the middle of a command -/

/-- The machine `m` with the host's side of `s`, the value `a` in `ARG0` and the value `r` in `RES`. -/
def State.within (m s : State) (a : Word) (r : Dword) : State := m.outer { s with arg0 := a, res := r }

theorem State.within_res (m s : State) (a : Word) (r : Dword) : (m.within s a r).res = r := rfl

section
variable {s : State} (hsan : s.sanitize = true) (m : State) (a : Word) (r : Dword)

theorem checked_within (k : Nat) : checked k (m.within s a r) = (m.checkReserved k).within s a r :=
  outer_checkReserved { s with arg0 := a, res := r } m k

theorem withArg0_within (v : Nat) : withArg0 (m.within s a r) v = m.within s (BitVec.ofNat 32 v) r := rfl

theorem exec_rdpsize_within :
    exec .rdpsize (m.within s a r) = .next (m.readPackedSize.2.within s a (BitVec.ofNat 64 m.readPackedSize.1)) := by
  have h := exec_rdpsize (m.within s a r)
  rw [State.within, outer_readPackedSize] at h
  exact h

include hsan

theorem exec_rdbyte_within :
    exec .rdbyte (m.within s a r) = .next (m.readByte.2.within s a (BitVec.ofNat 64 m.readByte.1.toNat)) := by
  have h := exec_rdbyte (s := m.within s a r) hsan
  rw [State.within, outer_readByte] at h
  exact h

theorem exec_litcfg_within (mode : BitVec 2) :
    exec (.litcfg mode) (m.within s a r) = .next ((m.litCfg mode a).within s a r) := by
  have h : exec (.litcfg mode) (m.within s a r) = .next ((m.within s a r).litCfg mode a) := finish_of_sanitize hsan
  rw [State.within, outer_litCfg] at h
  exact h

theorem exec_setrle_within :
    exec .setrle (m.within s a r) = .next ((m.setRle (a.extractLsb' 0 8)).within s a r) :=
  finish_of_sanitize hsan

theorem exec_hufwex_within :
    exec .hufwex (m.within s a r) =
      .next (m.hufWeightsExplicit.2.within s a (BitVec.ofNat 64 m.hufWeightsExplicit.1)) := by
  have h : exec .hufwex (m.within s a r) =
    .next ((m.within s a r).hufWeightsExplicit.2.setRes (m.within s a r).hufWeightsExplicit.1) := finish_of_sanitize hsan
  rw [State.within, outer_hufWeightsExplicit] at h
  exact h

theorem exec_hufwfse_within (aux : BitVec 1) :
    exec (.hufwfse aux) (m.within s a r) =
      .next ((m.hufWeightsFse aux.toNat).2.within s a (BitVec.ofNat 64 (m.hufWeightsFse aux.toNat).1)) := by
  have h := exec_hufwfse (s := m.within s a r) hsan aux
  rw [State.within, outer_hufWeightsFse] at h
  exact h

theorem exec_hufexpand_within :
    exec .hufexpand (m.within s a r) = .next (m.hufExpand.2.within s a (BitVec.ofNat 64 m.hufExpand.1)) := by
  have h := exec_hufexpand (s := m.within s a r) hsan
  rw [State.within, outer_hufExpand] at h
  exact h

theorem exec_fsepredef_within {t : Tbl} (ht : t ≠ .hw) :
    exec (.fsepredef t) (m.within s a r) = .next ((m.fsePredef t).2.within s a (BitVec.ofNat 64 (m.fsePredef t).1)) := by
  have h : exec (.fsepredef t) (m.within s a r) =
      .next (((m.within s a r).fsePredef t).2.setRes ((m.within s a r).fsePredef t).1) := by
    cases t with
    | hw => exact absurd rfl ht
    | ll => exact finish_of_sanitize hsan
    | ml => exact finish_of_sanitize hsan
    | off => exact finish_of_sanitize hsan
  rw [State.within, outer_fsePredef] at h
  exact h

theorem exec_fsebuild_within (t : Tbl) (n : BitVec 6) :
    exec (.fsebuild t n) (m.within s a r) =
      .next ((m.fseBuild t n.toNat).2.within s a (BitVec.ofNat 64 (m.fseBuild t n.toNat).1)) := by
  have h := exec_fsebuild_eq (s := m.within s a r) hsan t n
  rw [State.within, outer_fseBuild] at h
  exact h

theorem exec_seqexec_within :
    exec .seqexec (m.within s a r) = .next (m.seqExec.within s a (BitVec.ofNat 64 m.seqExec.numSeq.toNat)) := by
  have h := exec_seqexec (s := m.within s a r) hsan
  rw [State.within, outer_seqExec] at h
  exact h

end

/-! ### Descriptors (30_encoding.md R150, R155 to R157) -/

theorem descReserved_eq (d : Byte) : descReserved d = d.toNat / 8 := by
  have := d.isLt
  simp only [descReserved, BitVec.extractLsb'_toNat, Nat.shiftRight_eq_div_pow]
  omega

theorem accReserved_eq (d : Byte) : accReserved d = d.toNat / 16 := by
  have := d.isLt
  simp only [accReserved, BitVec.extractLsb'_toNat, Nat.shiftRight_eq_div_pow]
  omega

theorem accRequested_eq (d : Byte) : accRequested d = 5 + d.toNat % 16 := by
  simp [accRequested]

theorem descLitMode_eq (d : Byte) : descLitMode d = BitVec.ofNat 2 d.toNat := by
  simp [descLitMode, BitVec.extractLsb']

theorem descLitMode_eq_ofNat_iff (d : Byte) {k : Nat} (hk : k < 4) : descLitMode d = BitVec.ofNat 2 k ↔ d.toNat % 4 = k := by
  rw [descLitMode_eq, ← BitVec.toNat_inj, BitVec.toNat_ofNat, BitVec.toNat_ofNat, Nat.mod_eq_of_lt (a := k) (by omega)]

theorem getLsbD_iff (d : Byte) (i : Nat) : d.getLsbD i = true ↔ d.toNat / 2 ^ i % 2 = 1 := by
  rw [BitVec.getLsbD, Nat.testBit_eq_decide_div_mod_eq, decide_eq_true_eq]

theorem cwAux_eq (cw : Word) : cwAux cw = cw.toNat / 2 ^ 30 % 2 := by
  simp only [cwAux, BitVec.extractLsb'_toNat, Nat.shiftRight_eq_div_pow]

theorem cwSize_eq (cw : Word) : cwSize cw = cw.toNat % 2 ^ 28 := by
  simp [cwSize]

/-- A byte that a command leaves in `RES`. -/
theorem byteRes_toNat (b : Byte) : (BitVec.ofNat 64 b.toNat).toNat = b.toNat := by
  have := b.isLt
  rw [BitVec.toNat_ofNat]
  omega

/-! ### The steps (R163, R403) -/

/-- The literal descriptor and the size after it, read (R163 items 1 and 2). -/
def State.sizeRead (s : State) : Nat × State :=
  (s.readByte.2.checkReserved (descReserved s.readByte.1)).readPackedSize

/-- The literal section opened (R163 items 1 and 2). -/
def State.literalsOpened (s : State) : State :=
  s.sizeRead.2.litCfg (descLitMode s.readByte.1) (BitVec.ofNat 32 s.sizeRead.1)

/-- The tables of the literal section (R163 items 3 and 4). -/
def State.literalTable (d : Byte) (aux : Nat) (s : State) : State :=
  if descLitMode d = 2 then s.readByte.2.setRle s.readByte.1
  else if descLitMode d = 0 then
    (if descWeightMode d then (s.hufWeightsFse aux).2 else s.hufWeightsExplicit.2).hufExpand.2
  else s

theorem State.litSection_eq (aux : Nat) (s : State) :
    s.litSection aux = s.literalsOpened.literalTable s.readByte.1 aux := rfl

section
variable {s : State} (hsan : s.sanitize = true) (m : State) (a : Word) (r : Dword)
include hsan

/-- The literal tables by their commands (R163, R403). -/
theorem literalTable_within (d : Byte) {aux : Nat} (haux : aux ≤ 1) :
    ∃ b q, LiteralTable d.toNat aux (m.within s a r) ((m.literalTable d aux).within s b q) := by
  have htwo : descLitMode d = 2 ↔ d.toNat % 4 = 2 := descLitMode_eq_ofNat_iff d (by decide)
  have hzero : descLitMode d = 0 ↔ d.toNat % 4 = 0 := descLitMode_eq_ofNat_iff d (by decide)
  have haux' : (BitVec.ofNat 1 aux).toNat = aux := Nat.mod_eq_of_lt (by omega)
  unfold State.literalTable
  by_cases hrle : descLitMode d = 2
  · have hd := htwo.1 hrle
    rw [if_pos hrle]
    have hbyte : (BitVec.ofNat 32 m.readByte.1.toNat).extractLsb' 0 8 = m.readByte.1 := by
      refine BitVec.eq_of_toNat_eq ?_
      have := m.readByte.1.isLt
      simp only [BitVec.extractLsb'_toNat, BitVec.toNat_ofNat, Nat.shiftRight_zero]
      omega
    have hset := exec_setrle_within hsan m.readByte.2 (BitVec.ofNat 32 m.readByte.1.toNat)
      (BitVec.ofNat 64 m.readByte.1.toNat)
    rw [hbyte] at hset
    refine ⟨BitVec.ofNat 32 m.readByte.1.toNat, BitVec.ofNat 64 m.readByte.1.toNat,
      fun _ => ⟨_, exec_rdbyte_within hsan m a r, ?_⟩, fun h => ?_, fun h => ?_⟩
    · rw [State.within_res, byteRes_toNat, withArg0_within]
      exact hset
    · omega
    · omega
  · rw [if_neg hrle]
    have hd : ¬ d.toNat % 4 = 2 := fun h => hrle (htwo.2 h)
    by_cases hhuf : descLitMode d = 0
    · rw [if_pos hhuf]
      have hd0 := hzero.1 hhuf
      have hmode : d.toNat / 4 % 2 = 1 ↔ descWeightMode d = true := (getLsbD_iff d 2).symm
      obtain ⟨q, hweights⟩ : ∃ q, exec (if d.toNat / 4 % 2 = 1 then .hufwfse (BitVec.ofNat 1 aux) else .hufwex)
          (m.within s a r) = .next ((if descWeightMode d then (m.hufWeightsFse aux).2
            else m.hufWeightsExplicit.2).within s a q) := by
        by_cases hfse : descWeightMode d = true
        · have h := exec_hufwfse_within hsan m a r (BitVec.ofNat 1 aux)
          rw [haux'] at h
          rw [if_pos (hmode.2 hfse), if_pos hfse]
          exact ⟨_, h⟩
        · rw [if_neg fun h => hfse (hmode.1 h), if_neg hfse]
          exact ⟨_, exec_hufwex_within hsan m a r⟩
      exact ⟨a, _, fun h => absurd h hd, fun _ => ⟨_, hweights, exec_hufexpand_within hsan _ a q⟩, fun h => by omega⟩
    · rw [if_neg hhuf]
      exact ⟨a, r, fun h => absurd h hd, fun h => absurd (hzero.2 h) hhuf, fun _ => rfl⟩

/-- A sequence table by its commands (R163, R403). -/
theorem sequenceTable_within (d : Byte) {k : Tbl} (hk : k ≠ .hw) :
    ∃ q, SequenceTable d.toNat k (m.within s a r) ((m.seqTable d k).within s a q) := by
  have hpredef : d.toNat / 2 ^ (tblIdx k).val % 2 = 1 ↔ descPredef d k = true := (getLsbD_iff d (tblIdx k).val).symm
  unfold State.seqTable SequenceTable
  by_cases h : descPredef d k = true
  · simp only [if_pos h, if_pos (hpredef.2 h)]
    exact ⟨_, exec_fsepredef_within hsan m a r hk⟩
  · simp only [if_neg h, if_neg fun h' => h (hpredef.1 h')]
    have hacc : (BitVec.ofNat 6 (5 + m.readByte.1.toNat % 16)).toNat = accRequested m.readByte.1 := by
      rw [accRequested_eq, BitVec.toNat_ofNat]
      omega
    have hbuild := exec_fsebuild_within hsan (m.readByte.2.checkReserved (accReserved m.readByte.1)) a
      (BitVec.ofNat 64 m.readByte.1.toNat) k (BitVec.ofNat 6 (5 + m.readByte.1.toNat % 16))
    rw [hacc] at hbuild
    refine ⟨BitVec.ofNat 64 ((m.readByte.2.checkReserved (accReserved m.readByte.1)).fseBuild k
      (accRequested m.readByte.1)).1, _, exec_rdbyte_within hsan m a r, ?_⟩
    rw [State.within_res, byteRes_toNat, checked_within, ← accReserved_eq]
    exact hbuild

end

/-- The sequence tables by their commands (R163 item 6). -/
theorem sequenceTables_within {s : State} (hsan : s.sanitize = true) (m : State) (a : Word) (r : Dword) (d : Byte) :
    ∃ h i q, SequenceTable d.toNat .ll (m.within s a r) h ∧ SequenceTable d.toNat .ml h i ∧
      SequenceTable d.toNat .off i ((((m.seqTable d .ll).seqTable d .ml).seqTable d .off).within s a q) := by
  obtain ⟨q₁, h₁⟩ := sequenceTable_within hsan m a r d (k := .ll) (by decide)
  obtain ⟨q₂, h₂⟩ := sequenceTable_within hsan (m.seqTable d .ll) a q₁ d (k := .ml) (by decide)
  obtain ⟨q₃, h₃⟩ := sequenceTable_within hsan ((m.seqTable d .ll).seqTable d .ml) a q₂ d (k := .off) (by decide)
  exact ⟨_, _, q₃, h₁, h₂, h₃⟩

/-- The body of a compressed block up to its sequences, by its commands (R403). -/
theorem bodyRead_within {s : State} (hsan : s.sanitize = true) (cw : Word) :
    ∃ a r, BodyRead cw.toNat s ((s.litSection (cwAux cw)).seqTables.within s a r) := by
  rw [s.litSection_eq]
  have hread := exec_rdbyte_within hsan s s.arg0 s.res
  have hsize := exec_rdpsize_within (s := s) (s.readByte.2.checkReserved (descReserved s.readByte.1)) s.arg0
    (BitVec.ofNat 64 s.readByte.1.toNat)
  have hopen := exec_litcfg_within hsan s.sizeRead.2 (BitVec.ofNat 32 s.sizeRead.1) (BitVec.ofNat 64 s.sizeRead.1)
    (descLitMode s.readByte.1)
  obtain ⟨a, q, hlits⟩ := literalTable_within hsan s.literalsOpened (BitVec.ofNat 32 s.sizeRead.1)
    (BitVec.ofNat 64 s.sizeRead.1) s.readByte.1 (cwAux_le cw)
  generalize s.literalsOpened.literalTable s.readByte.1 (cwAux cw) = L at hlits
  have hseq := exec_rdbyte_within hsan L a q
  obtain ⟨h, i, q', hll, hml, hoff⟩ := sequenceTables_within hsan (L.readByte.2.checkReserved (descReserved L.readByte.1)) a
    (BitVec.ofNat 64 L.readByte.1.toNat) L.readByte.1
  have hle : s.sizeRead.1 ≤ 4210815 := State.readPackedSize_le _
  have hsizeRes : (BitVec.ofNat 64 s.sizeRead.1).toNat = s.sizeRead.1 := Nat.mod_eq_of_lt (by omega)
  refine ⟨a, q', s.readByte.2.within s s.arg0 (BitVec.ofNat 64 s.readByte.1.toNat),
    s.sizeRead.2.within s s.arg0 (BitVec.ofNat 64 s.sizeRead.1),
    s.literalsOpened.within s (BitVec.ofNat 32 s.sizeRead.1) (BitVec.ofNat 64 s.sizeRead.1), L.within s a q,
    L.readByte.2.within s a (BitVec.ofNat 64 L.readByte.1.toNat), h, i, hread, ?_⟩
  simp only [State.within_res, byteRes_toNat, checked_within, ← descReserved_eq, ← descLitMode_eq, ← cwAux_eq, hsizeRes,
    withArg0_within]
  exact ⟨hsize, hopen, hlits, hseq, hll, hml, hoff⟩

end Sys2Proof.Machine
end

section
/-! What the steps of `CBLOCK` leave alone (45_block_driver.md R403). -/

namespace Sys2Proof.Machine

open Sys2Proof.Claims

/-! ### The sequence tables -/

theorem WeightFrame.refl (s : State) : WeightFrame s s := rfl

theorem WeightFrame.trans {s t u : State} (h : WeightFrame s t) (k : WeightFrame t u) : WeightFrame s u := by
  unfold WeightFrame at *
  rw [k, h]
  rfl

theorem LaneFrame.weightFrame {s t : State} (h : LaneFrame s t) : WeightFrame s t := (WeightFrame.refl s).laneFrame h

theorem WeightFrame.readByte (s : State) : WeightFrame s s.readByte.2 := by
  rw [s.readByte_taken.2.2]
  rfl

theorem WeightFrame.buildTable (t : Tbl) (A : Nat) (prob : List Nat) (s : State) :
    WeightFrame s (s.buildTable t A prob) := by
  rw [State.buildTable_frame]
  rfl

theorem LaneFrame.clampAcc (t : Tbl) (a : Nat) (s : State) : LaneFrame s (s.clampAcc t a).2 := by
  unfold State.clampAcc
  split
  · rfl
  · split <;> rfl

theorem WeightFrame.fseBuild (t : Tbl) (a : Nat) (s : State) : WeightFrame s (s.fseBuild t a).2 := by
  obtain ⟨-, hmax⟩ := s.clampAcc_mem t a
  exact ((LaneFrame.clampAcc t a s).trans (.readDistribution hmax _)).weightFrame.trans (.buildTable _ _ _ _)

theorem WeightFrame.fsePredef (t : Tbl) (s : State) : WeightFrame s (s.fsePredef t).2 := by
  unfold State.fsePredef
  split
  · exact .buildTable _ _ _ _
  · exact .refl s

theorem LaneFrame.checkReserved (k : Nat) (s : State) : LaneFrame s (s.checkReserved k) := .ite (.refl s) (.warn _ s)

theorem WeightFrame.seqTable (d : Byte) (t : Tbl) (s : State) : WeightFrame s (s.seqTable d t) := by
  unfold State.seqTable
  split
  · exact .fsePredef t s
  · exact ((WeightFrame.readByte s).laneFrame (.checkReserved _ _)).trans (.fseBuild _ _ _)

theorem WeightFrame.seqTables (s : State) : WeightFrame s s.seqTables :=
  ((((WeightFrame.readByte s).laneFrame (.checkReserved _ _)).trans (.seqTable _ _ _)).trans (.seqTable _ _ _)).trans
    (.seqTable _ _ _)

/-- A build marks its table built, and the others as before. -/
theorem State.buildTable_built {t : Tbl} {A : Nat} {prob : List Nat} (h : TableSpec t A prob) (s : State) :
    (s.buildTable t A prob).built t = true ∧ ∀ k, k ≠ t → (s.buildTable t A prob).built k = s.built k :=
  ⟨(State.buildTable_spreadOf h s).1, fun _ hk => (State.buildTable_other hk A prob s).2⟩

/-- Predefined or read, a sequence table is built (R163 item 6). -/
theorem State.seqTable_built (d : Byte) {t : Tbl} (ht : t ≠ .hw) (s : State) :
    (s.seqTable d t).built t = true ∧ ∀ k, k ≠ t → (s.seqTable d t).built k = s.built k := by
  unfold State.seqTable
  split
  · obtain ⟨p, hp⟩ : ∃ p, predefined t = some p := by
      cases t with
      | hw => exact absurd rfl ht
      | ll => exact ⟨_, rfl⟩
      | ml => exact ⟨_, rfl⟩
      | off => exact ⟨_, rfl⟩
    have hbuild : (s.fsePredef t).2 = s.buildTable t p.1 p.2 := by rw [State.fsePredef, hp]
    rw [hbuild]
    exact State.buildTable_built (tableSpec_predefined hp) s
  · simp only
    have hread : ∀ k, (s.readByte.2.checkReserved (accReserved s.readByte.1)).built k = s.built k := fun k => by
      rw [(LaneFrame.checkReserved _ _).built k, s.readByte_taken.2.2]
      rfl
    generalize s.readByte.2.checkReserved (accReserved s.readByte.1) = u at hread ⊢
    obtain ⟨hmin, hmax⟩ := u.clampAcc_mem t (accRequested s.readByte.1)
    have hdist := (LaneFrame.clampAcc t (accRequested s.readByte.1) u).trans (.readDistribution hmax _)
    obtain ⟨hown, hother⟩ := State.buildTable_built (State.readDistribution_spec (u.clampAcc t _).2 hmin hmax)
      ((u.clampAcc t (accRequested s.readByte.1)).2.readDistribution t (u.clampAcc t (accRequested s.readByte.1)).1).2
    exact ⟨hown, fun k hk => (hother k hk).trans ((hdist.built k).trans (hread k))⟩

/-- The three sequence tables are built. -/
theorem State.seqTables_built (s : State) :
    s.seqTables.built .ll = true ∧ s.seqTables.built .ml = true ∧ s.seqTables.built .off = true := by
  unfold State.seqTables
  simp only
  generalize s.readByte.2.checkReserved (descReserved s.readByte.1) = u
  obtain ⟨hll, -⟩ := u.seqTable_built s.readByte.1 (t := .ll) (by decide)
  obtain ⟨hml, hkeep⟩ := (u.seqTable s.readByte.1 .ll).seqTable_built s.readByte.1 (t := .ml) (by decide)
  obtain ⟨hoff, hkeep'⟩ := ((u.seqTable s.readByte.1 .ll).seqTable s.readByte.1 .ml).seqTable_built s.readByte.1
    (t := .off) (by decide)
  exact ⟨(hkeep' .ll (by decide)).trans ((hkeep .ll (by decide)).trans hll), (hkeep' .ml (by decide)).trans hml, hoff⟩

/-! ### The literal section -/

/-- What the tables of a block may change: not the literal mode and counters, the output or `RUNSTATE`. -/
def SectionFrame (s t : State) : Prop :=
  t = { warningsOf s t with
    readPos := t.readPos, rcb := t.rcb, rcn := t.rcn, lanes := t.lanes, fseCell := t.fseCell, tacc := t.tacc
    tvalid := t.tvalid, hufw := t.hufw, hufn := t.hufn, hufwb := t.hufwb, hufvalid := t.hufvalid, huft := t.huft
    rleByte := t.rleByte }

theorem SectionFrame.trans {s t u : State} (h : SectionFrame s t) (k : SectionFrame t u) : SectionFrame s u := by
  unfold SectionFrame at *
  rw [k, h]
  rfl

theorem WeightFrame.sectionFrame {s t : State} (h : WeightFrame s t) : SectionFrame s t := by
  unfold WeightFrame at h
  rw [h]
  rfl

theorem SectionFrame.storeWeight (N k w : Nat) (s : State) : SectionFrame s (s.storeWeight N k w) := by
  unfold State.storeWeight
  split
  · split <;> rfl
  · rfl

theorem SectionFrame.readWeightBytes (N left i : Nat) (s : State) : SectionFrame s (Machine.readWeightBytes N left i s) := by
  induction left generalizing i s with
  | zero => rfl
  | succ left ih =>
    exact (((WeightFrame.readByte s).sectionFrame.trans (.storeWeight _ _ _ _)).trans (.storeWeight _ _ _ _)).trans (ih _ _)

theorem SectionFrame.clearWeights (s : State) : SectionFrame s s.clearWeights := rfl

theorem SectionFrame.setHufn (n : Nat) (s : State) : SectionFrame s (s.setHufn n) := rfl

theorem SectionFrame.hufWeightsExplicit (s : State) : SectionFrame s s.hufWeightsExplicit.2 :=
  (((WeightFrame.readByte s).sectionFrame.trans (.clearWeights _)).trans (.readWeightBytes _ _ _ _)).trans (.setHufn _ _)

theorem SectionFrame.storeSymbols (k : Nat) (ls : List LaneId) (s : State) :
    SectionFrame s (Machine.storeSymbols k ls s) := by
  rw [storeSymbols_only]
  rfl

theorem SectionFrame.fseWeightBatches (N fuel k : Nat) (s : State) :
    SectionFrame s (Machine.fseWeightBatches N fuel k s) := by
  induction fuel generalizing k s with
  | zero => rfl
  | succ fuel ih =>
    unfold Machine.fseWeightBatches
    split
    · exact ((LaneFrame.fseDec .hw _ s).weightFrame.sectionFrame.trans (.storeSymbols _ _ _)).trans (ih _ _)
    · rfl

theorem SectionFrame.hufWeightsFse {aux : Nat} (haux : aux ≤ 1) (s : State) : SectionFrame s (s.hufWeightsFse aux).2 := by
  have hstart := State.weightStart_frame (A := 5 + aux) (by simp only [minAccuracyLog]; omega)
    (by simp only [maxAcc]; omega) s
  rw [State.hufWeightsFse_eq rfl haux]
  exact ((hstart.sectionFrame.trans (.clearWeights _)).trans (.fseWeightBatches _ _ _ _)).trans (.setHufn _ _)

theorem SectionFrame.hufExpand (s : State) : SectionFrame s s.hufExpand.2 := by
  rw [s.hufExpand_frame]
  rfl

theorem SectionFrame.literalTable (d : Byte) {aux : Nat} (haux : aux ≤ 1) (s : State) :
    SectionFrame s (s.literalTable d aux) := by
  unfold State.literalTable
  split
  · exact (WeightFrame.readByte s).sectionFrame.trans rfl
  · split
    · split
      · exact (SectionFrame.hufWeightsFse haux s).trans (.hufExpand _)
      · exact (SectionFrame.hufWeightsExplicit s).trans (.hufExpand _)
    · rfl

/-- `HUFEXPAND` leaves a table, whatever the weights. -/
theorem State.hufExpand_hufvalid (s : State) : s.hufExpand.2.hufvalid = true := by
  unfold State.hufExpand
  simp only
  split <;> rfl

/-! ### The literal section opened (R163 items 1 and 2) -/

/-- The literal descriptor and the size take their bytes off the raw stream. -/
theorem State.sizeRead_taken (s : State) :
    s.sizeRead.1 = (packedSizeAt s 1).1 ∧ RawTaken s s.sizeRead.2 (1 + (packedSizeAt s 1).2) ∧
      s.sizeRead.2 = { warningsOf s s.sizeRead.2 with
        readPos := s.sizeRead.2.readPos, rcb := s.sizeRead.2.rcb, rcn := s.sizeRead.2.rcn } := by
  obtain ⟨-, htaken, hread⟩ := s.readByte_taken
  have hcheck : s.readByte.2.checkReserved (descReserved s.readByte.1) =
      warningsOf s.readByte.2 (s.readByte.2.checkReserved (descReserved s.readByte.1)) := by
    unfold State.checkReserved
    split <;> rfl
  have hsize := State.readPackedSize_taken (s.readByte.2.checkReserved (descReserved s.readByte.1))
  unfold State.sizeRead
  generalize s.readByte.2.checkReserved (descReserved s.readByte.1) = u at hcheck hsize ⊢
  obtain ⟨hvalue, hbytes, hframe⟩ := hsize
  have hu : RawTaken s u 1 := htaken.congr (by rw [hcheck]; rfl) (by rw [hcheck]; rfl) (by rw [hcheck]; rfl)
    (by rw [hcheck]; rfl) (by rw [hcheck]; rfl)
  have hat : packedSizeAt u 0 = packedSizeAt s 1 := by
    simp only [packedSizeAt, hu.2.2]
  rw [hat] at hvalue hbytes
  refine ⟨hvalue, hu.trans hbytes, ?_⟩
  rw [hframe, hcheck, hread]
  rfl

/-- What opening the literal section leaves. -/
theorem State.literalsOpened_spec (s : State) :
    s.literalsOpened.litMode = (rawByteAt s 0).extractLsb' 0 2 ∧ s.literalsOpened.maxLit.toNat = (packedSizeAt s 1).1 ∧
      s.literalsOpened.litOk ∧ RawTaken s s.literalsOpened (1 + (packedSizeAt s 1).2) ∧
      s.literalsOpened = { warningsOf s s.literalsOpened with
        readPos := s.literalsOpened.readPos, rcb := s.literalsOpened.rcb, rcn := s.literalsOpened.rcn
        litMode := s.literalsOpened.litMode, maxLit := s.literalsOpened.maxLit, litEmitted := 0, litTotal := 0 } := by
  obtain ⟨hvalue, htaken, hframe⟩ := s.sizeRead_taken
  have hle : s.sizeRead.1 ≤ 4210815 := State.readPackedSize_le _
  have hbyte := s.readByte_taken.1
  have hmax : (BitVec.ofNat 32 s.sizeRead.1).toNat = s.sizeRead.1 := Nat.mod_eq_of_lt (by omega)
  have hcfg : s.literalsOpened = { warningsOf s.sizeRead.2 s.literalsOpened with
      litMode := descLitMode s.readByte.1, maxLit := BitVec.ofNat 32 s.sizeRead.1, litEmitted := 0, litTotal := 0 } := by
    unfold State.literalsOpened State.litCfg
    split <;> rfl
  generalize s.literalsOpened = t at hcfg ⊢
  generalize s.sizeRead.2 = u at hcfg hframe htaken
  refine ⟨?_, ?_, ?_, ?_, ?_⟩
  · rw [hcfg, ← hbyte]
    rfl
  · have hlit : t.maxLit = BitVec.ofNat 32 s.sizeRead.1 := by rw [hcfg]
    rw [hlit, hmax, hvalue]
  · rw [hcfg]
    exact ⟨Nat.zero_le _, Nat.zero_le _⟩
  · exact htaken.congr (by rw [hcfg]; rfl) (by rw [hcfg]; rfl) (by rw [hcfg]; rfl) (by rw [hcfg]; rfl) (by rw [hcfg]; rfl)
  · rw [hcfg, hframe]
    rfl

end Sys2Proof.Machine
end

section
/-! `CBLOCK` (45_block_driver.md R403): its steps, the bytes it produces, and what it leaves. -/

namespace Sys2Proof.Machine

open Sys2Proof.Claims

/-! ### The machine before the sequences -/

/-- The body of a compressed block up to its sequences (R403). -/
def State.bodyTables (cw : Word) (s : State) : State := (s.litSection (cwAux cw)).seqTables

theorem State.bodyTables_eq (cw : Word) (s : State) :
    s.bodyTables cw = (s.literalsOpened.literalTable s.readByte.1 (cwAux cw)).seqTables := rfl

/-- From the literal section opened on, the tables alone. -/
theorem State.bodyTables_frame (cw : Word) (s : State) : SectionFrame s.literalsOpened (s.bodyTables cw) :=
  (SectionFrame.literalTable s.readByte.1 (cwAux_le cw) s.literalsOpened).trans (WeightFrame.seqTables _).sectionFrame

theorem State.bodyTables_litOk (cw : Word) (s : State) : (s.bodyTables cw).litOk := by
  obtain ⟨-, -, hok, -⟩ := s.literalsOpened_spec
  rw [s.bodyTables_frame cw]
  exact hok

/-- In Huffman mode there is a decode table (R163 item 4). -/
theorem State.bodyTables_hufvalid {cw : Word} {s : State} (h : descLitMode s.readByte.1 = 0) :
    (s.bodyTables cw).hufvalid = true := by
  have htable : (s.literalsOpened.literalTable s.readByte.1 (cwAux cw)).hufvalid = true := by
    unfold State.literalTable
    rw [if_neg (by rw [h]; decide), if_pos h]
    exact State.hufExpand_hufvalid _
  have hseq := WeightFrame.seqTables (s.literalsOpened.literalTable s.readByte.1 (cwAux cw))
  unfold WeightFrame at hseq
  rw [s.bodyTables_eq, hseq]
  exact htable

/-- In any other mode the Huffman state is that before. -/
theorem State.bodyTables_hufKept {cw : Word} {s : State} (h : descLitMode s.readByte.1 ≠ 0) :
    (s.bodyTables cw).hufw = s.hufw ∧ (s.bodyTables cw).hufn = s.hufn ∧ (s.bodyTables cw).hufwb = s.hufwb ∧
      (s.bodyTables cw).hufvalid = s.hufvalid ∧ (s.bodyTables cw).huft = s.huft := by
  obtain ⟨-, -, -, -, hopen⟩ := s.literalsOpened_spec
  have htable : s.literalsOpened.literalTable s.readByte.1 (cwAux cw) = { s.literalsOpened with
      readPos := (s.literalsOpened.literalTable s.readByte.1 (cwAux cw)).readPos
      rcb := (s.literalsOpened.literalTable s.readByte.1 (cwAux cw)).rcb
      rcn := (s.literalsOpened.literalTable s.readByte.1 (cwAux cw)).rcn
      rleByte := (s.literalsOpened.literalTable s.readByte.1 (cwAux cw)).rleByte } := by
    unfold State.literalTable
    rw [if_neg h]
    split
    · rw [s.literalsOpened.readByte_taken.2.2]
      rfl
    · rfl
  have hseq := WeightFrame.seqTables (s.literalsOpened.literalTable s.readByte.1 (cwAux cw))
  unfold WeightFrame at hseq
  rw [s.bodyTables_eq, hseq, htable, hopen]
  exact ⟨rfl, rfl, rfl, rfl, rfl⟩

/-- In RLE mode the byte after the size is the RLE byte (R163 item 3). -/
theorem State.bodyTables_rleByte {cw : Word} {s : State} (h : descLitMode s.readByte.1 = 2) :
    (s.bodyTables cw).rleByte = rawByteAt s (1 + (packedSizeAt s 1).2) := by
  obtain ⟨-, -, -, htaken, -⟩ := s.literalsOpened_spec
  have hseq := WeightFrame.seqTables (s.literalsOpened.literalTable s.readByte.1 (cwAux cw))
  unfold WeightFrame at hseq
  have htable : (s.literalsOpened.literalTable s.readByte.1 (cwAux cw)).rleByte = s.literalsOpened.readByte.1 := by
    rw [State.literalTable, if_pos h]
    rfl
  rw [s.bodyTables_eq, hseq]
  exact htable.trans (s.literalsOpened.readByte_taken.1.trans (htaken.2.2 0))

/-! ### The machine after the sequences -/

/-- What `SeqExec` leaves alone. -/
theorem State.seqExec_keeps (s : State) :
    s.seqExec = { warningsOf s s.seqExec with
      numSeq := s.seqExec.numSeq, litEmitted := s.seqExec.litEmitted, litTotal := s.seqExec.litTotal
      writePos := s.seqExec.writePos, outBuf := s.seqExec.outBuf, written := s.seqExec.written
      readPos := s.seqExec.readPos, rcb := s.seqExec.rcb, rcn := s.seqExec.rcn, lanes := s.seqExec.lanes
      rep0 := s.seqExec.rep0, rep1 := s.seqExec.rep1, rep2 := s.seqExec.rep2 } := by
  have hframe := s.seqExec_frame
  have hread := s.numSeqRead_frame
  generalize s.seqExec = t at hframe ⊢
  generalize s.numSeqRead = u at hframe hread
  unfold SeqFrame at hframe
  rw [hframe, hread]
  rfl

theorem State.seqExec_numSeq (s : State) : s.seqExec.numSeq.toNat = (packedSizeAt s 0).1 := by
  rw [s.seqExec_frame.numSeq, s.numSeqRead_numSeq]

theorem packedSizeAt_zero_le (s : State) : (packedSizeAt s 0).1 ≤ 4210815 :=
  s.readPackedSize_taken.1 ▸ s.readPackedSize_le

/-- A warning about the size where it is not what was produced (R403). -/
def State.sizeChecked (size : Nat) (produced : Dword) (s : State) : State :=
  if produced.toNat = size then s else s.warn .blockSizeMismatch

theorem State.sizeChecked_only (size : Nat) (produced : Dword) (s : State) :
    s.sizeChecked size produced = warningsOf s (s.sizeChecked size produced) := by
  unfold State.sizeChecked
  split <;> rfl

theorem State.cBlock_eq (cw : Word) (s : State) :
    s.cBlock cw = ((s.bodyTables cw).seqExec.writePos - s.writePos, (s.bodyTables cw).seqExec.sizeChecked (cw.toNat % 2 ^ 28)
      ((s.bodyTables cw).seqExec.writePos - s.writePos)) := by
  rw [← cwSize_eq]
  rfl

theorem exec_cblock {s : State} (h : s.sanitize = true) :
    exec .cblock s = .next { (s.cBlock s.arg0).2 with res := (s.cBlock s.arg0).1 } :=
  finish_of_sanitize h

theorem State.bodyTables_hostKept (cw : Word) (s : State) : HostKept s (s.bodyTables cw).seqExec :=
  (hostKept_closed.litSection (cwAux cw) s).trans ((hostKept_closed.seqTables _).trans (hostKept_closed.seqExec _))

/-- The operands and `RES` of a machine within a command, put back. -/
theorem within_restored {s m : State} (h : HostKept s m) (a : Word) (r v : Dword) :
    { m.within s a r with arg0 := s.arg0, res := v } = { m with res := v } := by
  simp only [State.within, State.outer, ← h.arg0, ← h.arg1, ← h.nv, ← h.sanitize, ← h.hostOps, ← h.hostData]

theorem sizeChecked_within (m s : State) (a : Word) (r : Dword) (size : Nat) (produced : Dword) :
    (if produced.toNat = size then m.within s a r else (m.within s a r).warn .blockSizeMismatch) =
      (m.sizeChecked size produced).within s a r := by
  unfold State.sizeChecked
  split <;> rfl

/-- The bytes a compressed block produces (R403). -/
theorem State.cBlock_stored (cw : Word) (s : State) :
    ∃ bs, Stored s (s.cBlock cw).2 bs ∧ (s.tablesOk → bs.length = ((s.cBlock cw).2.writePos - s.writePos).toNat) := by
  obtain ⟨w, ⟨-, -, bs, hbs, hlen⟩, hw⟩ := produced_tracked.cBlock cw s
  have hlit := (s.cBlock cw).2.litEmitted.isLt
  refine ⟨bs, hbs, fun hok => Stored.length_eq hbs ?_⟩
  have := hw hok
  omega

/-- The literals and sequences of a compressed block are all done (R403). -/
theorem State.cBlock_counts (cw : Word) (s : State) :
    (s.bodyTables cw).seqExec.litMode = (rawByteAt s 0).extractLsb' 0 2 ∧
      (s.bodyTables cw).seqExec.maxLit.toNat = (packedSizeAt s 1).1 ∧
      (s.bodyTables cw).seqExec.litEmitted = (s.bodyTables cw).seqExec.maxLit ∧ (s.bodyTables cw).seqExec.litOk ∧
      (s.bodyTables cw).seqExec.numSeq.toNat ≤ 4210815 ∧ (s.bodyTables cw).seqExec.runState = s.runState := by
  obtain ⟨hmode, hmax, -, -, hopen⟩ := s.literalsOpened_spec
  have hbody := s.bodyTables_frame cw
  have hok := s.bodyTables_litOk cw
  obtain ⟨w, hkeep, -⟩ := litOk_tracked.seqExec (s.bodyTables cw)
  have hemitted := State.seqExec_litEmitted hok
  have hkeeps := (s.bodyTables cw).seqExec_keeps
  have hmaxLit : (s.bodyTables cw).seqExec.maxLit = (s.bodyTables cw).maxLit := by rw [hkeeps]; rfl
  have hopened : s.literalsOpened.runState = s.runState := by rw [hopen]; rfl
  refine ⟨?_, ?_, hemitted.trans hmaxLit.symm, hkeep hok, ?_, ?_⟩
  · rw [hkeeps, hbody]
    exact hmode
  · rw [hmaxLit, hbody]
    exact hmax
  · rw [State.seqExec_numSeq]
    exact packedSizeAt_zero_le _
  · generalize s.bodyTables cw = Y at *
    generalize s.literalsOpened = o at *
    rw [hkeeps, hbody]
    exact hopened

/-- The tables that a compressed block leaves (R403). -/
theorem State.cBlock_tables (cw : Word) (s : State) :
    (s.bodyTables cw).seqExec.built .ll = true ∧ (s.bodyTables cw).seqExec.built .ml = true ∧
      (s.bodyTables cw).seqExec.built .off = true ∧
      ((s.bodyTables cw).seqExec.litMode = 0 → (s.bodyTables cw).seqExec.hufvalid = true) ∧
      ((s.bodyTables cw).seqExec.litMode ≠ 0 → (s.bodyTables cw).seqExec.hufw = s.hufw ∧
        (s.bodyTables cw).seqExec.hufn = s.hufn ∧ (s.bodyTables cw).seqExec.hufwb = s.hufwb ∧
        (s.bodyTables cw).seqExec.hufvalid = s.hufvalid ∧ (s.bodyTables cw).seqExec.huft = s.huft) ∧
      ((s.bodyTables cw).seqExec.litMode = 2 →
        (s.bodyTables cw).seqExec.rleByte = rawByteAt s (1 + (packedSizeAt s 1).2)) := by
  obtain ⟨hll, hml, hoff⟩ : (s.bodyTables cw).built .ll = true ∧ (s.bodyTables cw).built .ml = true ∧
      (s.bodyTables cw).built .off = true := (s.litSection (cwAux cw)).seqTables_built
  have hmode : (s.bodyTables cw).seqExec.litMode = descLitMode s.readByte.1 := by
    rw [s.readByte_taken.1]
    exact (s.cBlock_counts cw).1
  have hkeeps := (s.bodyTables cw).seqExec_keeps
  have hvalid := State.bodyTables_hufvalid (cw := cw) (s := s)
  have hkept := State.bodyTables_hufKept (cw := cw) (s := s)
  have hrle := State.bodyTables_rleByte (cw := cw) (s := s)
  rw [hmode]
  generalize (s.bodyTables cw).seqExec = T at hkeeps ⊢
  generalize s.bodyTables cw = Y at *
  rw [hkeeps]
  exact ⟨hll, hml, hoff, hvalid, hkept, hrle⟩

end Sys2Proof.Machine

namespace Sys2Proof.Claims

open Sys2Proof.Machine

/-- Settles O46: the body by its commands, then the sequences, then the check of the size. -/
theorem cblockDecodes : Obligations.CblockDecodes := by
  refine ⟨by decide, fun s hsan => ?_⟩
  obtain ⟨a, r, hbody⟩ := bodyRead_within hsan s.arg0
  have hseq := exec_seqexec_within hsan (s.bodyTables s.arg0) a r
  have hexec := exec_cblock hsan
  obtain ⟨bs, hstored, hlen⟩ := s.cBlock_stored s.arg0
  obtain ⟨hmode, hmax, hemitted, hok, hnum, hrun⟩ := s.cBlock_counts s.arg0
  obtain ⟨hll, hml, hoff, hvalid, hhuf, hrle⟩ := s.cBlock_tables s.arg0
  have hhost := exec_next_hostKept hexec
  rw [s.cBlock_eq] at hexec hstored hlen hhost
  have hkept := s.bodyTables_hostKept s.arg0
  change BodyRead s.arg0.toNat s ((s.bodyTables s.arg0).within s a r) at hbody
  generalize (s.bodyTables s.arg0).seqExec = T at *
  have honly := T.sizeChecked_only (s.arg0.toNat % 2 ^ 28) (T.writePos - s.writePos)
  have hchecked : HostKept s (T.sizeChecked (s.arg0.toNat % 2 ^ 28) (T.writePos - s.writePos)) := by
    rw [honly]
    exact hkept.trans ⟨rfl, rfl, rfl, rfl, rfl, rfl, rfl, rfl, rfl⟩
  have hwarned : (T.writePos - s.writePos).toNat ≠ s.arg0.toNat % 2 ^ 28 →
      (T.sizeChecked (s.arg0.toNat % 2 ^ 28) (T.writePos - s.writePos)).warnLast = 18 := fun h => by
    rw [State.sizeChecked, if_neg h]
    rfl
  refine ⟨_, _, _, bs, hexec, hbody, hseq, ?_, Stored.congr hstored rfl rfl rfl, ?_, fun htables => ?_, ?_⟩
  · exact ((congrArg (fun u : State => { u with arg0 := s.arg0, res := T.writePos - s.writePos })
      (sizeChecked_within T s a _ _ _)).trans (within_restored hchecked _ _ _)).symm
  · rw [honly]
    rfl
  · rw [hlen htables, honly]
    rfl
  · generalize T.sizeChecked (s.arg0.toNat % 2 ^ 28) (T.writePos - s.writePos) = u at honly hwarned hhost ⊢
    rw [honly] at hhost ⊢
    exact ⟨hmode, hmax, hemitted, hok, hnum, hll, hml, hoff, hvalid, hhuf, hrle, hwarned, hrun, hhost⟩

end Sys2Proof.Claims
end

section
/-! The batch read of one sequence as arithmetic on the lane's bit stream (44_sequences.md R362): what the peeks, drops and decodes
of one lane do to the bits it has still to read. -/

namespace Sys2Proof.Machine

open Sys2Proof.Claims

/-! ### The bit stream of a lane (41_bitstream.md R204, R210) -/

/-- The next `m` input words from index `p` on as one number, the first word lowest. -/
def State.wordsValue (s : State) : Nat → Dword → Nat
  | 0, _ => 0
  | m + 1, p => (s.inWordAt p.toNat).toNat + 2 ^ 32 * s.wordsValue m (p + 1)

/-- Lane `l` has the number `X` still to read: its buffered bits, with words from `READPOS` on above them, `j` at the least. -/
structure State.StreamAt (s : State) (l : LaneId) (X j : Nat) : Prop where
  buf_lt : (s.lane l).buf.toNat < 2 ^ (s.lane l).avail.toNat
  avail_le : (s.lane l).avail.toNat ≤ 63
  eq : ∃ m, j ≤ m ∧ X = (s.lane l).buf.toNat + 2 ^ (s.lane l).avail.toNat * s.wordsValue m s.readPos

theorem LaneFrame.wordsValue {s t : State} (h : LaneFrame s t) (m : Nat) (p : Dword) :
    t.wordsValue m p = s.wordsValue m p := by
  induction m generalizing p with
  | zero => rfl
  | succ m ih => rw [State.wordsValue, State.wordsValue, ih, h.inWordAt]

theorem State.wordsValue_three (s : State) (p : Dword) :
    s.wordsValue 3 p = (s.inWordAt (p + BitVec.ofNat 64 0).toNat).toNat
      + 2 ^ 32 * (s.inWordAt (p + BitVec.ofNat 64 1).toNat).toNat
      + 2 ^ 64 * (s.inWordAt (p + BitVec.ofNat 64 2).toNat).toNat := by
  have hzero : p + BitVec.ofNat 64 0 = p := by simp
  have hone : p + BitVec.ofNat 64 1 = p + 1 := rfl
  have htwo : p + BitVec.ofNat 64 2 = p + 1 + 1 := by rw [BitVec.add_assoc]; rfl
  simp only [State.wordsValue, hzero, hone, htwo]
  omega

/-- A word loaded above the buffered bits joins them as one number (R204). -/
theorem Lane.load_value {x : Lane} (w : Word) (hbuf : x.buf.toNat < 2 ^ x.avail.toNat) (ha : x.avail.toNat < 32) :
    (x.load w).avail.toNat = x.avail.toNat + 32 ∧
      (x.load w).buf.toNat = x.buf.toNat + 2 ^ x.avail.toNat * w.toNat := by
  have havail : (x.load w).avail.toNat = x.avail.toNat + 32 := by
    simp only [Lane.load_avail, BitVec.toNat_add, show (32 : BitVec 7).toNat = 32 from rfl]
    omega
  have hword : 2 ^ x.avail.toNat * w.toNat < 2 ^ 64 := by
    calc 2 ^ x.avail.toNat * w.toNat < 2 ^ x.avail.toNat * 2 ^ 32 := Nat.mul_lt_mul_of_pos_left w.isLt (Nat.two_pow_pos _)
      _ = 2 ^ (x.avail.toNat + 32) := (Nat.pow_add ..).symm
      _ ≤ 2 ^ 64 := Nat.pow_le_pow_right (by decide) (by omega)
  refine ⟨havail, ?_⟩
  rw [Lane.load_buf, BitVec.toNat_or, BitVec.toNat_shiftLeft, BitVec.toNat_setWidth,
    Nat.mod_eq_of_lt (w.isLt.trans (by decide)), Nat.shiftLeft_eq, Nat.mul_comm w.toNat, Nat.mod_eq_of_lt hword,
    Nat.or_comm, ← Nat.two_pow_add_eq_or_of_lt hbuf, Nat.add_comm]

/-- A stream of at least `n` buffered bits has them as its low bits. -/
theorem buf_mod_eq_stream_mod {b a n v : Nat} (hn : n ≤ a) : (b + 2 ^ a * v) % 2 ^ n = b % 2 ^ n := by
  obtain ⟨d, rfl⟩ := Nat.exists_eq_add_of_le hn
  rw [Nat.pow_add, Nat.mul_assoc, Nat.add_mul_mod_self_left]

section
variable {s t : State} {l : LaneId} {X j n : Nat}

theorem State.StreamAt.congr (h : s.StreamAt l X j) (hframe : LaneFrame s t) (hread : t.readPos = s.readPos)
    (hbuf : (t.lane l).buf = (s.lane l).buf) (havail : (t.lane l).avail = (s.lane l).avail) : t.StreamAt l X j := by
  obtain ⟨hlt, hle, heq⟩ := h
  refine ⟨by rwa [hbuf, havail], by rwa [havail], ?_⟩
  simpa only [hbuf, havail, hread, hframe.wordsValue] using heq

/-- A refill moves a word from the input to the buffer, so the stream stays; then `n` bits are buffered (R204). -/
theorem State.StreamAt.refilled (h : s.StreamAt l X (j + 1)) (hn : n ≤ 32) :
    (s.refill l n).StreamAt l X j ∧ n ≤ ((s.refill l n).lane l).avail.toNat := by
  obtain ⟨hlt, hle, m, hm, heq⟩ := h
  obtain ⟨hlane, hread, -⟩ := s.refill_spec l n
  have hframe := LaneFrame.refill l n s
  have hself := hlane l
  rw [if_pos rfl, State.refilledLane] at hself
  by_cases hshort : (s.lane l).avail.toNat < n
  · rw [if_pos hshort] at hself hread
    obtain ⟨havail, hbuf⟩ := Lane.load_value (s.inWordAt s.readPos.toNat) hlt (hshort.trans_le hn)
    obtain ⟨k, rfl⟩ : ∃ k, m = k + 1 := ⟨m - 1, by omega⟩
    rw [State.wordsValue] at heq
    rw [← hself] at havail hbuf
    refine ⟨⟨?_, by omega, k, by omega, ?_⟩, by omega⟩
    · have hword := (s.inWordAt s.readPos.toNat).isLt
      rw [hbuf, havail, Nat.pow_add]
      calc (s.lane l).buf.toNat + 2 ^ (s.lane l).avail.toNat * (s.inWordAt s.readPos.toNat).toNat
        _ < 2 ^ (s.lane l).avail.toNat * ((s.inWordAt s.readPos.toNat).toNat + 1) := by rw [Nat.mul_succ]; omega
        _ ≤ _ := Nat.mul_le_mul_left _ hword
    · rw [heq, hbuf, havail, hframe.wordsValue, hread, Nat.pow_add]
      change _ = _ + _ * s.wordsValue k (s.readPos + 1)
      ring
  · rw [if_neg hshort] at hself hread
    have hstay : (s.refill l n).StreamAt l X (j + 1) := State.StreamAt.congr ⟨hlt, hle, m, hm, heq⟩ hframe
      (by simpa using hread) (by rw [hself]) (by rw [hself])
    obtain ⟨hlt', hle', m', hm', heq'⟩ := hstay
    exact ⟨⟨hlt', hle', m', by omega, heq'⟩, by rw [hself]; omega⟩

/-- A peek leaves the stream, and its window is the low bits of it (R206). -/
theorem State.StreamAt.peeked (h : s.StreamAt l X (j + 1)) (hn : n ≤ 32) :
    (s.peekLane l n).StreamAt l X j ∧ n ≤ ((s.peekLane l n).lane l).avail.toNat ∧
      ((s.peekLane l n).lane l).pv.toNat = X % 2 ^ n := by
  have hpeek : s.peekLane l n = (s.refill l n).modLane l fun x => x.window n := by
    simp [State.peekLane, Nat.min_eq_left hn, Nat.not_lt.2 hn]
  obtain ⟨hstream, havail⟩ := h.refilled hn
  rw [hpeek, State.lane_modLane, if_pos rfl]
  refine ⟨hstream.congr (.modLane ..) rfl ?_ ?_, havail, ?_⟩
  · rw [State.lane_modLane, if_pos rfl]; rfl
  · rw [State.lane_modLane, if_pos rfl]; rfl
  · obtain ⟨-, -, m, -, heq⟩ := hstream
    have hsmall : ((s.refill l n).lane l).buf.toNat % 2 ^ n < 2 ^ 32 :=
      (Nat.mod_lt _ (Nat.two_pow_pos n)).trans_le (Nat.pow_le_pow_right (by decide) hn)
    rw [Lane.window_pv, BitVec.toNat_ofNat, lowBits, Nat.mod_eq_of_lt hsmall, heq, buf_mod_eq_stream_mod havail]

/-- Bits that are buffered and dropped leave the stream (R210). -/
theorem State.StreamAt.dropped (h : s.StreamAt l X j) (hn : n ≤ (s.lane l).avail.toNat) :
    (s.drop l n).StreamAt l (X / 2 ^ n) j := by
  obtain ⟨hlt, hle, m, hm, heq⟩ := h
  have hdrop : s.drop l n = s.modLane l fun x => x.consume n := by rw [State.drop, if_neg (by omega)]
  have hframe := LaneFrame.drop l n s
  have hself : (s.drop l n).lane l = (s.lane l).consume n := by rw [hdrop, State.lane_modLane, if_pos rfl]
  have hread : (s.drop l n).readPos = s.readPos := by rw [hdrop]; rfl
  have havail : ((s.drop l n).lane l).avail.toNat = (s.lane l).avail.toNat - n := by
    rw [hself, Lane.consume_avail, BitVec.toNat_sub, BitVec.toNat_ofNat]
    omega
  have hbuf : ((s.drop l n).lane l).buf.toNat = (s.lane l).buf.toNat / 2 ^ n := by
    rw [hself, Lane.consume_buf, BitVec.toNat_ushiftRight, Nat.shiftRight_eq_div_pow]
  have hpow : 2 ^ (s.lane l).avail.toNat = 2 ^ n * 2 ^ ((s.lane l).avail.toNat - n) := by
    rw [← Nat.pow_add, Nat.add_sub_cancel' hn]
  refine ⟨?_, by omega, m, hm, ?_⟩
  · rw [hbuf, havail]
    exact Nat.div_lt_of_lt_mul (hpow ▸ hlt)
  · rw [hbuf, havail, hframe.wordsValue, hread, heq, hpow, Nat.mul_assoc, Nat.add_mul_div_left _ _ (Nat.two_pow_pos n)]

end

/-! ### The decodes without a peek (42_fse.md R260) -/

theorem LaneFrame.cell {s t : State} (h : LaneFrame s t) (k : Tbl) (x : Nat) : t.cell k x = s.cell k x := by rw [h]; rfl

theorem LanesOnly.takeCell (l : LaneId) (t : Tbl) (c : FseCell) (s : State) : LanesOnly s (s.takeCell l t c) := rfl

/-- Lane `l` has decoded the cell `c` of table `t` from its window: from `s` to `u` the accumulator grew by the drain level. -/
structure DecodedCell (s u : State) (l : LaneId) (t : Tbl) (c : FseCell) : Prop where
  only : LanesOnly s u
  lane : u.lane l = { s.lane l with
    dacc := BitVec.ofNat 8 ((s.lane l).dacc.toNat + s.fsd l t), sym := BitVec.ofNat 32 c.sym.toNat
    fss := (s.lane l).fss.set (tblIdx t) c.base, fsd := (s.lane l).fsd.set (tblIdx t) c.nb }

/-- A field of `n` bits at bit `k` of a window of `W` bits is that field of the stream. -/
theorem window_field {X W k n : Nat} (h : k + n ≤ W) : X % 2 ^ W / 2 ^ k % 2 ^ n = X / 2 ^ k % 2 ^ n := by
  obtain ⟨d, rfl⟩ := Nat.exists_eq_add_of_le h
  rw [Nat.add_assoc, Nat.pow_add, Nat.mod_mul_right_div_self, Nat.pow_add, Nat.mod_mul_right_mod]

/-- The state bits of a decode stand in the window from bit `DACC` on (R260). -/
theorem State.fseDecNPLane_decodedCell {s : State} {l : LaneId} {t : Tbl} {X W k n : Nat}
    (hpv : (s.lane l).pv.toNat = X % 2 ^ W) (hdacc : (s.lane l).dacc.toNat = k) (hfsd : s.fsd l t = n)
    (hW : k + n ≤ W) (hbyte : W ≤ 255) :
    DecodedCell s (s.fseDecNPLane t l) l t (s.cell t (s.fss l t + X / 2 ^ k % 2 ^ n)) := by
  subst hdacc hfsd
  have hcell : State.fseDecNPLane t l s = ((s.warnIf (decide ((s.lane l).pw.toNat < (s.lane l).dacc.toNat + s.fsd l t))
      .windowOverrun).modLane l fun y => { y with dacc := BitVec.ofNat 8 ((s.lane l).dacc.toNat + s.fsd l t) }).takeCell
      l t (s.cell t (s.fss l t + X / 2 ^ (s.lane l).dacc.toNat % 2 ^ s.fsd l t)) := by
    unfold State.fseDecNPLane
    simp only [hpv, lowBits, window_field hW, Nat.min_eq_left (hW.trans hbyte), State.warnIf, decide_eq_true_eq]
  refine ⟨?_, ?_⟩
  · rw [hcell]
    exact (LanesOnly.warnIf _ _ s).trans ((LanesOnly.modLane ..).trans (.takeCell ..))
  · rw [hcell]
    simp only [State.takeCell, State.setSym, State.setFse, State.lane_modLane, if_pos, State.warnIf_lane]

section
variable {s u : State} {l : LaneId} {t : Tbl} {c : FseCell} (h : DecodedCell s u l t c)
include h

theorem DecodedCell.syms : u.syms l = c.sym.toNat := by
  rw [State.syms, h.lane, BitVec.toNat_ofNat]
  omega

theorem DecodedCell.fss {k : Tbl} (hk : k ≠ t) : u.fss l k = s.fss l k := by
  have hne : ¬ (tblIdx t).val = (tblIdx k).val := fun e => hk (tblIdx_injective e).symm
  simp [State.fss, h.lane, hne]

theorem DecodedCell.fsd {k : Tbl} (hk : k ≠ t) : u.fsd l k = s.fsd l k := by
  have hne : ¬ (tblIdx t).val = (tblIdx k).val := fun e => hk (tblIdx_injective e).symm
  simp [State.fsd, h.lane, hne]

theorem DecodedCell.dacc {n : Nat} (hn : (s.lane l).dacc.toNat + s.fsd l t = n) (hbyte : n ≤ 255) :
    (u.lane l).dacc.toNat = n := by
  rw [h.lane, hn, BitVec.toNat_ofNat]
  omega

theorem DecodedCell.pv : (u.lane l).pv = (s.lane l).pv := by rw [h.lane]

theorem DecodedCell.streamAt {X j : Nat} (hs : s.StreamAt l X j) : u.StreamAt l X j :=
  hs.congr h.only.laneFrame (by rw [h.only]; rfl) (by rw [h.lane]) (by rw [h.lane])

end

/-! ### The reads of a one-lane batch (R162, R362 steps 1 to 3) -/

theorem BitsOnly.peekLane (l : LaneId) (n : Nat) (s : State) : BitsOnly s (s.peekLane l n) := fun k => by
  obtain ⟨hlanes, -, -⟩ := s.peekLane_spec l n
  rw [hlanes]
  split
  · rename_i h
    subst h
    unfold State.refilledLane
    split <;> rfl
  · rfl

theorem BitsOnly.drop (l : LaneId) (n : Nat) (s : State) : BitsOnly s (s.drop l n) := fun k => by
  rw [State.drop_eq_warnIf, State.lane_modLane, State.warnIf_lane, State.warnIf_lane]
  split
  · rename_i h
    subst h
    exact dropped_bits _ n
  · rfl

theorem BitsOnly.fss {s t : State} (h : BitsOnly s t) (l : LaneId) (k : Tbl) : t.fss l k = s.fss l k := by
  rw [State.fss, h l, State.fss]

theorem BitsOnly.fsd {s t : State} (h : BitsOnly s t) (l : LaneId) (k : Tbl) : t.fsd l k = s.fsd l k := by
  rw [State.fsd, h l, State.fsd]

/-- `DiscardAcc` on one lane drops the accumulated bits and clears the accumulator (R209). -/
theorem State.dropAcc_lane (l : LaneId) (s : State) :
    (s.dropAcc l).lane l = { (s.drop l (s.lane l).dacc.toNat).lane l with dacc := 0 } := by
  rw [State.dropAcc, State.lane_modLane, if_pos rfl]

/-- The reads of a sequence's codes (R162): `x` has peeked, and `xL`, `xM`, `xO` have decoded a cell each, one after the other. -/
structure CodesRead (s : State) (l : LaneId) (x xL xM xO : State) (cL cM cO : FseCell) : Prop where
  ll : DecodedCell x xL l .ll cL
  ml : DecodedCell xL xM l .ml cM
  off : DecodedCell xM xO l .off cO
  bits : BitsOnly s x
  frame : LaneFrame s x

section
variable {s x xL xM xO : State} {l : LaneId} {cL cM cO : FseCell} {S j : Nat}

/-- The three decodes read the state bits of `LL`, `ML` and `OF`, and the drop takes them (R162). -/
theorem State.codesRead {dL dM dO : Nat} (hs : s.StreamAt l S (j + 1)) (hok : s.tablesOk) (hdacc : (s.lane l).dacc = 0)
    (hdL : s.fsd l .ll = dL) (hdM : s.fsd l .ml = dM) (hdO : s.fsd l .off = dO)
    (hx : s.peekLane l (dL + dM + dO) = x) (hxL : x.fseDecNPLane .ll l = xL) (hxM : xL.fseDecNPLane .ml l = xM)
    (hxO : xM.fseDecNPLane .off l = xO) :
    CodesRead s l x xL xM xO (s.cell .ll (s.fss l .ll + S % 2 ^ dL)) (s.cell .ml (s.fss l .ml + S / 2 ^ dL % 2 ^ dM))
        (s.cell .off (s.fss l .off + S / 2 ^ (dL + dM) % 2 ^ dO)) ∧
      (xO.dropAcc l).StreamAt l (S / 2 ^ (dL + dM + dO)) j := by
  have hle : ∀ k, s.fsd l k ≤ 9 := fun k => (Lane.fseOk_iff.1 (hok.lane l) k).1
  have hW : dL + dM + dO ≤ 27 := by
    subst hdL hdM hdO
    exact Nat.add_le_add (Nat.add_le_add (hle .ll) (hle .ml)) (hle .off)
  have hstart := hs.peeked (n := dL + dM + dO) (by omega)
  have hbits := BitsOnly.peekLane l (dL + dM + dO) s
  have hframe := LaneFrame.peekLane l (dL + dM + dO) s
  rw [hx] at hstart hbits hframe
  obtain ⟨hstream, havail, hpv⟩ := hstart
  have hdaccX : (x.lane l).dacc.toNat = 0 := by rw [hbits l]; simp [hdacc]
  have hL := State.fseDecNPLane_decodedCell (t := .ll) hpv hdaccX ((hbits.fsd l .ll).trans hdL) (by omega) (by omega)
  rw [hxL] at hL
  have hdaccL : (xL.lane l).dacc.toNat = dL := hL.dacc (by rw [hdaccX, hbits.fsd, hdL, Nat.zero_add]) (by omega)
  have hpvL : (xL.lane l).pv.toNat = S % 2 ^ (dL + dM + dO) := by rw [hL.pv]; exact hpv
  have hfsdM : xL.fsd l .ml = dM := by rw [hL.fsd (by decide), hbits.fsd, hdM]
  have hM := State.fseDecNPLane_decodedCell (t := .ml) hpvL hdaccL hfsdM (by omega) (by omega)
  rw [hxM] at hM
  have hdaccM : (xM.lane l).dacc.toNat = dL + dM := hM.dacc (by rw [hdaccL, hfsdM]) (by omega)
  have hpvM : (xM.lane l).pv.toNat = S % 2 ^ (dL + dM + dO) := by rw [hM.pv, hpvL]
  have hfsdO : xM.fsd l .off = dO := by rw [hM.fsd (by decide), hL.fsd (by decide), hbits.fsd, hdO]
  have hO := State.fseDecNPLane_decodedCell (t := .off) hpvM hdaccM hfsdO (by omega) (by omega)
  rw [hxO] at hO
  have hdaccO : (xO.lane l).dacc.toNat = dL + dM + dO := hO.dacc (by rw [hdaccM, hfsdO]) (by omega)
  have hfssM : xL.fss l .ml = s.fss l .ml := by rw [hL.fss (by decide), hbits.fss]
  have hfssO : xM.fss l .off = s.fss l .off := by rw [hM.fss (by decide), hL.fss (by decide), hbits.fss]
  have hframeL := hframe.trans hL.only.laneFrame
  have hframeM := hframeL.trans hM.only.laneFrame
  rw [Nat.pow_zero, Nat.div_one, hframe.cell, hbits.fss] at hL
  rw [hframeL.cell, hfssM] at hM
  rw [hframeM.cell, hfssO] at hO
  refine ⟨⟨hL, hM, hO, hbits, hframe⟩, ?_⟩
  have hstreamO := hO.streamAt (hM.streamAt (hL.streamAt hstream))
  have havailO : (xO.lane l).avail = (x.lane l).avail := by rw [hO.lane, hM.lane, hL.lane]
  have hdropped := hstreamO.dropped (n := dL + dM + dO) (by rw [havailO]; exact havail)
  rw [← hdaccO] at hdropped ⊢
  exact hdropped.congr (.modLane ..) rfl (by rw [State.dropAcc_lane]) (by rw [State.dropAcc_lane])

theorem State.fseDecNP_singleton {t : Tbl} (hb : s.built t = true) : s.fseDecNP t [l] = s.fseDecNPLane t l := by
  rw [State.fseDecNP, if_pos hb, forLanes_cons, forLanes_nil]

/-- The batch read of one lane is the visits of that lane. -/
theorem State.readBatch_singleton {y2 y3 : State} (hread : CodesRead s l x xL xM xO cL cM cO)
    (hll : s.built .ll = true) (hml : s.built .ml = true) (hoff : s.built .off = true)
    (hx : s.peekLane l (s.fsd l .ll + s.fsd l .ml + s.fsd l .off) = x) (hxL : x.fseDecNPLane .ll l = xL)
    (hxM : xL.fseDecNPLane .ml l = xM) (hxO : xM.fseDecNPLane .off l = xO)
    (hy2 : (xO.dropAcc l).peekLane l ((llCode cL.sym.toNat).2 + (mlCode cM.sym.toNat).2) = y2)
    (hy3 : (y2.drop l ((llCode cL.sym.toNat).2 + (mlCode cM.sym.toNat).2)).peekLane l cO.sym.toNat = y3) :
    (s.readBatch [l]).1 l = ⟨(llCode cL.sym.toNat).1 + (y2.lane l).pv.toNat % 2 ^ (llCode cL.sym.toNat).2,
        (mlCode cM.sym.toNat).1 + (y2.lane l).pv.toNat / 2 ^ (llCode cL.sym.toNat).2 % 2 ^ (mlCode cM.sym.toNat).2,
        offsetValue cO.sym.toNat ((y3.lane l).pv.toNat % 2 ^ cO.sym.toNat)⟩ ∧
      (s.readBatch [l]).2 = y3.drop l cO.sym.toNat := by
  obtain ⟨hL, hM, hO, -, hframe⟩ := hread
  have hframeL := hframe.trans hL.only.laneFrame
  have hframeM := hframeL.trans hM.only.laneFrame
  have hdecL : x.fseDecNP .ll [l] = xL := (State.fseDecNP_singleton ((hframe.built .ll).trans hll)).trans hxL
  have hdecM : xL.fseDecNP .ml [l] = xM := (State.fseDecNP_singleton ((hframeL.built .ml).trans hml)).trans hxM
  have hdecO : xM.fseDecNP .off [l] = xO := (State.fseDecNP_singleton ((hframeM.built .off).trans hoff)).trans hxO
  unfold State.readBatch
  simp only [State.peekV, State.discardV, State.discardAcc, forLanes_cons, forLanes_nil, hx, hdecL, hdecM, hdecO,
    hL.syms, hM.syms, hO.syms, hy2, hy3, State.windowBits, lowBits, Nat.pow_zero, Nat.div_one]
  exact ⟨trivial, trivial⟩

/-- The literal-length codes have at most 16 extra bits (R358). -/
theorem llCode_bits_le {c : Nat} (hc : c ≤ 35) : (llCode c).2 ≤ 16 := by
  have htable : ∀ c < 36, (llCode c).2 ≤ 16 := by decide
  exact htable c (by omega)

theorem State.cell_sym_le {t : Tbl} (hok : s.fseTableOk t) (hb : s.built t = true) (n : Nat) :
    (s.cell t n).sym.toNat ≤ maxSym t :=
  (FseCell.ok_iff.1 (State.cell_ok hok hb n)).1

/-- The batch read of one lane, from a stream of three words at the least (R162, R362). -/
theorem State.readBatch_of_streamAt (hs : s.StreamAt l S 3) (hok : s.tablesOk) (hll : s.built .ll = true)
    (hml : s.built .ml = true) (hoff : s.built .off = true) (hdacc : (s.lane l).dacc = 0)
    (hcL : s.cell .ll (s.fss l .ll + S % 2 ^ s.fsd l .ll) = cL)
    (hcM : s.cell .ml (s.fss l .ml + S / 2 ^ s.fsd l .ll % 2 ^ s.fsd l .ml) = cM)
    (hcO : s.cell .off (s.fss l .off + S / 2 ^ (s.fsd l .ll + s.fsd l .ml) % 2 ^ s.fsd l .off) = cO)
    {S1 lb mb ob : Nat} (hS1 : S / 2 ^ (s.fsd l .ll + s.fsd l .ml + s.fsd l .off) = S1)
    (hlb : (llCode cL.sym.toNat).2 = lb) (hmb : (mlCode cM.sym.toNat).2 = mb) (hob : cO.sym.toNat = ob) :
    (s.readBatch [l]).1 l = ⟨(llCode cL.sym.toNat).1 + S1 % 2 ^ lb, (mlCode cM.sym.toNat).1 + S1 / 2 ^ lb % 2 ^ mb,
        (2 ^ ob + S1 / 2 ^ (lb + mb) % 2 ^ ob) % 2 ^ 32⟩ ∧
      ((s.readBatch [l]).2.lane l).fss =
        (((s.lane l).fss.set (tblIdx .ll) cL.base).set (tblIdx .ml) cM.base).set (tblIdx .off) cO.base ∧
      ((s.readBatch [l]).2.lane l).fsd =
        (((s.lane l).fsd.set (tblIdx .ll) cL.nb).set (tblIdx .ml) cM.nb).set (tblIdx .off) cO.nb ∧
      ((s.readBatch [l]).2.lane l).dacc = 0 := by
  obtain ⟨x, hx⟩ : ∃ x, s.peekLane l (s.fsd l .ll + s.fsd l .ml + s.fsd l .off) = x := ⟨_, rfl⟩
  obtain ⟨xL, hxL⟩ : ∃ xL, x.fseDecNPLane .ll l = xL := ⟨_, rfl⟩
  obtain ⟨xM, hxM⟩ : ∃ xM, xL.fseDecNPLane .ml l = xM := ⟨_, rfl⟩
  obtain ⟨xO, hxO⟩ : ∃ xO, xM.fseDecNPLane .off l = xO := ⟨_, rfl⟩
  obtain ⟨y2, hy2⟩ : ∃ y2, (xO.dropAcc l).peekLane l (lb + mb) = y2 := ⟨_, rfl⟩
  obtain ⟨y3, hy3⟩ : ∃ y3, (y2.drop l (lb + mb)).peekLane l ob = y3 := ⟨_, rfl⟩
  have hlb16 : lb ≤ 16 := hlb ▸ llCode_bits_le (hcL ▸ State.cell_sym_le (hok.1 .ll) hll _)
  have hmb16 : mb ≤ 16 := hmb ▸ (mlCode_le (hcM ▸ State.cell_sym_le (hok.1 .ml) hml _)).2
  have hob31 : ob ≤ 31 := hob ▸ hcO ▸ State.cell_sym_le (hok.1 .off) hoff _
  subst hlb hmb hob
  obtain ⟨hread, hstream⟩ := s.codesRead hs hok hdacc rfl rfl rfl hx hxL hxM hxO
  rw [hcL, hcM, hcO] at hread
  rw [hS1] at hstream
  obtain ⟨hvals, hstate⟩ := State.readBatch_singleton hread hll hml hoff hx hxL hxM hxO hy2 hy3
  obtain ⟨hL, hM, hO, hbits, -⟩ := hread
  obtain ⟨hstream2, havail2, hpv2⟩ := hy2 ▸ hstream.peeked (n := (llCode cL.sym.toNat).2 + (mlCode cM.sym.toNat).2) (by omega)
  obtain ⟨-, -, hpv3⟩ := hy3 ▸ (hstream2.dropped havail2).peeked (n := cO.sym.toNat) (by omega)
  have hafter : BitsOnly (xO.dropAcc l) (s.readBatch [l]).2 := by
    rw [hstate, ← hy3, ← hy2]
    exact (((BitsOnly.peekLane l _ _).trans (.drop l _ _)).trans (.peekLane l _ _)).trans (.drop l _ _)
  have hxlane := hbits l
  have hdrop := BitsOnly.drop l (xO.lane l).dacc.toNat xO l
  refine ⟨?_, ?_, ?_, ?_⟩
  · have hlow : S1 % 2 ^ ((llCode cL.sym.toNat).2 + (mlCode cM.sym.toNat).2) % 2 ^ (llCode cL.sym.toNat).2
        = S1 % 2 ^ (llCode cL.sym.toNat).2 := by
      rw [Nat.pow_add, Nat.mod_mul_right_mod]
    rw [hvals, hpv2, hpv3, offsetValue, if_pos hob31, Nat.mod_mod, window_field (le_refl _), hlow]
  · rw [hafter l, State.dropAcc_lane, hdrop, hO.lane, hM.lane, hL.lane, hxlane]
  · rw [hafter l, State.dropAcc_lane, hdrop, hO.lane, hM.lane, hL.lane, hxlane]
  · rw [hafter l, State.dropAcc_lane]

end

end Sys2Proof.Machine

namespace Sys2Proof.Claims

open Sys2Proof.Machine

/-- Settles O43: the peeks, drops and decodes of lane 0 followed along its bit stream. -/
theorem sequenceFieldsOfOneLane : Obligations.SequenceFieldsOfOneLane := by
  unfold Obligations.SequenceFieldsOfOneLane
  intro s hlanes hok hll hml hoff hdacc
  obtain ⟨hbuf, havail, -⟩ := Lane.bufOk_iff.1 (hlanes 0)
  have hone : laneRange 0 1 = [0] := by decide
  rw [hone]
  exact State.readBatch_of_streamAt ⟨hbuf, havail, 3, le_refl _, by rw [State.wordsValue_three]⟩ hok hll hml hoff hdacc
    rfl rfl rfl rfl rfl rfl rfl

end Sys2Proof.Claims
end

section
/-! The bitstream reader (41_bitstream.md R201 to R210): its commands, each in the builds its statement speaks of. -/

namespace Sys2Proof.Machine

open Sys2Proof.Claims

/-! ### Input words (20_memory.md R103) -/

/-- Byte `k` of an input word is input byte `4i + k`: the word is little-endian. -/
theorem State.extractLsb'_inWordAt (s : State) (i : Nat) {k : Nat} (hk : k < 4) :
    (s.inWordAt i).extractLsb' (8 * k) 8 = s.inByte (4 * i + k) := by
  unfold State.inWordAt
  refine BitVec.eq_of_toNat_eq ?_
  have h0 := (s.inByte (4 * i)).isLt
  have h1 := (s.inByte (4 * i + 1)).isLt
  have h2 := (s.inByte (4 * i + 2)).isLt
  have h3 := (s.inByte (4 * i + 3)).isLt
  rw [BitVec.extractLsb'_toNat, append_toNat, append_toNat, append_toNat, Nat.shiftRight_eq_div_pow]
  interval_cases k
  · rw [show 4 * i + 0 = 4 * i from rfl]
    omega
  all_goals omega

/-! ### The raw reader's commands -/

theorem exec_rdword (s : State) :
    exec .rdword s = .next { s with res := (s.inWordAt s.readPos.toNat).setWidth 64, readPos := s.readPos + 1 } := by
  have hexec : exec .rdword s = .next (s.inWord.2.setRes s.inWord.1.toNat) := finish_of_warnLog rfl
  rw [hexec, State.setRes, BitVec.ofNat_toNat]
  rfl

/-- Reading a byte raises nothing, so `RDBYTE` hands it out in either build. -/
theorem exec_rdbyte_eq (s : State) : exec .rdbyte s = .next (s.readByte.2.setRes s.readByte.1.toNat) :=
  finish_of_warnLog (by rw [State.setRes_warnLog, s.readByte_taken.2.2])

/-! ### `SYNC` -/

/-- `SYNC` empties every lane, and the cache (R201). -/
theorem State.sync_spec (s : State) :
    (∀ l, s.sync.lane l = { s.lane l with buf := 0, avail := 0, dacc := 0 }) ∧
      s.sync = { s with rcn := 0, rcb := #v[0, 0, 0, 0], lanes := s.sync.lanes } := by
  obtain ⟨hlanes, hframe⟩ := forLanes_modLane allLanes_nodup (fun _ x => { x with buf := 0, avail := 0, dacc := 0 })
    { s with rcn := 0, rcb := Vector.replicate 4 0 }
  refine ⟨fun l => ?_, hframe⟩
  have hl := hlanes l
  rw [if_pos (mem_allLanes l)] at hl
  exact hl

/-- `SYNC` raises nothing, so it completes in either build. -/
theorem exec_sync (s : State) : exec .sync s = .next s.sync :=
  finish_of_warnLog (by rw [s.sync_spec.2])

/-! ### `DISCARDACC` -/

theorem State.dropAcc_eq_warnIf (l : LaneId) (s : State) :
    s.dropAcc l = (s.warnIf (decide ((s.lane l).avail.toNat < (s.lane l).dacc.toNat)) .discardUnderflow).modLane l
      fun x => { dropped x x.dacc.toNat with dacc := 0 } := by
  rw [State.dropAcc, State.drop_eq_warnIf, State.modLane_modLane]
  exact State.modLane_congr (by rw [State.warnIf_lane])

/-- What `DiscardAcc` over a range of lanes does (R209). -/
theorem State.discardAcc_dropEffect (lo cnt : Nat) (s : State) :
    DropEffect s (s.discardAcc (laneRange lo cnt)) lo cnt (fun l => (s.lane l).dacc.toNat) fun x => { x with dacc := 0 } := by
  obtain ⟨hlanes, hwarned, hframe⟩ := forLanes_warnIf_modLane (laneRange_nodup lo cnt)
    (fun _ x => decide (x.avail.toNat < x.dacc.toNat)) .discardUnderflow
    (fun _ x => { dropped x x.dacc.toNat with dacc := 0 }) (f := State.dropAcc) (s := s) fun l u _ => u.dropAcc_eq_warnIf l
  refine ⟨fun l => ?_, countP_laneRange lo cnt _ ▸ hwarned, hframe⟩
  simp only [← mem_laneRange_iff_inRange]
  exact hlanes l

end Sys2Proof.Machine

namespace Sys2Proof.Claims

open Sys2Proof.Machine

/-! ### A peek twice -/

/-- Where no warning was raised, the warning registers are as before. -/
theorem WarnedAt.warningsOf_eq {s t : State} (h : WarnedAt s t []) : warningsOf s t = s := by
  obtain ⟨hlog, hsticky, hcount, hlast⟩ := h
  have hsame : t.warnCount = s.warnCount := BitVec.eq_of_toNat_eq (by
    have := s.warnCount.isLt
    rw [hcount, List.length_nil]
    omega)
  simp only [List.append_nil] at hlog
  simp only [warningsOf, hlog, hsticky, hsame, hlast]
  rfl

section
variable {s t u : State} {lo cnt : Nat} {width : LaneId → Nat}

/-- A peek of widths up to 32 (R205): no width is cut, and no warning raised. -/
theorem PeekEffect.of_width_le (h : PeekEffect s t lo cnt width) (hwidth : ∀ l, width l ≤ 32) :
    t.readPos = s.readPos + BitVec.ofNat 64 (wordsBefore s lo cnt width 32) ∧
      (∀ l, t.lane l = if inRange lo cnt l then windowed (filledLane s lo cnt width l) (width l) else s.lane l) ∧
      WarnedAt s t [] ∧ LaneFrame s t := by
  obtain ⟨hread, hlane, hwarned, hframe⟩ := h
  simp only [Nat.min_eq_left (hwidth _)] at hread hlane
  rw [List.filter_eq_nil_iff.2 fun l _ => by simp [hwidth l], List.map_nil] at hwarned
  exact ⟨hread, hlane, hwarned, hframe⟩

/-- A word gives a lane as many bits as a peek can ask for, so after the peek no lane of the range needs one (R204). -/
theorem PeekEffect.needsWord_eq_false (h : PeekEffect s t lo cnt width) (hwidth : ∀ l, width l ≤ 32) (l : LaneId) :
    needsWord t lo cnt width l = false := by
  obtain ⟨-, hlane, -, -⟩ := h.of_width_le hwidth
  have hle := hwidth l
  cases hin : inRange lo cnt l with
  | false => rw [needsWord, hin, Bool.false_and]
  | true =>
    have hfull : width l ≤ (t.lane l).avail.toNat := by
      rw [hlane, if_pos hin, windowed, filledLane, needsWord, hin, Bool.true_and]
      by_cases hshort : (s.lane l).avail.toNat < width l
      · have hword : (32 : BitVec 7).toNat = 32 := rfl
        simp only [hshort, decide_true, if_true, BitVec.toNat_add, hword]
        omega
      · simp only [hshort, decide_false, Bool.false_eq_true, if_false]
        omega
    rw [needsWord, decide_eq_false (by omega), Bool.and_false]

/-- The window a peek leaves shows bits that stay buffered, so it is the lane's window again (R206). -/
theorem PeekEffect.windowed_lane (h : PeekEffect s t lo cnt width) (hwidth : ∀ l, width l ≤ 32) {l : LaneId}
    (hin : inRange lo cnt l = true) : windowed (t.lane l) (width l) = t.lane l := by
  obtain ⟨-, hlane, -, -⟩ := h.of_width_le hwidth
  rw [hlane, if_pos hin]
  rfl

/-- A peek changes nothing where every lane holds enough bits and shows its window already (R205). -/
theorem PeekEffect.eq_self (h : PeekEffect s t lo cnt width) (hwidth : ∀ l, width l ≤ 32)
    (hfull : ∀ l, needsWord s lo cnt width l = false)
    (hshown : ∀ l, inRange lo cnt l = true → windowed (s.lane l) (width l) = s.lane l) : t = s := by
  obtain ⟨hread, hlane, hwarned, hframe⟩ := h.of_width_le hwidth
  have hcursor : t.readPos = s.readPos := by simp [hread, wordsBefore, hfull]
  have hfilled : ∀ l, filledLane s lo cnt width l = s.lane l := fun l => by simp [filledLane, hfull]
  have hlanes : t.lanes = s.lanes := lanes_ext fun l => by
    rw [hlane, hfilled]
    split
    · next hin => exact hshown l hin
    · rfl
  rw [hframe, hwarned.warningsOf_eq, hcursor, hlanes]

/-- The same peek again changes nothing (R205). -/
theorem PeekEffect.again (h : PeekEffect s t lo cnt width) (k : PeekEffect t u lo cnt width) (hwidth : ∀ l, width l ≤ 32) :
    u = t :=
  k.eq_self hwidth (h.needsWord_eq_false hwidth) fun _ hin => h.windowed_lane hwidth hin

end

/-- A peek of a legal width completes in either build. -/
theorem exec_peek_of_le {n : BitVec 6} (hn : n.toNat ≤ 32) (lo : BitVec 5) (cnt : BitVec 6) (s : State) :
    exec (.peek lo cnt n) s = .next (s.peekV (laneRange lo.toNat cnt.toNat) fun _ => n.toNat) :=
  finish_of_warnLog (by
    obtain ⟨-, -, ⟨hlog, -⟩, -⟩ := (s.peekV_peekEffect lo.toNat cnt.toNat fun _ => n.toNat).of_width_le fun _ => hn
    rwa [List.append_nil] at hlog)

/-! ### The statements -/

/-- Settles O19: the peek over a range of lanes, with one width and with those of `NV`. -/
theorem peekWindows : Obligations.PeekWindows := by
  refine ⟨fun lo cnt n => by simp [encode_toNat, Instr.fields], fun lo cnt => by simp [encode_toNat, Instr.fields],
    fun s lo cnt hsan => ⟨fun n => ?_, ?_⟩⟩
  · exact ⟨_, finish_of_sanitize hsan, s.peekV_peekEffect lo.toNat cnt.toNat fun _ => n.toNat⟩
  · exact ⟨_, finish_of_sanitize hsan, s.peekV_peekEffect lo.toNat cnt.toNat s.nvWidth⟩

/-- Settles O20: after the first peek no lane needs a word and every window shows the bits still buffered. -/
theorem peekIsIdempotent : Obligations.PeekIsIdempotent := by
  unfold Obligations.PeekIsIdempotent
  intro s lo cnt n hn
  have hagain := (s.peekV_peekEffect lo.toNat cnt.toNat fun _ => n.toNat).again
    (State.peekV_peekEffect lo.toNat cnt.toNat (fun _ => n.toNat) _) fun _ => hn
  exact ⟨_, exec_peek_of_le hn lo cnt s, (exec_peek_of_le hn lo cnt _).trans (congrArg _ hagain)⟩

/-- Settles O21: the three discards, each lane by itself. -/
theorem discardsDropBits : Obligations.DiscardsDropBits := by
  refine ⟨fun lo cnt n => by simp [encode_toNat, Instr.fields], fun lo cnt => by simp [encode_toNat, Instr.fields],
    fun lo cnt => by simp [encode_toNat, Instr.fields], fun s lo cnt hsan => ⟨fun n => ?_, ?_, ?_⟩⟩
  · exact ⟨_, finish_of_sanitize hsan, s.discardV_dropEffect lo.toNat cnt.toNat fun _ => n.toNat⟩
  · exact ⟨_, finish_of_sanitize hsan, s.discardV_dropEffect lo.toNat cnt.toNat s.nvWidth⟩
  · exact ⟨_, finish_of_sanitize hsan, s.discardAcc_dropEffect lo.toNat cnt.toNat⟩

/-- Settles O18: the cache is cleared, then every lane. -/
theorem syncEmptiesReaders : Obligations.SyncEmptiesReaders := by
  refine ⟨by decide, fun s => ?_⟩
  obtain ⟨hlanes, hframe⟩ := s.sync_spec
  refine ⟨s.sync, exec_sync s, ?_, ?_, hlanes, ?_⟩ <;> rw [hframe]

/-- Settles O17: the byte and the stream after it are those of `ReadByte`. -/
theorem rdbyteTakesByte : Obligations.RdbyteTakesByte := by
  refine ⟨by decide, fun s => ⟨_, exec_rdbyte_eq s, ?_, ?_, ?_⟩⟩
  · rw [State.setRes_res, BitVec.ofNat_toNat, s.readByte_taken.1]
  · exact s.readByte_taken.2.1.congr rfl rfl rfl rfl rfl
  · rw [s.readByte_taken.2.2]
    rfl

/-- Settles O16: the word at the cursor, and its bytes. -/
theorem rdwordTakesWord : Obligations.RdwordTakesWord :=
  ⟨by decide, exec_rdword, fun s i _ hk => s.extractLsb'_inWordAt i hk⟩

end Sys2Proof.Claims
end

section
/-! The cells of a built FSE table (42_fse.md R253, R261): they are the slots of the distribution in another order, and the
next-state intervals of one symbol's slots tile the states. -/

namespace Sys2Proof.Machine

open Sys2Proof.Claims

/-! ### The cells are the slots, in another order -/

theorem tabFrom_eq_map {α : Type} (f : Nat → α) (n i : Nat) : tabFrom f n i = (List.range n).map fun k => f (i + k) := by
  refine List.ext_getElem (by rw [tabFrom_length, List.length_map, List.length_range]) fun k hk _ => ?_
  have hget := getElem?_tabFrom f (n := n) (k := k) (by rwa [tabFrom_length] at hk) i
  rw [List.getElem?_eq_getElem hk] at hget
  simpa using hget

/-- The positions of the slots are the cells in another order (R253). -/
theorem map_slotPos_perm_range {A : Nat} (hA : 4 ≤ A) : ((List.range (2 ^ A)).map (slotPos A)).Perm (List.range (2 ^ A)) := by
  have hnodup : ((List.range (2 ^ A)).map (slotPos A)).Nodup :=
    List.nodup_range.map_on fun a ha b hb => slotPos_injective hA (List.mem_range.1 ha) (List.mem_range.1 hb)
  refine (List.perm_ext_iff_of_nodup hnodup List.nodup_range).2 fun x => ?_
  simp only [List.mem_map, List.mem_range]
  constructor
  · rintro ⟨j, -, rfl⟩
    exact Nat.mod_lt _ (Nat.two_pow_pos A)
  · exact slotPos_surjective hA

/-- The cells of a built table are the slots of its distribution, in another order (R253). -/
theorem State.buildTable_cells_perm {t : Tbl} {A : Nat} {prob : List Nat} (h : TableSpec t A prob) (s : State) :
    ((List.range (2 ^ A)).map fun x => (s.buildTable t A prob).fseCellAt (tableStart t + x)).Perm (slotCells A 0 prob) := by
  have hA : 4 ≤ A := (by decide : 4 ≤ minAccuracyLog).trans h.min_le
  have hlen : (slotCells A 0 prob).length = 2 ^ A := (slotCells_length A 0 prob).trans h.sum
  have hslots : (List.range (2 ^ A)).map (fun j => (s.buildTable t A prob).fseCellAt (tableStart t + slotPos A j)) =
      slotCells A 0 prob := by
    refine List.ext_getElem (by simp [hlen]) fun j hj hj' => ?_
    have hcell := writeSlots_fseCellAt h.le_max hA (List.getElem?_eq_getElem hj') 0 (by omega) s
    rw [Nat.zero_add] at hcell
    rw [List.getElem_map, List.getElem_range]
    exact hcell
  have hperm := (map_slotPos_perm_range hA).map fun x => (s.buildTable t A prob).fseCellAt (tableStart t + x)
  rw [List.map_map] at hperm
  exact hslots ▸ hperm.symm

theorem slotCell_sym_eq_iff {A a b p k : Nat} (ha : a < 256) (hb : b < 256) :
    (slotCell A a p k).sym = BitVec.ofNat 8 b ↔ a = b := by
  rw [slotCell, ← BitVec.toNat_inj, BitVec.toNat_ofNat, BitVec.toNat_ofNat, Nat.mod_eq_of_lt ha, Nat.mod_eq_of_lt hb]

/-- Of the slots of a distribution, those of one symbol: one a rank (R253). -/
theorem filter_sym_slotCells (A sym₀ : Nat) {prob : List Nat} {sym : Nat} (hsym : sym < prob.length)
    (hbyte : sym₀ + prob.length ≤ 256) :
    (slotCells A sym₀ prob).filter (fun c => c.sym == BitVec.ofNat 8 (sym₀ + sym)) =
      tabFrom (slotCell A (sym₀ + sym) (prob.getD sym 0)) (prob.getD sym 0) 0 := by
  induction prob generalizing sym₀ sym with
  | nil => simp at hsym
  | cons p ps ih =>
    rw [List.length_cons] at hsym hbyte
    rw [slotCells, List.filter_append]
    cases sym with
    | zero =>
      have hfirst : ∀ c ∈ tabFrom (slotCell A sym₀ p) p 0, (c.sym == BitVec.ofNat 8 sym₀) = true := fun c hc => by
        obtain ⟨k, -, -, rfl⟩ := mem_tabFrom hc
        exact beq_self_eq_true _
      have hrest : ∀ c ∈ slotCells A (sym₀ + 1) ps, ¬ (c.sym == BitVec.ofNat 8 sym₀) = true := fun c hc => by
        obtain ⟨i, q, k, hi, -, -, rfl⟩ := mem_slotCells hc
        rw [beq_iff_eq, slotCell_sym_eq_iff (by omega) (by omega)]
        omega
      rw [Nat.add_zero, List.filter_eq_self.2 hfirst, List.filter_eq_nil_iff.2 hrest, List.append_nil]
      rfl
    | succ sym =>
      have hfirst : ∀ c ∈ tabFrom (slotCell A sym₀ p) p 0, ¬ (c.sym == BitVec.ofNat 8 (sym₀ + (sym + 1))) = true :=
        fun c hc => by
          obtain ⟨k, -, -, rfl⟩ := mem_tabFrom hc
          rw [beq_iff_eq, slotCell_sym_eq_iff (by omega) (by omega)]
          omega
      rw [List.filter_eq_nil_iff.2 hfirst, List.nil_append, show sym₀ + (sym + 1) = sym₀ + 1 + sym by omega]
      exact ih (sym₀ + 1) (by omega) (by omega)

/-! ### One symbol's intervals (R261) -/

/-- A slot's bit count takes its number up into [2^A, 2^(A+1)). -/
theorem mul_pow_sub_log_bounds {A ns : Nat} (hpos : 0 < ns) (hlog : Nat.log 2 ns ≤ A) :
    2 ^ A ≤ ns * 2 ^ (A - Nat.log 2 ns) ∧ (ns + 1) * 2 ^ (A - Nat.log 2 ns) ≤ 2 * 2 ^ A := by
  have hlow : 2 ^ Nat.log 2 ns ≤ ns := Nat.pow_log_le_self 2 (by omega)
  have hhigh : ns + 1 ≤ 2 ^ Nat.log 2 ns * 2 := Nat.lt_pow_succ_log_self (b := 2) (by decide) ns
  have hsize : 2 ^ A = 2 ^ Nat.log 2 ns * 2 ^ (A - Nat.log 2 ns) := by rw [← Nat.pow_add, Nat.add_sub_cancel' hlog]
  have hle := Nat.mul_le_mul_right (2 ^ (A - Nat.log 2 ns)) hlow
  have hge := Nat.mul_le_mul_right (2 ^ (A - Nat.log 2 ns)) hhigh
  rw [Nat.mul_right_comm, ← hsize] at hge
  exact ⟨by omega, by omega⟩

/-- A state lies in a slot's next-state interval where its number, with 2^A added, shifted down by the slot's bit count, is
that of the slot. -/
theorem slotCell_interval_iff {A sym p k y : Nat} (hA : A ≤ 9) (hk : k < p) (hp : p ≤ 2 ^ A) :
    (slotCell A sym p k).base.toNat ≤ y ∧ y < (slotCell A sym p k).base.toNat + 2 ^ (slotCell A sym p k).nb.toNat ↔
      (2 ^ A + y) / 2 ^ (A - Nat.log 2 (p + k)) = p + k := by
  have hpos : 0 < p + k := by omega
  have hlog : Nat.log 2 (p + k) ≤ A :=
    Nat.lt_succ_iff.1 (Nat.log_lt_of_lt_pow (by omega) (by rw [Nat.pow_succ]; omega))
  obtain ⟨hlow, hhigh⟩ := mul_pow_sub_log_bounds hpos hlog
  have hsize : 2 ^ A ≤ 2 ^ 9 := Nat.pow_le_pow_right (by decide) hA
  rw [Nat.succ_mul] at hhigh
  have hnb : (slotCell A sym p k).nb.toNat = A - Nat.log 2 (p + k) := by
    simp only [slotCell, floorlog2_eq hpos, BitVec.toNat_ofNat]
    omega
  have hbase : (slotCell A sym p k).base.toNat = (p + k) * 2 ^ (A - Nat.log 2 (p + k)) - 2 ^ A := by
    simp only [slotCell, floorlog2_eq hpos, BitVec.toNat_ofNat]
    have := Nat.two_pow_pos (A - Nat.log 2 (p + k))
    omega
  rw [hnb, hbase, Nat.div_eq_iff (Nat.two_pow_pos _)]
  omega

/-- Exactly one of a symbol's slots has a given state in its interval (R261): the one that the state's number, with 2^A added,
names once it is shifted down into [p, 2p). -/
theorem existsUnique_slot {A p y : Nat} (hpos : 0 < p) (hp : p ≤ 2 ^ A) (hy : y < 2 ^ A) :
    ∃ k < p, ∀ i < p, (2 ^ A + y) / 2 ^ (A - Nat.log 2 (p + i)) = p + i ↔ i = k := by
  generalize hY : 2 ^ A + y = Y
  have hlogY : Nat.log 2 Y = A := Nat.log_eq_of_pow_le_of_lt_pow (by omega) (by rw [Nat.pow_succ]; omega)
  have hhalf : ∀ b, Y / 2 ^ (b + 1) = Y / 2 ^ b / 2 := fun b => by rw [Nat.pow_succ, Nat.div_div_eq_div_mul]
  have hvanish : Y / 2 ^ (A + 1) = 0 := Nat.div_eq_of_lt (by rw [Nat.pow_succ]; omega)
  have hexists : ∃ b, Y / 2 ^ (b + 1) < p := ⟨A, by omega⟩
  obtain ⟨b, hbelow, hleast⟩ : ∃ b, Y / 2 ^ (b + 1) < p ∧ ∀ c, Y / 2 ^ (c + 1) < p → b ≤ c :=
    ⟨Nat.find hexists, Nat.find_spec hexists, fun c => Nat.find_min' hexists⟩
  have hbA : b ≤ A := hleast A (by omega)
  have habove : p ≤ Y / 2 ^ b := by
    cases b with
    | zero =>
      rw [Nat.pow_zero, Nat.div_one]
      omega
    | succ c =>
      by_contra hlt
      have := hleast c (by omega)
      omega
  have hhalfb := hhalf b
  refine ⟨Y / 2 ^ b - p, by omega, fun i hi => ⟨fun hslot => ?_, fun hik => ?_⟩⟩
  · have hle := hleast (A - Nat.log 2 (p + i)) (by rw [hhalf, hslot]; omega)
    have hge : A - Nat.log 2 (p + i) ≤ b := by
      by_contra hlt
      have hpow : 2 ^ (b + 1) ≤ 2 ^ (A - Nat.log 2 (p + i)) := Nat.pow_le_pow_right (by decide) (by omega)
      have := Nat.div_le_div_left (a := Y) hpow (Nat.two_pow_pos _)
      omega
    rw [Nat.le_antisymm hge hle] at hslot
    omega
  · have hnumber : p + i = Y / 2 ^ b := by omega
    rw [hnumber, Nat.log_div_base_pow, hlogY, Nat.sub_sub_self hbA]

theorem countP_range_eq_one {n k : Nat} {P : Nat → Bool} (hk : k < n) (hP : ∀ i < n, P i = true ↔ i = k) :
    (List.range n).countP P = 1 := by
  have hcount : (List.range n).countP P = (List.range n).count k :=
    List.countP_congr fun i hi => by rw [hP i (List.mem_range.1 hi), beq_iff_eq]
  rw [hcount, List.count_eq_one_of_mem List.nodup_range (List.mem_range.2 hk)]

/-- A state lies in the next-state interval of exactly one of a symbol's slots (R261). -/
theorem countP_interval_slots {A p y : Nat} (sym : Nat) (hA : A ≤ 9) (hpos : 0 < p) (hp : p ≤ 2 ^ A) (hy : y < 2 ^ A) :
    (tabFrom (slotCell A sym p) p 0).countP
      (fun c => decide (c.base.toNat ≤ y) && decide (y < c.base.toNat + 2 ^ c.nb.toNat)) = 1 := by
  obtain ⟨k, hk, hunique⟩ := existsUnique_slot hpos hp hy
  rw [tabFrom_eq_map, List.countP_map]
  refine countP_range_eq_one hk fun i hi => ?_
  simp only [Function.comp_apply, Nat.zero_add, Bool.and_eq_true, decide_eq_true_eq]
  exact (slotCell_interval_iff hA hi hp).trans (hunique i hi)

/-- How many cells of a built table give a symbol, of those that `P` selects: as many as its slots (R253). -/
theorem State.buildTable_countP {t : Tbl} {A : Nat} {prob : List Nat} (h : TableSpec t A prob) (s : State) {sym : Nat}
    (hsym : sym < prob.length) (P : FseCell → Bool) :
    (List.range (2 ^ A)).countP (fun x =>
        ((s.buildTable t A prob).fseCellAt ((tableRange t).1 + x)).sym == BitVec.ofNat 8 sym &&
          P ((s.buildTable t A prob).fseCellAt ((tableRange t).1 + x))) =
      (tabFrom (slotCell A sym (prob.getD sym 0)) (prob.getD sym 0) 0).countP P := by
  have hlen := h.length
  have hsyms := maxSym_le t
  have hslots := filter_sym_slotCells A 0 hsym (by omega)
  rw [Nat.zero_add] at hslots
  rw [← hslots, List.countP_filter, ← (s.buildTable_cells_perm h).countP_eq, List.countP_map, tableRange_fst]
  exact List.countP_congr fun x _ => by rw [Function.comp_apply, Bool.and_comm]

/-! ### The predefined tables (R255, R257) -/

/-- The model's predefined distributions are those printed, `-1` read as 1 (R255). -/
theorem predefined_eq_printed {t : Tbl} (ht : t ≠ .hw) :
    predefined t = some ((printedDistribution t).1, predefinedProbs t) := by
  cases t with
  | hw => exact absurd rfl ht
  | ll => rfl
  | ml => rfl
  | off => rfl

/-- `FSEPREDEF` raises nothing, so it completes in either build (R257). -/
theorem exec_fsepredef {t : Tbl} (ht : t ≠ .hw) (s : State) :
    exec (.fsepredef t) s = .next ((s.buildTable t (printedDistribution t).1 (predefinedProbs t)).setRes
      (printedDistribution t).1) := by
  have hlog : ((s.buildTable t (printedDistribution t).1 (predefinedProbs t)).setRes (printedDistribution t).1).warnLog =
      s.warnLog := by rw [State.buildTable_frame]; rfl
  cases t with
  | hw => exact absurd rfl ht
  | ll => exact finish_of_warnLog hlog
  | ml => exact finish_of_warnLog hlog
  | off => exact finish_of_warnLog hlog

end Sys2Proof.Machine

namespace Sys2Proof.Claims

open Sys2Proof.Machine

/-- Settles O22: every slot is written to its own cell, and nothing else is. -/
theorem buildTableSpreads : Obligations.BuildTableSpreads := by
  intro s t A prob hmin hmax hlen hsum
  refine ⟨s.buildTable_spreadOf ⟨hmin, hmax, hlen, hsum⟩, s.buildTable_otherTablesKept hmax prob, ?_⟩
  rw [State.buildTable_frame]

/-- Settles O23: the cells are the slots in another order; a symbol has one slot a rank, and exactly one of them names a given
state. -/
theorem cellIntervalsTile : Obligations.CellIntervalsTile := by
  intro s t A prob hmin hmax hlen hsum cell sym hsym
  have hspec : TableSpec t A prob := ⟨hmin, hmax, hlen, hsum⟩
  have hp : prob.getD sym 0 ≤ 2 ^ A := by
    rw [List.getD_eq_getElem _ _ hsym, ← hsum]
    exact List.le_sum_of_mem (List.getElem_mem hsym)
  refine ⟨?_, fun hpos y hy => ?_⟩
  · have hall := s.buildTable_countP hspec hsym fun _ => true
    rw [List.countP_true, tabFrom_length] at hall
    simpa only [Bool.and_true] using hall
  · have hone := s.buildTable_countP hspec hsym fun c =>
      decide (c.base.toNat ≤ y) && decide (y < c.base.toNat + 2 ^ c.nb.toNat)
    rw [countP_interval_slots sym (hmax.trans (maxAcc_le t)) hpos hp hy] at hone
    simpa only [Bool.and_assoc] using hone

/-- Settles O24: the predefined distributions are legal, so their tables are the spread ones; decoding never answers an
ill-formed command. -/
theorem fsepredefBuilds : Obligations.FsepredefBuilds := by
  refine ⟨fun t _ => by simp [encode_toNat, Instr.fields, tblCode_toNat], fun w hw => ?_, fun s t ht => ?_⟩
  · obtain ⟨-, hwf⟩ := decodeThenEncode w _ hw
    exact absurd hwf (by decide)
  · obtain ⟨hspread, hkept, hres, hframe⟩ :=
      State.buildTable_setRes (tableSpec_predefined (predefined_eq_printed ht)) (v := s) rfl
    exact ⟨_, exec_fsepredef ht s, hspread, hres, hkept, hframe⟩

end Sys2Proof.Claims
end

section
/-! The live states of the FSE tables (42_fse.md R258 to R260): initialised, and taken from one cell to the next by a decode,
lane by lane. -/

namespace Sys2Proof.Machine

open Sys2Proof.Claims

/-! ### A warning, then each lane by itself -/

/-- A warning where `b` holds, then each lane of a range changed by itself. -/
theorem warnIf_forLanes_modLane (b : Bool) (c : Warn) (lo cnt : Nat) (g : LaneId → Lane → Lane) {s u : State}
    (hu : u = forLanes (laneRange lo cnt) (fun l => State.modLane l (g l)) (s.warnIf b c)) :
    (∀ l, u.lane l = if inRange lo cnt l then g l (s.lane l) else s.lane l) ∧
      WarnedHere s u (if b then [c] else []) ∧ u = { warningsOf s u with lanes := u.lanes } := by
  obtain ⟨hlanes, hframe⟩ := forLanes_modLane (laneRange_nodup lo cnt) g (s.warnIf b c)
  rw [← hu] at hlanes hframe
  have hwarned := s.warnIf_warnedHere b c
  refine ⟨fun l => ?_, ?_, ?_⟩
  · rw [hlanes, State.warnIf_lane]
    simp only [mem_laneRange_iff_inRange]
  · rw [show (if b then [c] else []) = List.replicate (if b then 1 else 0) c by cases b <;> rfl]
    exact hwarned.congr (by rw [hframe]) (by rw [hframe]) (by rw [hframe]) (by rw [hframe])
  · have honly : LanesOnly (s.warnIf b c) u := by
      unfold LanesOnly
      rw [hframe]
      rfl
    exact (LanesOnly.warnIf b c s).trans honly

/-- A decode through an unbuilt table (R259, R260): the warning, and `SYM` = 0. -/
theorem State.decodeUnbuilt_unbuiltEffect (lo cnt : Nat) (s : State) :
    UnbuiltEffect s (s.decodeUnbuilt (laneRange lo cnt)) lo cnt :=
  warnIf_forLanes_modLane true .tableNotBuilt lo cnt (fun _ x => { x with sym := 0 }) rfl

/-- What `FseInit` over a range of lanes does (R258). -/
theorem State.fseInit_spec (t : Tbl) (lo cnt : Nat) (s : State) :
    (∀ l, (s.fseInit t (laneRange lo cnt)).lane l = if inRange lo cnt l then { s.lane l with
        fss := (s.lane l).fss.set (tblIdx t) 0
        fsd := (s.lane l).fsd.set (tblIdx t) (if s.built t then s.tacc[tblIdx t] else 0) }
      else s.lane l) ∧
      WarnedHere s (s.fseInit t (laneRange lo cnt)) (if s.built t then [] else [.tableNotBuilt]) ∧
      s.fseInit t (laneRange lo cnt) = { warningsOf s (s.fseInit t (laneRange lo cnt)) with
        lanes := (s.fseInit t (laneRange lo cnt)).lanes } := by
  obtain ⟨hlanes, hwarned, hframe⟩ := warnIf_forLanes_modLane (!s.built t) .tableNotBuilt lo cnt
    (fun _ x => { x with
      fss := x.fss.set (tblIdx t) 0
      fsd := x.fsd.set (tblIdx t) (if s.built t then s.tacc[tblIdx t] else 0) })
    (s := s) (u := s.fseInit t (laneRange lo cnt)) (by
      unfold State.fseInit State.warnIf
      cases s.built t <;> rfl)
  refine ⟨hlanes, ?_, hframe⟩
  cases hb : s.built t <;> simpa [hb] using hwarned

/-! ### A lane takes a cell (R259, R260) -/

/-- A lane that has taken the cell `c` of table `t`: its symbol, and the state it leads to. -/
def Lane.taken (x : Lane) (t : Tbl) (c : FseCell) : Lane :=
  { x with sym := c.sym.setWidth 32, fss := x.fss.set (tblIdx t) c.base, fsd := x.fsd.set (tblIdx t) c.nb }

theorem State.takeCell_eq (l : LaneId) (t : Tbl) (c : FseCell) (s : State) :
    s.takeCell l t c = s.modLane l fun x => x.taken t c := by
  rw [State.takeCell, State.setSym, State.setFse, State.modLane_modLane, BitVec.ofNat_toNat]
  rfl

/-- One lane of `FseDec` after its peek (R259), from the lane's registers alone: `s` gives the tables. -/
theorem State.fseDecLane_eq {s u : State} (h : LaneFrame s u) (t : Tbl) (l : LaneId) :
    u.fseDecLane t l =
      (u.warnIf (decide ((u.lane l).avail.toNat < (u.lane l).fsd[tblIdx t].toNat)) .discardUnderflow).modLane l fun x =>
        (dropped x x.fsd[tblIdx t].toNat).taken t (cellOf s t (x.fss[tblIdx t].toNat + x.pv.toNat)) := by
  rw [State.fseDecLane, State.drop_eq_warnIf, State.takeCell_eq, State.modLane_modLane, h.cell]
  refine State.modLane_congr ?_
  rw [State.warnIf_lane]
  rfl

/-- One lane of `FseDecNP` (R260), from the lane's registers alone: `s` gives the tables. -/
theorem State.fseDecNPLane_eq {s u : State} (h : LaneFrame s u) (t : Tbl) (l : LaneId) :
    u.fseDecNPLane t l =
      (u.warnIf (decide ((u.lane l).pw.toNat < (u.lane l).dacc.toNat + (u.lane l).fsd[tblIdx t].toNat))
        .windowOverrun).modLane l fun x =>
          Lane.taken { x with dacc := BitVec.ofNat 8 (min (x.dacc.toNat + x.fsd[tblIdx t].toNat) 255) } t
            (cellOf s t (x.fss[tblIdx t].toNat + x.pv.toNat / 2 ^ x.dacc.toNat % 2 ^ x.fsd[tblIdx t].toNat)) := by
  have hwarn := State.warnIf_decide ((u.lane l).pw.toNat < (u.lane l).dacc.toNat + u.fsd l t) .windowOverrun u
  unfold State.fseDecNPLane
  simp only [← hwarn]
  rw [State.takeCell_eq, State.modLane_modLane, h.cell]
  refine State.modLane_congr ?_
  rw [State.warnIf_lane]
  rfl

theorem Lane.taken_dropped (x : Lane) (n : Nat) (t : Tbl) (c : FseCell) :
    (dropped x n).taken t c = { dropped x n with
      sym := c.sym.setWidth 32, fss := x.fss.set (tblIdx t) c.base, fsd := x.fsd.set (tblIdx t) c.nb } := by
  unfold Lane.taken
  rw [dropped_bits]

section
variable {s : State} {t : Tbl} (hb : s.built t = true) (lo cnt : Nat)
include hb

/-- What `FseDec` through a built table does (R259): after the peek each lane of the range holds its drain level, so no drop
warns. -/
theorem State.fseDec_spec :
    (s.fseDec t (laneRange lo cnt)).readPos =
        s.readPos + BitVec.ofNat 64 (wordsBefore s lo cnt (fun l => s.fsd l t) 32) ∧
      (∀ l, (s.fseDec t (laneRange lo cnt)).lane l = if inRange lo cnt l then
          let x := windowed (filledLane s lo cnt (fun l => s.fsd l t) l) (s.fsd l t)
          (dropped x (s.fsd l t)).taken t (cellOf s t (s.fss l t + x.pv.toNat))
        else s.lane l) ∧
      WarnedAt s (s.fseDec t (laneRange lo cnt)) [] := by
  have hwidth : ∀ l, s.fsd l t ≤ 32 := fun l => (s.lane l).fsd[tblIdx t].isLt.le.trans (by decide)
  have hpeek := s.peekV_peekEffect lo cnt fun l => s.fsd l t
  obtain ⟨hread, hpeeked, hpeekWarned, hpeekFrame⟩ := hpeek.of_width_le hwidth
  have hdec : s.fseDec t (laneRange lo cnt) =
      forLanes (laneRange lo cnt) (State.fseDecLane t) (s.peekV (laneRange lo cnt) fun l => s.fsd l t) := if_pos hb
  rw [hdec]
  generalize s.peekV (laneRange lo cnt) (fun l => s.fsd l t) = q at hpeek hread hpeeked hpeekWarned hpeekFrame
  have hstates : ∀ l, (q.lane l).fss = (s.lane l).fss ∧ (q.lane l).fsd = (s.lane l).fsd := fun l => by
    rw [hpeeked]
    split
    · rw [windowed_filledLane_bits]
      exact ⟨rfl, rfl⟩
    · exact ⟨rfl, rfl⟩
  obtain ⟨hlanes, hwarned, hframe⟩ := forLanes_warnIf_modLane (laneRange_nodup lo cnt)
    (fun _ x => decide (x.avail.toNat < x.fsd[tblIdx t].toNat)) .discardUnderflow
    (fun _ x => (dropped x x.fsd[tblIdx t].toNat).taken t (cellOf s t (x.fss[tblIdx t].toNat + x.pv.toNat)))
    (f := State.fseDecLane t) (s := q) fun l u hu => State.fseDecLane_eq (hpeekFrame.trans hu.laneFrame) t l
  have hfilled : ∀ l ∈ laneRange lo cnt, ¬ decide ((q.lane l).avail.toNat < (q.lane l).fsd[tblIdx t].toNat) = true :=
    fun l hl => by
      have henough := hpeek.needsWord_eq_false hwidth l
      rw [needsWord, mem_laneRange_iff_inRange.1 hl, Bool.true_and] at henough
      rw [(hstates l).2]
      exact Bool.eq_false_iff.1 henough
  rw [List.countP_eq_zero.2 hfilled] at hwarned
  refine ⟨?_, fun l => ?_, hpeekWarned.trans hwarned⟩
  · rw [hframe]
    exact hread
  · rw [hlanes, (hstates l).1, (hstates l).2, hpeeked]
    simp only [mem_laneRange_iff_inRange]
    split <;> rfl

/-- What `FseDecNP` through a built table does (R260). -/
theorem State.fseDecNP_spec :
    (∀ l, (s.fseDecNP t (laneRange lo cnt)).lane l = if inRange lo cnt l then
        Lane.taken { s.lane l with dacc := BitVec.ofNat 8 (min ((s.lane l).dacc.toNat + s.fsd l t) 255) } t
          (cellOf s t (s.fss l t + (s.lane l).pv.toNat / 2 ^ (s.lane l).dacc.toNat % 2 ^ s.fsd l t))
        else s.lane l) ∧
      WarnedHere s (s.fseDecNP t (laneRange lo cnt)) (List.replicate ((List.finRange 32).countP fun l => inRange lo cnt l &&
        decide ((s.lane l).pw.toNat < (s.lane l).dacc.toNat + s.fsd l t)) .windowOverrun) ∧
      LanesOnly s (s.fseDecNP t (laneRange lo cnt)) := by
  have hdec : s.fseDecNP t (laneRange lo cnt) = forLanes (laneRange lo cnt) (State.fseDecNPLane t) s := if_pos hb
  obtain ⟨hlanes, hwarned, hframe⟩ := forLanes_warnIf_modLane (laneRange_nodup lo cnt)
    (fun _ x => decide (x.pw.toNat < x.dacc.toNat + x.fsd[tblIdx t].toNat)) .windowOverrun
    (fun _ x => Lane.taken { x with dacc := BitVec.ofNat 8 (min (x.dacc.toNat + x.fsd[tblIdx t].toNat) 255) } t
      (cellOf s t (x.fss[tblIdx t].toNat + x.pv.toNat / 2 ^ x.dacc.toNat % 2 ^ x.fsd[tblIdx t].toNat)))
    (f := State.fseDecNPLane t) (s := s) fun l u hu => State.fseDecNPLane_eq hu.laneFrame t l
  rw [hdec]
  refine ⟨fun l => ?_, countP_laneRange lo cnt _ ▸ hwarned, hframe⟩
  simp only [← mem_laneRange_iff_inRange]
  exact hlanes l

end

end Sys2Proof.Machine

namespace Sys2Proof.Claims

open Sys2Proof.Machine

/-- Settles O26: the warning, then each lane's state. -/
theorem fseinitSetsStates : Obligations.FseinitSetsStates := by
  refine ⟨fun t lo cnt => by simp [encode_toNat, Instr.fields, tblCode_toNat], fun s t lo cnt hsan => ?_⟩
  exact ⟨_, exec_fseinit hsan t lo cnt, s.fseInit_spec t lo.toNat cnt.toNat⟩

/-- Settles O27: the peek has loaded what the drops take, so a decode through a built table raises nothing and completes in
either build. -/
theorem fsedecDecodes : Obligations.FsedecDecodes := by
  refine ⟨fun t lo cnt => by simp [encode_toNat, Instr.fields, tblCode_toNat],
    fun s t lo cnt => ⟨fun hb => ?_, fun hb hsan => ?_⟩⟩
  · obtain ⟨hread, hlanes, hquiet⟩ := State.fseDec_spec hb lo.toNat cnt.toNat
    have hframe := LaneFrame.fseDec t (laneRange lo.toNat cnt.toNat) s
    refine ⟨_, finish_of_warnLog (hquiet.1.trans (List.append_nil _)), hread, fun l => ?_, ?_⟩
    · rw [cmdLanes_eq, hlanes]
      simp only [Lane.taken_dropped]
    · rw [LaneFrame, hquiet.warningsOf_eq] at hframe
      exact hframe
  · have hdec : s.fseDec t (laneRange lo.toNat cnt.toNat) = s.decodeUnbuilt (laneRange lo.toNat cnt.toNat) :=
      if_neg (by simp [hb])
    exact ⟨_, exec_fsedec hsan t lo cnt, hdec ▸ s.decodeUnbuilt_unbuiltEffect lo.toNat cnt.toNat⟩

/-- Settles O28: each lane reads its window, and warns by itself. -/
theorem fsedecnpDecodes : Obligations.FsedecnpDecodes := by
  refine ⟨fun t lo cnt => by simp [encode_toNat, Instr.fields, tblCode_toNat],
    fun s t lo cnt hsan => ⟨fun hb => ?_, fun hb => ?_⟩⟩
  · exact ⟨_, finish_of_sanitize hsan, State.fseDecNP_spec hb lo.toNat cnt.toNat⟩
  · have hdec : s.fseDecNP t (laneRange lo.toNat cnt.toNat) = s.decodeUnbuilt (laneRange lo.toNat cnt.toNat) :=
      if_neg (by simp [hb])
    exact ⟨_, finish_of_sanitize hsan, hdec ▸ s.decodeUnbuilt_unbuiltEffect lo.toNat cnt.toNat⟩

end Sys2Proof.Claims
end

section
/-! The Huffman decode (43_huffman.md R307): each lane takes the entry its window indexes, and drops the code it read. -/

namespace Sys2Proof.Machine

open Sys2Proof.Claims

/-- A lane that has decoded the entry `e`: its code dropped, its symbol taken. -/
def Lane.decoded (x : Lane) (e : HufEntry) : Lane := { dropped x e.len.toNat with sym := e.sym.setWidth 32 }

theorem LaneFrame.hufEntryAt {s t : State} (h : LaneFrame s t) (i : Nat) : t.hufEntryAt i = s.hufEntryAt i := by rw [h]; rfl

/-- Setting `SYM` before a drop is setting it after. -/
theorem dropped_setSym (x : Lane) (n : Nat) (v : Word) : dropped { x with sym := v } n = { dropped x n with sym := v } := by
  unfold dropped
  simp only
  split <;> rfl

/-- One lane of `HufDec` after its peek, from the lane's registers alone: `s` gives the table. -/
theorem State.hufDecLane_eq {s u : State} (h : LaneFrame s u) (l : LaneId) :
    u.hufDecLane l =
      (u.warnIf (decide ((u.lane l).avail.toNat < (s.hufEntryAt (u.lane l).pv.toNat).len.toNat)) .discardUnderflow).modLane l
        fun x => x.decoded (s.hufEntryAt x.pv.toNat) := by
  have hwarn : ∀ b c (f : Lane → Lane), (u.modLane l f).warnIf b c = (u.warnIf b c).modLane l f := fun b c f => by
    cases b <;> rfl
  rw [State.hufDecLane, h.hufEntryAt, State.drop_eq_warnIf, State.setSym, State.lane_modLane_same, BitVec.ofNat_toNat, hwarn,
    State.modLane_modLane]
  refine State.modLane_congr ?_
  rw [State.warnIf_lane]
  exact dropped_setSym _ _ _

/-- A peek window of `n` bits shows a value below 2^n. -/
theorem windowed_pv_lt (x : Lane) {n : Nat} : (windowed x n).pv.toNat < 2 ^ n :=
  (Nat.mod_le _ _).trans_lt (Nat.mod_lt _ (Nat.two_pow_pos n))

/-- What `HufDec` through a table in range does: no entry is longer than the peek, so no drop warns. -/
theorem State.hufDec_spec {s : State} (hvalid : s.hufvalid = true) (hok : s.hufOk) (lo cnt : Nat) :
    (s.hufDec (laneRange lo cnt)).readPos =
        s.readPos + BitVec.ofNat 64 (wordsBefore s lo cnt (fun _ => s.hufwb.toNat) 32) ∧
      (∀ l, (s.hufDec (laneRange lo cnt)).lane l = if inRange lo cnt l then
          let x := windowed (filledLane s lo cnt (fun _ => s.hufwb.toNat) l) s.hufwb.toNat
          x.decoded (s.hufEntryAt x.pv.toNat)
        else s.lane l) ∧
      WarnedAt s (s.hufDec (laneRange lo cnt)) [] := by
  have hwidth : ∀ _ : LaneId, s.hufwb.toNat ≤ 32 := fun _ => s.hufwb.isLt.le.trans (by decide)
  have hpeek := s.peekV_peekEffect lo cnt fun _ => s.hufwb.toNat
  obtain ⟨hread, hpeeked, hpeekWarned, hpeekFrame⟩ := hpeek.of_width_le hwidth
  have hdec : s.hufDec (laneRange lo cnt) =
      forLanes (laneRange lo cnt) State.hufDecLane (s.peekV (laneRange lo cnt) fun _ => s.hufwb.toNat) := if_pos hvalid
  rw [hdec]
  generalize s.peekV (laneRange lo cnt) (fun _ => s.hufwb.toNat) = q at hpeek hread hpeeked hpeekWarned hpeekFrame
  obtain ⟨hlanes, hwarned, hframe⟩ := forLanes_warnIf_modLane (laneRange_nodup lo cnt)
    (fun _ x => decide (x.avail.toNat < (s.hufEntryAt x.pv.toNat).len.toNat)) .discardUnderflow
    (fun _ x => x.decoded (s.hufEntryAt x.pv.toNat))
    (f := State.hufDecLane) (s := q) fun l u hu => State.hufDecLane_eq (hpeekFrame.trans hu.laneFrame) l
  have hfilled : ∀ l ∈ laneRange lo cnt,
      ¬ decide ((q.lane l).avail.toNat < (s.hufEntryAt (q.lane l).pv.toNat).len.toNat) = true := fun l hl => by
    have hin := mem_laneRange_iff_inRange.1 hl
    have henough := hpeek.needsWord_eq_false hwidth l
    rw [needsWord, hin, Bool.true_and, decide_eq_false_iff_not] at henough
    have hindex : (q.lane l).pv.toNat < 2 ^ s.hufwb.toNat := by
      rw [hpeeked, if_pos hin]
      exact windowed_pv_lt _
    have hlen := hok.2 hvalid _ hindex
    rw [decide_eq_true_eq]
    omega
  rw [List.countP_eq_zero.2 hfilled] at hwarned
  refine ⟨?_, fun l => ?_, hpeekWarned.trans hwarned⟩
  · rw [hframe]
    exact hread
  · rw [hlanes, hpeeked]
    simp only [mem_laneRange_iff_inRange]
    split <;> rfl

end Sys2Proof.Machine

namespace Sys2Proof.Claims

open Sys2Proof.Machine

/-- Settles O33: the peek has loaded what the drops take, so a decode through a table in range raises nothing and completes in
either build. -/
theorem hufdecDecodes : Obligations.HufdecDecodes := by
  refine ⟨fun lo cnt => by simp [encode_toNat, Instr.fields], fun s lo cnt => ⟨fun hvalid hok => ?_, fun hvalid hsan => ?_⟩⟩
  · obtain ⟨hread, hlanes, hquiet⟩ := State.hufDec_spec hvalid hok lo.toNat cnt.toNat
    have hframe := LaneFrame.hufDec (laneRange lo.toNat cnt.toNat) s
    rw [LaneFrame, hquiet.warningsOf_eq] at hframe
    exact ⟨_, finish_of_warnLog (hquiet.1.trans (List.append_nil _)), hread, hlanes, hframe⟩
  · have hdec : s.hufDec (laneRange lo.toNat cnt.toNat) = s.decodeUnbuilt (laneRange lo.toNat cnt.toNat) :=
      if_neg (by simp [hvalid])
    exact ⟨_, exec_hufdec hsan lo cnt, hdec ▸ s.decodeUnbuilt_unbuiltEffect lo.toNat cnt.toNat⟩

end Sys2Proof.Claims
end

section
/-! `HUFEXPAND` (43_huffman.md R305): the symbols of the numeric values, the implied symbol at every other place, and the tables
whose weights leave a gap or need too many bits. -/

namespace Sys2Proof.Machine

open Sys2Proof.Claims

/-! ### The ranges fit the table (R304, R305) -/

/-- The implied symbol takes no more than the others leave. -/
theorem weightSpan_impliedWeight_le (ws : List Nat) : weightSpan (impliedWeight ws) ≤ weightRest ws := by
  have hrest : 0 < weightRest ws := Nat.sub_pos_of_lt (weightTotal_lt ws)
  rw [weightSpan, if_neg (impliedWeight_ne_zero ws), impliedWeight, highbit1_of_pos hrest, Nat.add_sub_cancel]
  exact Nat.pow_log_le_self 2 (by omega)

/-- The ranges end within the table, with a gap or without. -/
theorem rangeStart_weightBits_le (ws : List Nat) : rangeStart ws (weightBits ws) ≤ 2 ^ weightBits ws := by
  have hall : spansUpTo ws (weightBits ws) = weightTotal ws :=
    congrArg List.sum (List.map_congr_left fun w hw => if_pos (weight_le_weightBits hw))
  have hlt := weightTotal_lt ws
  have himplied := weightSpan_impliedWeight_le ws
  rw [rangeStart_eq, hall]
  rw [weightRest] at himplied
  split <;> omega

/-- What the weights leave is a power of two that the table can hold. -/
theorem isPow2_weightRest {ws : List Nat} (hbits : weightBits ws ≤ 11) :
    isPow2 (weightRest ws) = true ↔ ∃ k, k < 12 ∧ weightRest ws = 2 ^ k := by
  have hle : weightRest ws ≤ 2 ^ 11 := (Nat.sub_le _ _).trans (Nat.pow_le_pow_right (by decide) hbits)
  simp only [isPow2, Bool.and_eq_true, bne_iff_ne, beq_iff_eq]
  constructor
  · rintro ⟨-, hpow⟩
    refine ⟨_, ?_, hpow⟩
    rw [hpow] at hle
    exact Nat.lt_succ_of_le ((Nat.pow_le_pow_iff_right (by decide)).1 hle)
  · rintro ⟨k, -, hpow⟩
    rw [hpow, Nat.log2_two_pow]
    exact ⟨(Nat.two_pow_pos k).ne', rfl⟩

section
variable {ws : List Nat} (hbits : weightBits ws ≤ 11)
include hbits

/-- Every value owned is below the size of the table, with a gap or without. -/
theorem Owns.lt_tableSize {j v : Nat} (h : Owns (startList ws) ws j v) : v < 2 ^ weightBits ws := by
  have hmem : ws.getD j 0 ∈ ws := List.getD_eq_getElem _ _ h.lt_length ▸ List.getElem_mem h.lt_length
  calc v < rangeStart ws (ws.getD j 0) := (h.in_weight_range hbits).2
    _ ≤ rangeStart ws (weightBits ws) := rangeStart_mono ws (weight_le_weightBits hmem)
    _ ≤ 2 ^ weightBits ws := rangeStart_weightBits_le ws

/-- The values of a symbol are its range (R306). -/
theorem owns_iff_firstValue {j v : Nat} (hj : j < ws.length) (hpos : 0 < ws.getD j 0) :
    Owns (startList ws) ws j v ↔ firstValue ws j ≤ v ∧ v < firstValue ws j + 2 ^ (ws.getD j 0 - 1) := by
  rw [Owns, symbolStart_startList hbits hj hpos, weightSpan, if_neg (by omega)]
  exact and_iff_right hpos

theorem lt_startList_length {w : Nat} (hw : w ∈ ws) : w < (startList ws).length := by
  have := weight_le_weightBits hw
  rw [startList, tabFrom_length]
  omega

end

/-! ### The entries (R305) -/

theorem gapFill_other {e : HufEntry} {n i k : Nat} (hk : k < i ∨ i + n ≤ k) (s : State) :
    (gapFill e n i s).hufEntryAt k = s.hufEntryAt k := by
  induction n generalizing i s with
  | zero => rfl
  | succ n ih =>
    rw [gapFill, ih (by omega)]
    exact State.setHufEntry_other (by omega) e s

theorem State.warnIf_hufEntryAt (b : Bool) (c : Warn) (s : State) (i : Nat) :
    (s.warnIf b c).hufEntryAt i = s.hufEntryAt i := (LaneFrame.warnIf b c s).hufEntryAt i

/-- The implied symbol's entry (R305). -/
def impliedEntry (ws : List Nat) : HufEntry :=
  ⟨BitVec.ofNat 8 ws.length, BitVec.ofNat 4 (weightBits ws + 1 - impliedWeight ws)⟩

/-- `HUFEXPAND` of weights that fit: a warning, the gap fill, then the symbols. -/
theorem State.expandWeights_eq (ws : List Nat) (s : State) :
    s.expandWeights ws = (placeSymbols (weightBits ws) ws 0 (startList ws) (gapFill (impliedEntry ws) (2 ^ weightBits ws) 0
      (s.warnIf (!isPow2 (weightRest ws)) .hufIncomplete))).setHufBuilt (weightBits ws) := by
  have hwarn : s.warnIf (!isPow2 (weightRest ws)) .hufIncomplete =
      if isPow2 (weightRest ws) then s else s.warn .hufIncomplete := by
    cases isPow2 (weightRest ws) <;> rfl
  rw [hwarn]
  rfl

section
variable {ws : List Nat} (hbits : weightBits ws ≤ 11) (s : State)
include hbits

/-- The place of a value that a symbol owns has the symbol's entry. -/
theorem State.expandWeights_owned {j v : Nat} (h : Owns (startList ws) ws j v) :
    (s.expandWeights ws).hufEntryAt (bitrev (weightBits ws) v) =
      ⟨BitVec.ofNat 8 j, BitVec.ofNat 4 (weightBits ws + 1 - ws.getD j 0)⟩ := by
  have hplace : bitrev (weightBits ws) v < 2 ^ 11 :=
    (bitrev_lt _ v).trans_le (Nat.pow_le_pow_right (by decide) hbits)
  have hother : ∀ k x, j < k → Owns (startList ws) ws k x → bitrev (weightBits ws) x ≠ bitrev (weightBits ws) v :=
    fun k x hjk hown heq => by
      rw [bitrev_injective (hown.lt_tableSize hbits) (h.lt_tableSize hbits) heq] at hown
      exact h.unique hbits hown hjk
  rw [State.expandWeights_eq]
  exact (placeSymbols_at 0 _ (fun w => lt_startList_length hbits) h hplace hother).trans (by rw [Nat.zero_add])

/-- The place of a value that no symbol owns has the implied symbol's entry. -/
theorem State.expandWeights_implied {v : Nat} (hv : v < 2 ^ weightBits ws) (h : ∀ j, ¬ Owns (startList ws) ws j v) :
    (s.expandWeights ws).hufEntryAt (bitrev (weightBits ws) v) = impliedEntry ws := by
  have hsize : 2 ^ weightBits ws ≤ 2 ^ 11 := Nat.pow_le_pow_right (by decide) hbits
  have hplace := bitrev_lt (weightBits ws) v
  have hother : ∀ j x, Owns (startList ws) ws j x → bitrev (weightBits ws) x ≠ bitrev (weightBits ws) v :=
    fun j x hown heq => by
      rw [bitrev_injective (hown.lt_tableSize hbits) hv heq] at hown
      exact h j hown
  rw [State.expandWeights_eq]
  calc _ = (gapFill (impliedEntry ws) (2 ^ weightBits ws) 0 _).hufEntryAt (bitrev (weightBits ws) v) :=
        placeSymbols_other 0 _ (fun w => lt_startList_length hbits) hother
    _ = impliedEntry ws :=
        gapFill_covers (P := (· = impliedEntry ws)) rfl (Nat.zero_le _) (by omega) (by omega) _

/-- The entries from 2^wb on stay. -/
theorem State.expandWeights_above {i : Nat} (hi : 2 ^ weightBits ws ≤ i) :
    (s.expandWeights ws).hufEntryAt i = s.hufEntryAt i := by
  rw [State.expandWeights_eq]
  calc _ = (gapFill (impliedEntry ws) (2 ^ weightBits ws) 0 _).hufEntryAt i :=
        placeSymbols_other 0 _ (fun w => lt_startList_length hbits) fun j x _ => ((bitrev_lt _ x).trans_le hi).ne
    _ = (s.warnIf (!isPow2 (weightRest ws)) .hufIncomplete).hufEntryAt i := gapFill_other (by omega) _
    _ = s.hufEntryAt i := s.warnIf_hufEntryAt _ _ i

/-- A gap is warned of (R305). -/
theorem State.expandWeights_warnedHere : WarnedHere s (s.expandWeights ws)
    (if ∃ k, k < 12 ∧ weightRest ws = 2 ^ k then [] else [.hufIncomplete]) := by
  have hwarned := s.warnIf_warnedHere (!isPow2 (weightRest ws)) .hufIncomplete
  have hcodes : List.replicate (if !isPow2 (weightRest ws) then 1 else 0) Warn.hufIncomplete =
      if ∃ k, k < 12 ∧ weightRest ws = 2 ^ k then [] else [.hufIncomplete] := by
    simp only [← isPow2_weightRest hbits]
    cases isPow2 (weightRest ws) <;> rfl
  rw [hcodes] at hwarned
  rw [State.expandWeights_eq, placeSymbols_frame, gapFill_frame]
  exact hwarned.congr rfl rfl rfl rfl

end

/-! ### The command -/

theorem State.hufExpand_of_le {s : State} (h : weightBits s.weights ≤ 11) :
    s.hufExpand = (weightBits s.weights, s.expandWeights s.weights) := if_neg (Nat.not_lt.2 h)

theorem State.setRes_hufEntryAt (v i : Nat) (s : State) : (s.setRes v).hufEntryAt i = s.hufEntryAt i := rfl

/-- The all-zero table of log 11 (R305). -/
def State.zeroTable (s : State) : State := (gapFill ⟨0, 0⟩ 2048 0 (s.warn .hufTablelogRange)).setHufBuilt 11

theorem State.hufExpand_of_gt {s : State} (h : 11 < weightBits s.weights) : s.hufExpand = (11, s.zeroTable) := if_pos h

theorem State.setHufBuilt_hufEntryAt (wb i : Nat) (s : State) : (s.setHufBuilt wb).hufEntryAt i = s.hufEntryAt i := rfl

theorem State.zeroTable_hufwb (s : State) : s.zeroTable.hufwb = 11 := by
  rw [State.zeroTable, State.setHufBuilt_hufwb]
  rfl

theorem State.zeroTable_hufEntryAt {i : Nat} (hi : i < 2048) (s : State) : s.zeroTable.hufEntryAt i = ⟨0, 0⟩ := by
  rw [State.zeroTable, State.setHufBuilt_hufEntryAt]
  exact gapFill_covers (P := (· = ⟨0, 0⟩)) rfl (Nat.zero_le i) (by omega) (by omega) (s.warn .hufTablelogRange)

theorem State.zeroTable_warnedHere (s : State) : WarnedHere s s.zeroTable [.hufTablelogRange] := by
  rw [State.zeroTable, gapFill_frame]
  exact (s.warn_warnedHere .hufTablelogRange).congr rfl rfl rfl rfl

end Sys2Proof.Machine

namespace Sys2Proof.Claims

open Sys2Proof.Machine

/-- A result in `RES` raises no warning. -/
theorem WarnedHere.setRes {s t : State} {cs : List Warn} (h : WarnedHere s t cs) (v : Nat) : WarnedHere s (t.setRes v) cs :=
  WarnedAt.congr h rfl rfl rfl rfl

/-- Settles O31: a place belongs to the symbol that owns its value, its bits reversed, and to the implied symbol where none
does. -/
theorem hufexpandPlacesRanges : Obligations.HufexpandPlacesRanges := by
  refine ⟨by decide, fun s hsan => ?_⟩
  simp only [weightsOf_eq, bitLength_totalWeight, restWeight_eq, reversed_eq_bitrev, impliedOf_eq]
  refine ⟨_, exec_hufexpand hsan, s.hufExpand_hufvalid, fun hbig => ?_, fun hbits => ?_, ?_⟩
  · rw [State.hufExpand_of_gt hbig]
    exact ⟨s.zeroTable_hufwb, rfl, fun i hi => (State.setRes_hufEntryAt 11 i s.zeroTable).trans (s.zeroTable_hufEntryAt hi),
      s.zeroTable_warnedHere.setRes 11⟩
  · rw [State.hufExpand_of_le hbits]
    refine ⟨Nat.mod_eq_of_lt (by omega), Nat.mod_eq_of_lt (by omega), fun sym v hsym hpos hlo hhi => ?_,
      fun v hv hnone => s.expandWeights_implied hbits hv fun j hown => ?_, fun i => s.expandWeights_above hbits,
      (s.expandWeights_warnedHere hbits).setRes _⟩
    · have hown := (owns_iff_firstValue hbits hsym hpos).2 ⟨hlo, hhi⟩
      exact ⟨hown.lt_tableSize hbits, s.expandWeights_owned hbits hown⟩
    · obtain ⟨hlo, hhi⟩ := (owns_iff_firstValue hbits hown.lt_length hown.1).1 hown
      have := hnone j hown.lt_length hown.1
      omega
  · have hframe := s.hufExpand_frame
    generalize s.hufExpand.2 = u at hframe ⊢
    rw [hframe]
    rfl

end Sys2Proof.Claims
end

section
/-! `HUFWEX` (43_huffman.md R302): the explicit weights, byte by byte, the high nibble of each byte first. -/

namespace Sys2Proof.Machine

open Sys2Proof.Claims

/-! ### One weight -/

/-- What the explicit weights may change apart from `HUFN` and `RES`. -/
def ExplicitFrame (s t : State) : Prop :=
  t = { warningsOf s t with hufw := t.hufw, readPos := t.readPos, rcb := t.rcb, rcn := t.rcn }

theorem ExplicitFrame.trans {s t u : State} (h : ExplicitFrame s t) (k : ExplicitFrame t u) : ExplicitFrame s u := by
  unfold ExplicitFrame at *
  rw [k, h]
  rfl

theorem ExplicitFrame.writePos {s t : State} (h : ExplicitFrame s t) : t.writePos = s.writePos := by
  rw [h]
  rfl

theorem ExplicitFrame.readByte (s : State) : ExplicitFrame s s.readByte.2 := by
  obtain ⟨-, -, hread⟩ := s.readByte_taken
  unfold ExplicitFrame
  rw [hread]
  rfl

/-- A weight as `HUFW` takes it (R302): 0 where it is above 11. -/
def clampedWeight (w : Nat) : Nat := if w ≤ 11 then w else 0

/-- One weight stored (R302): a weight above 11 warns and becomes 0. -/
theorem State.storeWeight_of_lt {N k : Nat} (hk : k < N) (w : Nat) (s : State) :
    s.storeWeight N k w = (s.warnIf (decide (11 < w)) .hufWeightRange).setHufWeight k (clampedWeight w) := by
  rw [State.storeWeight, if_pos hk]
  by_cases hw : 11 < w
  · simp [maxHufBits, hw, State.warnIf, clampedWeight, Nat.not_le.2 hw]
  · simp [maxHufBits, hw, State.warnIf, clampedWeight, Nat.le_of_not_lt hw]

/-- A nibble after the last weight is ignored (R302). -/
theorem State.storeWeight_of_ge {N k : Nat} (hk : N ≤ k) (w : Nat) (s : State) : s.storeWeight N k w = s :=
  if_neg (Nat.not_lt.2 hk)

/-- Storing a weight writes the weights and the warnings only: the raw reader stays. -/
theorem State.storeWeight_only (N k w : Nat) (s : State) :
    s.storeWeight N k w = { warningsOf s (s.storeWeight N k w) with hufw := (s.storeWeight N k w).hufw } := by
  by_cases hk : k < N
  · rw [State.storeWeight_of_lt hk]
    cases decide (11 < w) <;> rfl
  · rw [State.storeWeight_of_ge (Nat.le_of_not_lt hk)]
    rfl

/-- A warning where a condition holds, with the cursors it logs. -/
theorem State.warnIf_warnedAt (p : Prop) [Decidable p] (c : Warn) (s : State) :
    WarnedAt s (s.warnIf (decide p) c) (if p then [⟨c, s.readPos, s.writePos⟩] else []) := by
  rw [State.warnIf_decide]
  split
  · exact s.warn_warnedHere c
  · exact .refl s

theorem State.warnIf_hufWeight (b : Bool) (c : Warn) (s : State) (k : Nat) : (s.warnIf b c).hufWeight k = s.hufWeight k := by
  cases b <;> rfl

/-! ### The weights so far -/

/-- The warning of weight `k`, at the cursors after the byte that holds it. -/
def weightWarning (s : State) (k : Nat) : WarnEntry :=
  ⟨.hufWeightRange, s.readPos + BitVec.ofNat 64 ((2 + k / 2 - s.rcn.val + 3) / 4), s.writePos⟩

/-- The warnings of the first `n` weights. -/
def weightWarnings (s : State) (n : Nat) : List WarnEntry :=
  ((List.range n).filter fun k => 11 < nibbleAt s k).map (weightWarning s)

theorem weightWarnings_succ (s : State) (n : Nat) :
    weightWarnings s (n + 1) = weightWarnings s n ++ if 11 < nibbleAt s n then [weightWarning s n] else [] := by
  rw [weightWarnings, List.range_succ, List.filter_append, List.map_append, weightWarnings, List.filter_singleton]
  by_cases h : 11 < nibbleAt s n <;> simp [h]

/-- How far the `N` explicit weights of state `s` have come when `m` nibbles were stored. -/
structure WeightsStored (s u : State) (N m : Nat) : Prop where
  weight : ∀ k, u.hufWeight k = if k < min m N then clampedWeight (nibbleAt s k) else 0
  warned : WarnedAt s u (weightWarnings s (min m N))
  frame : ExplicitFrame s u

section
variable {s u : State} {N m i : Nat}

theorem nibbleAt_lt (s : State) (k : Nat) : nibbleAt s k < 16 := by
  have hbyte := (rawByteAt s (1 + k / 2)).isLt
  unfold nibbleAt
  split <;> omega

/-- One nibble more, while the raw reader stands after its byte. -/
theorem WeightsStored.succ (h : WeightsStored s u N m) (hN : N ≤ 256) (hread : RawTaken s u (2 + m / 2)) :
    WeightsStored s (u.storeWeight N m (nibbleAt s m)) N (m + 1) := by
  obtain ⟨hweight, hwarned, hframe⟩ := h
  by_cases hm : m < N
  · have hstore := u.storeWeight_of_lt hm (nibbleAt s m)
    have honly := u.storeWeight_only N m (nibbleAt s m)
    have hvalue : clampedWeight (nibbleAt s m) % 16 = clampedWeight (nibbleAt s m) := by
      have := nibbleAt_lt s m
      unfold clampedWeight
      split <;> omega
    have hentry : ⟨.hufWeightRange, u.readPos, u.writePos⟩ = weightWarning s m := by
      rw [weightWarning, hread.1, hframe.writePos]
    refine ⟨fun k => ?_, ?_, hframe.trans ?_⟩
    · rw [hstore, State.setHufWeight_hufWeight (by omega), hvalue]
      by_cases hk : k = m
      · rw [if_pos hk, if_pos (by omega), hk]
      · rw [if_neg hk, State.warnIf_hufWeight, hweight]
        exact if_congr (by omega) rfl rfl
    · have hall := hwarned.trans (u.warnIf_warnedAt (11 < nibbleAt s m) .hufWeightRange)
      rw [Nat.min_eq_left hm.le, hentry, ← weightWarnings_succ] at hall
      rw [hstore, Nat.min_eq_left hm]
      exact hall.congr rfl rfl rfl rfl
    · unfold ExplicitFrame
      rw [honly]
      rfl
  · rw [State.storeWeight_of_ge (Nat.le_of_not_lt hm)]
    refine ⟨fun k => (hweight k).trans (if_congr (by omega) rfl rfl), ?_, hframe⟩
    rwa [Nat.min_eq_right (by omega), ← Nat.min_eq_right (Nat.le_of_not_lt hm)]

/-- Reading a byte stores nothing. -/
theorem WeightsStored.readByte (h : WeightsStored s u N m) : WeightsStored s u.readByte.2 N m := by
  obtain ⟨-, -, hread⟩ := u.readByte_taken
  obtain ⟨hweight, hwarned, hframe⟩ := h
  refine ⟨fun k => ?_, hwarned.congr ?_ ?_ ?_ ?_, hframe.trans (.readByte u)⟩
  · rw [← hweight k, hread]
    rfl
  all_goals rw [hread]

/-- Storing a weight leaves the raw reader where it stands. -/
theorem rawTaken_storeWeight {n : Nat} (h : RawTaken s u n) (k w : Nat) : RawTaken s (u.storeWeight N k w) n := by
  have honly := u.storeWeight_only N k w
  exact h.congr (by rw [honly]; rfl) (by rw [honly]; rfl) (by rw [honly]; rfl) (by rw [honly]; rfl) (by rw [honly]; rfl)

/-- The weights from byte `i` on, `left` bytes of them. -/
theorem readWeightBytes_stored (left : Nat) (hN : N ≤ 256) (h : WeightsStored s u N (2 * i)) (hread : RawTaken s u (1 + i)) :
    WeightsStored s (readWeightBytes N left i u) N (2 * (i + left)) ∧
      RawTaken s (readWeightBytes N left i u) (1 + (i + left)) := by
  induction left generalizing i u with
  | zero => exact ⟨h, hread⟩
  | succ left ih =>
    obtain ⟨hbyte, htaken, -⟩ := u.readByte_taken
    have hbyte : u.readByte.1 = rawByteAt s (1 + i) := hbyte.trans (hread.2.2 0)
    have hhigh : u.readByte.1.toNat / 16 = nibbleAt s (2 * i) := by
      rw [hbyte, nibbleAt, if_pos (by omega), show 2 * i / 2 = i by omega]
    have hlow : u.readByte.1.toNat % 16 = nibbleAt s (2 * i + 1) := by
      rw [hbyte, nibbleAt, if_neg (by omega), show (2 * i + 1) / 2 = i by omega]
    have hafter : RawTaken s u.readByte.2 (1 + (i + 1)) := hread.trans htaken
    have hfirst := h.readByte.succ hN (by rwa [show 2 + 2 * i / 2 = 1 + (i + 1) by omega])
    have hsecond := hfirst.succ hN (by
      rw [show 2 + (2 * i + 1) / 2 = 1 + (i + 1) by omega]
      exact rawTaken_storeWeight hafter _ _)
    have hrest := ih (i := i + 1) hsecond (rawTaken_storeWeight (rawTaken_storeWeight hafter _ _) _ _)
    rw [readWeightBytes, hhigh, hlow, show i + (left + 1) = i + 1 + left by omega]
    exact hrest

end

/-! ### The command -/

theorem exec_hufwex {s : State} (h : s.sanitize = true) :
    exec .hufwex s = .next (s.hufWeightsExplicit.2.setRes s.hufWeightsExplicit.1) :=
  finish_of_sanitize h

/-- The count byte read and the weights cleared. -/
theorem State.clearWeights_stored (N : Nat) (s : State) :
    WeightsStored s s.readByte.2.clearWeights N 0 ∧ RawTaken s s.readByte.2.clearWeights 1 := by
  obtain ⟨-, htaken, hread⟩ := s.readByte_taken
  refine ⟨⟨fun k => ?_, ?_, (ExplicitFrame.readByte s).trans rfl⟩, htaken.congr rfl rfl rfl rfl rfl⟩
  · rw [Nat.zero_min, if_neg (Nat.not_lt_zero k)]
    simp [State.hufWeight, State.clearWeights]
  · rw [Nat.zero_min]
    refine (WarnedAt.refl s).congr ?_ ?_ ?_ ?_
    all_goals
      rw [hread]
      rfl

end Sys2Proof.Machine

namespace Sys2Proof.Claims

open Sys2Proof.Machine

/-- Settles O29, by induction on the bytes of the weights. -/
theorem hufwexReadsWeights : Obligations.HufwexReadsWeights := by
  refine ⟨by decide, fun s hsan => ?_⟩
  have hexec := exec_hufwex hsan
  rw [State.hufWeightsExplicit, s.readByte_taken.1] at hexec
  intro N
  have hN : N < 256 := (rawByteAt s 0).isLt
  obtain ⟨hstart, htaken⟩ := s.clearWeights_stored N
  obtain ⟨⟨hweight, hwarned, hframe⟩, hread⟩ := readWeightBytes_stored (i := 0) ((N + 1) / 2) hN.le hstart htaken
  change exec .hufwex s =
    .next (((readWeightBytes N ((N + 1) / 2) 0 s.readByte.2.clearWeights).setHufn N).setRes N) at hexec
  generalize readWeightBytes N ((N + 1) / 2) 0 s.readByte.2.clearWeights = u at hexec hweight hwarned hframe hread
  have hmin : min (2 * (0 + (N + 1) / 2)) N = N := by omega
  rw [hmin] at hweight hwarned
  rw [Nat.zero_add] at hread
  refine ⟨_, hexec, Nat.mod_eq_of_lt hN, Nat.mod_eq_of_lt (by omega), fun k _ => ?_, hread.congr rfl rfl rfl rfl rfl,
    hwarned.congr rfl rfl rfl rfl, ?_⟩
  · exact (hweight k).trans (ite_and _ _ _ _).symm
  · unfold ExplicitFrame at hframe
    rw [hframe]
    rfl

end Sys2Proof.Claims
end

section
/-! The sequence and literal engine command by command (44_sequences.md R351 to R361): packed sizes, the literal set-up, what
`LITTARGET` emits in the modes without a Huffman table, the length codes and the repeat offsets. -/

namespace Sys2Proof.Machine

open Sys2Proof.Claims

/-! ### The literal set-up (R353, R354) -/

/-- `LitCfg` (R353) warns of the reserved mode, then opens the literals. -/
theorem State.litCfg_eq (mode : BitVec 2) (n : Word) (s : State) :
    s.litCfg mode n =
      { s.warnIf (decide (mode = 3)) .litModeReserved with litMode := mode, maxLit := n, litEmitted := 0, litTotal := 0 } := by
  by_cases h : mode = 3 <;> simp [State.litCfg, State.warnIf, h]

theorem exec_litcfg {s : State} (h : s.sanitize = true) (mode : BitVec 2) :
    exec (.litcfg mode) s = .next (s.litCfg mode s.arg0) :=
  finish_of_sanitize h

/-- `SETRLE` raises no warning, so the two builds agree (R354). -/
theorem exec_setrle (s : State) : exec .setrle s = .next (s.setRle (s.arg0.extractLsb' 0 8)) :=
  finish_of_warnLog rfl

/-! ### The target of `LITTARGET` (R355) -/

/-- The warning of a target above `MAXLIT`. -/
def State.litClamped (target : Nat) (s : State) : State := s.warnIf (decide (s.maxLit.toNat < target)) .litOverrun

theorem State.litClamped_only (target : Nat) (s : State) : s.litClamped target = warningsOf s (s.litClamped target) :=
  s.warnIf_only _ _

theorem State.litClamped_warnedHere (target : Nat) (s : State) :
    WarnedHere s (s.litClamped target) (if s.maxLit.toNat < target then [.litOverrun] else []) :=
  replicate_ite_decide (s.maxLit.toNat < target) Warn.litOverrun ▸ s.warnIf_warnedHere _ _

/-- `LitTarget` (R355): the warning, then the literals up to the target or to `MAXLIT`, whichever is less. -/
theorem State.litTarget_eq (target : Nat) (s : State) :
    s.litTarget target = (s.litClamped target).emitLits (min target s.maxLit.toNat) := by
  unfold State.litTarget State.litClamped State.warnIf
  by_cases hhigh : s.maxLit.toNat < target
  · rw [if_pos hhigh, if_pos (by simpa using hhigh), Nat.min_eq_right hhigh.le]
  · rw [if_neg hhigh, if_neg (by simpa using hhigh), Nat.min_eq_left (Nat.le_of_not_lt hhigh)]

/-- Up to a target that is already reached nothing is emitted, in any mode. -/
theorem State.emitLits_of_reached {target : Nat} {s : State} (h : target ≤ s.litEmitted.toNat) : s.emitLits target = s := by
  unfold State.emitLits
  simp only [Nat.sub_eq_zero_of_le h]
  split
  · rw [if_neg (by omega)]
    rfl
  · split <;> rfl

/-- Up to a target within `MAXLIT`, as many literals are emitted as are missing (R355). -/
theorem Emitted.emitLits {target : Nat} {s : State} (h : target ≤ s.maxLit.toNat) :
    Emitted (target - s.litEmitted.toNat) s (s.emitLits target) := by
  rcases Nat.le_total target s.litEmitted.toNat with hreached | hle
  · rw [State.emitLits_of_reached hreached, Nat.sub_eq_zero_of_le hreached]
    exact .refl s
  · have hwithin : s.litTarget target = s.emitLits target := if_neg (Nat.not_lt.2 h)
    exact hwithin ▸ Emitted.litTarget h hle

/-- Up to any target, as many as are missing below it and `MAXLIT`. -/
theorem Emitted.litTarget_min (target : Nat) (s : State) :
    Emitted (min target s.maxLit.toNat - s.litEmitted.toNat) s (s.litTarget target) := by
  have hclamp : Emitted 0 s (s.litClamped target) := LaneFrame.emitted (.warnIf _ _ s)
  have hlits := Emitted.emitLits (target := min target s.maxLit.toNat) (s := s.litClamped target)
    (hclamp.frame.maxLit ▸ Nat.min_le_right _ _)
  have hall := hclamp.trans hlits
  rw [hclamp.counted] at hall
  rw [s.litTarget_eq]
  simpa using hall

/-! ### The bytes of `LITTARGET` (R355) -/

/-- Between `s` and `t` the bytes `bs` were produced, the warnings `cs` raised at the cursors of `s` and `n` raw bytes taken;
no lane register changed. -/
structure LitBytes (s t : State) (bs : List Byte) (cs : List Warn) (n : Nat) : Prop where
  stored : Stored s t bs
  warned : WarnedHere s t cs
  taken : RawTaken s t n
  lanes : t.lanes = s.lanes

section
variable {s t u : State} {bs : List Byte} {cs ds : List Warn} {n : Nat}

/-- Warnings raised before the literals. -/
theorem LitBytes.after_warnings (honly : t = warningsOf s t) (hwarned : WarnedHere s t cs) (h : LitBytes t u bs ds n) :
    LitBytes s u bs (cs ++ ds) n := by
  obtain ⟨hstored, hmore, htaken, hlanes⟩ := h
  have hquiet : RawTaken s t 0 := by
    rw [honly]
    exact (RawTaken.zero s).congr rfl rfl rfl rfl rfl
  refine ⟨hstored.congr_left ?_ ?_ ?_ ?_, hwarned.trans hmore ?_ ?_, Nat.zero_add n ▸ hquiet.trans htaken, hlanes.trans ?_⟩
  all_goals
    rw [honly]
    rfl

/-- `RES` written after the literals. -/
theorem LitBytes.withRes (h : LitBytes s t bs cs n) (v : Dword) : LitBytes s { t with res := v } bs cs n :=
  ⟨h.stored.congr rfl rfl rfl, h.warned.congr rfl rfl rfl rfl, h.taken.congr rfl rfl rfl rfl rfl, h.lanes⟩

/-- Where only the literal count and the output change, no byte is taken and no warning raised. -/
theorem LitFrame.litBytes (h : LitFrame s t) (hstored : Stored s t bs) : LitBytes s t bs [] 0 := by
  refine ⟨hstored, (WarnedHere.refl s).congr ?_ ?_ ?_ ?_, (RawTaken.zero s).congr ?_ ?_ ?_ ?_ ?_, ?_⟩
  all_goals rw [h]

end

/-- The raw byte stream depends on nothing that a warning changes. -/
theorem rawBytes_warningsOf (s t : State) (n : Nat) : rawBytes (warningsOf s t) n = rawBytes s n :=
  List.map_congr_left fun k _ => rawByteAt_congr (s := s) rfl rfl rfl rfl rfl k

/-- The same byte, `n` times, as literals: the byte may be read off a register that emitting keeps. -/
theorem times_emitLit_litBytes {s : State} {b : State → Byte} {v : Byte} (hb : ∀ t, LitFrame s t → b t = v) (n : Nat) :
    LitBytes s (times n (fun t => t.emitLit (b t)) s) (List.replicate n v) [] 0 := by
  have hall : LitFrame s (times n (fun t => t.emitLit (b t)) s) ∧
      Stored s (times n (fun t => t.emitLit (b t)) s) (List.replicate n v) := by
    induction n with
    | zero => exact ⟨.refl s, .refl s⟩
    | succ n ih =>
      obtain ⟨hframe, hstored⟩ := ih
      rw [times_succ_last, List.replicate_succ', hb _ hframe]
      exact ⟨hframe.trans (.emitLit v _), hstored.trans (State.emitLit_stored v _) (by rw [hframe])⟩
  exact hall.1.litBytes hall.2

/-- A raw literal is a raw byte emitted, and counted. -/
theorem State.emitRawLit_counted (e : Word) (s : State) :
    { s with litEmitted := e }.emitRawLit = { s.emitRaw with litEmitted := e + 1 } := by
  have hread : { s with litEmitted := e }.readByte = (s.readByte.1, { s.readByte.2 with litEmitted := e }) := by
    unfold State.readByte
    split <;> rfl
  rw [State.emitRawLit, hread]
  rfl

/-- `n` raw literals are `n` raw bytes emitted, apart from their count. -/
theorem times_emitRawLit_eq (n : Nat) (s : State) :
    times n State.emitRawLit s = { times n State.emitRaw s with litEmitted := (times n State.emitRawLit s).litEmitted } := by
  induction n with
  | zero => rfl
  | succ n ih =>
    rw [times_succ_last, times_succ_last, ih, State.emitRawLit_counted]

/-- `n` raw literals are the first `n` bytes of the raw byte stream. -/
theorem times_emitRawLit_litBytes (n : Nat) (s : State) :
    LitBytes s (times n State.emitRawLit s) (rawBytes s n) [] n := by
  obtain ⟨hstored, htaken, hframe⟩ := times_emitRaw_stored n s
  rw [times_emitRawLit_eq]
  refine ⟨hstored.congr rfl rfl rfl, (WarnedHere.refl s).congr ?_ ?_ ?_ ?_, htaken.congr rfl rfl rfl rfl rfl, ?_⟩
  all_goals rw [hframe]

/-- RLE mode repeats `RLEBYTE`. -/
theorem State.emitLits_rle {s : State} (h : s.litMode = 2) (target : Nat) :
    LitBytes s (s.emitLits target) (List.replicate (target - s.litEmitted.toNat) s.rleByte) [] 0 := by
  have hmode : s.emitLits target = times (target - s.litEmitted.toNat) (fun t => t.emitLit t.rleByte) s := by
    simp [State.emitLits, h]
  exact hmode ▸ times_emitLit_litBytes (fun t ht => by rw [ht]) _

/-- Raw mode, and the reserved mode 3, take the raw byte stream. -/
theorem State.emitLits_raw {s : State} (h : s.litMode = 1 ∨ s.litMode = 3) (target : Nat) :
    LitBytes s (s.emitLits target) (rawBytes s (target - s.litEmitted.toNat)) [] (target - s.litEmitted.toNat) := by
  have hmode : s.emitLits target = times (target - s.litEmitted.toNat) State.emitRawLit s := by
    rcases h with h | h <;> simp [State.emitLits, h]
  exact hmode ▸ times_emitRawLit_litBytes _ s

/-- Huffman mode with no table warns, where a literal is missing, and emits zeros. -/
theorem State.emitLits_unbuilt {s : State} (h : s.litMode = 0) (hvalid : s.hufvalid = false) (target : Nat) :
    LitBytes s (s.emitLits target) (List.replicate (target - s.litEmitted.toNat) 0)
      (if 0 < target - s.litEmitted.toNat then [.tableNotBuilt] else []) 0 := by
  by_cases hlt : s.litEmitted.toNat < target
  · have hmode : s.emitLits target = times (target - s.litEmitted.toNat) (State.emitLit 0) (s.warn .tableNotBuilt) := by
      simp [State.emitLits, h, hvalid, hlt]
    rw [hmode, if_pos (by omega)]
    exact (times_emitLit_litBytes (fun _ _ => rfl) _).after_warnings rfl (s.warn_warnedHere .tableNotBuilt)
  · rw [State.emitLits_of_reached (Nat.le_of_not_lt hlt), if_neg (by omega),
      Nat.sub_eq_zero_of_le (Nat.le_of_not_lt hlt)]
    exact (LitFrame.refl s).litBytes (.refl s)

/-! ### The repeat offsets (R361) -/

/-- An offset value above 3 is a new offset, which becomes the most recent one. -/
theorem State.resolveOffset_new {ov : Nat} (h : 3 < ov) (hlt : ov < 2 ^ 32) (llv : Nat) (s : State) :
    s.resolveOffset ov llv = (ov - 3, s.setRep (BitVec.ofNat 32 (ov - 3)) s.rep0 s.rep1) := by
  have hoff : (BitVec.ofNat 32 (ov - 3)).toNat = ov - 3 := Nat.mod_eq_of_lt (by omega)
  simp only [State.resolveOffset, if_pos h, hoff]

/-- Which repeat offset an offset value up to 3 selects; 3 stands for the most recent one less 1. -/
def repSelector (ov llv : Nat) : Nat := if llv ≠ 0 then ov - 1 else ov

theorem repSelector_of_pos {ov llv : Nat} (h : llv ≠ 0) : repSelector ov llv = ov - 1 := if_pos h

theorem repSelector_zero (ov : Nat) : repSelector ov 0 = ov := if_neg (by simp)

/-- The selected offset moves to the front, and those before it move back by one. -/
theorem State.resolveOffset_repeat {ov llv : Nat} (h : ov ≤ 3) (s : State) :
    (repSelector ov llv = 0 → s.resolveOffset ov llv = (s.rep0.toNat, s)) ∧
      (repSelector ov llv = 1 → s.resolveOffset ov llv = (s.rep1.toNat, s.setRep s.rep1 s.rep0 s.rep2)) ∧
      (repSelector ov llv = 2 → s.resolveOffset ov llv = (s.rep2.toNat, s.setRep s.rep2 s.rep0 s.rep1)) ∧
      (repSelector ov llv = 3 → s.resolveOffset ov llv = ((s.rep0 - 1).toNat, s.setRep (s.rep0 - 1) s.rep0 s.rep1)) := by
  unfold State.resolveOffset
  rw [if_neg (Nat.not_lt.2 h)]
  refine ⟨fun hsel => ?_, fun hsel => ?_, fun hsel => ?_, fun hsel => ?_⟩
  all_goals
    rw [repSelector] at hsel
    rw [hsel]
    rfl

end Sys2Proof.Machine

namespace Sys2Proof.Claims

open Sys2Proof.Machine

/-- Settles O34: the reader takes the packed size, which fits in `RES`. -/
theorem rdpsizeReads : Obligations.RdpsizeReads := by
  refine ⟨by decide, fun s => ?_⟩
  obtain ⟨-, htaken, hframe⟩ := s.readPackedSize_taken
  obtain ⟨t, hexec, hres, -⟩ := exec_rdpsize_res s
  cases (exec_rdpsize s).symm.trans hexec
  refine ⟨_, hexec, hres, htaken.congr rfl rfl rfl rfl rfl, ?_⟩
  rw [hframe]
  rfl

/-- Settles O37: the literals emitted are those missing below the target and `MAXLIT`. -/
theorem littargetCounts : Obligations.LittargetCounts := by
  refine ⟨by decide, fun s hsan => ?_⟩
  intro T
  obtain ⟨⟨bs, hstored, hlen⟩, hcount, hframe⟩ := Emitted.litTarget_min s.arg0.toNat s
  have hwarned := s.litClamped_warnedHere s.arg0.toNat
  have honly := s.litClamped_only s.arg0.toNat
  have hclamped := s.litTarget_eq s.arg0.toNat
  have hexec := exec_littarget hsan
  have hT : min s.arg0.toNat s.maxLit.toNat = T := rfl
  rw [hT] at hlen hcount hclamped
  generalize s.litTarget s.arg0.toNat = t at *
  have hcount : t.litEmitted.toNat = max s.litEmitted.toNat T := by omega
  refine ⟨_, bs, hexec, hcount, BitVec.toNat_setWidth_of_le (by decide), hlen,
    hstored.congr rfl rfl rfl, fun hreached => ?_, ?_⟩
  · rw [State.emitLits_of_reached (by rw [honly]; exact hreached)] at hclamped
    rw [← hclamped] at hwarned honly
    refine ⟨hwarned.congr rfl rfl rfl rfl, ?_⟩
    rw [honly]
    rfl
  · unfold LitsFrame at hframe
    rw [hframe]
    rfl

/-- Settles O38: the warning of the clamp, then the literals of each mode. -/
theorem littargetBytes : Obligations.LittargetBytes := by
  intro s hsan T n early
  have hwarned := s.litClamped_warnedHere s.arg0.toNat
  have honly := s.litClamped_only s.arg0.toNat
  have hexec := exec_littarget hsan
  rw [s.litTarget_eq] at hexec
  generalize s.litClamped s.arg0.toNat = u at hwarned honly hexec
  have hmode : u.litMode = s.litMode := by rw [honly]; rfl
  have hvalid : u.hufvalid = s.hufvalid := by rw [honly]; rfl
  have hcount : T - u.litEmitted.toNat = n := by rw [honly]; rfl
  have hrle : u.rleByte = s.rleByte := by rw [honly]; rfl
  have hraw : rawBytes u n = rawBytes s n := by rw [honly, rawBytes_warningsOf]
  have hafter : ∀ {bs ds m}, LitBytes u (u.emitLits T) bs ds m →
      LitBytes s { u.emitLits T with res := (u.emitLits T).litEmitted.setWidth 64 } bs (early ++ ds) m :=
    fun h => (h.after_warnings honly hwarned).withRes _
  refine ⟨_, hexec, fun h => ?_, fun h => ?_, fun h hunbuilt => ?_⟩
  · obtain ⟨hstored, hwarns, htaken, hlanes⟩ := hafter (State.emitLits_rle (hmode.trans h) T)
    rw [hcount, hrle] at hstored
    exact ⟨hstored, List.append_nil early ▸ hwarns, htaken, hlanes⟩
  · obtain ⟨hstored, hwarns, htaken, hlanes⟩ := hafter (State.emitLits_raw (by rwa [hmode]) T)
    rw [hcount, hraw] at hstored
    exact ⟨hstored, List.append_nil early ▸ hwarns, hcount ▸ htaken, hlanes⟩
  · obtain ⟨hstored, hwarns, htaken, hlanes⟩ := hafter (State.emitLits_unbuilt (hmode.trans h) (hvalid.trans hunbuilt) T)
    rw [hcount] at hstored hwarns
    exact ⟨hstored, hwarns, htaken, hlanes⟩

/-- Settles O36: `LITCFG` warns and opens the literals, `SETRLE` writes its register. -/
theorem literalSetUp : Obligations.LiteralSetUp := by
  refine ⟨by decide, by decide, fun s m hsan => ⟨_, exec_litcfg hsan m, ?_⟩, exec_setrle⟩
  have hwarned := s.warnIf_warnedHere (decide (m = 3)) .litModeReserved
  have honly := s.warnIf_only (decide (m = 3)) .litModeReserved
  rw [replicate_ite_decide] at hwarned
  rw [s.litCfg_eq]
  refine ⟨hwarned.congr rfl rfl rfl rfl, ?_⟩
  rw [honly]
  rfl

/-- Settles O41: the codes of the two tables, one after the other. -/
theorem lengthCodesTile : Obligations.LengthCodesTile := by
  have hLL : ∀ c, c < 35 → (llCode (c + 1)).1 = (llCode c).1 + 2 ^ (llCode c).2 := by decide
  have hML : ∀ c, c < 52 → (mlCode (c + 1)).1 = (mlCode c).1 + 2 ^ (mlCode c).2 := by decide
  exact ⟨rfl, rfl, hLL, rfl, rfl, rfl, hML, rfl⟩

/-- Settles O42: a new offset, or the repeat offset that the value selects. -/
theorem resolveOffsetCases : Obligations.ResolveOffsetCases := by
  intro s ov llv _ hlt
  refine ⟨fun h => State.resolveOffset_new h hlt llv s, fun h hllv => ?_, fun h => ?_, fun h => ?_, fun h hllv => ?_⟩
  · obtain ⟨hsel, -⟩ := State.resolveOffset_repeat (ov := ov) (llv := llv) (by omega) s
    exact hsel (by rw [repSelector_of_pos hllv, h])
  · obtain ⟨-, hsel, -⟩ := State.resolveOffset_repeat (ov := ov) (llv := llv) (by omega) s
    rcases h with ⟨rfl, hllv⟩ | ⟨rfl, rfl⟩
    · exact hsel (repSelector_of_pos hllv)
    · exact hsel (repSelector_zero 1)
  · obtain ⟨-, -, hsel, -⟩ := State.resolveOffset_repeat (ov := ov) (llv := llv) (by omega) s
    rcases h with ⟨rfl, hllv⟩ | ⟨rfl, rfl⟩
    · exact hsel (repSelector_of_pos hllv)
    · exact hsel (repSelector_zero 2)
  · obtain ⟨-, -, -, hsel⟩ := State.resolveOffset_repeat (ov := ov) (llv := llv) (by omega) s
    subst h hllv
    exact hsel (repSelector_zero 3)

end Sys2Proof.Claims
end

section
/-! The block driver (45_block_driver.md R401 to R407): the bytes of an RLE and of a raw block, what `BLOCK` does with each type
of control word, and the run of a stream that is one such block. -/

namespace Sys2Proof.Machine

open Sys2Proof.Claims

/-! ### Control words (30_encoding.md R150) -/

theorem cwType_eq (cw : Word) : cwType cw = cw.toNat / 2 ^ 28 % 4 := by
  simp only [cwType, BitVec.extractLsb'_toNat, Nat.shiftRight_eq_div_pow]

/-- `CONT` is the top bit. -/
theorem cwCont_iff (cw : Word) : cwCont cw = true ↔ 2 ^ 31 ≤ cw.toNat := by
  have hlt := cw.isLt
  rw [cwCont, BitVec.getLsbD, Nat.testBit_eq_decide_div_mod_eq, decide_eq_true_eq]
  omega

/-- `RUNSTATE` after a block, by the number of its control word (R402, R406). -/
theorem nextRunState_eq (cw : Word) :
    nextRunState cw =
      if cw.toNat / 2 ^ 28 % 4 = 3 then .done else if 2 ^ 31 ≤ cw.toNat then .awaitingBlock else .done := by
  have hlt : cw.toNat / 2 ^ 28 % 4 < 3 ↔ ¬ cw.toNat / 2 ^ 28 % 4 = 3 := by omega
  simp only [nextRunState, cwType_eq, cwCont_iff, hlt, ite_and, ite_not]

/-! ### The raw byte reader, emptied -/

/-- With an empty cache the raw bytes are those of the words from `READPOS` on (R201, R202). -/
theorem rawByteAt_of_rcn_zero {s : State} (h : s.rcn = 0) (k : Nat) :
    rawByteAt s k = (s.inWordAt (s.readPos + BitVec.ofNat 64 (k / 4)).toNat).extractLsb' (8 * (k % 4)) 8 := by
  simp [rawByteAt, h]

/-- Two emptied readers at the same place of the same input hand out the same bytes, whatever bytes they once cached. -/
theorem rawByteAt_congr_of_rcn_zero {s t : State} (hs : s.rcn = 0) (ht : t.rcn = 0) (hpos : t.readPos = s.readPos)
    (hbuf : t.inBuf = s.inBuf) (hsize : t.inSize = s.inSize) : rawByteAt t = rawByteAt s := by
  have hword : ∀ i, t.inWordAt i = s.inWordAt i := fun i => by simp [State.inWordAt, State.inByte, hbuf, hsize]
  funext k
  rw [rawByteAt_of_rcn_zero hs, rawByteAt_of_rcn_zero ht, hpos, hword]

/-! ### RLE and raw blocks (R404, R405) -/

/-- Between `s` and `t` the bytes `bs` were produced and `n` raw bytes taken, and nothing else changed. -/
structure Copied (s t : State) (bs : List Byte) (n : Nat) : Prop where
  stored : Stored s t bs
  taken : RawTaken s t n
  only : t = { s with
    writePos := t.writePos, outBuf := t.outBuf, written := t.written, readPos := t.readPos, rcb := t.rcb, rcn := t.rcn }

theorem Copied.trans {s t u : State} {bs cs : List Byte} {n m : Nat} (h : Copied s t bs n) (k : Copied t u cs m) :
    Copied s u (bs ++ cs) (n + m) :=
  ⟨h.stored.trans k.stored (by rw [h.only]), h.taken.trans k.taken, rawOut_trans h.only k.only⟩

theorem State.readByte_copied (s : State) : Copied s s.readByte.2 [] 1 := by
  obtain ⟨-, htaken, honly⟩ := s.readByte_taken
  refine ⟨(Stored.refl s).congr ?_ ?_ ?_, htaken, ?_⟩ <;> rw [honly]

theorem times_emit_copied (n : Nat) (b : Byte) (s : State) :
    Copied s (times n (State.emit b) s) (List.replicate n b) 0 := by
  obtain ⟨hstored, honly⟩ := times_emit_stored n b s
  refine ⟨hstored, (RawTaken.zero s).congr ?_ ?_ ?_ ?_ ?_, ?_⟩ <;> rw [honly]

/-- An RLE block: one raw byte, `SIZE` times. -/
theorem State.rleBlock_copied (cw : Word) (s : State) :
    Copied s (s.rleBlock cw).2 (List.replicate (cw.toNat % 2 ^ 28) (rawByteAt s 0)) 1 := by
  rw [← cwSize_eq, ← s.readByte_taken.1]
  exact s.readByte_copied.trans (times_emit_copied (cwSize cw) s.readByte.1 s.readByte.2)

/-- A raw block: the next `SIZE` raw bytes. -/
theorem State.rawBlock_copied (cw : Word) (s : State) :
    Copied s (s.rawBlock cw).2 (rawBytes s (cw.toNat % 2 ^ 28)) (cw.toNat % 2 ^ 28) := by
  obtain ⟨hstored, htaken, honly⟩ := times_emitRaw_stored (cwSize cw) s
  rw [← cwSize_eq]
  exact ⟨hstored, htaken, honly⟩

/-- The commands of the two blocks: neither raises a warning, so each completes in either build. -/
theorem Copied.finish_setRes {s t : State} {bs : List Byte} {n : Nat} (h : Copied s t bs n) (w : Writes) (cw : Word) :
    ∃ u, finish w s (t.setRes (cwSize cw)) = .next u ∧ u.res.toNat = cw.toNat % 2 ^ 28 ∧ Stored s u bs ∧ RawTaken s u n ∧
      u = { s with
        res := u.res, writePos := u.writePos, outBuf := u.outBuf, written := u.written, readPos := u.readPos
        rcb := u.rcb, rcn := u.rcn } := by
  have hlt := cwSize_lt cw
  refine ⟨t.setRes (cwSize cw), finish_of_warnLog ?_, ?_, h.stored.congr rfl rfl rfl, h.taken.congr rfl rfl rfl rfl rfl, ?_⟩
  · rw [State.setRes_warnLog, h.only]
  · rw [State.setRes_res, BitVec.toNat_ofNat, ← cwSize_eq]
    omega
  · exact congrArg (State.setRes (cwSize cw)) h.only

/-! ### One block by its control word (R406) -/

section
variable {cw : Word}

theorem State.blockBody_compressed (h : cw.toNat / 2 ^ 28 % 4 = 0) (s : State) :
    s.blockBody cw = ((s.setRunState .decodingCompressedBlock).cBlock cw).2 := by
  rw [← cwType_eq] at h
  simp [State.blockBody, h]

theorem State.blockBody_rle (h : cw.toNat / 2 ^ 28 % 4 = 1) (s : State) :
    s.blockBody cw = ((s.setRunState .decodingRLEBlock).rleBlock cw).2 := by
  rw [← cwType_eq] at h
  simp [State.blockBody, h]

theorem State.blockBody_raw (h : cw.toNat / 2 ^ 28 % 4 = 2) (s : State) :
    s.blockBody cw = ((s.setRunState .decodingRawBlock).rawBlock cw).2 := by
  rw [← cwType_eq] at h
  simp [State.blockBody, h]

theorem State.blockBody_reserved (h : cw.toNat / 2 ^ 28 % 4 = 3) (s : State) :
    s.blockBody cw = s.warn .blockTypeReserved := by
  rw [← cwType_eq] at h
  simp [State.blockBody, h]

end

/-- The control word that the next `BLOCK` takes. -/
def State.controlWord (s : State) : Word := s.inWordAt s.readPos.toNat

/-- `BLOCK` starts with `SYNC` and the control word. -/
theorem State.sync_inWord (s : State) : s.sync.inWord = (s.controlWord, blockStart s) := by
  obtain ⟨hlanes, honly⟩ := s.sync_spec
  have hmap : s.sync.lanes = s.lanes.map fun x => { x with buf := 0, avail := 0, dacc := 0 } := by
    ext i hi
    have hlane := hlanes ⟨i, hi⟩
    simpa [State.lane] using hlane
  rw [honly, hmap]
  rfl

/-- `BLOCK` by its parts: the start, the handler of the type, `RUNSTATE` and `RES` (R406). -/
theorem blockNext_eq (s : State) :
    blockNext s =
      (((blockStart s).blockBody s.controlWord).setRunState (nextRunState s.controlWord)).setRes s.controlWord.toNat := by
  rw [blockNext, State.block, s.sync_inWord]

theorem blockNext_res (s : State) : (blockNext s).res = s.controlWord.setWidth 64 := by
  rw [blockNext_eq, State.setRes_res, BitVec.ofNat_toNat]

theorem blockNext_runState (s : State) : (blockNext s).runState = nextRunState s.controlWord := by
  rw [blockNext_eq]
  rfl

/-- What `BLOCK` does from state `s` where its handler produces the bytes `bs` and takes `n` raw bytes. -/
structure BlockCopied (s : State) (bs : List Byte) (n : Nat) : Prop where
  stored : Stored s (blockNext s) bs
  taken : RawTaken (blockStart s) (blockNext s) n
  only : blockNext s = { blockStart s with
    res := (blockNext s).res, runState := (blockNext s).runState, writePos := (blockNext s).writePos
    outBuf := (blockNext s).outBuf, written := (blockNext s).written, readPos := (blockNext s).readPos
    rcb := (blockNext s).rcb, rcn := (blockNext s).rcn }

/-- The handler starts from the block's start, apart from `RUNSTATE`, which `BLOCK` sets again. -/
theorem Copied.blockCopied {s t : State} {r : RunState} {bs : List Byte} {n : Nat}
    (h : Copied ((blockStart s).setRunState r) t bs n) (hbody : (blockStart s).blockBody s.controlWord = t) :
    BlockCopied s bs n := by
  have hnext : blockNext s = (t.setRunState (nextRunState s.controlWord)).setRes s.controlWord.toNat := by
    rw [blockNext_eq, hbody]
  refine ⟨?_, ?_, ?_⟩ <;> rw [hnext]
  · exact (h.stored.congr_left rfl rfl rfl rfl).congr rfl rfl rfl
  · exact h.taken.congr rfl rfl rfl rfl rfl
  · exact congrArg (fun u : State => (u.setRunState _).setRes _) h.only

theorem blockNext_rle {s : State} (h : s.controlWord.toNat / 2 ^ 28 % 4 = 1) :
    BlockCopied s (List.replicate (s.controlWord.toNat % 2 ^ 28) (rawByteAt (blockStart s) 0)) 1 :=
  (State.rleBlock_copied _ ((blockStart s).setRunState .decodingRLEBlock)).blockCopied (State.blockBody_rle h _)

theorem blockNext_raw {s : State} (h : s.controlWord.toNat / 2 ^ 28 % 4 = 2) :
    BlockCopied s (rawBytes (blockStart s) (s.controlWord.toNat % 2 ^ 28)) (s.controlWord.toNat % 2 ^ 28) :=
  (State.rawBlock_copied _ ((blockStart s).setRunState .decodingRawBlock)).blockCopied (State.blockBody_raw h _)

/-- `CBLOCK` reads `ARG0` for its control word alone: what it computes is the block of that word (R403). -/
theorem exec_cblock_of_arg0 {s : State} (hsan : s.sanitize = true) (cw : Word) :
    ∃ v, exec .cblock { s with arg0 := cw } = .next ((s.cBlock cw).2.within s cw v) := by
  have hexec : exec .cblock { s with arg0 := cw } = .next { (State.cBlock cw { s with arg0 := cw }).2 with
      res := (State.cBlock cw { s with arg0 := cw }).1 } := exec_cblock hsan
  have hblock : (State.cBlock cw { s with arg0 := cw }).2 = (s.cBlock cw).2.outer { s with arg0 := cw } :=
    outer_cBlock { s with arg0 := cw } s cw
  rw [hblock] at hexec
  generalize (State.cBlock cw { s with arg0 := cw }).1 = v at hexec
  generalize (s.cBlock cw).2 = m at hexec ⊢
  exact ⟨v, hexec⟩

/-- A compressed block is the command `CBLOCK` with the control word in `ARG0`, which `BLOCK` does not write (R406). -/
theorem blockNext_compressed {s : State} (hsan : s.sanitize = true) (h : s.controlWord.toNat / 2 ^ 28 % 4 = 0) :
    ∃ z, exec .cblock { blockStart s with runState := .decodingCompressedBlock, arg0 := s.controlWord } = .next z ∧
      blockNext s = { z with res := (blockNext s).res, runState := (blockNext s).runState, arg0 := s.arg0 } := by
  obtain ⟨v, hexec⟩ := exec_cblock_of_arg0 (s := (blockStart s).setRunState .decodingCompressedBlock) hsan s.controlWord
  refine ⟨_, hexec, ?_⟩
  have hkept := hostKept_closed.cBlock s.controlWord ((blockStart s).setRunState .decodingCompressedBlock)
  rw [blockNext_eq, State.blockBody_compressed h]
  generalize (((blockStart s).setRunState .decodingCompressedBlock).cBlock s.controlWord).2 = m at hkept ⊢
  exact congrArg (State.setRunState _) (within_restored hkept s.controlWord v _).symm

/-- A block of the reserved type only warns (R406). -/
theorem blockNext_reserved {s : State} (h : s.controlWord.toNat / 2 ^ 28 % 4 = 3) :
    WarnedHere (blockStart s) (blockNext s) [.blockTypeReserved] ∧
      blockNext s = { warningsOf (blockStart s) (blockNext s) with
        res := (blockNext s).res, runState := (blockNext s).runState } := by
  rw [blockNext_eq, State.blockBody_reserved h]
  exact ⟨WarnedAt.congr ((blockStart s).warn_warnedHere _) rfl rfl rfl rfl, rfl⟩

/-! ### A run of one block (R407) -/

/-- The run of a stream whose first block is the last is that block, after the reset. -/
theorem exec_run_of_one_block {s : State} (hsan : s.sanitize = true) (hlast : (blockNext s.doReset).runState = .done) :
    exec .run s = .next { blockNext s.doReset with res := (blockNext s.doReset).writePos } := by
  obtain ⟨n, -, hbefore, hend, hrun⟩ := exec_run hsan
  have hn : n = 1 := by
    rcases Nat.lt_trichotomy n 1 with hlt | heq | hgt
    · obtain rfl := Nat.lt_one_iff.1 hlt
      cases hend
    · exact heq
    · exact absurd hlast (hbefore 1 hgt)
  rw [hn] at hrun
  exact hrun

/-- Such a run has produced what its block produced, from index 0 on. -/
theorem BlockCopied.run {s : State} {bs : List Byte} {n size : Nat} (h : BlockCopied s.doReset bs n)
    (hsan : s.sanitize = true) (hlast : (blockNext s.doReset).runState = .done) (hlen : bs.length = size)
    (hsize : size < 2 ^ 64) :
    ∃ t, exec .run s = .next t ∧ t.runState = .done ∧ t.res.toNat = size ∧ t.writePos.toNat = size ∧
      t.warnLog = [] ∧ Stored { s with writePos := 0, readPos := 1, rcn := 0, written := [] } t bs := by
  obtain ⟨hstored, -, honly⟩ := h
  have hpos : (blockNext s.doReset).writePos.toNat = size := by
    have hadvance : (blockNext s.doReset).writePos = BitVec.ofNat 64 bs.length := hstored.1.trans (BitVec.zero_add _)
    rw [hadvance, hlen, BitVec.toNat_ofNat, Nat.mod_eq_of_lt hsize]
  exact ⟨_, exec_run_of_one_block hsan hlast, hlast, hpos, hpos, congrArg State.warnLog honly,
    (hstored.congr_left rfl rfl rfl rfl).congr rfl rfl rfl⟩

end Sys2Proof.Machine

namespace Sys2Proof.Claims

open Sys2Proof.Machine

/-- Settles O13: `Reset()` leaves the column of R68, the host's registers and the buffers kept. -/
theorem resetCommandValues : Obligations.ResetCommandValues :=
  ⟨by decide, fun s => ⟨s.doReset, rfl, s.doReset_resetColumn, s.doReset_kept, rfl, rfl⟩⟩

/-- Settles O45: each command is its handler, and the size in `RES`. -/
theorem rleAndRawBlocks : Obligations.RleAndRawBlocks :=
  ⟨by decide, by decide, fun s =>
    ⟨(s.rleBlock_copied s.arg0).finish_setRes _ s.arg0, (s.rawBlock_copied s.arg0).finish_setRes _ s.arg0⟩⟩

/-- Settles O47: the four types of control word, one after the other. -/
theorem blockDispatches : Obligations.BlockDispatches := by
  refine ⟨by decide, fun s hsan => ⟨blockNext s, exec_block hsan, blockNext_res s, ?_, blockNext_compressed hsan,
    fun h => ⟨(blockNext_rle h).stored, (blockNext_rle h).taken⟩, fun h => ⟨(blockNext_raw h).stored, (blockNext_raw h).taken⟩,
    ?_, blockNext_reserved⟩⟩
  · exact (blockNext_runState s).trans (nextRunState_eq _)
  · rintro (h | h)
    · exact (blockNext_rle h).only
    · exact (blockNext_raw h).only

/-- Settles O48: the run is its one block, which starts from the reset at the first input word. -/
theorem runDecodesOneBlock : Obligations.RunDecodesOneBlock := by
  intro s hsan cw size s0 htype hlt
  have hlast : (blockNext s.doReset).runState = .done := by
    rw [blockNext_runState, nextRunState_eq]
    show (if cw / 2 ^ 28 % 4 = 3 then RunState.done else if 2 ^ 31 ≤ cw then .awaitingBlock else .done) = .done
    rw [if_neg (Nat.not_le.2 hlt), ite_self]
  have hbyte : rawByteAt (blockStart s.doReset) = rawByteAt s0 := rawByteAt_congr_of_rcn_zero rfl rfl rfl rfl rfl
  have hbytes : rawBytes (blockStart s.doReset) size = rawBytes s0 size := congrArg (fun f => (List.range size).map f) hbyte
  have hsize : size < 2 ^ 64 := (Nat.mod_lt _ (by decide)).trans (by decide : 2 ^ 28 < 2 ^ 64)
  by_cases hrle : cw / 2 ^ 28 % 4 = 1
  · have hblock := (blockNext_rle (s := s.doReset) hrle).run hsan hlast List.length_replicate hsize
    rw [if_pos hrle, ← hbyte]
    exact hblock
  · have hblock := (blockNext_raw (s := s.doReset) (htype.resolve_left hrle)).run hsan hlast
      ((List.length_map _).trans List.length_range) hsize
    rw [if_neg hrle, ← hbytes]
    exact hblock

end Sys2Proof.Claims
end

section
/-! Warnings (60_exceptions.md R450 to R457): what raising one records, that the commands only add to those recorded, and that
the two builds differ only after one. -/

namespace Sys2Proof.Machine

open Sys2Proof.Claims

/-! ### The warning registers across a command (R452, R454) -/

/-- Some warnings were raised between `s` and `t`, or none. -/
def Warns (s t : State) : Prop := ∃ cs, Warned s t cs

/-- None were raised where the warning registers are the same. -/
theorem Warns.of_same {s t : State} (h : warningsOf s t = s) : Warns s t :=
  ⟨[], (WarnedAt.refl s).congr (congrArg State.warnLog h) (congrArg State.warnSticky h) (congrArg State.warnCount h)
    (congrArg State.warnLast h) |>.warned⟩

theorem Warns.trans {s t u : State} (h : Warns s t) (k : Warns t u) : Warns s u := by
  obtain ⟨cs, hcs⟩ := h
  obtain ⟨ds, hds⟩ := k
  exact ⟨cs ++ ds, hcs.trans hds⟩

theorem State.warn_warns (c : Warn) (s : State) : Warns s (s.warn c) := ⟨[c], (s.warn_warnedHere c).warned⟩

/-- The warning registers are written by warnings alone. -/
theorem warns_closed : Closed Warns where
  refl _ := .of_same rfl
  trans := .trans
  warn := State.warn_warns
  inWord _ := .of_same rfl
  emit _ _ := .of_same rfl
  refill l n s _ := by
    unfold State.refill
    split <;> exact .of_same rfl
  window _ _ _ _ := .of_same rfl
  drop l n s := by
    unfold State.drop
    split
    · exact (s.warn_warns .discardUnderflow).trans (.of_same rfl)
    · exact .of_same rfl
  setDacc _ _ _ := .of_same rfl
  emptyLane _ _ := .of_same rfl
  clearCache _ := .of_same rfl
  fillCache _ _ := .of_same rfl
  takeCached _ := .of_same rfl
  setSym _ _ _ := .of_same rfl
  setFse _ _ _ _ _ := .of_same rfl
  setFseCell _ _ _ := .of_same rfl
  setBuilt _ _ _ := .of_same rfl
  clearWeights _ := .of_same rfl
  setHufWeight _ _ _ := .of_same rfl
  setHufn _ _ := .of_same rfl
  setHufEntry _ _ _ := .of_same rfl
  setHufBuilt _ _ := .of_same rfl
  openLits _ _ _ := .of_same rfl
  setRle _ _ := .of_same rfl
  countLit _ := .of_same rfl
  setRep _ _ _ _ := .of_same rfl
  setLitTotal _ _ := .of_same rfl
  setNumSeq _ _ := .of_same rfl
  setRunState _ _ := .of_same rfl

/-- The warnings of a command that does not reset begin in the state it is given. -/
theorem commandBase_of_ne {i : Instr} (hreset : i ≠ .reset) (hrun : i ≠ .run) (s : State) : commandBase i s = s := by
  unfold commandBase
  split
  · exact absurd rfl hreset
  · exact absurd rfl hrun
  · rfl

/-! ### The two builds (R455) -/

/-- The same state in the unsanitized build. -/
def State.inUnsanitizedBuild (s : State) : State := { s with sanitize := false }

section
variable {s : State}

/-- An operation that commutes with every change of the registers it does not use does the same in both builds. -/
theorem inUnsanitizedBuild_of_outer {f : State → State} (hf : ∀ o, f (s.outer o) = (f s).outer o) :
    f s.inUnsanitizedBuild = (f s).inUnsanitizedBuild := by
  have hself : f s = (f s).outer s := hf s
  calc f s.inUnsanitizedBuild
      _ = (f s).outer s.inUnsanitizedBuild := hf s.inUnsanitizedBuild
      _ = ((f s).outer s).inUnsanitizedBuild := rfl
      _ = (f s).inUnsanitizedBuild := congrArg State.inUnsanitizedBuild hself.symm

/-- So does an operation that has an answer as well, which a command leaves in `RES` in the form `v`: the answer is the same. -/
theorem inUnsanitizedBuild_of_outer_answer {α : Type} {f : State → α × State} (v : α → Dword)
    (hf : ∀ o, f (s.outer o) = ((f s).1, (f s).2.outer o)) :
    ({ (f s.inUnsanitizedBuild).2 with res := v (f s.inUnsanitizedBuild).1 } : State) =
      State.inUnsanitizedBuild { (f s).2 with res := v (f s).1 } := by
  have hanswer : (f s.inUnsanitizedBuild).1 = (f s).1 := by
    rw [show f s.inUnsanitizedBuild = _ from hf s.inUnsanitizedBuild]
  have hstate : (f s.inUnsanitizedBuild).2 = (f s).2.inUnsanitizedBuild :=
    inUnsanitizedBuild_of_outer (f := fun u => (f u).2) fun o => congrArg Prod.snd (hf o)
  rw [hanswer, hstate]
  rfl

/-- The size a compressed block produces does not depend on the registers it does not use either (R403). -/
theorem outer_cBlock_answer (o s : State) (cw : Word) :
    (s.outer o).cBlock cw = ((s.cBlock cw).1, (s.cBlock cw).2.outer o) :=
  Prod.ext (by simp [State.cBlock]) (outer_cBlock o s cw)

/-- `r` is the end of a command in the build of `base`, and `r'` that of the same command in the unsanitized build: what the
command computed is the same. -/
def EndsAlike (base : State) (r r' : Host.Outcome State Fault Refusal) : Prop :=
  ∃ w t, r = finish w base t ∧ r' = finish w base.inUnsanitizedBuild t.inUnsanitizedBuild

theorem endsAlike_finish {base t t' : State} (w : Writes) (h : t' = t.inUnsanitizedBuild) :
    EndsAlike base (finish w base t) (finish w base.inUnsanitizedBuild t') := ⟨w, t, rfl, h ▸ rfl⟩

/-- Where no warning arose, what was computed is what both builds end in. -/
theorem EndsAlike.agree {base t : State} {r r' : Host.Outcome State Fault Refusal} (h : EndsAlike base r r')
    (hsan : base.sanitize = true) (hr : r = .next t) (hlog : t.warnLog = base.warnLog) :
    r' = .next t.inUnsanitizedBuild := by
  obtain ⟨w, u, rfl, rfl⟩ := h
  rw [finish_of_sanitize hsan] at hr
  cases hr
  exact finish_of_warnLog hlog

/-- Every command computes the same in both builds; they part in `finish` alone. -/
theorem exec_endsAlike (i : Instr) (s : State) : EndsAlike (commandBase i s) (exec i s) (exec i s.inUnsanitizedBuild) := by
  cases i with
  | reset => exact ⟨{}, s.doReset, (finish_of_warnLog rfl).symm, (finish_of_warnLog rfl).symm⟩
  | sync => exact endsAlike_finish _ (inUnsanitizedBuild_of_outer fun o => outer_sync o s)
  | rdword =>
    have hword := inUnsanitizedBuild_of_outer_answer (s := s) (f := State.inWord) (fun w => BitVec.ofNat 64 w.toNat) fun _ => rfl
    exact endsAlike_finish _ hword
  | rdbyte =>
    have hbyte := inUnsanitizedBuild_of_outer_answer (fun b : Byte => BitVec.ofNat 64 b.toNat) fun o => outer_readByte o s
    exact endsAlike_finish _ hbyte
  | rdpsize => exact endsAlike_finish _ (inUnsanitizedBuild_of_outer_answer _ fun o => outer_readPackedSize o s)
  | peek lo cnt n => exact endsAlike_finish _ (inUnsanitizedBuild_of_outer fun o => outer_peek o s _ _)
  | peekv lo cnt => exact endsAlike_finish _ (inUnsanitizedBuild_of_outer fun o => outer_peekV o s _ _)
  | discard lo cnt n => exact endsAlike_finish _ (inUnsanitizedBuild_of_outer fun o => outer_discardV o s _ _)
  | discardv lo cnt => exact endsAlike_finish _ (inUnsanitizedBuild_of_outer fun o => outer_discardV o s _ _)
  | discardacc lo cnt => exact endsAlike_finish _ (inUnsanitizedBuild_of_outer fun o => outer_discardAcc o s _)
  | fsebuild t n => exact endsAlike_finish _ (inUnsanitizedBuild_of_outer_answer _ fun o => outer_fseBuild o s t _)
  | fsepredef t =>
    cases t with
    | hw => exact endsAlike_finish _ rfl
    | ll => exact endsAlike_finish _ (inUnsanitizedBuild_of_outer_answer _ fun o => outer_fsePredef o s .ll)
    | ml => exact endsAlike_finish _ (inUnsanitizedBuild_of_outer_answer _ fun o => outer_fsePredef o s .ml)
    | off => exact endsAlike_finish _ (inUnsanitizedBuild_of_outer_answer _ fun o => outer_fsePredef o s .off)
  | fseinit t lo cnt => exact endsAlike_finish _ (inUnsanitizedBuild_of_outer fun o => outer_fseInit o s t _)
  | fsedec t lo cnt => exact endsAlike_finish _ (inUnsanitizedBuild_of_outer fun o => outer_fseDec o s t _)
  | fsedecnp t lo cnt => exact endsAlike_finish _ (inUnsanitizedBuild_of_outer fun o => outer_fseDecNP o s t _)
  | hufwex => exact endsAlike_finish _ (inUnsanitizedBuild_of_outer_answer _ fun o => outer_hufWeightsExplicit o s)
  | hufwfse aux => exact endsAlike_finish _ (inUnsanitizedBuild_of_outer_answer _ fun o => outer_hufWeightsFse o s _)
  | hufexpand => exact endsAlike_finish _ (inUnsanitizedBuild_of_outer_answer _ fun o => outer_hufExpand o s)
  | hufdec lo cnt => exact endsAlike_finish _ (inUnsanitizedBuild_of_outer fun o => outer_hufDec o s _)
  | litcfg mode => exact endsAlike_finish _ (inUnsanitizedBuild_of_outer fun o => outer_litCfg o s mode s.arg0)
  | setrle => exact endsAlike_finish _ rfl
  | littarget =>
    have hlit := inUnsanitizedBuild_of_outer fun o => outer_litTarget o s s.arg0.toNat
    exact endsAlike_finish _ (congrArg (fun t => t.setRes t.litEmitted.toNat) hlit)
  | matchcopy => exact endsAlike_finish _ (inUnsanitizedBuild_of_outer fun o => outer_matchCopy o s _ _)
  | seqexec =>
    have hseq := inUnsanitizedBuild_of_outer fun o => outer_seqExec o s
    exact endsAlike_finish _ (congrArg (fun t => t.setRes t.numSeq.toNat) hseq)
  | cblock => exact endsAlike_finish _ (inUnsanitizedBuild_of_outer_answer id fun o => outer_cBlock_answer o s s.arg0)
  | rleblock =>
    have hblock := inUnsanitizedBuild_of_outer (f := fun u => (u.rleBlock s.arg0).2) fun o => outer_rleBlock o s s.arg0
    exact endsAlike_finish _ (congrArg (State.setRes (cwSize s.arg0)) hblock)
  | rawblock =>
    have hblock := inUnsanitizedBuild_of_outer (f := fun u => (u.rawBlock s.arg0).2) fun o => outer_rawBlock o s s.arg0
    exact endsAlike_finish _ (congrArg (State.setRes (cwSize s.arg0)) hblock)
  | block =>
    have hblock := inUnsanitizedBuild_of_outer_answer (fun w : Word => BitVec.ofNat 64 w.toNat) fun o => outer_block o s
    exact endsAlike_finish _ hblock
  | run =>
    have hblocks := inUnsanitizedBuild_of_outer fun o => outer_runBlocks o s.doReset s.doReset.maxBlocks
    exact endsAlike_finish _ (congrArg (fun t : State => { t with res := t.writePos }) hblocks)

end

end Sys2Proof.Machine

namespace Sys2Proof.Claims

open Sys2Proof.Machine

/-- Settles O12: the warning registers field by field, from the one warning raised; the codes as numbered in R451. -/
theorem warningRecorded : Obligations.WarningRecorded := by
  refine ⟨fun c s => ?_, rfl⟩
  obtain ⟨hlog, hsticky, hcount, hlast⟩ := s.warn_warnedHere c
  have hcount : (s.warn c).warnCount = BitVec.ofNat 32 (min (s.warnCount.toNat + 1) (2 ^ 32 - 1)) :=
    BitVec.eq_of_toNat_eq (hcount.trans (Nat.mod_eq_of_lt (by omega)).symm)
  calc s.warn c
      _ = warningsOf s (s.warn c) := rfl
      _ = _ := by rw [warningsOf, hlog, hsticky, hcount, hlast]; rfl

/-- Settles O52: every elementary update of a command only adds warnings, and so does the command made of them. -/
theorem warningsAccumulate : Obligations.WarningsAccumulate := by
  intro i s hsan hreset hrun
  obtain ⟨t, hexec, hend⟩ := (warns_closed.tracked fun _ _ => .of_same rfl).exec i s
  rw [commandBase_of_ne hreset hrun] at hend
  rcases hend with ⟨_, _, cs, hwarned⟩ | ⟨hunsan, -⟩
  · exact ⟨t, cs, hexec, hwarned⟩
  · exact absurd (hsan.symm.trans hunsan) (by decide)

/-- Settles O54: in each of the three cases the log after the command is the one its warnings began with. -/
theorem buildsAgreeWithoutWarnings : Obligations.BuildsAgreeWithoutWarnings := by
  intro i s t hsan hexec hcases
  have hlog : t.warnLog = (commandBase i s).warnLog := by
    rcases hcases with rfl | ⟨rfl, hnone⟩ | ⟨hrun, hkept⟩
    · cases hexec
      rfl
    · exact hnone
    · by_cases hreset : i = .reset
      · subst hreset
        cases hexec
        rfl
      · rwa [commandBase_of_ne hreset hrun]
  exact (exec_endsAlike i s).agree ((commandBase_hostKept i s).sanitize.trans hsan) hexec hlog

end Sys2Proof.Claims
end

section
/-! Clean launch (70 R503): it follows from the `RESET` column of 10_state.md R68, which every reset leaves. -/

namespace Sys2Proof.Machine

/-! ### The live states of a lane after a reset (R60, R68) -/

@[simp] theorem Lane.reset_fss (k : Fin 4) : Lane.reset.fss[k] = 0 := by simp [Lane.reset]

@[simp] theorem Lane.reset_fsd (k : Fin 4) : Lane.reset.fsd[k] = 0 := by simp [Lane.reset]

end Sys2Proof.Machine

namespace Sys2Proof.Claims

open Sys2Proof.Machine

/-- The values of R68 are those a clean launch asks for: every lane is `Lane.reset`, and no table is built. -/
theorem ResetColumn.cleanLaunch {s : State} (h : ResetColumn s) : s.cleanLaunch := by
  have hlanes : ∀ l : LaneId, (s.lane l).avail = 0 ∧ (s.lane l).buf = 0 ∧ (s.lane l).dacc = 0 ∧
      ∀ t, s.fss l t = 0 ∧ s.fsd l t = 0 := fun l => by
    simp only [State.fss, State.fsd, h.lane l, Lane.reset_fss, Lane.reset_fsd]
    exact ⟨rfl, rfl, rfl, fun _ => ⟨rfl, rfl⟩⟩
  obtain ⟨_, hread, hwrite, hrcn, _, _, hrun, hrep0, hrep1, hrep2, hmode, _, hmax, hemitted, htotal, hseq, htables, _, _, _,
    hvalid, hwarnings⟩ := h
  exact ⟨hrun, hread, hwrite, hrcn, hlanes, hrep0, hrep1, hrep2, fun t => (htables t).2, hvalid, hmode, hmax, hemitted,
    htotal, hseq, hwarnings⟩

/-- Settles O15: the start state, `RESET` (O13) and power-on (O14) all leave the column of R68. -/
theorem resetsEstablishCleanLaunch : Obligations.ResetsEstablishCleanLaunch := by
  obtain ⟨_, hreset⟩ := resetCommandValues
  obtain ⟨⟨hstart, _⟩, hpower⟩ := powerOnResetValues
  refine ⟨hstart.cleanLaunch, fun s t h => ?_, fun s t rest h => ?_⟩
  · obtain ⟨t', hexec, hcolumn, _⟩ := hreset s
    cases hexec.symm.trans h
    exact hcolumn.cleanLaunch
  · obtain ⟨t', hstep, ⟨hcolumn, _⟩, _⟩ := hpower s rest
    cases hstep.symm.trans h
    exact hcolumn.cleanLaunch

end Sys2Proof.Claims
end
